-- ==== Sys2Proof/Word.lean ====
section
/-! DEFINITION. The words of the block: a command word, a byte and a 16-bit half word (R9, R140). -/

namespace Sys2Proof

/-- A 32-bit command word or register (R31, R140). -/
abbrev Word := BitVec 32

/-- A byte of the data memory or of a serial cell (R103). -/
abbrev Byte := BitVec 8

/-- A 16-bit value: an immediate, a data-memory address, a timer value, a word-sized cell. -/
abbrev Half := BitVec 16

end Sys2Proof
end

