-- ==== Sys2Proof/Config.lean ====
section
/-! DEFINITION. What an implementation fixes: the names of the channels, directions and timer kinds, the parameters of rule R7 with
their defaults, the turns of the agents, and the free values (draws, R14, and the order of steps, R44) that the spec leaves open. -/

namespace Sys2Proof

/-- The two kinds of serial block, A (UART, SPI) and B (SPI, I2C) (R300). -/
inductive SerialKind
  | a
  | b
  deriving DecidableEq, Repr

/-- The instance index of a serial channel; it selects the primary or the secondary interrupt register (R304). -/
inductive Inst
  | i0
  | i1
  deriving DecidableEq, Repr

/-- A serial channel, kind and instance index (R300). -/
inductive Chan
  | a0
  | a1
  | b0
  | b1
  deriving DecidableEq, Repr

/-- The kind of a channel (R300). -/
def Chan.kind : Chan → SerialKind
  | .a0 | .a1 => .a
  | .b0 | .b1 => .b

/-- The instance index of a channel (R300). -/
def Chan.inst : Chan → Inst
  | .a0 | .b0 => .i0
  | .a1 | .b1 => .i1

/-- The direction of an interrupt flag or enable bit (R12). -/
inductive Dir
  | rx
  | tx
  deriving DecidableEq, Repr

/-- The two kinds of timer (R7). -/
inductive TimerKind
  | a
  | b
  deriving DecidableEq, Repr

/-- FIELDPOS (R7, R302): the bit positions of the fields of the serial cells that a rule reads or writes. -/
structure FieldPos where
  /-- UCSLA10 of CTL0, kind B. -/
  sla10 : Nat
  /-- UCTR of CTL1, kind B. -/
  tr : Nat
  /-- UCTXNACK of CTL1, kind B. -/
  txnack : Nat
  /-- UCTXSTP of CTL1, kind B. -/
  txstp : Nat
  /-- UCTXSTT of CTL1, kind B. -/
  txstt : Nat
  /-- UCSWRST of CTL1, both kinds. -/
  swrst : Nat
  /-- LISTEN of STAT. -/
  listen : Nat
  /-- FE of STAT. -/
  fe : Nat
  /-- OE of STAT. -/
  oe : Nat
  deriving DecidableEq, Repr

/-- The default of FIELDPOS: the table of R302. -/
def FieldPos.default : FieldPos :=
  { sla10 := 6, tr := 4, txnack := 3, txstp := 2, txstt := 1, swrst := 0, listen := 7, fe := 6, oe := 5 }

/-- FIELDPOS names bits of byte cells, and two fields of one cell never share a bit. DEDUCED, log 13. -/
def FieldPos.legal (p : FieldPos) : Bool :=
  decide (p.sla10 < 8) &&
  [p.tr, p.txnack, p.txstp, p.txstt, p.swrst].all (fun n => decide (n < 8)) &&
  decide [p.tr, p.txnack, p.txstp, p.txstt, p.swrst].Nodup &&
  [p.listen, p.fe, p.oe].all (fun n => decide (n < 8)) &&
  decide [p.listen, p.fe, p.oe].Nodup

/-- IRQBITS (R7, R304): the bit of each kind and direction in the 4-bit interrupt registers. -/
structure IrqBits where
  aRx : Nat
  aTx : Nat
  bRx : Nat
  bTx : Nat
  deriving DecidableEq, Repr

/-- The default of IRQBITS: the table of R304. -/
def IrqBits.default : IrqBits := { aRx := 0, aTx := 1, bRx := 2, bTx := 3 }

/-- The bit of a kind and direction (R304). -/
def IrqBits.pos (p : IrqBits) : SerialKind → Dir → Nat
  | .a, .rx => p.aRx
  | .a, .tx => p.aTx
  | .b, .rx => p.bRx
  | .b, .tx => p.bTx

/-- IRQBITS names four different bits of a 4-bit register. DEDUCED, log 13. -/
def IrqBits.legal (p : IrqBits) : Bool :=
  [p.aRx, p.aTx, p.bRx, p.bTx].all (fun n => decide (n < 4)) && decide [p.aRx, p.aTx, p.bRx, p.bTx].Nodup

/-- The parameters of R7 that commands consult. TIMERS, NRB and CAP are read off the lists that State holds (log 19). -/
structure Params where
  /-- SERIAL_PRESENT. -/
  serialPresent : List Chan
  /-- NCH(A). -/
  nchA : Nat
  /-- NCH(B). -/
  nchB : Nat
  /-- I2C_RB(B0). -/
  i2cRbB0 : Nat
  /-- I2C_RB(B1). -/
  i2cRbB1 : Nat
  /-- FIELDPOS. -/
  fieldPos : FieldPos
  /-- IRQBITS. -/
  irqBits : IrqBits
  deriving DecidableEq, Repr

/-- The defaults of R7. -/
def Params.default : Params :=
  { serialPresent := [.a0, .a1, .b0, .b1], nchA := 3, nchB := 7, i2cRbB0 := 0, i2cRbB1 := 1,
    fieldPos := FieldPos.default, irqBits := IrqBits.default }

/-- NCH(kind), the number of capture/compare channels of a timer kind (R7). -/
def Params.channels (p : Params) : TimerKind → Nat
  | .a => p.nchA
  | .b => p.nchB

/-- NCH(kind) is 3 or 7 for each kind: R7's source column allows these two only. DEDUCED, log 13. -/
def Params.nchLegal (p : Params) : Bool := [p.nchA, p.nchB].all (fun n => n == 3 || n == 7)

/-- What R7 and R8 ask of FIELDPOS, IRQBITS and NCH (log 13). -/
def Params.legal (p : Params) : Bool := p.fieldPos.legal && p.irqBits.legal && p.nchLegal

/-! ### The turns of the agents -/

/-- A step of the environment (R331 to R335, R280, R281), with the values it draws. -/
inductive EnvStep
  /-- TX-ready (R331). -/
  | txReady (ch : Chan)
  /-- RX-byte, with the byte drawn (R332). -/
  | rxByte (ch : Chan) (v : Byte)
  /-- Start-done, kind B (R333). -/
  | startDone (ch : Chan)
  /-- Stop-done, kind B (R334). -/
  | stopDone (ch : Chan)
  /-- Status, with the value drawn; its LISTEN bit is not used (R335). -/
  | status (ch : Chan) (v : Byte)
  /-- Count, with the value drawn (R280). -/
  | count (t : Nat) (v : Half)
  /-- Capture, with the overflow bit drawn (R281). -/
  | capture (t c : Nat) (overflow : Bool)
  deriving DecidableEq, Repr

/-- Whose step comes next (R44). -/
inductive Turn
  | sequencer
  | interrupt
  | env (e : EnvStep)
  deriving DecidableEq, Repr

/-! ### The free values -/

/-- The draws of one hold assertion (R307, R313): one value for each hold-volatile bit of the channel. -/
structure HoldDraw where
  ifgRx : Bool
  ifgTx : Bool
  ieRx : Bool
  ieTx : Bool
  txstt : Bool
  txstp : Bool
  txnack : Bool
  /-- The value of the status cell; its LISTEN bit is not used (R307 draws the hardware-owned bits only). -/
  stat : Byte
  deriving DecidableEq, Repr, Inhabited

/-- The free values of the n-th hold assertion (R313). No body: nothing about them can be proved, so a claim holds for every draw
(R14). Log 4. -/
opaque Config.holdDraw : Nat → HoldDraw

/-- The n-th interlude: the turns that the agents take between a turn of the sequencer and its next. No body: any finite list of turns
may stand at any n, so a claim holds for every order of steps, finite or infinite, in which the sequencer keeps taking turns (R44, and
the weak fairness of R45). Log 2. -/
opaque Config.interlude : Nat → List Turn

end Sys2Proof
end

