-- ==== Sys2Proof/Syntax.lean ====
section
/-! DEFINITION. The commands of the block: one constructor of Instr for each row of the operation map (R143), with its operands
already read out of the word. -/

namespace Sys2Proof

/-- An argument register a0 to a3 (R31, R144). -/
inductive ArgReg
  | a0
  | a1
  | a2
  | a3
  deriving DecidableEq, Repr

/-- The role of a serial cell, the Y field of SWR and SRD (R301). -/
inductive Role
  | ctl0
  | ctl1
  | br0
  | br1
  | mctl
  | stat
  | rxbuf
  | txbuf
  | i2coa
  | i2csa
  | i2cie
  deriving DecidableEq, Repr

/-- The byte roles are all but I2COA and I2CSA (R149, R301). -/
def Role.isByte : Role → Bool
  | .i2coa | .i2csa => false
  | _ => true

/-- The counting mode of a timer (R250, R251). -/
inductive TimerMode
  | stop
  | up
  | cont
  | updown
  deriving DecidableEq, Repr

/-- The input divider of a timer (R251). -/
inductive Divider
  | by1
  | by2
  | by4
  | by8
  deriving DecidableEq, Repr

/-- The clock source of a timer (R251). -/
inductive ClockSource
  | taclk
  | aclk
  | smclk
  | inclk
  deriving DecidableEq, Repr

/-- The capture mode of a timer channel (R251); NONE is compare mode (R253). -/
inductive CaptureMode
  | none
  | rising
  | falling
  | both
  deriving DecidableEq, Repr

/-- The input source of a timer channel (R251). -/
inductive CaptureInput
  | ccia
  | ccib
  | gnd
  | vcc
  deriving DecidableEq, Repr

/-- A command (R143). Timer, timer-channel and ring-buffer indices are the 4-bit numbers of the word; whether they name anything is
checked when the command is decoded against the state (R150). -/
inductive Instr
  -- U0 control (R201 to R215)
  | nop
  | halt
  | ldlo (k : ArgReg) (imm : Half)
  | ldhi (k : ArgReg) (imm : Half)
  | movres (k : ArgReg)
  | stb (k : ArgReg) (addr : Half)
  | ldb (addr : Half)
  | gacq
  | grel
  | eint
  | dint
  | reti
  | jmp (target : Half)
  | bz (target : Half)
  | bnz (target : Half)
  -- U1 timer (R255 to R265)
  | tinit (t : Fin 16) (mode : TimerMode) (div : Divider) (src : ClockSource)
  | tmode (t : Fin 16) (mode : TimerMode)
  | treset (t : Fin 16)
  | tcapm (t c : Fin 16) (cm : CaptureMode) (scs : Bool)
  | tccis (t c : Fin 16) (src : CaptureInput)
  | toutm (t c : Fin 16) (om : BitVec 3)
  | tsetcmp (t c : Fin 16) (value : Half)
  | tgetcap (t c : Fin 16)
  | tccie (t c : Fin 16) (en : Bool)
  | tgetcov (t c : Fin 16)
  | tclrcov (t c : Fin 16)
  -- U2 serial engine (R324 to R329)
  | sena (ch : Chan)
  | sdis (ch : Chan)
  | sie (ch : Chan) (d : Dir) (en : Bool)
  | sifg (ch : Chan) (d : Dir)
  | swr (ch : Chan) (role : Role) (value : Half)
  | srd (ch : Chan) (role : Role)
  -- U3 baud calculator (R360, R361)
  | bcalc (os : Bool)
  | bset (ch : Chan) (os : Bool)
  -- U4 I2C master (R403 to R411)
  | iptx (ch : Chan) (addr : BitVec 10) (ten : Bool)
  | iprx (ch : Chan) (addr : BitVec 10) (ten : Bool)
  | istt (ch : Chan)
  | istp (ch : Chan)
  | igstt (ch : Chan)
  | isend (ch : Chan) (byte : Byte)
  | isendR (ch : Chan)
  | iwreg (ch : Chan) (reg : Byte)
  | irreg (ch : Chan) (reg : Byte)
  | irecv (ch : Chan)
  -- U5 SPI master (R451 to R457)
  | pinit (ch : Chan) (divisor : Half)
  | psend (ch : Chan) (byte : Byte)
  | psendR (ch : Chan)
  | precv (ch : Chan)
  | ploop (ch : Chan) (en : Bool)
  | pgloop (ch : Chan)
  | pgfe (ch : Chan)
  | pgoe (ch : Chan)
  -- U6 ring buffer (R505 to R510)
  | rins (b : Fin 16) (byte : Byte)
  | rinsR (b : Fin 16)
  | rget (b : Fin 16)
  | rempty (b : Fin 16)
  | rovf (b : Fin 16)
  | rclrovf (b : Fin 16)
  | rclr (b : Fin 16)
  deriving DecidableEq, Repr

end Sys2Proof
end

