-- ==== Sys2Proof/WellFormed.lean ====
section
/-! DEFINITION. Which commands the encoding can hold: the value-dependent check of R149. Every other limit of an operand is in its
type. -/

namespace Sys2Proof

/-- R149: SWR to a byte role has an immediate below 256. -/
def Instr.wellFormed : Instr → Bool
  | .swr _ role value => !role.isByte || decide (value.toNat < 256)
  | _ => true

end Sys2Proof
end

