-- ==== Sys2Proof/Decode.lean ====
section
/-! DEFINITION. The command word: its fields (R141), the decoder, total on every word and rejecting by name (R148, R149), and the
encoder, written from the same operation map (R143). -/

namespace Sys2Proof

/-! ### Codes of the operands (R144, R145, R251, R301) -/

/-- The X code of an argument register (R144). -/
def ArgReg.code : ArgReg → BitVec 2
  | .a0 => 0#2
  | .a1 => 1#2
  | .a2 => 2#2
  | .a3 => 3#2

/-- The argument register of an X code (R144). -/
def ArgReg.ofCode (v : BitVec 2) : ArgReg :=
  match v.toNat with
  | 0 => .a0
  | 1 => .a1
  | 2 => .a2
  | _ => .a3

/-- The X code of a channel: 0 A0, 1 A1, 2 B0, 3 B1 (R144). -/
def Chan.code : Chan → BitVec 2
  | .a0 => 0#2
  | .a1 => 1#2
  | .b0 => 2#2
  | .b1 => 3#2

/-- The channel of an X code (R144). -/
def Chan.ofCode (v : BitVec 2) : Chan :=
  match v.toNat with
  | 0 => .a0
  | 1 => .a1
  | 2 => .b0
  | _ => .b1

/-- Y[0] of SIE and SIFG: 0 RX, 1 TX (R145). -/
def Dir.code : Dir → Bool
  | .rx => false
  | .tx => true

/-- The direction of Y[0] (R145). -/
def Dir.ofCode : Bool → Dir
  | false => .rx
  | true => .tx

/-- The role code of a cell (R301). -/
def Role.code : Role → BitVec 4
  | .ctl0 => 0#4
  | .ctl1 => 1#4
  | .br0 => 2#4
  | .br1 => 3#4
  | .mctl => 4#4
  | .stat => 5#4
  | .rxbuf => 6#4
  | .txbuf => 7#4
  | .i2coa => 8#4
  | .i2csa => 9#4
  | .i2cie => 10#4

/-- The role of a code; 11 to 15 are reserved (R149, R301). -/
def Role.ofCode? (v : BitVec 4) : Option Role :=
  match v.toNat with
  | 0 => some .ctl0
  | 1 => some .ctl1
  | 2 => some .br0
  | 3 => some .br1
  | 4 => some .mctl
  | 5 => some .stat
  | 6 => some .rxbuf
  | 7 => some .txbuf
  | 8 => some .i2coa
  | 9 => some .i2csa
  | 10 => some .i2cie
  | _ => none

/-- The code of a counting mode (R251). -/
def TimerMode.code : TimerMode → BitVec 2
  | .stop => 0#2
  | .up => 1#2
  | .cont => 2#2
  | .updown => 3#2

/-- The counting mode of a code (R251). -/
def TimerMode.ofCode (v : BitVec 2) : TimerMode :=
  match v.toNat with
  | 0 => .stop
  | 1 => .up
  | 2 => .cont
  | _ => .updown

/-- The code of an input divider (R251). -/
def Divider.code : Divider → BitVec 2
  | .by1 => 0#2
  | .by2 => 1#2
  | .by4 => 2#2
  | .by8 => 3#2

/-- The input divider of a code (R251). -/
def Divider.ofCode (v : BitVec 2) : Divider :=
  match v.toNat with
  | 0 => .by1
  | 1 => .by2
  | 2 => .by4
  | _ => .by8

/-- The code of a clock source (R251). -/
def ClockSource.code : ClockSource → BitVec 2
  | .taclk => 0#2
  | .aclk => 1#2
  | .smclk => 2#2
  | .inclk => 3#2

/-- The clock source of a code (R251). -/
def ClockSource.ofCode (v : BitVec 2) : ClockSource :=
  match v.toNat with
  | 0 => .taclk
  | 1 => .aclk
  | 2 => .smclk
  | _ => .inclk

/-- The code of a capture mode (R251). -/
def CaptureMode.code : CaptureMode → BitVec 2
  | .none => 0#2
  | .rising => 1#2
  | .falling => 2#2
  | .both => 3#2

/-- The capture mode of a code (R251). -/
def CaptureMode.ofCode (v : BitVec 2) : CaptureMode :=
  match v.toNat with
  | 0 => .none
  | 1 => .rising
  | 2 => .falling
  | _ => .both

/-- The code of a capture input (R251). -/
def CaptureInput.code : CaptureInput → BitVec 2
  | .ccia => 0#2
  | .ccib => 1#2
  | .gnd => 2#2
  | .vcc => 3#2

/-- The capture input of a code (R251). -/
def CaptureInput.ofCode (v : BitVec 2) : CaptureInput :=
  match v.toNat with
  | 0 => .ccia
  | 1 => .ccib
  | 2 => .gnd
  | _ => .vcc

/-! ### The fields of a word (R141) -/

/-- The five fields of a command word (R141). -/
structure Fields where
  /-- Bits 31:28, the unit. -/
  u : BitVec 4
  /-- Bits 27:24, the operation. -/
  op : BitVec 4
  /-- Bits 23:20. -/
  x : BitVec 4
  /-- Bits 19:16. -/
  y : BitVec 4
  /-- Bits 15:0. -/
  imm : Half
  deriving DecidableEq, Repr

/-- The fields of a word (R141). -/
def Fields.ofWord (w : Word) : Fields :=
  { u := w.extractLsb' 28 4, op := w.extractLsb' 24 4, x := w.extractLsb' 20 4,
    y := w.extractLsb' 16 4, imm := w.extractLsb' 0 16 }

/-- The word of the fields (R141). -/
def Fields.toWord (f : Fields) : Word := f.u ++ (f.op ++ (f.x ++ (f.y ++ f.imm)))

/-- X[3:2], which most units keep zero (R143). -/
def Fields.xHigh (f : Fields) : BitVec 2 := f.x.extractLsb' 2 2

/-- X[1:0]. -/
def Fields.xLow (f : Fields) : BitVec 2 := f.x.extractLsb' 0 2

/-- Y[3:1]. -/
def Fields.yHigh (f : Fields) : BitVec 3 := f.y.extractLsb' 1 3

/-- Y[0]. -/
def Fields.yBit (f : Fields) : Bool := f.y.getLsbD 0

/-- IMM[hi-1:lo] (R146). -/
def Fields.immBits (f : Fields) (lo len : Nat) : BitVec len := f.imm.extractLsb' lo len

/-! ### The decoder -/

/-- Why a word is no command. Each is RESERVED_ENCODING to the machine (R148, R149). -/
inductive Reject
  /-- U is 7 to 15 (R148). -/
  | reservedUnit
  /-- OP is reserved within its unit (R148). -/
  | reservedOperation
  /-- A one in a bit that the row marks zero (R148). -/
  | nonzeroField
  /-- SWR or SRD with Y = 11 to 15 (R149). -/
  | reservedRole
  /-- SWR to a byte role with IMM[15:8] not zero (R149). -/
  | wideImmediate
  deriving DecidableEq, Repr

/-- The command, if the row's zero bits are zero (R148). -/
def zeros (ok : Bool) (i : Instr) : Except Reject Instr :=
  if ok then .ok i else .error .nonzeroField

/-- Unit 0 of the operation map (R143). -/
def decodeControl (f : Fields) : Except Reject Instr :=
  let k := ArgReg.ofCode f.xLow
  match f.op.toNat with
  | 0 => zeros (f.x == 0 && f.y == 0 && f.imm == 0) .nop
  | 1 => zeros (f.x == 0 && f.y == 0 && f.imm == 0) .halt
  | 2 => zeros (f.xHigh == 0 && f.y == 0) (.ldlo k f.imm)
  | 3 => zeros (f.xHigh == 0 && f.y == 0) (.ldhi k f.imm)
  | 4 => zeros (f.xHigh == 0 && f.y == 0 && f.imm == 0) (.movres k)
  | 5 => zeros (f.xHigh == 0 && f.y == 0) (.stb k f.imm)
  | 6 => zeros (f.x == 0 && f.y == 0) (.ldb f.imm)
  | 7 => zeros (f.x == 0 && f.y == 0 && f.imm == 0) .gacq
  | 8 => zeros (f.x == 0 && f.y == 0 && f.imm == 0) .grel
  | 9 => zeros (f.x == 0 && f.y == 0 && f.imm == 0) .eint
  | 10 => zeros (f.x == 0 && f.y == 0 && f.imm == 0) .dint
  | 11 => zeros (f.x == 0 && f.y == 0 && f.imm == 0) .reti
  | 12 => zeros (f.x == 0 && f.y == 0) (.jmp f.imm)
  | 13 => zeros (f.x == 0 && f.y == 0) (.bz f.imm)
  | 14 => zeros (f.x == 0 && f.y == 0) (.bnz f.imm)
  | _ => .error .reservedOperation

/-- Unit 1 of the operation map (R143). -/
def decodeTimer (f : Fields) : Except Reject Instr :=
  let t : Fin 16 := f.x.toFin
  let c : Fin 16 := f.y.toFin
  match f.op.toNat with
  | 0 => zeros (f.y == 0 && f.immBits 6 10 == 0)
      (.tinit t (.ofCode (f.immBits 0 2)) (.ofCode (f.immBits 2 2)) (.ofCode (f.immBits 4 2)))
  | 1 => zeros (f.y == 0 && f.immBits 2 14 == 0) (.tmode t (.ofCode (f.immBits 0 2)))
  | 2 => zeros (f.y == 0 && f.imm == 0) (.treset t)
  | 3 => zeros (f.immBits 3 13 == 0) (.tcapm t c (.ofCode (f.immBits 0 2)) (f.imm.getLsbD 2))
  | 4 => zeros (f.immBits 2 14 == 0) (.tccis t c (.ofCode (f.immBits 0 2)))
  | 5 => zeros (f.immBits 3 13 == 0) (.toutm t c (f.immBits 0 3))
  | 6 => .ok (.tsetcmp t c f.imm)
  | 7 => zeros (f.imm == 0) (.tgetcap t c)
  | 8 => zeros (f.immBits 1 15 == 0) (.tccie t c (f.imm.getLsbD 0))
  | 9 => zeros (f.imm == 0) (.tgetcov t c)
  | 10 => zeros (f.imm == 0) (.tclrcov t c)
  | _ => .error .reservedOperation

/-- Unit 2 of the operation map (R143), with the value-dependent checks of R149. -/
def decodeSerial (f : Fields) : Except Reject Instr :=
  let ch := Chan.ofCode f.xLow
  match f.op.toNat with
  | 0 => zeros (f.xHigh == 0 && f.y == 0 && f.imm == 0) (.sena ch)
  | 1 => zeros (f.xHigh == 0 && f.y == 0 && f.imm == 0) (.sdis ch)
  | 2 => zeros (f.xHigh == 0 && f.yHigh == 0 && f.immBits 1 15 == 0)
      (.sie ch (.ofCode f.yBit) (f.imm.getLsbD 0))
  | 3 => zeros (f.xHigh == 0 && f.yHigh == 0 && f.imm == 0) (.sifg ch (.ofCode f.yBit))
  | 4 =>
    if f.xHigh == 0 then
      match Role.ofCode? f.y with
      | none => .error .reservedRole
      | some role =>
        if role.isByte && !decide (f.imm.toNat < 256) then .error .wideImmediate
        else .ok (.swr ch role f.imm)
    else .error .nonzeroField
  | 5 =>
    if f.xHigh == 0 && f.imm == 0 then
      match Role.ofCode? f.y with
      | none => .error .reservedRole
      | some role => .ok (.srd ch role)
    else .error .nonzeroField
  | _ => .error .reservedOperation

/-- Unit 3 of the operation map (R143). -/
def decodeBaud (f : Fields) : Except Reject Instr :=
  match f.op.toNat with
  | 0 => zeros (f.x == 0 && f.yHigh == 0 && f.imm == 0) (.bcalc f.yBit)
  | 1 => zeros (f.xHigh == 0 && f.yHigh == 0 && f.imm == 0) (.bset (.ofCode f.xLow) f.yBit)
  | _ => .error .reservedOperation

/-- Unit 4 of the operation map (R143). -/
def decodeI2c (f : Fields) : Except Reject Instr :=
  let ch := Chan.ofCode f.xLow
  match f.op.toNat with
  | 0 => zeros (f.xHigh == 0 && f.yHigh == 0 && f.immBits 10 6 == 0) (.iptx ch (f.immBits 0 10) f.yBit)
  | 1 => zeros (f.xHigh == 0 && f.yHigh == 0 && f.immBits 10 6 == 0) (.iprx ch (f.immBits 0 10) f.yBit)
  | 2 => zeros (f.xHigh == 0 && f.y == 0 && f.imm == 0) (.istt ch)
  | 3 => zeros (f.xHigh == 0 && f.y == 0 && f.imm == 0) (.istp ch)
  | 4 => zeros (f.xHigh == 0 && f.y == 0 && f.imm == 0) (.igstt ch)
  | 5 =>
    if f.yBit then zeros (f.xHigh == 0 && f.yHigh == 0 && f.imm == 0) (.isendR ch)
    else zeros (f.xHigh == 0 && f.yHigh == 0 && f.immBits 8 8 == 0) (.isend ch (f.immBits 0 8))
  | 6 => zeros (f.xHigh == 0 && f.y == 0 && f.immBits 8 8 == 0) (.iwreg ch (f.immBits 0 8))
  | 7 => zeros (f.xHigh == 0 && f.y == 0 && f.immBits 8 8 == 0) (.irreg ch (f.immBits 0 8))
  | 8 => zeros (f.xHigh == 0 && f.y == 0 && f.imm == 0) (.irecv ch)
  | _ => .error .reservedOperation

/-- Unit 5 of the operation map (R143). -/
def decodeSpi (f : Fields) : Except Reject Instr :=
  let ch := Chan.ofCode f.xLow
  match f.op.toNat with
  | 0 => zeros (f.xHigh == 0 && f.y == 0) (.pinit ch f.imm)
  | 1 =>
    if f.yBit then zeros (f.xHigh == 0 && f.yHigh == 0 && f.imm == 0) (.psendR ch)
    else zeros (f.xHigh == 0 && f.yHigh == 0 && f.immBits 8 8 == 0) (.psend ch (f.immBits 0 8))
  | 2 => zeros (f.xHigh == 0 && f.y == 0 && f.imm == 0) (.precv ch)
  | 3 => zeros (f.xHigh == 0 && f.y == 0 && f.immBits 1 15 == 0) (.ploop ch (f.imm.getLsbD 0))
  | 4 => zeros (f.xHigh == 0 && f.y == 0 && f.imm == 0) (.pgloop ch)
  | 5 => zeros (f.xHigh == 0 && f.y == 0 && f.imm == 0) (.pgfe ch)
  | 6 => zeros (f.xHigh == 0 && f.y == 0 && f.imm == 0) (.pgoe ch)
  | _ => .error .reservedOperation

/-- Unit 6 of the operation map (R143). -/
def decodeRing (f : Fields) : Except Reject Instr :=
  let b : Fin 16 := f.x.toFin
  match f.op.toNat with
  | 0 =>
    if f.yBit then zeros (f.yHigh == 0 && f.imm == 0) (.rinsR b)
    else zeros (f.yHigh == 0 && f.immBits 8 8 == 0) (.rins b (f.immBits 0 8))
  | 1 => zeros (f.y == 0 && f.imm == 0) (.rget b)
  | 2 => zeros (f.y == 0 && f.imm == 0) (.rempty b)
  | 3 => zeros (f.y == 0 && f.imm == 0) (.rovf b)
  | 4 => zeros (f.y == 0 && f.imm == 0) (.rclrovf b)
  | 5 => zeros (f.y == 0 && f.imm == 0) (.rclr b)
  | _ => .error .reservedOperation

/-- The operation map by unit (R142, R143). -/
def decodeFields (f : Fields) : Except Reject Instr :=
  match f.u.toNat with
  | 0 => decodeControl f
  | 1 => decodeTimer f
  | 2 => decodeSerial f
  | 3 => decodeBaud f
  | 4 => decodeI2c f
  | 5 => decodeSpi f
  | 6 => decodeRing f
  | _ => .error .reservedUnit

/-- The command of a word, or the name of what is wrong with it: steps 1 and 2 of R150. -/
def decode (w : Word) : Except Reject Instr := decodeFields (Fields.ofWord w)

/-! ### The encoder -/

/-- A 2-bit code in the X field with X[3:2] zero. -/
def xOf (v : BitVec 2) : BitVec 4 := 0#2 ++ v

/-- One bit in the Y field with Y[3:1] zero. -/
def yOf (b : Bool) : BitVec 4 := 0#3 ++ BitVec.ofBool b

/-- One bit in IMM[0]. -/
def immOfBit (b : Bool) : Half := 0#15 ++ BitVec.ofBool b

/-- Two bits in IMM[1:0]. -/
def immOf2 (v : BitVec 2) : Half := 0#14 ++ v

/-- A byte in IMM[7:0]. -/
def immOfByte (v : Byte) : Half := 0#8 ++ v

/-- The fields of a command (R143, R144, R145). -/
def encodeFields : Instr → Fields
  | .nop => ⟨0, 0, 0, 0, 0⟩
  | .halt => ⟨0, 1, 0, 0, 0⟩
  | .ldlo k imm => ⟨0, 2, xOf k.code, 0, imm⟩
  | .ldhi k imm => ⟨0, 3, xOf k.code, 0, imm⟩
  | .movres k => ⟨0, 4, xOf k.code, 0, 0⟩
  | .stb k addr => ⟨0, 5, xOf k.code, 0, addr⟩
  | .ldb addr => ⟨0, 6, 0, 0, addr⟩
  | .gacq => ⟨0, 7, 0, 0, 0⟩
  | .grel => ⟨0, 8, 0, 0, 0⟩
  | .eint => ⟨0, 9, 0, 0, 0⟩
  | .dint => ⟨0, 10, 0, 0, 0⟩
  | .reti => ⟨0, 11, 0, 0, 0⟩
  | .jmp target => ⟨0, 12, 0, 0, target⟩
  | .bz target => ⟨0, 13, 0, 0, target⟩
  | .bnz target => ⟨0, 14, 0, 0, target⟩
  | .tinit t mode div src => ⟨1, 0, .ofFin t, 0, 0#10 ++ (src.code ++ (div.code ++ mode.code))⟩
  | .tmode t mode => ⟨1, 1, .ofFin t, 0, immOf2 mode.code⟩
  | .treset t => ⟨1, 2, .ofFin t, 0, 0⟩
  | .tcapm t c cm scs => ⟨1, 3, .ofFin t, .ofFin c, 0#13 ++ (BitVec.ofBool scs ++ cm.code)⟩
  | .tccis t c src => ⟨1, 4, .ofFin t, .ofFin c, immOf2 src.code⟩
  | .toutm t c om => ⟨1, 5, .ofFin t, .ofFin c, 0#13 ++ om⟩
  | .tsetcmp t c value => ⟨1, 6, .ofFin t, .ofFin c, value⟩
  | .tgetcap t c => ⟨1, 7, .ofFin t, .ofFin c, 0⟩
  | .tccie t c en => ⟨1, 8, .ofFin t, .ofFin c, immOfBit en⟩
  | .tgetcov t c => ⟨1, 9, .ofFin t, .ofFin c, 0⟩
  | .tclrcov t c => ⟨1, 10, .ofFin t, .ofFin c, 0⟩
  | .sena ch => ⟨2, 0, xOf ch.code, 0, 0⟩
  | .sdis ch => ⟨2, 1, xOf ch.code, 0, 0⟩
  | .sie ch d en => ⟨2, 2, xOf ch.code, yOf d.code, immOfBit en⟩
  | .sifg ch d => ⟨2, 3, xOf ch.code, yOf d.code, 0⟩
  | .swr ch role value => ⟨2, 4, xOf ch.code, role.code, value⟩
  | .srd ch role => ⟨2, 5, xOf ch.code, role.code, 0⟩
  | .bcalc os => ⟨3, 0, 0, yOf os, 0⟩
  | .bset ch os => ⟨3, 1, xOf ch.code, yOf os, 0⟩
  | .iptx ch addr ten => ⟨4, 0, xOf ch.code, yOf ten, 0#6 ++ addr⟩
  | .iprx ch addr ten => ⟨4, 1, xOf ch.code, yOf ten, 0#6 ++ addr⟩
  | .istt ch => ⟨4, 2, xOf ch.code, 0, 0⟩
  | .istp ch => ⟨4, 3, xOf ch.code, 0, 0⟩
  | .igstt ch => ⟨4, 4, xOf ch.code, 0, 0⟩
  | .isend ch byte => ⟨4, 5, xOf ch.code, yOf false, immOfByte byte⟩
  | .isendR ch => ⟨4, 5, xOf ch.code, yOf true, 0⟩
  | .iwreg ch reg => ⟨4, 6, xOf ch.code, 0, immOfByte reg⟩
  | .irreg ch reg => ⟨4, 7, xOf ch.code, 0, immOfByte reg⟩
  | .irecv ch => ⟨4, 8, xOf ch.code, 0, 0⟩
  | .pinit ch divisor => ⟨5, 0, xOf ch.code, 0, divisor⟩
  | .psend ch byte => ⟨5, 1, xOf ch.code, yOf false, immOfByte byte⟩
  | .psendR ch => ⟨5, 1, xOf ch.code, yOf true, 0⟩
  | .precv ch => ⟨5, 2, xOf ch.code, 0, 0⟩
  | .ploop ch en => ⟨5, 3, xOf ch.code, 0, immOfBit en⟩
  | .pgloop ch => ⟨5, 4, xOf ch.code, 0, 0⟩
  | .pgfe ch => ⟨5, 5, xOf ch.code, 0, 0⟩
  | .pgoe ch => ⟨5, 6, xOf ch.code, 0, 0⟩
  | .rins b byte => ⟨6, 0, .ofFin b, yOf false, immOfByte byte⟩
  | .rinsR b => ⟨6, 0, .ofFin b, yOf true, 0⟩
  | .rget b => ⟨6, 1, .ofFin b, 0, 0⟩
  | .rempty b => ⟨6, 2, .ofFin b, 0, 0⟩
  | .rovf b => ⟨6, 3, .ofFin b, 0, 0⟩
  | .rclrovf b => ⟨6, 4, .ofFin b, 0, 0⟩
  | .rclr b => ⟨6, 5, .ofFin b, 0, 0⟩

/-- The word of a command (R141, R143). -/
def encode (i : Instr) : Word := (encodeFields i).toWord

/-- The command that the decoder reads from an instruction whose bits are `w`, numbered as spec/opcode_table.json numbers them; the
bits from `nbits` on are zero. -/
def decodeTableWord (nbits w : Nat) : Option Instr :=
  match decode (BitVec.ofNat 32 (w % 2 ^ nbits)) with
  | .ok i => some i
  | .error _ => none

/-! ### The opcode table (R143): each row's mask and match, as spec/opcode_table.json lists them -/

/-- One row of the opcode table. -/
structure OpRow where
  mnemonic : String
  mask : Word
  value : Word
  deriving DecidableEq, Repr

/-- A word matches a row when its masked bits are the row's (R148). -/
def OpRow.hits (r : OpRow) (w : Word) : Bool := (w &&& r.mask) == r.value

/-- The 59 rows of the operation map (R143). -/
def opRows : List OpRow := [
  ⟨"NOP", 0xFFFFFFFF#32, 0x00000000#32⟩,
  ⟨"HALT", 0xFFFFFFFF#32, 0x01000000#32⟩,
  ⟨"LDLO", 0xFFCF0000#32, 0x02000000#32⟩,
  ⟨"LDHI", 0xFFCF0000#32, 0x03000000#32⟩,
  ⟨"MOVRES", 0xFFCFFFFF#32, 0x04000000#32⟩,
  ⟨"STB", 0xFFCF0000#32, 0x05000000#32⟩,
  ⟨"LDB", 0xFFFF0000#32, 0x06000000#32⟩,
  ⟨"GACQ", 0xFFFFFFFF#32, 0x07000000#32⟩,
  ⟨"GREL", 0xFFFFFFFF#32, 0x08000000#32⟩,
  ⟨"EINT", 0xFFFFFFFF#32, 0x09000000#32⟩,
  ⟨"DINT", 0xFFFFFFFF#32, 0x0A000000#32⟩,
  ⟨"RETI", 0xFFFFFFFF#32, 0x0B000000#32⟩,
  ⟨"JMP", 0xFFFF0000#32, 0x0C000000#32⟩,
  ⟨"BZ", 0xFFFF0000#32, 0x0D000000#32⟩,
  ⟨"BNZ", 0xFFFF0000#32, 0x0E000000#32⟩,
  ⟨"TINIT", 0xFF0FFFC0#32, 0x10000000#32⟩,
  ⟨"TMODE", 0xFF0FFFFC#32, 0x11000000#32⟩,
  ⟨"TRESET", 0xFF0FFFFF#32, 0x12000000#32⟩,
  ⟨"TCAPM", 0xFF00FFF8#32, 0x13000000#32⟩,
  ⟨"TCCIS", 0xFF00FFFC#32, 0x14000000#32⟩,
  ⟨"TOUTM", 0xFF00FFF8#32, 0x15000000#32⟩,
  ⟨"TSETCMP", 0xFF000000#32, 0x16000000#32⟩,
  ⟨"TGETCAP", 0xFF00FFFF#32, 0x17000000#32⟩,
  ⟨"TCCIE", 0xFF00FFFE#32, 0x18000000#32⟩,
  ⟨"TGETCOV", 0xFF00FFFF#32, 0x19000000#32⟩,
  ⟨"TCLRCOV", 0xFF00FFFF#32, 0x1A000000#32⟩,
  ⟨"SENA", 0xFFCFFFFF#32, 0x20000000#32⟩,
  ⟨"SDIS", 0xFFCFFFFF#32, 0x21000000#32⟩,
  ⟨"SIE", 0xFFCEFFFE#32, 0x22000000#32⟩,
  ⟨"SIFG", 0xFFCEFFFF#32, 0x23000000#32⟩,
  ⟨"SWR", 0xFFC00000#32, 0x24000000#32⟩,
  ⟨"SRD", 0xFFC0FFFF#32, 0x25000000#32⟩,
  ⟨"BCALC", 0xFFFEFFFF#32, 0x30000000#32⟩,
  ⟨"BSET", 0xFFCEFFFF#32, 0x31000000#32⟩,
  ⟨"IPTX", 0xFFCEFC00#32, 0x40000000#32⟩,
  ⟨"IPRX", 0xFFCEFC00#32, 0x41000000#32⟩,
  ⟨"ISTT", 0xFFCFFFFF#32, 0x42000000#32⟩,
  ⟨"ISTP", 0xFFCFFFFF#32, 0x43000000#32⟩,
  ⟨"IGSTT", 0xFFCFFFFF#32, 0x44000000#32⟩,
  ⟨"ISEND", 0xFFCFFF00#32, 0x45000000#32⟩,
  ⟨"ISEND.R", 0xFFCFFFFF#32, 0x45010000#32⟩,
  ⟨"IWREG", 0xFFCFFF00#32, 0x46000000#32⟩,
  ⟨"IRREG", 0xFFCFFF00#32, 0x47000000#32⟩,
  ⟨"IRECV", 0xFFCFFFFF#32, 0x48000000#32⟩,
  ⟨"PINIT", 0xFFCF0000#32, 0x50000000#32⟩,
  ⟨"PSEND", 0xFFCFFF00#32, 0x51000000#32⟩,
  ⟨"PSEND.R", 0xFFCFFFFF#32, 0x51010000#32⟩,
  ⟨"PRECV", 0xFFCFFFFF#32, 0x52000000#32⟩,
  ⟨"PLOOP", 0xFFCFFFFE#32, 0x53000000#32⟩,
  ⟨"PGLOOP", 0xFFCFFFFF#32, 0x54000000#32⟩,
  ⟨"PGFE", 0xFFCFFFFF#32, 0x55000000#32⟩,
  ⟨"PGOE", 0xFFCFFFFF#32, 0x56000000#32⟩,
  ⟨"RINS", 0xFF0FFF00#32, 0x60000000#32⟩,
  ⟨"RINS.R", 0xFF0FFFFF#32, 0x60010000#32⟩,
  ⟨"RGET", 0xFF0FFFFF#32, 0x61000000#32⟩,
  ⟨"REMPTY", 0xFF0FFFFF#32, 0x62000000#32⟩,
  ⟨"ROVF", 0xFF0FFFFF#32, 0x63000000#32⟩,
  ⟨"RCLROVF", 0xFF0FFFFF#32, 0x64000000#32⟩,
  ⟨"RCLR", 0xFF0FFFFF#32, 0x65000000#32⟩]

/-- R149: the words of SWR and SRD that match their row and are reserved all the same. -/
def valueReserved (w : Word) : Bool :=
  let f := Fields.ofWord w
  (f.u == 2 && (f.op == 4 || f.op == 5) && (Role.ofCode? f.y).isNone) ||
  (f.u == 2 && f.op == 4 && ((Role.ofCode? f.y).map Role.isByte == some true) && f.immBits 8 8 != 0)

end Sys2Proof
end

