-- ==== Sys2Proof/Machine/Bits.lean ====
section
/-! DEFINITION. Bit helpers: one bit of a cell by its position, zero extension and a flag as a register value (R9, R10). -/

namespace Sys2Proof

/-- zext_32 (R10). -/
def zext32 {n : Nat} (v : BitVec n) : Word := v.setWidth 32

/-- zext_32 of one bit: 1 or 0 (R10). -/
def bitWord (b : Bool) : Word := zext32 (BitVec.ofBool b)

/-- The one-bit mask of position n. -/
def bitMask {w : Nat} (n : Nat) : BitVec w := 1#w <<< n

/-- `x` with the bit at position n replaced by b (R311). -/
def setBit {w : Nat} (x : BitVec w) (n : Nat) (b : Bool) : BitVec w :=
  if b then x ||| bitMask n else x &&& ~~~(bitMask n)

end Sys2Proof
end

