-- ==== Sys2Proof/Machine/State.lean ====
section
/-! DEFINITION. The state of the block as plain data (R30 to R47, R250, R301, R304, R500), the micro-operations that a command in
progress is made of (R42), the ways the model itself stops, and reset (R700). -/

namespace Sys2Proof.Machine

/-- The two contexts (R30). -/
inductive Ctx
  | main
  | isr
  deriving DecidableEq, Repr

/-- The run status (R35). -/
inductive RunStatus
  | running
  | halted
  | faulted
  deriving DecidableEq, Repr

/-- The fault codes of R601. They are effects on `status` and `FAULT` (R600), not stops of the model. -/
inductive Trap
  | fetchRange
  | reservedEncoding
  | instanceRange
  | channelRange
  | context
  | guardUnbalanced
  | baudZero
  | baudRange
  | i2cCountZero
  | configWhileEnabled
  | unguardedSharedRb
  deriving DecidableEq, Repr

/-- The fault record FAULT (R35). -/
structure FaultRecord where
  code : BitVec 8
  cp : Nat
  ctx : Ctx
  word : Word
  deriving DecidableEq, Repr

/-- The fields of serial cells that a rule reads or writes by name (R302). -/
inductive Field
  | sla10
  | tr
  | txnack
  | txstp
  | txstt
  | swrst
  | listen
  | fe
  | oe
  deriving DecidableEq, Repr

/-- The micro-operations (R42). An operand taken from a register or from the command word is captured here (R43); a value read from
memory, from a flag or from RES when the micro-operation runs is not. -/
inductive MicroOp
  -- 40_control.md
  | nop
  | halt
  | setArg (k : ArgReg) (v : Word)
  | setArgHigh (k : ArgReg) (v : Half)
  | argFromRes (k : ArgReg)
  | storeArg (k : ArgReg) (addr : Half)
  | loadByte (addr : Half)
  | guardAcquire
  | guardRelease
  | setGie (v : Bool)
  | returnFromIsr
  | jump (target : Half)
  | branchZero (target : Half)
  | branchNonzero (target : Half)
  -- 41_timer.md
  | timerInit (t : Nat) (mode : TimerMode) (div : Divider) (src : ClockSource)
  | timerMode (t : Nat) (mode : TimerMode)
  | timerReset (t : Nat)
  | timerCapture (t c : Nat) (cm : CaptureMode) (scs : Bool)
  | timerInput (t c : Nat) (src : CaptureInput)
  | timerOutmod (t c : Nat) (om : BitVec 3)
  | timerSetValue (t c : Nat) (v : Half)
  | timerGetValue (t c : Nat)
  | timerSetCcie (t c : Nat) (en : Bool)
  | timerGetCov (t c : Nat)
  | timerClearCov (t c : Nat)
  -- 42_serial_engine.md R315 to R323, R326, R327, and the field reads of R407, R455 to R457
  | hold (ch : Chan) (v : Bool)
  | fieldWrite (ch : Chan) (f : Field) (v : Bool)
  | cellWrite (ch : Chan) (role : Role) (v : Half)
  | cellRead (ch : Chan) (role : Role)
  | poll (ch : Chan) (d : Dir)
  | txByte (ch : Chan) (v : Byte)
  | txMem (ch : Chan) (addr : Half)
  | rxRes (ch : Chan)
  | rxPush (ch : Chan) (b : Nat)
  | setIe (ch : Chan) (d : Dir) (en : Bool)
  | getIfg (ch : Chan) (d : Dir)
  | fieldRead (ch : Chan) (f : Field)
  -- 43_uart_baud.md R360
  | baud (clk rate : Word) (os : Bool)
  -- 46_ring_buffer.md
  | ringInsert (b : Nat) (v : Byte)
  | ringGet (b : Nat)
  | ringEmpty (b : Nat)
  | ringOvf (b : Nat)
  | ringClearOvf (b : Nat)
  | ringClear (b : Nat)
  deriving DecidableEq, Repr

/-- What each context has of its own: its register bank (R31), its command pointer (R32) and its command in progress (R34). -/
structure CtxState where
  /-- ARG[0]. -/
  arg0 : Word
  /-- ARG[1]. -/
  arg1 : Word
  /-- ARG[2]. -/
  arg2 : Word
  /-- ARG[3]. -/
  arg3 : Word
  /-- RES. -/
  res : Word
  /-- cp[k], a natural 0 to 65536 (R32). -/
  cp : Nat
  /-- useq[k], the micro-operations still to run of the command in progress. -/
  useq : List MicroOp
  /-- word[k]. -/
  word : Word
  /-- gdepth[k], a natural 0 to 255. -/
  gdepth : Nat
  /-- gsaved[k]. -/
  gsaved : Bool
  deriving DecidableEq, Repr

/-- One value for each channel (R300). -/
structure PerChan (α : Type) where
  a0 : α
  a1 : α
  b0 : α
  b1 : α
  deriving DecidableEq, Repr

/-- One value for each instance index (R304). -/
structure PerInst (α : Type) where
  i0 : α
  i1 : α
  deriving DecidableEq, Repr

/-- The cells that every channel has (R301). -/
structure Cells where
  ctl0 : Byte
  ctl1 : Byte
  br0 : Byte
  br1 : Byte
  stat : Byte
  rxbuf : Byte
  txbuf : Byte
  deriving DecidableEq, Repr

/-- The serial register space and the interrupt registers (R100, R301, R304). -/
structure Serial where
  cells : PerChan Cells
  /-- MCTL of A0 and A1. -/
  mctl : PerInst Byte
  /-- I2COA of B0 and B1. -/
  i2coa : PerInst Half
  /-- I2CSA of B0 and B1. -/
  i2csa : PerInst Half
  /-- I2CIE of B0 and B1. -/
  i2cie : PerInst Byte
  /-- IEREG[0], IEREG[1]. -/
  ie : PerInst (BitVec 4)
  /-- IFGREG[0], IFGREG[1]. -/
  ifg : PerInst (BitVec 4)
  deriving DecidableEq, Repr

/-- One capture/compare channel of a timer (R250). -/
structure TimerChan where
  cm : CaptureMode
  ccis : CaptureInput
  scs : Bool
  outmod : BitVec 3
  ccie : Bool
  cov : Bool
  value : Half
  deriving DecidableEq, Repr

/-- One timer (R250) with its kind (R7). -/
structure Timer where
  kind : TimerKind
  mode : TimerMode
  div : Divider
  src : ClockSource
  count : Half
  chans : List TimerChan
  deriving DecidableEq, Repr

/-- One ring buffer (R500, R502). Its capacity is the length of `buf`; `rd` is `none` for NEVER (R501). -/
structure Ring where
  buf : List Byte
  wr : Nat
  rd : Option Nat
  ovf : Bool
  isrSeen : Bool
  mainUnguarded : Bool
  deriving DecidableEq, Repr

/-- The state of the block. The last three fields are the model's own (log 2, log 4); the first three never change (R7, R112). -/
structure State where
  /-- The parameters of R7. -/
  params : Params
  /-- PROG[Main] (R100). -/
  progMain : List Word
  /-- PROG[Isr] (R100). -/
  progIsr : List Word
  /-- What the Main context holds. -/
  main : CtxState
  /-- What the Isr context holds. -/
  isr : CtxState
  /-- GIE (R33). -/
  gie : Bool
  /-- The context that executes (R34). -/
  ctx : Ctx
  /-- isr_gie_saved (R34). -/
  isrGieSaved : Bool
  /-- The run status (R35). -/
  status : RunStatus
  /-- FAULT (R35). -/
  fault : FaultRecord
  /-- The data memory DM (R37): the bytes that are not 0, by rising address (log 7). -/
  dm : List Host.Cell
  /-- The serial cells and the interrupt registers (R38). -/
  serial : Serial
  /-- The timers (R39). -/
  timers : List Timer
  /-- The ring buffers (R40). -/
  rings : List Ring
  /-- How many hold assertions have drawn (R313, log 4). -/
  drawCount : Nat
  /-- The turns to come before the sequencer's next (R44, log 2). -/
  agenda : List Turn
  /-- How many interludes have been drawn (R44, R45, log 2). -/
  interludeCount : Nat
  deriving DecidableEq, Repr

/-- Why a run of the model stops. Both stand for a run that has ended: the block has no further sequencer step (R46, R202, R600). -/
inductive Fault
  /-- Raised by `step` on a sequencer turn when status is Halted. Safe: R202 enables no sequencer step there. -/
  | halted
  /-- Raised by `step` on a sequencer turn when status is Faulted. Safe: R600 enables no sequencer step there. -/
  | faulted
  deriving DecidableEq, Repr

/-- Why the model declines to take a step. -/
inductive Refusal
  /-- An instruction that has no meaning yet. No arm of `exec` raises it. Safe. -/
  | notModelled (mnemonic : String)
  /-- Raised by `step` on a parameter set that R7 and R8 do not allow. Safe: the spec refuses such a set before the run. -/
  | illegalParameters
  deriving DecidableEq, Repr

/-- What the host chooses before a run (R7, R710), the draws of reset (R306) and the order of turns. -/
structure Boot where
  params : Params
  timers : List TimerKind
  /-- CAP(b) for each ring buffer b. -/
  caps : List Nat
  progMain : List Word
  progIsr : List Word
  /-- DM_INIT, in the form of `State.dm`. -/
  dmInit : List Host.Cell
  /-- The drawn STAT cell of each channel; its LISTEN bit is not used. -/
  stat : PerChan Byte
  rxbuf : PerChan Byte
  txbuf : PerChan Byte
  ifg : PerInst (BitVec 4)
  agenda : List Turn
  deriving DecidableEq, Repr

/-- The register bank and command state of a context after reset (R31, R32, R34). -/
def CtxState.reset : CtxState :=
  { arg0 := 0, arg1 := 0, arg2 := 0, arg3 := 0, res := 0, cp := 0, useq := [], word := 0, gdepth := 0, gsaved := false }

/-- FAULT after reset (R35). -/
def FaultRecord.reset : FaultRecord := { code := 0, cp := 0, ctx := .main, word := 0 }

/-- The cells of a channel after reset (R306): CTL0 by kind, held, LISTEN off, the rest of STAT and the two buffers as drawn. -/
def Cells.reset (p : FieldPos) (kind : SerialKind) (stat rxbuf txbuf : Byte) : Cells :=
  { ctl0 := match kind with | .a => 0x00 | .b => 0x01
    ctl1 := 1#8 <<< p.swrst
    br0 := 0
    br1 := 0
    stat := stat &&& ~~~(1#8 <<< p.listen)
    rxbuf := rxbuf
    txbuf := txbuf }

/-- A timer channel after reset (R252). -/
def TimerChan.reset : TimerChan :=
  { cm := .none, ccis := .ccia, scs := false, outmod := 0, ccie := false, cov := false, value := 0 }

/-- A timer after reset (R252). -/
def Timer.reset (p : Params) (kind : TimerKind) : Timer :=
  { kind := kind, mode := .stop, div := .by1, src := .taclk, count := 0,
    chans := List.replicate (p.channels kind) TimerChan.reset }

/-- A ring buffer of capacity n after reset (R503). -/
def Ring.reset (n : Nat) : Ring :=
  { buf := List.replicate n 0, wr := 0, rd := none, ovf := false, isrSeen := false, mainUnguarded := false }

/-- The block after the reset that the host applies, for every choice of the host and every draw (R700, R710). -/
def State.boot (b : Boot) : State :=
  { params := b.params
    progMain := b.progMain
    progIsr := b.progIsr
    main := CtxState.reset
    isr := CtxState.reset
    gie := false
    ctx := .main
    isrGieSaved := false
    status := .running
    fault := FaultRecord.reset
    dm := b.dmInit
    serial :=
      { cells :=
          { a0 := Cells.reset b.params.fieldPos .a b.stat.a0 b.rxbuf.a0 b.txbuf.a0
            a1 := Cells.reset b.params.fieldPos .a b.stat.a1 b.rxbuf.a1 b.txbuf.a1
            b0 := Cells.reset b.params.fieldPos .b b.stat.b0 b.rxbuf.b0 b.txbuf.b0
            b1 := Cells.reset b.params.fieldPos .b b.stat.b1 b.rxbuf.b1 b.txbuf.b1 }
        mctl := { i0 := 0, i1 := 0 }
        i2coa := { i0 := 0, i1 := 0 }
        i2csa := { i0 := 0, i1 := 0 }
        i2cie := { i0 := 0, i1 := 0 }
        ie := { i0 := 0, i1 := 0 }
        ifg := b.ifg }
    timers := b.timers.map (Timer.reset b.params)
    rings := b.caps.map Ring.reset
    drawCount := 0
    agenda := b.agenda
    interludeCount := 0 }

/-- The defaults of R7, nothing loaded, every reset draw 0 and no turn before the sequencer's first (log 2, log 6, log 7, log 8). -/
def Boot.default : Boot :=
  { params := Params.default
    timers := [.a, .b]
    caps := [16, 16, 16, 16]
    progMain := []
    progIsr := []
    dmInit := []
    stat := { a0 := 0, a1 := 0, b0 := 0, b1 := 0 }
    rxbuf := { a0 := 0, a1 := 0, b0 := 0, b1 := 0 }
    txbuf := { a0 := 0, a1 := 0, b0 := 0, b1 := 0 }
    ifg := { i0 := 0, i1 := 0 }
    agenda := [] }

/-- The machine right after reset, with the default parameters and nothing loaded (R700, R702). -/
def State.reset : State := State.boot Boot.default

end Sys2Proof.Machine
end

