-- ==== Sys2Proof/Machine/Ops.lean ====
section
/-! DEFINITION. The operations over the state that the meanings share: the current context's bank (R31), the data memory (R13), the
cells (R101, R301), the timers and ring buffers by index, the parameter check (R7, R8), raising a fault (R600), interrupt entry
(R620) and the return from it (R212). -/

namespace Sys2Proof

/-! ### Roles -/

/-- The role has a cell on the kind; otherwise it is "no cell" (R301). -/
def Role.hasCell : Role → SerialKind → Bool
  | .mctl, .b => false
  | .i2coa, .a => false
  | .i2csa, .a => false
  | .i2cie, .a => false
  | _, _ => true

/-- The configuration cells (R305). -/
def Role.isConfig : Role → Bool
  | .ctl0 | .br0 | .br1 | .mctl => true
  | _ => false

end Sys2Proof

namespace Sys2Proof.Machine

/-! ### Contexts -/

/-- What context k holds. -/
def State.ctxState (s : State) : Ctx → CtxState
  | .main => s.main
  | .isr => s.isr

/-- `s` with what context k holds changed by f. -/
def State.updCtx (s : State) (k : Ctx) (f : CtxState → CtxState) : State :=
  match k with
  | .main => { s with main := f s.main }
  | .isr => { s with isr := f s.isr }

/-- What the current context holds (R31). -/
def State.cur (s : State) : CtxState := s.ctxState s.ctx

/-- `s` with what the current context holds changed by f (R31: a command touches only its own bank). -/
def State.updCur (s : State) (f : CtxState → CtxState) : State := s.updCtx s.ctx f

/-- PROG[k] (R100). -/
def State.prog (s : State) : Ctx → List Word
  | .main => s.progMain
  | .isr => s.progIsr

/-- ARG[k] of a bank (R31). -/
def CtxState.arg (c : CtxState) : ArgReg → Word
  | .a0 => c.arg0
  | .a1 => c.arg1
  | .a2 => c.arg2
  | .a3 => c.arg3

/-- A bank with ARG[k] written (R31). -/
def CtxState.setArg (c : CtxState) (k : ArgReg) (v : Word) : CtxState :=
  match k with
  | .a0 => { c with arg0 := v }
  | .a1 => { c with arg1 := v }
  | .a2 => { c with arg2 := v }
  | .a3 => { c with arg3 := v }

/-- `s` with ARG[k] of the current context written (R31). -/
def State.setArg (s : State) (k : ArgReg) (v : Word) : State := s.updCur (fun c => c.setArg k v)

/-- `s` with RES of the current context written (R31). -/
def State.setRes (s : State) (v : Word) : State := s.updCur (fun c => { c with res := v })

/-- `s` with cp of the current context written (R32). -/
def State.setCp (s : State) (v : Nat) : State := s.updCur (fun c => { c with cp := v })

/-! ### Data memory -/

/-- The byte at address a of a cell list; an unlisted address reads 0 (log 7). -/
def dmRead : List Host.Cell → Nat → Byte
  | [], _ => 0
  | (b, v) :: rest, a => if a = b then v else dmRead rest a

/-- The cell list with the byte at address a written. The canonical form is kept: rising addresses, no listed 0. -/
def dmWrite : List Host.Cell → Nat → Byte → List Host.Cell
  | [], a, v => if v = 0 then [] else [(a, v)]
  | (b, u) :: rest, a, v =>
    if a < b then (if v = 0 then (b, u) :: rest else (a, v) :: (b, u) :: rest)
    else if a = b then (if v = 0 then rest else (a, v) :: rest)
    else (b, u) :: dmWrite rest a v

/-- The canonical form of a cell list above a bound: addresses rise strictly from it, stay in the 16-bit space, and no byte is the
one an unlisted address reads as. -/
def dmWfFrom : Nat → List Host.Cell → Bool
  | _, [] => true
  | lo, (b, v) :: rest => decide (lo ≤ b) && decide (b < 65536) && decide (v ≠ 0) && dmWfFrom (b + 1) rest

/-- The data memory is in canonical form (log 7). -/
def Memory.wf (m : List Host.Cell) : Bool := dmWfFrom 0 m

/-- MemRead(a, 1) (R13). -/
def State.readByte (s : State) (a : Half) : Byte := dmRead s.dm a.toNat

/-- MemWrite(a, 1, v) (R13). -/
def State.writeByte (s : State) (a : Half) (v : Byte) : State := { s with dm := dmWrite s.dm a.toNat v }

/-! ### Serial cells and interrupt registers -/

/-- The value for a channel. -/
def PerChan.get {α : Type} (p : PerChan α) : Chan → α
  | .a0 => p.a0
  | .a1 => p.a1
  | .b0 => p.b0
  | .b1 => p.b1

/-- The values with a channel's replaced. -/
def PerChan.set {α : Type} (p : PerChan α) (ch : Chan) (v : α) : PerChan α :=
  match ch with
  | .a0 => { p with a0 := v }
  | .a1 => { p with a1 := v }
  | .b0 => { p with b0 := v }
  | .b1 => { p with b1 := v }

/-- The value for an instance index. -/
def PerInst.get {α : Type} (p : PerInst α) : Inst → α
  | .i0 => p.i0
  | .i1 => p.i1

/-- The values with an instance index's replaced. -/
def PerInst.set {α : Type} (p : PerInst α) (i : Inst) (v : α) : PerInst α :=
  match i with
  | .i0 => { p with i0 := v }
  | .i1 => { p with i1 := v }

/-- The common cells of a channel (R301). -/
def State.cells (s : State) (ch : Chan) : Cells := s.serial.cells.get ch

/-- `s` with the common cells of a channel changed by f. -/
def State.updCells (s : State) (ch : Chan) (f : Cells → Cells) : State :=
  { s with serial := { s.serial with cells := s.serial.cells.set ch (f (s.cells ch)) } }

/-- The cell of a role as a register value, zero-extended; for a role that is no cell the value is not used (R318). -/
def State.cellValue (s : State) (ch : Chan) : Role → Half
  | .ctl0 => (s.cells ch).ctl0.setWidth 16
  | .ctl1 => (s.cells ch).ctl1.setWidth 16
  | .br0 => (s.cells ch).br0.setWidth 16
  | .br1 => (s.cells ch).br1.setWidth 16
  | .mctl => (s.serial.mctl.get ch.inst).setWidth 16
  | .stat => (s.cells ch).stat.setWidth 16
  | .rxbuf => (s.cells ch).rxbuf.setWidth 16
  | .txbuf => (s.cells ch).txbuf.setWidth 16
  | .i2coa => s.serial.i2coa.get ch.inst
  | .i2csa => s.serial.i2csa.get ch.inst
  | .i2cie => (s.serial.i2cie.get ch.inst).setWidth 16

/-- The channel is not in SERIAL_PRESENT (R303). -/
def State.chanAbsent (s : State) (ch : Chan) : Bool := !(s.params.serialPresent.contains ch)

/-- I2C_RB(ch) (R7). -/
def State.i2cRb (s : State) : Chan → Nat
  | .b1 => s.params.i2cRbB1
  | _ => s.params.i2cRbB0

/-! ### Timers and ring buffers by index -/

/-- The timer index names no timer (R254). -/
def State.timerMissing (s : State) (t : Nat) : Bool := decide (s.timers.length ≤ t)

/-- The channel index is not below NCH(kind(t)) (R254). -/
def State.channelMissing (s : State) (t c : Nat) : Bool :=
  match s.timers[t]? with
  | some tm => decide (s.params.channels tm.kind ≤ c)
  | none => true

/-- `s` with timer t changed by f. -/
def State.updTimer (s : State) (t : Nat) (f : Timer → Timer) : State := { s with timers := s.timers.modify t f }

/-- `s` with channel c of timer t changed by f. -/
def State.updTimerChan (s : State) (t c : Nat) (f : TimerChan → TimerChan) : State :=
  s.updTimer t (fun tm => { tm with chans := tm.chans.modify c f })

/-- Channel c of timer t. -/
def State.timerChan? (s : State) (t c : Nat) : Option TimerChan :=
  match s.timers[t]? with
  | some tm => tm.chans[c]?
  | none => none

/-- The ring-buffer index is not below NRB (R505). -/
def State.ringMissing (s : State) (b : Nat) : Bool := decide (s.rings.length ≤ b)

/-- `s` with ring buffer b replaced. -/
def State.setRing (s : State) (b : Nat) (r : Ring) : State := { s with rings := s.rings.set b r }

/-! ### The parameter check -/

/-- NRB is 1 to 16, each capacity 1 to 65535, and each I2C_RB(ch) names a ring buffer (R7, R8). -/
def State.ringsLegal (s : State) : Bool :=
  (decide (1 ≤ s.rings.length) && decide (s.rings.length ≤ 16)) &&
  s.rings.all (fun r => decide (1 ≤ r.buf.length) && decide (r.buf.length ≤ 65535)) &&
  (decide (s.params.i2cRbB0 < s.rings.length) && decide (s.params.i2cRbB1 < s.rings.length))

/-- Each program has at most 65536 words (R7). -/
def State.progsLegal (s : State) : Bool := decide (s.progMain.length ≤ 65536) && decide (s.progIsr.length ≤ 65536)

/-- The parameter set is one that R7 and R8 allow. -/
def State.legal (s : State) : Bool := s.params.legal && s.ringsLegal && s.progsLegal

/-! ### Faults, interrupt entry and return -/

/-- The fault code of FAULT.code (R601). -/
def Trap.code : Trap → BitVec 8
  | .fetchRange => 1
  | .reservedEncoding => 2
  | .instanceRange => 3
  | .channelRange => 4
  | .context => 5
  | .guardUnbalanced => 6
  | .baudZero => 7
  | .baudRange => 8
  | .i2cCountZero => 9
  | .configWhileEnabled => 10
  | .unguardedSharedRb => 11

/-- Raising a fault in the current context with word w (R600): only `status` and `FAULT` change. -/
def State.raise (s : State) (t : Trap) (w : Word) : State :=
  { s with status := .faulted, fault := { code := t.code, cp := s.cur.cp, ctx := s.ctx, word := w } }

/-- Interrupt entry is enabled (R620, R622). -/
def State.entryEnabled (s : State) : Bool :=
  s.status == .running && s.ctx == .main && s.gie && !s.progIsr.isEmpty

/-- Interrupt entry (R620). -/
def State.interruptEntry (s : State) : State :=
  { s with
    isrGieSaved := s.gie
    gie := false
    ctx := .isr
    isr := { s.isr with cp := 0, gdepth := 0, useq := [] } }

/-- The return from the interrupt program, RETI's micro-operation (R212, R623). -/
def State.returnFromIsr (s : State) : State := { s with gie := s.isrGieSaved, ctx := .main }

/-- The first check that fails (R150: Decode raises the first fault that applies). -/
def firstTrap : List (Bool × Trap) → Option Trap
  | [] => none
  | (bad, t) :: rest => if bad then some t else firstTrap rest

end Sys2Proof.Machine
end

