-- ==== Sys2Proof/Machine/Flags.lean ====
section
/-! DEFINITION. The flags and one-bit fields of the block (R41): the fields of the serial cells by name (R302), the interrupt enable and
flag bits (R304), the hold and its draws (R307, R313), the configuration check (R314), the ring buffer's conditions (R504, R507) and
its shared-access check (R511). -/

namespace Sys2Proof.Machine

/-! ### Fields of the serial cells -/

/-- The position of a field in its cell (FIELDPOS, R302). -/
def Field.pos (p : FieldPos) : Field → Nat
  | .sla10 => p.sla10
  | .tr => p.tr
  | .txnack => p.txnack
  | .txstp => p.txstp
  | .txstt => p.txstt
  | .swrst => p.swrst
  | .listen => p.listen
  | .fe => p.fe
  | .oe => p.oe

/-- The cell a field lies in (R302). -/
def Field.role : Field → Role
  | .sla10 => .ctl0
  | .tr | .txnack | .txstp | .txstt | .swrst => .ctl1
  | .listen | .fe | .oe => .stat

/-- S[ch].ROLE.FIELD (R12). -/
def State.field (s : State) (ch : Chan) (f : Field) : Bool :=
  (s.cellValue ch f.role).getLsbD (f.pos s.params.fieldPos)

/-- The bare read-modify-write of a field (R311): the other bits of the cell keep their values. -/
def State.setField (s : State) (ch : Chan) (f : Field) (v : Bool) : State :=
  let n := f.pos s.params.fieldPos
  s.updCells ch (fun c =>
    match f with
    | .sla10 => { c with ctl0 := setBit c.ctl0 n v }
    | .tr | .txnack | .txstp | .txstt | .swrst => { c with ctl1 := setBit c.ctl1 n v }
    | .listen | .fe | .oe => { c with stat := setBit c.stat n v })

/-- The channel is held: SWRST = 1 (R17). -/
def State.held (s : State) (ch : Chan) : Bool := s.field ch .swrst

/-! ### Interrupt enable and flag bits (R304) -/

/-- The bit of a channel and direction in its instance's registers (IRQBITS, R304). -/
def State.irqPos (s : State) (ch : Chan) (d : Dir) : Nat := s.params.irqBits.pos ch.kind d

/-- IFG(ch, d) (R304). -/
def State.ifg (s : State) (ch : Chan) (d : Dir) : Bool := (s.serial.ifg.get ch.inst).getLsbD (s.irqPos ch d)

/-- IE(ch, d) (R304). -/
def State.ie (s : State) (ch : Chan) (d : Dir) : Bool := (s.serial.ie.get ch.inst).getLsbD (s.irqPos ch d)

/-- IFG(ch, d) written. -/
def State.setIfg (s : State) (ch : Chan) (d : Dir) (v : Bool) : State :=
  { s with serial := { s.serial with
      ifg := s.serial.ifg.set ch.inst (setBit (s.serial.ifg.get ch.inst) (s.irqPos ch d) v) } }

/-- IE(ch, d) written (R326). -/
def State.setIe (s : State) (ch : Chan) (d : Dir) (v : Bool) : State :=
  { s with serial := { s.serial with
      ie := s.serial.ie.set ch.inst (setBit (s.serial.ie.get ch.inst) (s.irqPos ch d) v) } }

/-! ### The status cell -/

/-- The STAT cell with its hardware-owned bits taken from v and its LISTEN bit kept (R307, R335; log 12). -/
def State.setStatusBits (s : State) (ch : Chan) (v : Byte) : State :=
  s.updCells ch (fun c =>
    { c with stat := setBit v s.params.fieldPos.listen (c.stat.getLsbD s.params.fieldPos.listen) })

/-! ### The hold (R307, R313) -/

/-- On kind B, TXSTT, TXSTP and TXNACK take the values drawn (R307). -/
def State.drawCtl1 (s : State) (ch : Chan) (d : HoldDraw) : State :=
  match ch.kind with
  | .a => s
  | .b => ((s.setField ch .txstt d.txstt).setField ch .txstp d.txstp).setField ch .txnack d.txnack

/-- Every hold-volatile bit of the channel takes the value drawn (R307). -/
def State.applyDraw (s : State) (ch : Chan) (d : HoldDraw) : State :=
  ((((((s.setIfg ch .rx d.ifgRx).setIfg ch .tx d.ifgTx).setIe ch .rx d.ieRx).setIe ch .tx d.ieTx).setStatusBits ch d.stat).drawCtl1
    ch d)

/-- The effect of a hold assertion after its write (R313): the hold-volatile bits become the next free values (log 4). -/
def State.drawVolatile (s : State) (ch : Chan) : State :=
  { (s.applyDraw ch (Config.holdDraw s.drawCount)) with drawCount := s.drawCount + 1 }

/-- SWRST written; a 1 is a hold assertion (R313, R315). -/
def State.writeHold (s : State) (ch : Chan) (v : Bool) : State :=
  let s1 := s.setField ch .swrst v
  if v then s1.drawVolatile ch else s1

/-- The configuration check fails: a configuration cell, and the channel is not held (R314). -/
def State.configBlocked (s : State) (ch : Chan) (role : Role) : Bool := role.isConfig && !s.held ch

/-! ### The ring buffer's conditions -/

/-- The write cursor equals the read cursor, so an insert overwrites the oldest slot (R504). -/
def Ring.full (r : Ring) : Bool := r.rd == some r.wr

/-- The condition of REMPTY (R507). -/
def Ring.isEmpty (r : Ring) : Bool := (r.rd == some r.wr && !r.ovf) || r.rd == none

/-- The shared-access check (R511): the buffer with its tracking bits updated, or nothing where the access is unguarded. -/
def Ring.share (r : Ring) (ctx : Ctx) (gie : Bool) : Option Ring :=
  match ctx with
  | .isr => if r.mainUnguarded then none else some { r with isrSeen := true }
  | .main =>
    if gie then (if r.isrSeen then none else some { r with mainUnguarded := true })
    else some r

/-! ### The balance of the guard (R202, R208, R209, R212) -/

/-- The current context holds its guard. -/
def State.guardHeld (s : State) : Bool := s.cur.gdepth != 0

/-- The current context's guard is at its greatest depth (R208). -/
def State.guardFull (s : State) : Bool := decide (255 ≤ s.cur.gdepth)

end Sys2Proof.Machine
end

