-- ==== Sys2Proof/Machine/Divisor.lean ====
section
/-! DEFINITION. The function Baud(clk, baud, os) of the UART baud-rate divisor calculator, in exact natural arithmetic (R350 to R359). -/

namespace Sys2Proof.Machine

/-- The outputs of Baud (R350); BR before its range check (R357). -/
structure BaudResult where
  br : Nat
  brs : BitVec 3
  brf : BitVec 4
  os16 : Bool
  deriving DecidableEq, Repr

/-- The oversampling path is taken (R353). -/
def oversampled (clk baud : Nat) (os : Bool) : Bool := os && decide (16 * baud ≤ clk)

/-- round(frac(factor) * 8) before saturation (R354, R355). -/
def brsRaw (clk baud : Nat) : Nat := (16 * (clk % baud) + baud) / (2 * baud)

/-- round(frac(factor / 16) * 16) before saturation (R354). -/
def brfRaw (clk baud : Nat) : Nat := (2 * (clk % (16 * baud)) + baud) / (2 * baud)

/-- Baud(clk, baud, os) for positive clk and baud (R353 to R356). -/
def baudOf (clk baud : Nat) (os : Bool) : BaudResult :=
  if oversampled clk baud os then
    { br := clk / (16 * baud)
      brs := BitVec.ofNat 3 (min (brsRaw clk baud) 7)
      brf := BitVec.ofNat 4 (min (brfRaw clk baud) 15)
      os16 := true }
  else
    { br := clk / baud
      brs := BitVec.ofNat 3 (min (brsRaw clk baud) 7)
      brf := 0
      os16 := false }

/-- The modulation byte (R358). -/
def BaudResult.mctl (r : BaudResult) : Byte := r.brf ++ (r.brs ++ BitVec.ofBool r.os16)

/-- The 16-bit divisor (R357 refuses a larger one). -/
def BaudResult.divisor (r : BaudResult) : Half := BitVec.ofNat 16 r.br

/-- The low byte of the divisor pair (R104, R359). -/
def divisorLow (v : Half) : Byte := v.extractLsb' 0 8

/-- The high byte of the divisor pair (R104, R359). -/
def divisorHigh (v : Half) : Byte := v.extractLsb' 8 8

/-- RES after BCALC: MCTL in bits 23:16, BR in bits 15:0 (R360). -/
def BaudResult.resWord (r : BaudResult) : Word := zext32 (r.mctl ++ r.divisor)

end Sys2Proof.Machine
end

