-- ==== Sys2Proof/Machine/Operands.lean ====
section
/-! DEFINITION. The operand forms that a command takes from its context's registers, captured at Decode (R43, R147). -/

namespace Sys2Proof.Machine

/-- The clock operand of BCALC and BSET (R147). -/
def State.clkOperand (s : State) : Word := s.cur.arg0

/-- The baud operand of BCALC and BSET (R147). -/
def State.baudOperand (s : State) : Word := s.cur.arg1

/-- Baud of the context's operands (R350). -/
def State.baudResult (s : State) (os : Bool) : BaudResult := baudOf s.clkOperand.toNat s.baudOperand.toNat os

/-- A clock or baud operand of 0 (R351). -/
def State.baudIsZero (s : State) : Bool := s.clkOperand == 0 || s.baudOperand == 0

/-- A divisor above 16 bits (R357). -/
def State.baudTooLarge (s : State) (os : Bool) : Bool := decide (65535 < (s.baudResult os).br)

/-- The three control fields of PINIT, combined by bitwise OR (R147, R451). -/
def State.spiControl (s : State) : Byte :=
  s.cur.arg0.extractLsb' 0 8 ||| s.cur.arg0.extractLsb' 8 8 ||| s.cur.arg0.extractLsb' 16 8

/-- The slave address of IWREG and IRREG (R147). -/
def State.i2cAddr (s : State) : BitVec 10 := s.cur.arg0.extractLsb' 0 10

/-- The ten-bit operand of IWREG and IRREG (R147). -/
def State.i2cTen (s : State) : Bool := s.cur.arg0.getLsbD 16

/-- The count of IWREG and IRREG (R147). -/
def State.i2cCount (s : State) : Nat := (s.cur.arg1.extractLsb' 0 16).toNat

/-- The data-memory source address of IWREG (R147). -/
def State.i2cSource (s : State) : Half := s.cur.arg2.extractLsb' 0 16

/-- The byte source RES[7:0] of ISEND.R, PSEND.R and RINS.R (R145). -/
def State.resByte (s : State) : Byte := s.cur.res.extractLsb' 0 8

end Sys2Proof.Machine
end

