-- ==== Sys2Proof/Machine/Micro.lean ====
section
/-! DEFINITION. What each micro-operation does (R42), and how a command is issued and resumed (R43): the shared operations that every
meaning is written over. -/

namespace Sys2Proof.Machine

/-- What a micro-operation answers (R42): Done, Wait with no state change, or a fault. -/
inductive MicroResult
  | done (s : State)
  | wait
  | trap (t : Trap)
  deriving DecidableEq, Repr

/-! ### Micro-operations with more than one case -/

/-- GACQ (R208). -/
def State.guardAcquire (s : State) : State :=
  { s.updCur (fun c =>
      { c with gsaved := if c.gdepth = 0 then s.gie else c.gsaved, gdepth := c.gdepth + 1 }) with gie := false }

/-- GREL (R209). -/
def State.guardRelease (s : State) : State :=
  let s1 := s.updCur (fun c => { c with gdepth := c.gdepth - 1 })
  if s1.cur.gdepth = 0 then { s1 with gie := s1.cur.gsaved } else s1

/-- uFieldWrite (R316): the configuration check, then the field; a write of SWRST is a write of the hold (R311, R313). -/
def microFieldWrite (ch : Chan) (f : Field) (v : Bool) (s : State) : MicroResult :=
  if s.configBlocked ch f.role then .trap .configWhileEnabled
  else if f = .swrst then .done (s.writeHold ch v)
  else .done (s.setField ch f v)

/-- TXBUF written, with its side effect (R312). -/
def State.writeTxbuf (s : State) (ch : Chan) (v : Byte) : State :=
  (s.updCells ch (fun c => { c with txbuf := v })).setIfg ch .tx false

/-- CTL1 written whole; SWRST = 1 in the value is a hold assertion (R313, R317). -/
def State.writeCtl1 (s : State) (ch : Chan) (v : Byte) : State :=
  let s1 := s.updCells ch (fun c => { c with ctl1 := v })
  if v.getLsbD s.params.fieldPos.swrst then s1.drawVolatile ch else s1

/-- The write of uCellWrite, after its checks (R317). -/
def State.storeCell (s : State) (ch : Chan) (role : Role) (v : Half) : State :=
  let byte : Byte := v.setWidth 8
  match role with
  | .ctl0 => s.updCells ch (fun c => { c with ctl0 := byte })
  | .ctl1 => s.writeCtl1 ch byte
  | .br0 => s.updCells ch (fun c => { c with br0 := byte })
  | .br1 => s.updCells ch (fun c => { c with br1 := byte })
  | .mctl => { s with serial := { s.serial with mctl := s.serial.mctl.set ch.inst byte } }
  | .stat => s.setField ch .listen (byte.getLsbD s.params.fieldPos.listen)
  | .rxbuf => s
  | .txbuf => s.writeTxbuf ch byte
  | .i2coa => { s with serial := { s.serial with i2coa := s.serial.i2coa.set ch.inst v } }
  | .i2csa => { s with serial := { s.serial with i2csa := s.serial.i2csa.set ch.inst v } }
  | .i2cie => { s with serial := { s.serial with i2cie := s.serial.i2cie.set ch.inst byte } }

/-- uCellWrite (R317). -/
def microCellWrite (ch : Chan) (role : Role) (v : Half) (s : State) : MicroResult :=
  if role.hasCell ch.kind then
    if s.configBlocked ch role then .trap .configWhileEnabled else .done (s.storeCell ch role v)
  else .done s

/-- uCellRead (R318). -/
def microCellRead (ch : Chan) (role : Role) (s : State) : MicroResult :=
  if role.hasCell ch.kind then
    let s1 := s.setRes (zext32 (s.cellValue ch role))
    .done (if role = .rxbuf then s1.setIfg ch .rx false else s1)
  else .done s

/-- uPoll (R319). -/
def microPoll (ch : Chan) (d : Dir) (s : State) : MicroResult := if s.ifg ch d then .done s else .wait

/-- uRxRes (R322). -/
def State.rxToRes (s : State) (ch : Chan) : State := (s.setRes (zext32 (s.cells ch).rxbuf)).setIfg ch .rx false

/-! ### Ring-buffer operations (R504 to R510) -/

/-- Insert (R504). -/
def Ring.insert (r : Ring) (v : Byte) : Ring :=
  { r with
    ovf := r.ovf || r.full
    rd := match r.rd with | none => some 0 | some i => some i
    buf := r.buf.set r.wr v
    wr := (r.wr + 1) % r.buf.length }

/-- The value RGET returns (R506). -/
def Ring.front (r : Ring) : Byte :=
  match r.rd with
  | none => 0
  | some i => r.buf.getD i 0

/-- The buffer after RGET (R506). -/
def Ring.advance (r : Ring) : Ring :=
  match r.rd with
  | none => r
  | some i => { r with rd := some ((i + 1) % r.buf.length) }

/-- RCLROVF (R509). -/
def Ring.clearOvf (r : Ring) : Ring := { r with ovf := false }

/-- RCLR (R510). -/
def Ring.clear (r : Ring) : Ring := { r with wr := 0, rd := none, ovf := false }

/-- An access to ring buffer b: the shared-access check first (R511), then f on the checked buffer in one step. -/
def ringAccess (b : Nat) (f : Ring → State → State) (s : State) : MicroResult :=
  match s.rings[b]? with
  | none => .done s
  | some r =>
    match r.share s.ctx s.gie with
    | none => .trap .unguardedSharedRb
    | some r1 => .done (f r1 s)

/-- uRxPush (R323): nothing happens where the shared-access check fails. -/
def microRxPush (ch : Chan) (b : Nat) (s : State) : MicroResult :=
  ringAccess b (fun r s0 => (s0.setRing b (r.insert (s0.cells ch).rxbuf)).setIfg ch .rx false) s

/-- RES from a timer channel (R262, R264). -/
def State.timerToRes (s : State) (t c : Nat) (f : TimerChan → Word) : State :=
  match s.timerChan? t c with
  | some ch => s.setRes (f ch)
  | none => s

/-! ### The micro-operations -/

/-- The control micro-operations: those of HALT, RETI, JMP, BZ and BNZ (R200). -/
def MicroOp.isControl : MicroOp → Bool
  | .halt | .returnFromIsr | .jump _ | .branchZero _ | .branchNonzero _ => true
  | _ => false

/-- Exec(m) (R43). -/
def MicroOp.run (m : MicroOp) (s : State) : MicroResult :=
  match m with
  | .nop => .done s
  | .halt => .done { s with status := .halted }
  | .setArg k v => .done (s.setArg k v)
  | .setArgHigh k v => .done (s.setArg k (v ++ (s.cur.arg k).extractLsb' 0 16))
  | .argFromRes k => .done (s.setArg k s.cur.res)
  | .storeArg k addr => .done (s.writeByte addr ((s.cur.arg k).extractLsb' 0 8))
  | .loadByte addr => .done (s.setRes (zext32 (s.readByte addr)))
  | .guardAcquire => .done s.guardAcquire
  | .guardRelease => .done s.guardRelease
  | .setGie v => .done { s with gie := v }
  | .returnFromIsr => .done s.returnFromIsr
  | .jump target => .done (s.setCp target.toNat)
  | .branchZero target => .done (s.setCp (if s.cur.res = 0 then target.toNat else s.cur.cp + 1))
  | .branchNonzero target => .done (s.setCp (if s.cur.res ≠ 0 then target.toNat else s.cur.cp + 1))
  | .timerInit t mode div src => .done (s.updTimer t (fun tm => { tm with mode := mode, div := div, src := src }))
  | .timerMode t mode => .done (s.updTimer t (fun tm => { tm with mode := mode }))
  | .timerReset t => .done (s.updTimer t (fun tm => { tm with count := 0 }))
  | .timerCapture t c cm scs => .done (s.updTimerChan t c (fun ch => { ch with cm := cm, scs := scs }))
  | .timerInput t c src => .done (s.updTimerChan t c (fun ch => { ch with ccis := src }))
  | .timerOutmod t c om => .done (s.updTimerChan t c (fun ch => { ch with outmod := om }))
  | .timerSetValue t c v => .done (s.updTimerChan t c (fun ch => { ch with value := v }))
  | .timerGetValue t c => .done (s.timerToRes t c (fun ch => zext32 ch.value))
  | .timerSetCcie t c en => .done (s.updTimerChan t c (fun ch => { ch with ccie := en }))
  | .timerGetCov t c => .done (s.timerToRes t c (fun ch => bitWord ch.cov))
  | .timerClearCov t c => .done (s.updTimerChan t c (fun ch => { ch with cov := false }))
  | .hold ch v => .done (s.writeHold ch v)
  | .fieldWrite ch f v => microFieldWrite ch f v s
  | .cellWrite ch role v => microCellWrite ch role v s
  | .cellRead ch role => microCellRead ch role s
  | .poll ch d => microPoll ch d s
  | .txByte ch v => .done (s.writeTxbuf ch v)
  | .txMem ch addr => .done (s.writeTxbuf ch (s.readByte addr))
  | .rxRes ch => .done (s.rxToRes ch)
  | .rxPush ch b => microRxPush ch b s
  | .setIe ch d en => .done (s.setIe ch d en)
  | .getIfg ch d => .done (s.setRes (bitWord (s.ifg ch d)))
  | .fieldRead ch f => .done (s.setRes (bitWord (s.field ch f)))
  | .baud clk rate os => .done (s.setRes (baudOf clk.toNat rate.toNat os).resWord)
  | .ringInsert b v => ringAccess b (fun r s0 => s0.setRing b (r.insert v)) s
  | .ringGet b => ringAccess b (fun r s0 => (s0.setRing b r.advance).setRes (zext32 r.front)) s
  | .ringEmpty b => ringAccess b (fun r s0 => (s0.setRing b r).setRes (bitWord r.isEmpty)) s
  | .ringOvf b => ringAccess b (fun r s0 => (s0.setRing b r).setRes (bitWord r.ovf)) s
  | .ringClearOvf b => ringAccess b (fun r s0 => s0.setRing b r.clearOvf) s
  | .ringClear b => ringAccess b (fun r s0 => s0.setRing b r.clear) s

/-! ### Issuing and resuming a command (R43) -/

/-- useq[k] and word[k] written. -/
def State.loadSeq (s : State) (k : Ctx) (q : List MicroOp) (w : Word) : State :=
  s.updCtx k (fun c => { c with useq := q, word := w })

/-- After a micro-operation is Done: the rest of the command stays in useq[k], and cp[k] advances when nothing is left and the
micro-operation is not a control one (R43). -/
def State.retire (s : State) (k : Ctx) (m : MicroOp) (rest : List MicroOp) (w : Word) : State :=
  (s.loadSeq k rest w).updCtx k (fun c => if rest.isEmpty && !m.isControl then { c with cp := c.cp + 1 } else c)

/-- The sequencer runs the head of a command's micro-operations, `w` being the command's word (R43, R600). A fault leaves useq[k] and
word[k] as they were, for no state but the fault record changes in the step that raises (R14; log 10). -/
def runHead (w : Word) (q : List MicroOp) (s : State) : State :=
  match q with
  | [] => s
  | m :: rest =>
    match m.run s with
    | .done s1 => s1.retire s.ctx m rest w
    | .wait => s.loadSeq s.ctx (m :: rest) w
    | .trap t => s.raise t w

/-- A command is decoded against the state and its first micro-operation runs: the Decode checks in order (R150), then the
micro-operations (R43). -/
def issue (i : Instr) (checks : List (Bool × Trap)) (q : List MicroOp) (s : State) : Host.Outcome State Fault Refusal :=
  match firstTrap checks with
  | some t => .next (s.raise t (encode i))
  | none => .next (runHead (encode i) q s)

/-- The command in progress runs its next micro-operation (R43). -/
def resume (s : State) : State := runHead s.cur.word s.cur.useq s

end Sys2Proof.Machine
end

