-- ==== Sys2Proof/Machine/BaudUnit.lean ====
section
/-! DEFINITION. The U3 baud-rate calculator commands (R360, R361). -/

namespace Sys2Proof.Machine

/-- The three writes of BSET, in their order (R361). -/
def bsetOps (ch : Chan) (r : BaudResult) : List MicroOp :=
  [.cellWrite ch .br0 ((divisorLow r.divisor).setWidth 16),
   .cellWrite ch .br1 ((divisorHigh r.divisor).setWidth 16),
   .cellWrite ch .mctl (r.mctl.setWidth 16)]

/-- BCALC os (R360): touches no serial cell. -/
def execBcalc (os : Bool) (s : State) : Host.Outcome State Fault Refusal :=
  issue (.bcalc os) [(s.baudIsZero, .baudZero), (s.baudTooLarge os, .baudRange)]
    [.baud s.clkOperand s.baudOperand os] s

/-- BSET ch, os (R361): needs kind A; the value faults are Decode faults, the three writes are configuration writes. -/
def execBset (ch : Chan) (os : Bool) (s : State) : Host.Outcome State Fault Refusal :=
  issue (.bset ch os) [(s.chanAbsent ch || ch.kind == .b, .instanceRange), (s.baudIsZero, .baudZero),
      (s.baudTooLarge os, .baudRange)]
    (bsetOps ch (s.baudResult os)) s

end Sys2Proof.Machine
end

