-- ==== Sys2Proof/Machine/Control.lean ====
section
/-! DEFINITION. The U0 control commands (R201 to R215). -/

namespace Sys2Proof.Machine

/-- NOP (R201). -/
def execNop (s : State) : Host.Outcome State Fault Refusal :=
  issue (.nop) []
    [.nop] s

/-- HALT (R202): only in Main, and only with the guard released. -/
def execHalt (s : State) : Host.Outcome State Fault Refusal :=
  issue (.halt) [(s.ctx == .isr, .context), (s.guardHeld, .guardUnbalanced)]
    [.halt] s

/-- LDLO ak, imm16 (R203): the upper half is cleared. -/
def execLdlo (k : ArgReg) (imm : Half) (s : State) : Host.Outcome State Fault Refusal :=
  issue (.ldlo k imm) []
    [.setArg k (zext32 imm)] s

/-- LDHI ak, imm16 (R204): the lower half is kept. -/
def execLdhi (k : ArgReg) (imm : Half) (s : State) : Host.Outcome State Fault Refusal :=
  issue (.ldhi k imm) []
    [.setArgHigh k imm] s

/-- MOVRES ak (R205). -/
def execMovres (k : ArgReg) (s : State) : Host.Outcome State Fault Refusal :=
  issue (.movres k) []
    [.argFromRes k] s

/-- STB ak, addr16 (R206). -/
def execStb (k : ArgReg) (addr : Half) (s : State) : Host.Outcome State Fault Refusal :=
  issue (.stb k addr) []
    [.storeArg k addr] s

/-- LDB addr16 (R207). -/
def execLdb (addr : Half) (s : State) : Host.Outcome State Fault Refusal :=
  issue (.ldb addr) []
    [.loadByte addr] s

/-- GACQ (R208): the guard nests at most 255 deep. -/
def execGacq (s : State) : Host.Outcome State Fault Refusal :=
  issue (.gacq) [(s.guardFull, .guardUnbalanced)]
    [.guardAcquire] s

/-- GREL (R209): a release needs an acquire. -/
def execGrel (s : State) : Host.Outcome State Fault Refusal :=
  issue (.grel) [(!s.guardHeld, .guardUnbalanced)]
    [.guardRelease] s

/-- EINT (R210). -/
def execEint (s : State) : Host.Outcome State Fault Refusal :=
  issue (.eint) []
    [.setGie true] s

/-- DINT (R211). -/
def execDint (s : State) : Host.Outcome State Fault Refusal :=
  issue (.dint) []
    [.setGie false] s

/-- RETI (R212, R623): only in Isr, and only with the guard released. -/
def execReti (s : State) : Host.Outcome State Fault Refusal :=
  issue (.reti) [(s.ctx == .main, .context), (s.guardHeld, .guardUnbalanced)]
    [.returnFromIsr] s

/-- JMP target (R213). -/
def execJmp (target : Half) (s : State) : Host.Outcome State Fault Refusal :=
  issue (.jmp target) []
    [.jump target] s

/-- BZ target (R214). -/
def execBz (target : Half) (s : State) : Host.Outcome State Fault Refusal :=
  issue (.bz target) []
    [.branchZero target] s

/-- BNZ target (R215). -/
def execBnz (target : Half) (s : State) : Host.Outcome State Fault Refusal :=
  issue (.bnz target) []
    [.branchNonzero target] s

end Sys2Proof.Machine
end

