-- ==== Sys2Proof/Machine/I2cMaster.lean ====
section
/-! DEFINITION. The U4 I2C master commands (R401 to R411). -/

namespace Sys2Proof.Machine

/-- The instance check of the I2C commands: the channel is present and of kind B (R303). -/
def i2cChecks (ch : Chan) (s : State) : List (Bool × Trap) :=
  [(s.chanAbsent ch || ch.kind == .a, .instanceRange)]

/-- PREP(ch, addr, ten, tr): hold, addressing mode, slave address, direction, release (R401). -/
def prepOps (ch : Chan) (addr : BitVec 10) (ten tr : Bool) : List MicroOp :=
  [.hold ch true,
   .fieldWrite ch .sla10 ten,
   .cellWrite ch .i2csa (addr.setWidth 16),
   .fieldWrite ch .tr tr,
   .hold ch false]

/-- The data bytes of IWREG, n of them from data-memory address src on, modulo 65536 (R105, R409). -/
def iwregData (ch : Chan) (src : Half) (n : Nat) : List MicroOp :=
  (List.range n).flatMap (fun i => [.poll ch .tx, .txMem ch (src + BitVec.ofNat 16 i)])

/-- The micro-operations of IWREG (R409). -/
def iwregOps (ch : Chan) (addr : BitVec 10) (ten : Bool) (reg : Byte) (src : Half) (n : Nat) : List MicroOp :=
  prepOps ch addr ten true ++
  [.fieldWrite ch .txstt true, .poll ch .tx, .txByte ch reg] ++
  iwregData ch src n ++
  [.poll ch .tx, .fieldWrite ch .txstp true]

/-- The receiving end of IRREG: the stop is queued before the last byte; for a single byte, at once after the repeated start (R410,
R412). -/
def irregReceive (ch : Chan) (b n : Nat) : List MicroOp :=
  if n = 1 then [.fieldWrite ch .txstp true, .poll ch .rx, .rxPush ch b]
  else (List.range n).flatMap (fun i =>
    if i + 1 = n then [.fieldWrite ch .txstp true, .poll ch .rx, .rxPush ch b] else [.poll ch .rx, .rxPush ch b])

/-- The micro-operations of IRREG (R410); the direction is switched without the hold. -/
def irregOps (ch : Chan) (addr : BitVec 10) (ten : Bool) (reg : Byte) (b n : Nat) : List MicroOp :=
  prepOps ch addr ten true ++
  [.fieldWrite ch .txstt true, .poll ch .tx, .txByte ch reg, .poll ch .tx, .fieldWrite ch .tr false,
   .fieldWrite ch .txstt true] ++
  irregReceive ch b n

/-- IPTX ch, addr, 7|10 (R403). -/
def execIptx (ch : Chan) (addr : BitVec 10) (ten : Bool) (s : State) : Host.Outcome State Fault Refusal :=
  issue (.iptx ch addr ten) (i2cChecks ch s)
    (prepOps ch addr ten true) s

/-- IPRX ch, addr, 7|10 (R404). -/
def execIprx (ch : Chan) (addr : BitVec 10) (ten : Bool) (s : State) : Host.Outcome State Fault Refusal :=
  issue (.iprx ch addr ten) (i2cChecks ch s)
    (prepOps ch addr ten false) s

/-- ISTT ch (R405). -/
def execIstt (ch : Chan) (s : State) : Host.Outcome State Fault Refusal :=
  issue (.istt ch) (i2cChecks ch s)
    [.fieldWrite ch .txstt true] s

/-- ISTP ch (R406). -/
def execIstp (ch : Chan) (s : State) : Host.Outcome State Fault Refusal :=
  issue (.istp ch) (i2cChecks ch s)
    [.fieldWrite ch .txstp true] s

/-- IGSTT ch (R407). -/
def execIgstt (ch : Chan) (s : State) : Host.Outcome State Fault Refusal :=
  issue (.igstt ch) (i2cChecks ch s)
    [.fieldRead ch .txstt] s

/-- ISEND ch, byte (R408). -/
def execIsend (ch : Chan) (byte : Byte) (s : State) : Host.Outcome State Fault Refusal :=
  issue (.isend ch byte) (i2cChecks ch s)
    [.poll ch .tx, .txByte ch byte] s

/-- ISEND ch, RES (R408): the byte is captured at Decode. -/
def execIsendR (ch : Chan) (s : State) : Host.Outcome State Fault Refusal :=
  issue (.isendR ch) (i2cChecks ch s)
    [.poll ch .tx, .txByte ch s.resByte] s

/-- IWREG ch, reg (R409): a count of 0 is allowed. -/
def execIwreg (ch : Chan) (reg : Byte) (s : State) : Host.Outcome State Fault Refusal :=
  issue (.iwreg ch reg) (i2cChecks ch s)
    (iwregOps ch s.i2cAddr s.i2cTen reg s.i2cSource s.i2cCount) s

/-- IRREG ch, reg (R410): a count of 0 is a Decode fault. -/
def execIrreg (ch : Chan) (reg : Byte) (s : State) : Host.Outcome State Fault Refusal :=
  issue (.irreg ch reg) (i2cChecks ch s ++ [(s.i2cCount == 0, .i2cCountZero)])
    (irregOps ch s.i2cAddr s.i2cTen reg (s.i2cRb ch) s.i2cCount) s

/-- IRECV ch (R411): RES is not changed. -/
def execIrecv (ch : Chan) (s : State) : Host.Outcome State Fault Refusal :=
  issue (.irecv ch) (i2cChecks ch s)
    [.poll ch .rx, .rxPush ch (s.i2cRb ch)] s

end Sys2Proof.Machine
end

