-- ==== Sys2Proof/Machine/RingUnit.lean ====
section
/-! DEFINITION. The U6 ring-buffer commands (R505 to R510). -/

namespace Sys2Proof.Machine

/-- RINS b, byte (R505). -/
def execRins (b : Fin 16) (byte : Byte) (s : State) : Host.Outcome State Fault Refusal :=
  issue (.rins b byte) [(s.ringMissing b, .instanceRange)]
    [.ringInsert b byte] s

/-- RINS b, RES (R505): the byte is captured at Decode. -/
def execRinsR (b : Fin 16) (s : State) : Host.Outcome State Fault Refusal :=
  issue (.rinsR b) [(s.ringMissing b, .instanceRange)]
    [.ringInsert b s.resByte] s

/-- RGET b (R506). -/
def execRget (b : Fin 16) (s : State) : Host.Outcome State Fault Refusal :=
  issue (.rget b) [(s.ringMissing b, .instanceRange)]
    [.ringGet b] s

/-- REMPTY b (R507). -/
def execRempty (b : Fin 16) (s : State) : Host.Outcome State Fault Refusal :=
  issue (.rempty b) [(s.ringMissing b, .instanceRange)]
    [.ringEmpty b] s

/-- ROVF b (R508). -/
def execRovf (b : Fin 16) (s : State) : Host.Outcome State Fault Refusal :=
  issue (.rovf b) [(s.ringMissing b, .instanceRange)]
    [.ringOvf b] s

/-- RCLROVF b (R509). -/
def execRclrovf (b : Fin 16) (s : State) : Host.Outcome State Fault Refusal :=
  issue (.rclrovf b) [(s.ringMissing b, .instanceRange)]
    [.ringClearOvf b] s

/-- RCLR b (R510): the data and the tracking bits stay. -/
def execRclr (b : Fin 16) (s : State) : Host.Outcome State Fault Refusal :=
  issue (.rclr b) [(s.ringMissing b, .instanceRange)]
    [.ringClear b] s

end Sys2Proof.Machine
end

