-- ==== Sys2Proof/Machine/SerialEngine.lean ====
section
/-! DEFINITION. The U2 serial engine commands (R324 to R329). -/

namespace Sys2Proof.Machine

/-- SENA ch (R324). -/
def execSena (ch : Chan) (s : State) : Host.Outcome State Fault Refusal :=
  issue (.sena ch) [(s.chanAbsent ch, .instanceRange)]
    [.hold ch false] s

/-- SDIS ch (R325): a hold assertion, even of a held channel. -/
def execSdis (ch : Chan) (s : State) : Host.Outcome State Fault Refusal :=
  issue (.sdis ch) [(s.chanAbsent ch, .instanceRange)]
    [.hold ch true] s

/-- SIE ch, d, en (R326). -/
def execSie (ch : Chan) (d : Dir) (en : Bool) (s : State) : Host.Outcome State Fault Refusal :=
  issue (.sie ch d en) [(s.chanAbsent ch, .instanceRange)]
    [.setIe ch d en] s

/-- SIFG ch, d (R327). -/
def execSifg (ch : Chan) (d : Dir) (s : State) : Host.Outcome State Fault Refusal :=
  issue (.sifg ch d) [(s.chanAbsent ch, .instanceRange)]
    [.getIfg ch d] s

/-- SWR ch, role, imm (R328): an immediate above a byte for a byte role is reserved, also where the role is no cell (R149, log 16). -/
def execSwr (ch : Chan) (role : Role) (value : Half) (s : State) : Host.Outcome State Fault Refusal :=
  issue (.swr ch role value) [(!(Instr.swr ch role value).wellFormed, .reservedEncoding), (s.chanAbsent ch, .instanceRange)]
    [.cellWrite ch role value] s

/-- SRD ch, role (R329): a role that is no cell leaves RES unchanged. -/
def execSrd (ch : Chan) (role : Role) (s : State) : Host.Outcome State Fault Refusal :=
  issue (.srd ch role) [(s.chanAbsent ch, .instanceRange)]
    [.cellRead ch role] s

end Sys2Proof.Machine
end

