-- ==== Sys2Proof/Machine/SpiMaster.lean ====
section
/-! DEFINITION. The U5 SPI master commands (R451 to R457). -/

namespace Sys2Proof.Machine

/-- The micro-operations of PINIT: disable, the one control byte, the divisor pair, enable (R451). -/
def pinitOps (ch : Chan) (control : Byte) (divisor : Half) : List MicroOp :=
  [.hold ch true,
   .cellWrite ch .ctl0 (control.setWidth 16),
   .cellWrite ch .br0 ((divisorLow divisor).setWidth 16),
   .cellWrite ch .br1 ((divisorHigh divisor).setWidth 16),
   .hold ch false]

/-- PINIT ch, div16 (R451). -/
def execPinit (ch : Chan) (divisor : Half) (s : State) : Host.Outcome State Fault Refusal :=
  issue (.pinit ch divisor) [(s.chanAbsent ch, .instanceRange)]
    (pinitOps ch s.spiControl divisor) s

/-- PSEND ch, byte (R452). -/
def execPsend (ch : Chan) (byte : Byte) (s : State) : Host.Outcome State Fault Refusal :=
  issue (.psend ch byte) [(s.chanAbsent ch, .instanceRange)]
    [.poll ch .tx, .txByte ch byte] s

/-- PSEND ch, RES (R452): the byte is captured at Decode. -/
def execPsendR (ch : Chan) (s : State) : Host.Outcome State Fault Refusal :=
  issue (.psendR ch) [(s.chanAbsent ch, .instanceRange)]
    [.poll ch .tx, .txByte ch s.resByte] s

/-- PRECV ch (R453): no dummy byte is sent. -/
def execPrecv (ch : Chan) (s : State) : Host.Outcome State Fault Refusal :=
  issue (.precv ch) [(s.chanAbsent ch, .instanceRange)]
    [.poll ch .rx, .rxRes ch] s

/-- PLOOP ch, en (R454). -/
def execPloop (ch : Chan) (en : Bool) (s : State) : Host.Outcome State Fault Refusal :=
  issue (.ploop ch en) [(s.chanAbsent ch, .instanceRange)]
    [.fieldWrite ch .listen en] s

/-- PGLOOP ch (R455). -/
def execPgloop (ch : Chan) (s : State) : Host.Outcome State Fault Refusal :=
  issue (.pgloop ch) [(s.chanAbsent ch, .instanceRange)]
    [.fieldRead ch .listen] s

/-- PGFE ch (R456): the flag is not cleared. -/
def execPgfe (ch : Chan) (s : State) : Host.Outcome State Fault Refusal :=
  issue (.pgfe ch) [(s.chanAbsent ch, .instanceRange)]
    [.fieldRead ch .fe] s

/-- PGOE ch (R457): the flag is not cleared. -/
def execPgoe (ch : Chan) (s : State) : Host.Outcome State Fault Refusal :=
  issue (.pgoe ch) [(s.chanAbsent ch, .instanceRange)]
    [.fieldRead ch .oe] s

end Sys2Proof.Machine
end

