-- ==== Sys2Proof/Machine/TimerUnit.lean ====
section
/-! DEFINITION. The U1 timer capture/compare commands (R255 to R265). -/

namespace Sys2Proof.Machine

/-- The Decode checks of the channel commands: the timer, then the channel (R150, R254). -/
def channelChecks (t c : Fin 16) (s : State) : List (Bool × Trap) :=
  [(s.timerMissing t, .instanceRange), (s.channelMissing t c, .channelRange)]

/-- TINIT t, mode, div, src (R255): one atomic write of the three fields. -/
def execTinit (t : Fin 16) (mode : TimerMode) (div : Divider) (src : ClockSource) (s : State) : Host.Outcome State Fault Refusal :=
  issue (.tinit t mode div src) [(s.timerMissing t, .instanceRange)]
    [.timerInit t mode div src] s

/-- TMODE t, mode (R256). -/
def execTmode (t : Fin 16) (mode : TimerMode) (s : State) : Host.Outcome State Fault Refusal :=
  issue (.tmode t mode) [(s.timerMissing t, .instanceRange)]
    [.timerMode t mode] s

/-- TRESET t (R257). -/
def execTreset (t : Fin 16) (s : State) : Host.Outcome State Fault Refusal :=
  issue (.treset t) [(s.timerMissing t, .instanceRange)]
    [.timerReset t] s

/-- TCAPM t, c, cm, scs (R258). -/
def execTcapm (t c : Fin 16) (cm : CaptureMode) (scs : Bool) (s : State) : Host.Outcome State Fault Refusal :=
  issue (.tcapm t c cm scs) (channelChecks t c s)
    [.timerCapture t c cm scs] s

/-- TCCIS t, c, src (R259). -/
def execTccis (t c : Fin 16) (src : CaptureInput) (s : State) : Host.Outcome State Fault Refusal :=
  issue (.tccis t c src) (channelChecks t c s)
    [.timerInput t c src] s

/-- TOUTM t, c, om (R260): accepted in every mode (R266). -/
def execToutm (t c : Fin 16) (om : BitVec 3) (s : State) : Host.Outcome State Fault Refusal :=
  issue (.toutm t c om) (channelChecks t c s)
    [.timerOutmod t c om] s

/-- TSETCMP t, c, imm16 (R261): allowed in capture mode too. -/
def execTsetcmp (t c : Fin 16) (value : Half) (s : State) : Host.Outcome State Fault Refusal :=
  issue (.tsetcmp t c value) (channelChecks t c s)
    [.timerSetValue t c value] s

/-- TGETCAP t, c (R262): no flag changes. -/
def execTgetcap (t c : Fin 16) (s : State) : Host.Outcome State Fault Refusal :=
  issue (.tgetcap t c) (channelChecks t c s)
    [.timerGetValue t c] s

/-- TCCIE t, c, en (R263): stored, and no gate of interrupt entry (R621). -/
def execTccie (t c : Fin 16) (en : Bool) (s : State) : Host.Outcome State Fault Refusal :=
  issue (.tccie t c en) (channelChecks t c s)
    [.timerSetCcie t c en] s

/-- TGETCOV t, c (R264). -/
def execTgetcov (t c : Fin 16) (s : State) : Host.Outcome State Fault Refusal :=
  issue (.tgetcov t c) (channelChecks t c s)
    [.timerGetCov t c] s

/-- TCLRCOV t, c (R265). -/
def execTclrcov (t c : Fin 16) (s : State) : Host.Outcome State Fault Refusal :=
  issue (.tclrcov t c) (channelChecks t c s)
    [.timerClearCov t c] s

end Sys2Proof.Machine
end

