-- ==== Sys2Proof/Machine/Dispatch.lean ====
section
/-! DEFINITION. The meaning of every command, one arm each: what the sequencer's step does when the command has been fetched. -/

namespace Sys2Proof.Machine

def exec (i : Instr) (s : State) : Host.Outcome State Fault Refusal :=
  match i with
  -- U0 control
  | .nop => Sys2Proof.Machine.execNop s
  | .halt => Sys2Proof.Machine.execHalt s
  | .ldlo k imm => Sys2Proof.Machine.execLdlo k imm s
  | .ldhi k imm => Sys2Proof.Machine.execLdhi k imm s
  | .movres k => Sys2Proof.Machine.execMovres k s
  | .stb k addr => Sys2Proof.Machine.execStb k addr s
  | .ldb addr => Sys2Proof.Machine.execLdb addr s
  | .gacq => Sys2Proof.Machine.execGacq s
  | .grel => Sys2Proof.Machine.execGrel s
  | .eint => Sys2Proof.Machine.execEint s
  | .dint => Sys2Proof.Machine.execDint s
  | .reti => Sys2Proof.Machine.execReti s
  | .jmp target => Sys2Proof.Machine.execJmp target s
  | .bz target => Sys2Proof.Machine.execBz target s
  | .bnz target => Sys2Proof.Machine.execBnz target s
  -- U1 timer
  | .tinit t mode div src => Sys2Proof.Machine.execTinit t mode div src s
  | .tmode t mode => Sys2Proof.Machine.execTmode t mode s
  | .treset t => Sys2Proof.Machine.execTreset t s
  | .tcapm t c cm scs => Sys2Proof.Machine.execTcapm t c cm scs s
  | .tccis t c src => Sys2Proof.Machine.execTccis t c src s
  | .toutm t c om => Sys2Proof.Machine.execToutm t c om s
  | .tsetcmp t c value => Sys2Proof.Machine.execTsetcmp t c value s
  | .tgetcap t c => Sys2Proof.Machine.execTgetcap t c s
  | .tccie t c en => Sys2Proof.Machine.execTccie t c en s
  | .tgetcov t c => Sys2Proof.Machine.execTgetcov t c s
  | .tclrcov t c => Sys2Proof.Machine.execTclrcov t c s
  -- U2 serial engine
  | .sena ch => Sys2Proof.Machine.execSena ch s
  | .sdis ch => Sys2Proof.Machine.execSdis ch s
  | .sie ch d en => Sys2Proof.Machine.execSie ch d en s
  | .sifg ch d => Sys2Proof.Machine.execSifg ch d s
  | .swr ch role value => Sys2Proof.Machine.execSwr ch role value s
  | .srd ch role => Sys2Proof.Machine.execSrd ch role s
  -- U3 baud calculator
  | .bcalc os => Sys2Proof.Machine.execBcalc os s
  | .bset ch os => Sys2Proof.Machine.execBset ch os s
  -- U4 I2C master
  | .iptx ch addr ten => Sys2Proof.Machine.execIptx ch addr ten s
  | .iprx ch addr ten => Sys2Proof.Machine.execIprx ch addr ten s
  | .istt ch => Sys2Proof.Machine.execIstt ch s
  | .istp ch => Sys2Proof.Machine.execIstp ch s
  | .igstt ch => Sys2Proof.Machine.execIgstt ch s
  | .isend ch byte => Sys2Proof.Machine.execIsend ch byte s
  | .isendR ch => Sys2Proof.Machine.execIsendR ch s
  | .iwreg ch reg => Sys2Proof.Machine.execIwreg ch reg s
  | .irreg ch reg => Sys2Proof.Machine.execIrreg ch reg s
  | .irecv ch => Sys2Proof.Machine.execIrecv ch s
  -- U5 SPI master
  | .pinit ch divisor => Sys2Proof.Machine.execPinit ch divisor s
  | .psend ch byte => Sys2Proof.Machine.execPsend ch byte s
  | .psendR ch => Sys2Proof.Machine.execPsendR ch s
  | .precv ch => Sys2Proof.Machine.execPrecv ch s
  | .ploop ch en => Sys2Proof.Machine.execPloop ch en s
  | .pgloop ch => Sys2Proof.Machine.execPgloop ch s
  | .pgfe ch => Sys2Proof.Machine.execPgfe ch s
  | .pgoe ch => Sys2Proof.Machine.execPgoe ch s
  -- U6 ring buffer
  | .rins b byte => Sys2Proof.Machine.execRins b byte s
  | .rinsR b => Sys2Proof.Machine.execRinsR b s
  | .rget b => Sys2Proof.Machine.execRget b s
  | .rempty b => Sys2Proof.Machine.execRempty b s
  | .rovf b => Sys2Proof.Machine.execRovf b s
  | .rclrovf b => Sys2Proof.Machine.execRclrovf b s
  | .rclr b => Sys2Proof.Machine.execRclr b s

end Sys2Proof.Machine
end

