-- ==== Sys2Proof/Machine/Environment.lean ====
section
/-! DEFINITION. The steps of the environment: the serial hardware (R330 to R336) and the timer hardware (R280 to R283). A step that is
not enabled leaves the state as it is (log 3). -/

namespace Sys2Proof.Machine

/-- The environment may act on the channel: it is present and not held (R330). -/
def State.live (s : State) (ch : Chan) : Bool := !s.chanAbsent ch && !s.held ch

/-- The RX-byte step (R332). -/
def State.receiveByte (s : State) (ch : Chan) (v : Byte) : State :=
  let s1 := if s.ifg ch .rx then s.setField ch .oe true else s
  (s1.updCells ch (fun c => { c with rxbuf := v })).setIfg ch .rx true

/-- The capture step of a timer channel that is in capture mode (R253, R281). -/
def State.captureStep (s : State) (t c : Nat) (overflow : Bool) : State :=
  match s.timers[t]? with
  | none => s
  | some tm => s.updTimerChan t c (fun ch =>
      if ch.cm = .none then ch else { ch with value := tm.count, cov := ch.cov || overflow })

/-- A step of the environment (R280, R281, R331 to R335). -/
def envStep (e : EnvStep) (s : State) : State :=
  match e with
  | .txReady ch => if s.live ch then s.setIfg ch .tx true else s
  | .rxByte ch v => if s.live ch then s.receiveByte ch v else s
  | .startDone ch => if s.live ch && ch.kind == .b && s.field ch .txstt then s.setField ch .txstt false else s
  | .stopDone ch => if s.live ch && ch.kind == .b && s.field ch .txstp then s.setField ch .txstp false else s
  | .status ch v => if s.live ch then s.setStatusBits ch v else s
  | .count t v => s.updTimer t (fun tm => if tm.mode = .stop then tm else { tm with count := v })
  | .capture t c overflow => s.captureStep t c overflow

end Sys2Proof.Machine
end

