-- ==== Sys2Proof/Machine/Sequencer.lean ====
section
/-! DEFINITION. The step of the sequencer (R43), the turn of each agent (R44) and the place a program word is fetched from (R100). -/

namespace Sys2Proof.Machine

/-- The word at the command pointer of the current context, if the program reaches that far (R43). -/
def fetchWord (s : State) : Option Word := (s.prog s.ctx)[s.cur.cp]?

/-- Fetch, decode and begin the next command (R43): FETCH_RANGE past the program's end, with word 0 (R600); RESERVED_ENCODING for a
word that is no command (R148, R149). -/
def beginCommand (s : State) : Host.Outcome State Fault Refusal :=
  match fetchWord s with
  | none => .next (s.raise .fetchRange 0)
  | some w =>
    match decode w with
    | .error _ => .next (s.raise .reservedEncoding w)
    | .ok i => exec i s

/-- The sequencer's step (R43): enabled while status is Running; it goes on with a command in progress, or begins the next. -/
def sequencerStep (s : State) : Host.Outcome State Fault Refusal :=
  match s.status with
  | .halted => .fault .halted
  | .faulted => .fault .faulted
  | .running => if s.cur.useq.isEmpty then beginCommand s else .next (resume s)

/-- Whose turn it is: the first of the agenda, and the sequencer's when the agenda is used up (R44, log 2). -/
def State.nextTurn (s : State) : Turn :=
  match s.agenda with
  | [] => .sequencer
  | t :: _ => t

/-- `s` with that turn spent. When the agenda is used up, the next interlude is drawn: what the agents do between the turn of the
sequencer that is taken now and its next (R44, R45, log 2). -/
def State.spendTurn (s : State) : State :=
  match s.agenda with
  | [] => { s with agenda := Config.interlude s.interludeCount, interludeCount := s.interludeCount + 1 }
  | _ :: rest => { s with agenda := rest }

/-- One agent's turn (R44); a turn that is not enabled changes nothing (log 3). -/
def takeTurn (t : Turn) (s : State) : Host.Outcome State Fault Refusal :=
  match t with
  | .sequencer => sequencerStep s
  | .interrupt => .next (if s.entryEnabled then s.interruptEntry else s)
  | .env e => .next (envStep e s)

/-- A program with the word at index n replaced, padded with NOP (R201) where it is too short. -/
def placeWord (p : List Word) (n : Nat) (w : Word) : List Word :=
  p.take n ++ (List.replicate (n - p.length) 0 ++ w :: p.drop (n + 1))

/-- `s` with a word at the command pointer of the current context, no command in progress there, and the sequencer's turn next. -/
def placeAtFetch (s : State) (w : Word) : State :=
  let n := if s.cur.cp < 65536 then s.cur.cp else 0
  let s1 := s.updCur (fun c => { c with cp := n, useq := [] })
  let s2 := { s1 with status := .running, agenda := .sequencer :: s.agenda }
  match s.ctx with
  | .main => { s2 with progMain := placeWord s.progMain n w }
  | .isr => { s2 with progIsr := placeWord s.progIsr n w }

end Sys2Proof.Machine
end

