-- ==== Sys2Proof/Machine/Step.lean ====
section
/-! DEFINITION. One step of the block: the turn that comes next, taken by its agent (R44, log 2). -/

namespace Sys2Proof.Machine

/-- One step. A parameter set that R7 and R8 do not allow is refused. -/
def step (s : State) : Host.Outcome State Fault Refusal :=
  if s.legal then takeTurn s.nextTurn s.spendTurn else .refused .illegalParameters

/-- `s` with an instruction stored where `step` fetches its next one, so that the very next step runs it. It stands for the host's
load of a program (R710, log 8). -/
def State.withFetchWord (s : State) (nbits w : Nat) : State := placeAtFetch s (BitVec.ofNat 32 (w % 2 ^ nbits))

end Sys2Proof.Machine
end

