-- ==== Sys2Proof/Safety.lean ====
section
/-! DEFINITION. The words in which claims speak: the invariant of the block, and what a step leaves alone (the parts of a frame). -/

namespace Sys2Proof.Machine

/-! ### The invariant -/

/-- The cursors of a ring buffer name slots (R500). -/
def Ring.cursorsOk (r : Ring) : Bool :=
  decide (r.wr < r.buf.length) &&
  (match r.rd with
    | none => true
    | some i => decide (i < r.buf.length))

/-- Each timer has the channels of its kind (R7, R250). -/
def Timer.shapeOk (p : Params) (t : Timer) : Bool := t.chans.length == p.channels t.kind

/-- The micro-operations that can be left over of a command in progress: those of the commands with more than one (R42). -/
def MicroOp.canWait : MicroOp → Bool
  | .hold _ _ | .fieldWrite _ _ _ | .cellWrite _ _ _ | .poll _ _ | .txByte _ _ | .txMem _ _ | .rxRes _ | .rxPush _ _ => true
  | _ => false

/-- A context's command pointer is in range, its guard depth is 0 to 255, and a command in progress was fetched inside the program
(R32, R34, R42). -/
def CtxState.seqOk (c : CtxState) (len : Nat) : Bool :=
  decide (c.cp ≤ 65536) && decide (c.gdepth ≤ 255) && c.useq.all MicroOp.canWait && (c.useq.isEmpty || decide (c.cp < len))

/-- In the Isr context the saved GIE is 1 and there is an interrupt program (R212, R620). -/
def State.ctxOk (s : State) : Bool := s.ctx == .main || (s.isrGieSaved && !s.progIsr.isEmpty)

/-- FAULT holds a code exactly when status is Faulted; the code is one of the eleven (R35, R601). -/
def State.faultOk (s : State) : Bool :=
  (s.status == .faulted) == (s.fault.code != 0) && decide (s.fault.code.toNat ≤ 11) && decide (s.fault.cp ≤ 65536)

/-- Halted is reached only in Main with the guard released (R46). -/
def State.haltOk (s : State) : Bool := s.status != .halted || (s.ctx == .main && s.main.gdepth == 0)

/-- The invariant of the block. -/
def State.inv (s : State) : Bool :=
  s.legal && Memory.wf s.dm && s.rings.all Ring.cursorsOk && s.timers.all (Timer.shapeOk s.params) &&
  s.main.seqOk s.progMain.length && s.isr.seqOk s.progIsr.length && s.ctxOk && s.faultOk && s.haltOk

/-! ### Running a command to its end -/

/-- With the given turns put before those to come, `exec i` answers a next state, and one further step of the block for each of these
turns ends in t. -/
def Finishes (i : Instr) (turns : List Turn) (s t : State) : Prop :=
  ∃ s1, exec i { s with agenda := turns ++ s.agenda } = .next s1 ∧ Host.Core.run Sys2Proof.core turns.length s1 = .next t

/-- n turns of the sequencer, with no other agent between them. -/
def sequencerTurns (n : Nat) : List Turn := List.replicate n .sequencer

/-- The block runs, on a legal parameter set. -/
structure Runs (s : State) : Prop where
  legal : s.legal = true
  running : s.status = .running

/-- The next turn is the sequencer's: the agenda names it, or is used up (R44, log 2). -/
def SequencerNext (s : State) : Prop := s.nextTurn = .sequencer

/-- The block's next step fetches a command. -/
structure AtFetch (s : State) : Prop extends Runs s where
  turn : SequencerNext s
  idle : s.cur.useq = []

/-! ### The parts of a frame -/

/-- Parameters and programs are kept (R7, R112). -/
structure ConfigKept (s t : State) : Prop where
  params : t.params = s.params
  progMain : t.progMain = s.progMain
  progIsr : t.progIsr = s.progIsr

/-- A command that is not a control command is over: the pointer of the context it ran in has advanced by one, nothing of the command
is left, and the other context is untouched (R31, R32, R43). -/
structure Retired (i : Instr) (s t : State) : Prop where
  config : ConfigKept s t
  cp : (t.ctxState s.ctx).cp = s.cur.cp + 1
  useq : (t.ctxState s.ctx).useq = []
  word : (t.ctxState s.ctx).word = encode i
  other : ∀ k, k ≠ s.ctx → t.ctxState k = s.ctxState k

/-- As `Retired`, for a control command, with the pointer it leaves (R200). -/
structure RetiredAt (i : Instr) (cp : Nat) (s t : State) : Prop where
  config : ConfigKept s t
  cp : (t.ctxState s.ctx).cp = cp
  useq : (t.ctxState s.ctx).useq = []
  word : (t.ctxState s.ctx).word = encode i
  other : ∀ k, k ≠ s.ctx → t.ctxState k = s.ctxState k

/-- A command of several micro-operations has begun: its word and what is left of it are loaded, the pointer stays (R32, R43). -/
structure Begun (i : Instr) (rest : List MicroOp) (s t : State) : Prop where
  config : ConfigKept s t
  cp : (t.ctxState s.ctx).cp = s.cur.cp
  useq : (t.ctxState s.ctx).useq = rest
  word : (t.ctxState s.ctx).word = encode i
  other : ∀ k, k ≠ s.ctx → t.ctxState k = s.ctxState k

/-- The argument registers of the context at s are kept. -/
def ArgsKept (s t : State) : Prop := ∀ r, (t.ctxState s.ctx).arg r = s.cur.arg r

/-- RES of the context at s is kept. -/
def ResKept (s t : State) : Prop := (t.ctxState s.ctx).res = s.cur.res

/-- RES of the context at s holds v. -/
def ResIs (v : Word) (s t : State) : Prop := (t.ctxState s.ctx).res = v

/-- The guard's depth and saved bit of the context at s are kept. -/
def GuardKept (s t : State) : Prop :=
  (t.ctxState s.ctx).gdepth = s.cur.gdepth ∧ (t.ctxState s.ctx).gsaved = s.cur.gsaved

/-- The executing context, the saved GIE, the run status and the fault record are kept. -/
structure ProcKept (s t : State) : Prop where
  ctx : t.ctx = s.ctx
  isrGieSaved : t.isrGieSaved = s.isrGieSaved
  status : t.status = s.status
  fault : t.fault = s.fault

/-- The turns to come are kept, and no interlude was drawn. -/
structure TurnsKept (s t : State) : Prop where
  agenda : t.agenda = s.agenda
  interludes : t.interludeCount = s.interludeCount

/-- As `ProcKept`, with GIE and the turns to come. -/
structure FlagsKept (s t : State) : Prop extends ProcKept s t, TurnsKept s t where
  gie : t.gie = s.gie

/-- Every byte of the data memory is kept. -/
def MemKept (s t : State) : Prop := ∀ a : Half, t.readByte a = s.readByte a

/-- Every serial cell and interrupt register is kept, and nothing was drawn. -/
def SerialKept (s t : State) : Prop := t.serial = s.serial ∧ t.drawCount = s.drawCount

/-- Every timer is kept. -/
def TimersKept (s t : State) : Prop := t.timers = s.timers

/-- Every ring buffer is kept. -/
def RingsKept (s t : State) : Prop := t.rings = s.rings

/-- The argument registers, the guard, the processor's flags, the turns to come and the memory are kept. -/
structure CoreKept (s t : State) : Prop where
  args : ArgsKept s t
  guard : GuardKept s t
  flags : FlagsKept s t
  mem : MemKept s t

/-- The serial unit, the timers and the ring buffers are kept. -/
structure DevicesKept (s t : State) : Prop where
  serial : SerialKept s t
  timers : TimersKept s t
  rings : RingsKept s t

/-- The timers and the ring buffers are kept. -/
structure OtherDevicesKept (s t : State) : Prop where
  timers : TimersKept s t
  rings : RingsKept s t

/-- Every timer but t0 is kept. -/
def OtherTimersKept (t0 : Nat) (s t : State) : Prop := ∀ n, n ≠ t0 → t.timers[n]? = s.timers[n]?

/-- Every ring buffer but b is kept. -/
def OtherRingsKept (b : Nat) (s t : State) : Prop := ∀ n, n ≠ b → t.rings[n]? = s.rings[n]?

/-! ### Frames of the serial unit -/

/-- Every cell is kept, but those of the named roles of channel ch. -/
def CellsKeptBut (ch : Chan) (roles : List Role) (s t : State) : Prop :=
  ∀ c r, r.hasCell c.kind = true → (c ≠ ch ∨ r ∉ roles) → t.cellValue c r = s.cellValue c r

/-- Every interrupt enable bit is kept, but that of channel ch and direction d. -/
def IeKeptBut (ch : Chan) (d : Dir) (s t : State) : Prop := ∀ c e, (c, e) ≠ (ch, d) → t.ie c e = s.ie c e

/-- Every interrupt flag is kept, but that of channel ch and direction d. -/
def IfgKeptBut (ch : Chan) (d : Dir) (s t : State) : Prop := ∀ c e, (c, e) ≠ (ch, d) → t.ifg c e = s.ifg c e

/-- Every interrupt enable bit and every interrupt flag is kept, and nothing was drawn. -/
structure IrqKept (s t : State) : Prop where
  ie : ∀ c d, t.ie c d = s.ie c d
  ifg : ∀ c d, t.ifg c d = s.ifg c d
  draws : t.drawCount = s.drawCount

/-- The bits of a channel's cell other than those at the listed positions are kept. -/
def BitsKeptBut (ch : Chan) (role : Role) (positions : List Nat) (s t : State) : Prop :=
  ∀ n, n ∉ positions → (t.cellValue ch role).getLsbD n = (s.cellValue ch role).getLsbD n

/-- The hold-volatile bits of channel ch hold the n-th draw, and the like bits of the other channels are kept (R307, R313). -/
structure VolatileDrawn (ch : Chan) (n : Nat) (s t : State) : Prop where
  ifgRx : t.ifg ch .rx = (Config.holdDraw n).ifgRx
  ifgTx : t.ifg ch .tx = (Config.holdDraw n).ifgTx
  ieRx : t.ie ch .rx = (Config.holdDraw n).ieRx
  ieTx : t.ie ch .tx = (Config.holdDraw n).ieTx
  stat : ∀ k, k ≠ s.params.fieldPos.listen → (t.cells ch).stat.getLsbD k = (Config.holdDraw n).stat.getLsbD k
  listen : t.field ch .listen = s.field ch .listen
  kindB : ch.kind = .b →
    t.field ch .txstt = (Config.holdDraw n).txstt ∧ t.field ch .txstp = (Config.holdDraw n).txstp ∧
    t.field ch .txnack = (Config.holdDraw n).txnack
  others : ∀ c d, c ≠ ch → t.ifg c d = s.ifg c d ∧ t.ie c d = s.ie c d
  draws : t.drawCount = n + 1

/-- The positions in CTL1 that a hold assertion writes: SWRST, and on kind B the three volatile bits (R307, R313). -/
def holdPositions (p : FieldPos) : SerialKind → List Nat
  | .a => [p.swrst]
  | .b => [p.swrst, p.txstt, p.txstp, p.txnack]

/-! ### The shared-access check, read from R511 -/

/-- The access is guarded, or completes no unguarded pattern; the buffer is r, and r1 with its tracking bits updated (R511). -/
structure Shares (s : State) (r r1 : Ring) : Prop where
  isr : s.ctx = .isr → r.mainUnguarded = false ∧ r1 = { r with isrSeen := true }
  open_ : s.ctx = .main → s.gie = true → r.isrSeen = false ∧ r1 = { r with mainUnguarded := true }
  guarded : s.ctx = .main → s.gie = false → r1 = r

/-- The access completes the unguarded pattern (R511). -/
def Unshared (s : State) (r : Ring) : Prop :=
  (s.ctx = .isr ∧ r.mainUnguarded = true) ∨ (s.ctx = .main ∧ s.gie = true ∧ r.isrSeen = true)

/-! ### Faults and the command fetched -/

/-- A step that raises fault tr for word w: `status` and `FAULT` change, and nothing else (R600). -/
def Raises (tr : Trap) (w : Word) (s t : State) : Prop :=
  t = { s with status := .faulted, fault := { code := tr.code, cp := s.cur.cp, ctx := s.ctx, word := w } }

/-- Command i is fetched at s: no command is in progress and the word at the pointer decodes to i (R43). -/
def Fetches (s : State) (i : Instr) : Prop :=
  s.cur.useq = [] ∧ ∃ w, fetchWord s = some w ∧ decode w = .ok i

/-- The word that a fault of the sequencer's step names: that of the command in progress, else the word fetched, and 0 past the
program's end (R600). -/
def faultWord (s : State) : Word := if s.cur.useq = [] then (fetchWord s).getD 0 else s.cur.word

/-! ### What a statement says of one unit -/

/-- A command that writes one channel of one timer completes: the channel becomes c1, and everything else stays. -/
def ChannelBecomes (i : Instr) (n c : Nat) (tm : Timer) (c1 : TimerChan) (s : State) : Prop :=
  ∃ t, exec i s = .next t ∧ Retired i s t ∧ t.timers[n]? = some { tm with chans := tm.chans.set c c1 } ∧
    OtherTimersKept n s t ∧ CoreKept s t ∧ ResKept s t ∧ SerialKept s t ∧ RingsKept s t

/-- The nearest integer, ties away from zero, of a rational that is not negative (R11). -/
def nearestInt (q : ℚ) : ℤ := ⌊q + 1 / 2⌋

/-- The four send commands with the byte each takes (R145, R408, R452). -/
def sendCommands (ch : Chan) (v : Byte) (s : State) : List (Instr × Byte) :=
  [(.psend ch v, v), (.psendR ch, s.cur.res.extractLsb' 0 8)] ++
  (if ch.kind = .b then [(.isend ch v, v), (.isendR ch, s.cur.res.extractLsb' 0 8)] else [])

/-- The receive flag of channel ch is cleared, and of the serial unit nothing else changes. -/
structure ReceiveTaken (ch : Chan) (s t : State) : Prop where
  flag : t.ifg ch .rx = false
  ifg : IfgKeptBut ch .rx s t
  ie : ∀ c d, t.ie c d = s.ie c d
  draws : t.drawCount = s.drawCount
  cells : CellsKeptBut ch [] s t

/-- Byte v stands in TXBUF of channel ch, its transmit flag is cleared, and of the serial unit nothing else changes (R312). -/
structure ByteSent (ch : Chan) (v : Byte) (s t : State) : Prop where
  txbuf : (t.cells ch).txbuf = v
  flag : t.ifg ch .tx = false
  ifg : IfgKeptBut ch .tx s t
  ie : ∀ c d, t.ie c d = s.ie c d
  draws : t.drawCount = s.drawCount
  cells : CellsKeptBut ch [.txbuf] s t

/-- The micro-operations of PREP after its first, for a transmit (R401). -/
def prepareTail (ch : Chan) (addr : BitVec 10) (ten : Bool) : List MicroOp :=
  [.fieldWrite ch .sla10 ten, .cellWrite ch .i2csa (addr.setWidth 16), .fieldWrite ch .tr true, .hold ch false]

/-- Five turns of the sequencer, then m times a TX-ready step and two turns of the sequencer. -/
def readySchedule (ch : Chan) (m : Nat) : List Turn :=
  sequencerTurns 5 ++ (List.replicate m [Turn.env (.txReady ch), .sequencer, .sequencer]).flatten

/-- The turns of an IRREG up to its last byte, whose device answers `front` before it: two TX-ready steps and one RX-byte step for
each byte, each before the poll that waits for it, and the turn of the stop. -/
def answersBeforeLast (ch : Chan) (front : List Byte) : List Turn :=
  sequencerTurns 5 ++
  [.env (.txReady ch), .sequencer, .sequencer, .env (.txReady ch), .sequencer, .sequencer, .sequencer] ++
  front.flatMap (fun v => [Turn.env (.rxByte ch v), .sequencer, .sequencer]) ++ [.sequencer]

/-- All the turns of an IRREG whose device answers `front` and then `last`. -/
def answerSchedule (ch : Chan) (front : List Byte) (last : Byte) : List Turn :=
  answersBeforeLast ch front ++ [.env (.rxByte ch last), .sequencer, .sequencer]

/-- Inserting v into r gives r2, as R504 writes it out. -/
def Inserted (r : Ring) (v : Byte) (r2 : Ring) : Prop :=
  r2 = { r with
    ovf := if r.rd = some r.wr then true else r.ovf
    rd := if r.rd = none then some 0 else r.rd
    buf := r.buf.set r.wr v
    wr := (r.wr + 1) % r.buf.length }

/-- Inserting the bytes of l into r, one after the other, gives r2 (R504). -/
def InsertedAll (r : Ring) : List Byte → Ring → Prop
  | [], r2 => r2 = r
  | v :: l, r2 => ∃ r1, Inserted r v r1 ∧ InsertedAll r1 l r2

/-- What a step of the serial hardware leaves alone beside the flags: every cell but those of the named roles of channel ch, the enable
bits and the timers (R36). -/
structure SerialHardwareKept (ch : Chan) (roles : List Role) (s t : State) : Prop where
  cells : CellsKeptBut ch roles s t
  ie : ∀ c d, t.ie c d = s.ie c d
  timers : TimersKept s t

/-- A command on ring buffer b completes: the buffer becomes r2, RES becomes res, and nothing else changes. -/
def RingBecomes (i : Instr) (b : Nat) (r2 : Ring) (res : Word) (s : State) : Prop :=
  ∃ t, exec i s = .next t ∧ Retired i s t ∧ t.rings[b]? = some r2 ∧ OtherRingsKept b s t ∧ ResIs res s t ∧ CoreKept s t ∧
    SerialKept s t ∧ TimersKept s t

/-- A cleared buffer of the given capacity (R503, R510). -/
def Cleared (n : Nat) (r : Ring) : Prop := r.buf.length = n ∧ r.wr = 0 ∧ r.rd = none ∧ r.ovf = false

/-- The buffer after j gets. -/
def afterGets (j : Nat) (r : Ring) : Ring := Nat.iterate Ring.advance j r

end Sys2Proof.Machine

namespace Sys2Proof

/-! ### What a command names -/

/-- The timer a command names (R143, R254). -/
def Instr.timer? : Instr → Option (Fin 16)
  | .tinit t _ _ _ | .tmode t _ | .treset t | .tcapm t _ _ _ | .tccis t _ _ | .toutm t _ _ | .tsetcmp t _ _ | .tgetcap t _
  | .tccie t _ _ | .tgetcov t _ | .tclrcov t _ => some t
  | _ => none

/-- The timer channel a command names (R143, R254). -/
def Instr.timerChannel? : Instr → Option (Fin 16)
  | .tcapm _ c _ _ | .tccis _ c _ | .toutm _ c _ | .tsetcmp _ c _ | .tgetcap _ c | .tccie _ c _ | .tgetcov _ c
  | .tclrcov _ c => some c
  | _ => none

/-- The serial channel a command names (R143, R303). -/
def Instr.serialChannel? : Instr → Option Chan
  | .sena ch | .sdis ch | .sie ch _ _ | .sifg ch _ | .swr ch _ _ | .srd ch _ | .bset ch _ | .iptx ch _ _ | .iprx ch _ _
  | .istt ch | .istp ch | .igstt ch | .isend ch _ | .isendR ch | .iwreg ch _ | .irreg ch _ | .irecv ch | .pinit ch _
  | .psend ch _ | .psendR ch | .precv ch | .ploop ch _ | .pgloop ch | .pgfe ch | .pgoe ch => some ch
  | _ => none

/-- The kind of channel a command asks for (R303). -/
def Instr.kindNeeded : Instr → Option SerialKind
  | .bset _ _ => some .a
  | .iptx _ _ _ | .iprx _ _ _ | .istt _ | .istp _ | .igstt _ | .isend _ _ | .isendR _ | .iwreg _ _ | .irreg _ _
  | .irecv _ => some .b
  | _ => none

/-- The ring buffer a command names (R143, R505). -/
def Instr.ring? : Instr → Option (Fin 16)
  | .rins b _ | .rinsR b | .rget b | .rempty b | .rovf b | .rclrovf b | .rclr b => some b
  | _ => none

end Sys2Proof
end

