-- ==== Sys2Proof/Certificates/Slice0/Obligations.lean ====
section
/-! DEFINITION. The statements for the provers. Where a statement speaks of the turns to come (`agenda`, `SequencerNext`, `spendTurn`) it
speaks of the model's order of turns (log 2), and where it speaks of `Config.holdDraw` of the model's free values (log 4). -/

open Sys2Proof Sys2Proof.Machine

/-! ### Encoding (30_encoding.md) -/

/-- Words written out from R143 and the examples of the command rules decode to their commands. -/
def Obligations.SampleWordsDecode : Prop :=
  decode 0x02102580 = .ok (.ldlo .a1 9600) ∧ decode 0x10000029 = .ok (.tinit 0 .up .by4 .smclk) ∧
  decode 0x24020068 = .ok (.swr .a0 .br0 0x68) ∧ decode 0x31010000 = .ok (.bset .a0 true) ∧
  decode 0x413102A5 = .ok (.iprx .b1 0x2A5 true) ∧ decode 0x51010000 = .ok (.psendR .a0) ∧
  decode 0x60110000 = .ok (.rinsR 1)

/-- Decoding an encoded well-formed command gives it back: no bit of an operand is dropped (R141, R143). -/
def Obligations.DecodeEncodeRoundTrip : Prop :=
  ∀ i : Instr, i.wellFormed = true → decode (encode i) = .ok i

/-- Each command has one word: a word that decodes is the encoding of its command, which is well formed. -/
def Obligations.EncodeDecodeRoundTrip : Prop :=
  ∀ (w : Word) (i : Instr), decode w = .ok i → encode i = w ∧ i.wellFormed = true

/-- No word matches two rows of the operation map, and the decoder accepts exactly the words that match a row and are not among the
value-dependent reserved forms (R143, R148, R149). -/
def Obligations.DecodableWordsMatchRows : Prop :=
  (∀ r ∈ opRows, ∀ q ∈ opRows, ∀ w : Word, r.hits w = true → q.hits w = true → r = q) ∧
  ∀ w : Word, (∃ i, decode w = .ok i) ↔ ((∃ r ∈ opRows, r.hits w = true) ∧ valueReserved w = false)

/-- A word that matches no row, or is a value-dependent illegal form, raises RESERVED_ENCODING when it is fetched (R148, R149). -/
def Obligations.ReservedWordsRaise : Prop :=
  ∀ (s : State) (w : Word), AtFetch s → fetchWord s = some w →
    ((∀ r ∈ opRows, r.hits w = false) ∨ valueReserved w = true) →
    ∃ t, step s = .next t ∧ Raises .reservedEncoding w s.spendTurn t

/-! ### The step of the sequencer (10_state.md) -/

/-- When no command is in progress and the word at the command pointer decodes, the sequencer's step is the meaning of that command; a
turn of the sequencer that the agenda names is taken from it first, and at its end the next interlude is drawn (R43; the agenda and the
interludes are log 2). -/
def Obligations.StepRunsFetchedCommand : Prop :=
  ∀ (s : State) (i : Instr) (w : Word), s.legal = true → s.status = .running → s.cur.useq = [] →
    fetchWord s = some w → decode w = .ok i →
    (s.agenda = [] →
      step s = exec i { s with
        agenda := Config.interlude s.interludeCount, interludeCount := s.interludeCount + 1 }) ∧
    (∀ rest, s.agenda = .sequencer :: rest → step s = exec i { s with agenda := rest })

/-- A command in progress goes on with the head of its micro-operations (R43): Done drops it and, after the last one that is not a
control micro-operation, advances the pointer; Wait changes nothing; a fault changes only the fault state. All beside the turn that the
step spends (log 2). -/
def Obligations.StepResumesCommandInProgress : Prop :=
  ∀ (s : State) (m : MicroOp) (rest : List MicroOp), Runs s → SequencerNext s → s.cur.useq = m :: rest →
    (∀ s1, m.run s.spendTurn = .done s1 →
      step s = .next (s1.updCtx s.ctx (fun c =>
        { c with
          useq := rest, word := s.cur.word
          cp := if rest = [] ∧ m.isControl = false then c.cp + 1 else c.cp }))) ∧
    (m.run s.spendTurn = .wait → step s = .next s.spendTurn) ∧
    (∀ tr, m.run s.spendTurn = .trap tr → ∃ t, step s = .next t ∧ Raises tr s.cur.word s.spendTurn t)

/-- A command pointer that is not below the program's length raises FETCH_RANGE, with word 0 (R32, R43, R600). -/
def Obligations.FetchPastEndRaises : Prop :=
  ∀ s : State, AtFetch s → (s.prog s.ctx).length ≤ s.cur.cp →
    ∃ t, step s = .next t ∧ Raises .fetchRange 0 s.spendTurn t

/-- A step of the sequencer that raises a fault, in its decoding or in a micro-operation, changes `status` and FAULT and nothing else
beside the turn it spends; FAULT names the command's pointer, context and word (R14, R600; that the step of the fault loads nothing is
log 10, the turn is log 2). -/
def Obligations.FaultChangesNothingElse : Prop :=
  (∀ (i : Instr) (s t : State), s.status = .running → exec i s = .next t → t.status = .faulted →
    ∃ tr, Raises tr (encode i) s t) ∧
  ∀ (s t : State), SequencerNext s → s.status = .running → step s = .next t → t.status = .faulted →
    ∃ tr, Raises tr (faultWord s) s.spendTurn t

/-- A block that is Halted or Faulted takes no sequencer step and no interrupt entry; what the environment does then leaves `status` and
FAULT as they are (R202, R600). -/
def Obligations.StoppedBlockStaysStopped : Prop :=
  ∀ (s t : State), s.status ≠ .running → step s = .next t →
    ¬ SequencerNext s ∧ t.status = s.status ∧ t.fault = s.fault ∧ t.ctx = s.ctx ∧ t.gie = s.gie ∧
    t.main = s.main ∧ t.isr = s.isr

/-- A context's command leaves the other context's bank, pointer and command in progress alone, in the step that decodes it and in every
later step of it (R31, R34; whose turn a step takes is log 2). -/
def Obligations.CommandKeepsOtherContext : Prop :=
  ∀ (s t : State), SequencerNext s → step s = .next t → ∀ k, k ≠ s.ctx → t.ctxState k = s.ctxState k

/-! ### U0 control (40_control.md) -/

/-- NOP, LDLO, LDHI and MOVRES complete: NOP changes nothing; LDLO loads a zero-extended immediate; LDHI replaces bits 31:16; MOVRES
copies RES (R201, R203, R204, R205). -/
def Obligations.RegisterMovesComplete : Prop :=
  ∀ (k : ArgReg) (imm : Half) (s : State),
    (∃ t, exec .nop s = .next t ∧ Retired .nop s t ∧ CoreKept s t ∧ ResKept s t ∧ DevicesKept s t) ∧
    (∃ t, exec (.ldlo k imm) s = .next t ∧ Retired (.ldlo k imm) s t ∧
      (t.ctxState s.ctx).arg k = imm.setWidth 32 ∧
      (∀ r, r ≠ k → (t.ctxState s.ctx).arg r = s.cur.arg r) ∧ ResKept s t ∧ GuardKept s t ∧ FlagsKept s t ∧ MemKept s t ∧
      DevicesKept s t) ∧
    (∃ t, exec (.ldhi k imm) s = .next t ∧ Retired (.ldhi k imm) s t ∧
      ((t.ctxState s.ctx).arg k).extractLsb' 16 16 = imm ∧
      ((t.ctxState s.ctx).arg k).extractLsb' 0 16 = (s.cur.arg k).extractLsb' 0 16 ∧
      (∀ r, r ≠ k → (t.ctxState s.ctx).arg r = s.cur.arg r) ∧ ResKept s t ∧ GuardKept s t ∧ FlagsKept s t ∧ MemKept s t ∧
      DevicesKept s t) ∧
    (∃ t, exec (.movres k) s = .next t ∧ Retired (.movres k) s t ∧
      (t.ctxState s.ctx).arg k = s.cur.res ∧
      (∀ r, r ≠ k → (t.ctxState s.ctx).arg r = s.cur.arg r) ∧ ResKept s t ∧ GuardKept s t ∧ FlagsKept s t ∧ MemKept s t ∧
      DevicesKept s t)

/-- STB completes: the low byte of ARG[k] at the address, every other byte as it was. LDB completes: RES is the byte at the address,
zero-extended (R206, R207). The canonical form of the memory, which STB is given, is the model's (log 7). -/
def Obligations.MemoryByteCommandsComplete : Prop :=
  ∀ (k : ArgReg) (addr : Half) (s : State),
    (Memory.wf s.dm = true →
      ∃ t, exec (.stb k addr) s = .next t ∧ Retired (.stb k addr) s t ∧
        t.readByte addr = (s.cur.arg k).extractLsb' 0 8 ∧
        (∀ a, a ≠ addr → t.readByte a = s.readByte a) ∧
        ArgsKept s t ∧ ResKept s t ∧ GuardKept s t ∧ FlagsKept s t ∧ DevicesKept s t) ∧
    (∃ t, exec (.ldb addr) s = .next t ∧ Retired (.ldb addr) s t ∧ ResIs ((s.readByte addr).setWidth 32) s t ∧
      CoreKept s t ∧ DevicesKept s t)

/-- GACQ and GREL complete: the outermost GACQ saves GIE, every GACQ clears it and counts, the outermost GREL restores it (R208,
R209). -/
def Obligations.GuardCommandsComplete : Prop :=
  ∀ s : State,
    (s.cur.gdepth < 255 →
      ∃ t, exec .gacq s = .next t ∧ Retired .gacq s t ∧ t.gie = false ∧
        (t.ctxState s.ctx).gdepth = s.cur.gdepth + 1 ∧
        (t.ctxState s.ctx).gsaved = (if s.cur.gdepth = 0 then s.gie else s.cur.gsaved) ∧
        ProcKept s t ∧ TurnsKept s t ∧ ArgsKept s t ∧ ResKept s t ∧ MemKept s t ∧ DevicesKept s t) ∧
    (0 < s.cur.gdepth →
      ∃ t, exec .grel s = .next t ∧ Retired .grel s t ∧
        t.gie = (if s.cur.gdepth = 1 then s.cur.gsaved else s.gie) ∧
        (t.ctxState s.ctx).gdepth = s.cur.gdepth - 1 ∧ (t.ctxState s.ctx).gsaved = s.cur.gsaved ∧
        ProcKept s t ∧ TurnsKept s t ∧ ArgsKept s t ∧ ResKept s t ∧ MemKept s t ∧ DevicesKept s t)

/-- EINT sets GIE and DINT clears it, inside a guard too; nothing else of the guard changes (R210, R211). -/
def Obligations.InterruptEnableCommandsComplete : Prop :=
  ∀ s : State,
    (∃ t, exec .eint s = .next t ∧ Retired .eint s t ∧ t.gie = true ∧ GuardKept s t ∧ ProcKept s t ∧ TurnsKept s t ∧
      ArgsKept s t ∧ ResKept s t ∧ MemKept s t ∧ DevicesKept s t) ∧
    (∃ t, exec .dint s = .next t ∧ Retired .dint s t ∧ t.gie = false ∧ GuardKept s t ∧ ProcKept s t ∧ TurnsKept s t ∧
      ArgsKept s t ∧ ResKept s t ∧ MemKept s t ∧ DevicesKept s t)

/-- JMP, BZ and BNZ complete at their absolute target or at the next command, by all 32 bits of RES (R213, R214, R215). -/
def Obligations.JumpsComplete : Prop :=
  ∀ (target : Half) (s : State),
    (∃ t, exec (.jmp target) s = .next t ∧ RetiredAt (.jmp target) target.toNat s t ∧ CoreKept s t ∧ ResKept s t ∧
      DevicesKept s t) ∧
    (∃ t, exec (.bz target) s = .next t ∧
      RetiredAt (.bz target) (if s.cur.res = 0 then target.toNat else s.cur.cp + 1) s t ∧ CoreKept s t ∧ ResKept s t ∧
      DevicesKept s t) ∧
    (∃ t, exec (.bnz target) s = .next t ∧
      RetiredAt (.bnz target) (if s.cur.res = 0 then s.cur.cp + 1 else target.toNat) s t ∧ CoreKept s t ∧ ResKept s t ∧
      DevicesKept s t)

/-- HALT in Main with the guard released ends the run at its own pointer; RETI in Isr with the guard released restores GIE and returns
to Main, whose bank, pointer and command in progress stand as they were (R202, R212, R623). -/
def Obligations.HaltAndRetiComplete : Prop :=
  ∀ s : State,
    (s.ctx = .main → s.main.gdepth = 0 →
      ∃ t, exec .halt s = .next t ∧ RetiredAt .halt s.main.cp s t ∧ t.status = .halted ∧ t.gie = s.gie ∧ t.ctx = .main ∧
        t.isrGieSaved = s.isrGieSaved ∧ t.fault = s.fault ∧ TurnsKept s t ∧ ArgsKept s t ∧ ResKept s t ∧
        GuardKept s t ∧ MemKept s t ∧ DevicesKept s t) ∧
    (s.ctx = .isr → s.isr.gdepth = 0 →
      ∃ t, exec .reti s = .next t ∧ RetiredAt .reti s.isr.cp s t ∧ t.ctx = .main ∧ t.gie = s.isrGieSaved ∧ t.main = s.main ∧
        t.isrGieSaved = s.isrGieSaved ∧ t.status = s.status ∧ t.fault = s.fault ∧ TurnsKept s t ∧ ArgsKept s t ∧
        ResKept s t ∧ GuardKept s t ∧ MemKept s t ∧ DevicesKept s t)

/-- HALT in Isr and RETI in Main raise CONTEXT; HALT, RETI with the guard held, GACQ at depth 255 and GREL at depth 0 raise
GUARD_UNBALANCED (R202, R208, R209, R212). -/
def Obligations.ContextAndGuardFaults : Prop :=
  ∀ s : State,
    (s.ctx = .isr → ∃ t, exec .halt s = .next t ∧ Raises .context 0x01000000 s t) ∧
    (s.ctx = .main → ∃ t, exec .reti s = .next t ∧ Raises .context 0x0B000000 s t) ∧
    (s.ctx = .main → 0 < s.main.gdepth → ∃ t, exec .halt s = .next t ∧ Raises .guardUnbalanced 0x01000000 s t) ∧
    (s.ctx = .isr → 0 < s.isr.gdepth → ∃ t, exec .reti s = .next t ∧ Raises .guardUnbalanced 0x0B000000 s t) ∧
    (s.cur.gdepth = 255 → ∃ t, exec .gacq s = .next t ∧ Raises .guardUnbalanced 0x07000000 s t) ∧
    (s.cur.gdepth = 0 → ∃ t, exec .grel s = .next t ∧ Raises .guardUnbalanced 0x08000000 s t)

/-! ### U1 timer (41_timer.md) -/

/-- TINIT, TMODE and TRESET complete: the three control fields at once, the mode alone, the counter alone; the rest of the timer and
every other timer stay (R255, R256, R257). -/
def Obligations.TimerControlCommandsComplete : Prop :=
  ∀ (n : Fin 16) (mode : TimerMode) (div : Divider) (src : ClockSource) (tm : Timer) (s : State), s.timers[n.val]? = some tm →
    (∃ t, exec (.tinit n mode div src) s = .next t ∧ Retired (.tinit n mode div src) s t ∧
      t.timers[n.val]? = some { tm with mode := mode, div := div, src := src } ∧ OtherTimersKept n.val s t ∧
      CoreKept s t ∧ ResKept s t ∧ SerialKept s t ∧ RingsKept s t) ∧
    (∃ t, exec (.tmode n mode) s = .next t ∧ Retired (.tmode n mode) s t ∧
      t.timers[n.val]? = some { tm with mode := mode } ∧ OtherTimersKept n.val s t ∧
      CoreKept s t ∧ ResKept s t ∧ SerialKept s t ∧ RingsKept s t) ∧
    (∃ t, exec (.treset n) s = .next t ∧ Retired (.treset n) s t ∧
      t.timers[n.val]? = some { tm with count := 0 } ∧ OtherTimersKept n.val s t ∧
      CoreKept s t ∧ ResKept s t ∧ SerialKept s t ∧ RingsKept s t)

/-- TCAPM, TCCIS, TOUTM, TSETCMP, TCCIE and TCLRCOV complete, each writing its fields of the channel it names, in every mode of the
timer; TGETCAP and TGETCOV complete, RES the channel's value or its overflow flag, and no flag changes (R258 to R266). -/
def Obligations.TimerChannelCommandsComplete : Prop :=
  ∀ (n c : Fin 16) (tm : Timer) (ch : TimerChan) (s : State), s.timers[n.val]? = some tm → c.val < s.params.channels tm.kind →
    tm.chans[c.val]? = some ch →
    (∀ cm scs, ChannelBecomes (.tcapm n c cm scs) n c tm { ch with cm := cm, scs := scs } s) ∧
    (∀ src, ChannelBecomes (.tccis n c src) n c tm { ch with ccis := src } s) ∧
    (∀ om, ChannelBecomes (.toutm n c om) n c tm { ch with outmod := om } s) ∧
    (∀ v, ChannelBecomes (.tsetcmp n c v) n c tm { ch with value := v } s) ∧
    (∀ en, ChannelBecomes (.tccie n c en) n c tm { ch with ccie := en } s) ∧
    ChannelBecomes (.tclrcov n c) n c tm { ch with cov := false } s ∧
    (∃ t, exec (.tgetcap n c) s = .next t ∧ Retired (.tgetcap n c) s t ∧ ResIs (ch.value.setWidth 32) s t ∧ CoreKept s t ∧
      DevicesKept s t) ∧
    (∃ t, exec (.tgetcov n c) s = .next t ∧ Retired (.tgetcov n c) s t ∧ ResIs (if ch.cov then 1 else 0) s t ∧ CoreKept s t ∧
      DevicesKept s t)

/-- A timer command with an index at or above the number of timers raises INSTANCE_RANGE, whatever its channel; one with a channel at or
above the kind's count, on a timer that exists, raises CHANNEL_RANGE (R150, R254). -/
def Obligations.TimerIndexFaults : Prop :=
  ∀ (i : Instr) (n : Fin 16) (s : State), i.timer? = some n →
    (s.timers.length ≤ n.val → ∃ t, exec i s = .next t ∧ Raises .instanceRange (encode i) s t) ∧
    (∀ (tm : Timer) (c : Fin 16), s.timers[n.val]? = some tm → i.timerChannel? = some c → s.params.channels tm.kind ≤ c.val →
      ∃ t, exec i s = .next t ∧ Raises .channelRange (encode i) s t)

/-! ### U2 serial engine (42_serial_engine.md) -/

/-- SENA completes: the hold is released, and nothing else changes (R313, R324). -/
def Obligations.EnableCompletes : Prop :=
  ∀ (ch : Chan) (s : State), s.chanAbsent ch = false →
    ∃ t, exec (.sena ch) s = .next t ∧ Retired (.sena ch) s t ∧ t.held ch = false ∧
      BitsKeptBut ch .ctl1 [s.params.fieldPos.swrst] s t ∧ CellsKeptBut ch [.ctl1] s t ∧ IrqKept s t ∧
      CoreKept s t ∧ ResKept s t ∧ OtherDevicesKept s t

/-- SDIS completes, on a held channel too: the hold is set, the hold-volatile bits take the next draw, and nothing else changes, for every
draw (R307, R313, R325; where a rule writes STAT[6:0], STAT[7] or CTL1 bit 0, the positions of LISTEN and SWRST are FIELDPOS's, log 12).
-/
def Obligations.DisableCompletes : Prop :=
  ∀ (ch : Chan) (s : State), s.chanAbsent ch = false → s.params.fieldPos.legal = true → s.params.irqBits.legal = true →
    ∃ t, exec (.sdis ch) s = .next t ∧ Retired (.sdis ch) s t ∧ t.held ch = true ∧ VolatileDrawn ch s.drawCount s t ∧
      BitsKeptBut ch .ctl1 (holdPositions s.params.fieldPos ch.kind) s t ∧ CellsKeptBut ch [.ctl1, .stat] s t ∧
      CoreKept s t ∧ ResKept s t ∧ OtherDevicesKept s t

/-- SIE writes one enable bit and SIFG reads one flag into RES; nothing else changes (R304, R326, R327). -/
def Obligations.IrqBitCommandsComplete : Prop :=
  ∀ (ch : Chan) (d : Dir) (en : Bool) (s : State), s.chanAbsent ch = false → s.params.irqBits.legal = true →
    (∃ t, exec (.sie ch d en) s = .next t ∧ Retired (.sie ch d en) s t ∧ t.ie ch d = en ∧ IeKeptBut ch d s t ∧
      (∀ c e, t.ifg c e = s.ifg c e) ∧ CellsKeptBut ch [] s t ∧ t.drawCount = s.drawCount ∧ CoreKept s t ∧ ResKept s t ∧
      OtherDevicesKept s t) ∧
    (∃ t, exec (.sifg ch d) s = .next t ∧ Retired (.sifg ch d) s t ∧ ResIs (if s.ifg ch d then 1 else 0) s t ∧ CoreKept s t ∧
      DevicesKept s t)

/-- SWR to a cell without a side effect completes: the cell holds the value, and nothing else changes. A configuration cell asks for the
hold (R301, R314, R317, R328). -/
def Obligations.PlainCellWriteCompletes : Prop :=
  ∀ (ch : Chan) (role : Role) (v : Half) (s : State), s.chanAbsent ch = false → (Instr.swr ch role v).wellFormed = true →
    role ∈ [Role.ctl0, .br0, .br1, .mctl, .i2coa, .i2csa, .i2cie] → role.hasCell ch.kind = true →
    (role.isConfig = true → s.held ch = true) →
    ∃ t, exec (.swr ch role v) s = .next t ∧ Retired (.swr ch role v) s t ∧ t.cellValue ch role = v ∧
      CellsKeptBut ch [role] s t ∧ IrqKept s t ∧ CoreKept s t ∧ ResKept s t ∧ OtherDevicesKept s t

/-- SWR to a cell with a side effect, or to none, completes: a role that is no cell and RXBUF are ignored; STAT takes its LISTEN bit only;
TXBUF clears the transmit flag; CTL1 with SWRST 0 is stored, and with SWRST 1 is stored and makes the hold-volatile bits the next draw
(R301, R312, R313, R317; where a rule writes STAT[6:0], STAT[7] or CTL1 bit 0, the positions of LISTEN and SWRST are FIELDPOS's, log 12).
-/
def Obligations.SideEffectCellWritesComplete : Prop :=
  ∀ (ch : Chan) (role : Role) (v : Half) (s : State), s.chanAbsent ch = false → (Instr.swr ch role v).wellFormed = true →
    s.params.fieldPos.legal = true → s.params.irqBits.legal = true →
    ∃ t, exec (.swr ch role v) s = .next t ∧
      ((role.hasCell ch.kind = false ∨ role = .rxbuf) →
        Retired (.swr ch role v) s t ∧ CoreKept s t ∧ ResKept s t ∧ DevicesKept s t) ∧
      (role = .stat →
        Retired (.swr ch role v) s t ∧ t.field ch .listen = v.getLsbD s.params.fieldPos.listen ∧
        BitsKeptBut ch .stat [s.params.fieldPos.listen] s t ∧ CellsKeptBut ch [.stat] s t ∧ IrqKept s t ∧
        CoreKept s t ∧ ResKept s t ∧ OtherDevicesKept s t) ∧
      (role = .txbuf →
        Retired (.swr ch role v) s t ∧ ByteSent ch (v.extractLsb' 0 8) s t ∧ CoreKept s t ∧ ResKept s t ∧
        OtherDevicesKept s t) ∧
      (role = .ctl1 → v.getLsbD s.params.fieldPos.swrst = false →
        Retired (.swr ch role v) s t ∧ t.cellValue ch .ctl1 = v ∧ CellsKeptBut ch [.ctl1] s t ∧ IrqKept s t ∧
        CoreKept s t ∧ ResKept s t ∧ OtherDevicesKept s t) ∧
      (role = .ctl1 → v.getLsbD s.params.fieldPos.swrst = true →
        Retired (.swr ch role v) s t ∧ VolatileDrawn ch s.drawCount s t ∧
        (∀ n, n ∉ (holdPositions s.params.fieldPos ch.kind).tail → (t.cellValue ch .ctl1).getLsbD n = v.getLsbD n) ∧
        CellsKeptBut ch [.ctl1, .stat] s t ∧ CoreKept s t ∧ ResKept s t ∧ OtherDevicesKept s t)

/-- SRD completes: RES is the whole cell, zero-extended; reading RXBUF clears the receive flag, every other read changes nothing; a role
that is no cell leaves RES as it was (R310, R318, R329). -/
def Obligations.CellReadCompletes : Prop :=
  ∀ (ch : Chan) (role : Role) (s : State), s.chanAbsent ch = false → s.params.irqBits.legal = true →
    ∃ t, exec (.srd ch role) s = .next t ∧ Retired (.srd ch role) s t ∧ CoreKept s t ∧ OtherDevicesKept s t ∧
      (role.hasCell ch.kind = true → ResIs ((s.cellValue ch role).setWidth 32) s t) ∧
      (role.hasCell ch.kind = false → ResKept s t) ∧
      (role ≠ .rxbuf → SerialKept s t) ∧ (role = .rxbuf → ReceiveTaken ch s t)

/-- A write to a configuration cell of an enabled channel raises CONFIG_WHILE_ENABLED and does not happen: SWR, and the first write of
BSET (R305, R314, R361; that the step of the fault loads nothing is log 10). -/
def Obligations.ConfigWriteWhileEnabledFaults : Prop :=
  ∀ (ch : Chan) (s : State), s.chanAbsent ch = false → s.held ch = false →
    (∀ role v, (Instr.swr ch role v).wellFormed = true → role.hasCell ch.kind = true →
      role ∈ [Role.ctl0, .br0, .br1, .mctl] →
      ∃ t, exec (.swr ch role v) s = .next t ∧ Raises .configWhileEnabled (encode (.swr ch role v)) s t) ∧
    (∀ os, ch.kind = .a → s.cur.arg0 ≠ 0 → s.cur.arg1 ≠ 0 →
      (baudOf s.cur.arg0.toNat s.cur.arg1.toNat os).br ≤ 65535 →
      ∃ t, exec (.bset ch os) s = .next t ∧ Raises .configWhileEnabled (encode (.bset ch os)) s t)

/-- A command on an absent channel, an I2C command on kind A and BSET on kind B raise INSTANCE_RANGE, before any operand value is looked
at (R150, R303). -/
def Obligations.ChannelInstanceFaults : Prop :=
  ∀ (i : Instr) (ch : Chan) (s : State), i.serialChannel? = some ch → i.wellFormed = true →
    (s.chanAbsent ch = true ∨ (∃ k, i.kindNeeded = some k ∧ ch.kind ≠ k)) →
    ∃ t, exec i s = .next t ∧ Raises .instanceRange (encode i) s t

/-! ### U3 baud calculator (43_uart_baud.md) -/

/-- Baud in exact rational arithmetic: the path by the request and the factor, the divisor by floor, the two fields by rounding the
scaled fractions, saturated at 7 and 15; and the integer forms of the same (R353, R354, R355, R356). -/
def Obligations.BaudMatchesExactRationals : Prop :=
  ∀ (clk baud : Nat) (os : Bool), 0 < clk → 0 < baud →
    let factor : ℚ := (clk : ℚ) / baud
    let r := baudOf clk baud os
    (os = true ∧ 16 ≤ factor →
      r.os16 = true ∧ (r.br : ℤ) = ⌊factor / 16⌋ ∧ r.br = clk / (16 * baud) ∧
      (r.brf.toNat : ℤ) = min (nearestInt (Int.fract (factor / 16) * 16)) 15 ∧
      r.brf.toNat = min ((2 * (clk % (16 * baud)) + baud) / (2 * baud)) 15 ∧
      (r.brs.toNat : ℤ) = min (nearestInt (Int.fract factor * 8)) 7) ∧
    (¬ (os = true ∧ 16 ≤ factor) →
      r.os16 = false ∧ (r.br : ℤ) = ⌊factor⌋ ∧ r.br = clk / baud ∧ r.brf = 0 ∧
      (r.brs.toNat : ℤ) = min (nearestInt ((factor - ⌊factor⌋) * 8)) 7) ∧
    r.brs.toNat = min ((16 * (clk % baud) + baud) / (2 * baud)) 7

/-- The modulation byte holds BRF in bits 7:4, BRS in bits 3:1 and OS16 in bit 0, and the divisor pair is the low and the high byte
(R358, R359). -/
def Obligations.ModulationByteLayout : Prop :=
  ∀ (r : BaudResult),
    r.mctl.extractLsb' 4 4 = r.brf ∧ r.mctl.extractLsb' 1 3 = r.brs ∧ r.mctl.getLsbD 0 = r.os16 ∧
    r.mctl = (r.brf.setWidth 8 <<< 4) ||| (r.brs.setWidth 8 <<< 1) ||| (BitVec.ofBool r.os16).setWidth 8 ∧
    ∀ v : Half, divisorHigh v ++ divisorLow v = v

/-- BCALC completes for operands that are not zero and a divisor of at most 16 bits: RES holds MCTL and BR, and nothing else changes
(R360). -/
def Obligations.BaudCalculationCompletes : Prop :=
  ∀ (os : Bool) (s : State), s.cur.arg0 ≠ 0 → s.cur.arg1 ≠ 0 →
    (baudOf s.cur.arg0.toNat s.cur.arg1.toNat os).br ≤ 65535 →
    ∃ t, exec (.bcalc os) s = .next t ∧ Retired (.bcalc os) s t ∧
      (t.ctxState s.ctx).res.extractLsb' 0 16 = BitVec.ofNat 16 (baudOf s.cur.arg0.toNat s.cur.arg1.toNat os).br ∧
      (t.ctxState s.ctx).res.extractLsb' 16 8 = (baudOf s.cur.arg0.toNat s.cur.arg1.toNat os).mctl ∧
      (t.ctxState s.ctx).res.extractLsb' 24 8 = 0 ∧
      CoreKept s t ∧ DevicesKept s t

/-- A zero clock or baud raises BAUD_ZERO, and a divisor above 16 bits BAUD_RANGE, of BCALC whatever channels are present, and of BSET
on a kind-A channel that is present, held or not (R351, R357, R360, R361). -/
def Obligations.BaudOperandFaults : Prop :=
  ∀ (os : Bool) (s : State) (i : Instr),
    (i = .bcalc os ∨ ∃ ch : Chan, s.chanAbsent ch = false ∧ ch.kind = .a ∧ i = .bset ch os) →
      (s.cur.arg0 = 0 ∨ s.cur.arg1 = 0 → ∃ t, exec i s = .next t ∧ Raises .baudZero (encode i) s t) ∧
      (s.cur.arg0 ≠ 0 → s.cur.arg1 ≠ 0 → 65535 < (baudOf s.cur.arg0.toNat s.cur.arg1.toNat os).br →
        ∃ t, exec i s = .next t ∧ Raises .baudRange (encode i) s t)

/-- BSET on a held kind-A channel completes in three steps: the divisor pair and the modulation byte are in BR0, BR1 and MCTL, RES and
everything else stay (R361). -/
def Obligations.BaudSetCompletes : Prop :=
  ∀ (ch : Chan) (os : Bool) (s : State), Runs s → s.chanAbsent ch = false → ch.kind = .a → s.held ch = true →
    s.cur.arg0 ≠ 0 → s.cur.arg1 ≠ 0 → (baudOf s.cur.arg0.toNat s.cur.arg1.toNat os).br ≤ 65535 →
    let r := baudOf s.cur.arg0.toNat s.cur.arg1.toNat os
    ∃ t, Finishes (.bset ch os) (sequencerTurns 2) s t ∧ Retired (.bset ch os) s t ∧
      (t.cells ch).br1 ++ (t.cells ch).br0 = BitVec.ofNat 16 r.br ∧ t.cellValue ch .mctl = r.mctl.setWidth 16 ∧
      CellsKeptBut ch [.br0, .br1, .mctl] s t ∧ IrqKept s t ∧ CoreKept s t ∧ ResKept s t ∧ OtherDevicesKept s t

/-! ### U4 I2C master (44_i2c.md) -/

/-- IPTX (tr true) and IPRX (tr false) on a kind-B channel, held or not, complete in five steps: address, addressing mode and direction
set, the hold released, the hold-volatile flags as drawn at the hold (R401 to R404; where a rule writes STAT[6:0], STAT[7] or CTL1 bit 0,
the positions of LISTEN and SWRST are FIELDPOS's, log 12). -/
def Obligations.PrepareCommandsComplete : Prop :=
  ∀ (ch : Chan) (addr : BitVec 10) (ten tr : Bool) (s : State), Runs s → s.chanAbsent ch = false → ch.kind = .b →
    let i : Instr := if tr then .iptx ch addr ten else .iprx ch addr ten
    ∃ t, Finishes i (sequencerTurns 4) s t ∧ Retired i s t ∧
      t.cellValue ch .i2csa = addr.setWidth 16 ∧ t.field ch .sla10 = ten ∧ t.field ch .tr = tr ∧ t.held ch = false ∧
      VolatileDrawn ch s.drawCount s t ∧
      BitsKeptBut ch .ctl0 [s.params.fieldPos.sla10] s t ∧
      BitsKeptBut ch .ctl1 (s.params.fieldPos.tr :: holdPositions s.params.fieldPos .b) s t ∧
      CellsKeptBut ch [.ctl0, .ctl1, .stat, .i2csa] s t ∧ CoreKept s t ∧ ResKept s t ∧ OtherDevicesKept s t

/-- ISTT and ISTP set their bit of CTL1 and IGSTT reads TXSTT into RES; nothing else changes (R405, R406, R407). -/
def Obligations.StartStopCommandsComplete : Prop :=
  ∀ (ch : Chan) (s : State), s.chanAbsent ch = false → ch.kind = .b → s.params.fieldPos.legal = true →
    (∃ t, exec (.istt ch) s = .next t ∧ Retired (.istt ch) s t ∧ t.field ch .txstt = true ∧
      BitsKeptBut ch .ctl1 [s.params.fieldPos.txstt] s t ∧ CellsKeptBut ch [.ctl1] s t ∧ IrqKept s t ∧ CoreKept s t ∧
      ResKept s t ∧ OtherDevicesKept s t) ∧
    (∃ t, exec (.istp ch) s = .next t ∧ Retired (.istp ch) s t ∧ t.field ch .txstp = true ∧
      BitsKeptBut ch .ctl1 [s.params.fieldPos.txstp] s t ∧ CellsKeptBut ch [.ctl1] s t ∧ IrqKept s t ∧ CoreKept s t ∧
      ResKept s t ∧ OtherDevicesKept s t) ∧
    (∃ t, exec (.igstt ch) s = .next t ∧ Retired (.igstt ch) s t ∧ ResIs (if s.field ch .txstt then 1 else 0) s t ∧
      CoreKept s t ∧ DevicesKept s t)

/-- ISEND and PSEND, of an immediate or of RES: with the transmit flag set they complete in two steps, the byte in TXBUF and the flag
cleared; with it clear they wait, the byte captured (R319, R320, R408, R452). -/
def Obligations.SendCommandsCompleteOrWait : Prop :=
  ∀ (ch : Chan) (v : Byte) (s : State), Runs s → s.chanAbsent ch = false →
    ∀ p ∈ sendCommands ch v s,
      (s.ifg ch .tx = true →
        ∃ t, Finishes p.1 (sequencerTurns 1) s t ∧ Retired p.1 s t ∧ ByteSent ch p.2 s t ∧ CoreKept s t ∧ ResKept s t ∧
          OtherDevicesKept s t) ∧
      (s.ifg ch .tx = false →
        ∃ t, exec p.1 s = .next t ∧ Begun p.1 [.poll ch .tx, .txByte ch p.2] s t ∧ CoreKept s t ∧ ResKept s t ∧
          DevicesKept s t)

/-- PRECV and IRECV with the receive flag set complete in two steps and clear the flag: PRECV puts RXBUF in RES and sends no byte; IRECV
inserts RXBUF into the channel's ring buffer, where its sharing is guarded, and leaves RES. With the flag clear they wait (R319, R322,
R323, R411, R413, R453). -/
def Obligations.ReceiveCommandsCompleteOrWait : Prop :=
  ∀ (ch : Chan) (s : State), Runs s → s.chanAbsent ch = false →
    (s.ifg ch .rx = true →
      ∃ t, Finishes (.precv ch) (sequencerTurns 1) s t ∧ Retired (.precv ch) s t ∧ ResIs ((s.cells ch).rxbuf.setWidth 32) s t ∧
        ReceiveTaken ch s t ∧ CoreKept s t ∧ OtherDevicesKept s t) ∧
    (∀ r r1 : Ring, ch.kind = .b → s.ifg ch .rx = true → s.rings[s.i2cRb ch]? = some r → Shares s r r1 →
      ∃ t r2, Finishes (.irecv ch) (sequencerTurns 1) s t ∧ Retired (.irecv ch) s t ∧ Inserted r1 (s.cells ch).rxbuf r2 ∧
        t.rings[s.i2cRb ch]? = some r2 ∧ OtherRingsKept (s.i2cRb ch) s t ∧ ReceiveTaken ch s t ∧ CoreKept s t ∧
        ResKept s t ∧ TimersKept s t) ∧
    (s.ifg ch .rx = false →
      (∃ t, exec (.precv ch) s = .next t ∧ Begun (.precv ch) [.poll ch .rx, .rxRes ch] s t ∧ CoreKept s t ∧ ResKept s t ∧
        DevicesKept s t) ∧
      (ch.kind = .b →
        ∃ t, exec (.irecv ch) s = .next t ∧ Begun (.irecv ch) [.poll ch .rx, .rxPush ch (s.i2cRb ch)] s t ∧ CoreKept s t ∧
          ResKept s t ∧ DevicesKept s t))

/-- IWREG begins with the hold and leaves the rest of R409's list, with its operands captured: addressing, start, the register byte, n
data bytes from data memory with wrapping addresses, stop (R147, R409). IRREG with a count of at least 1 does the like for R410's list,
where the stop is queued before the last byte, and so, for a single byte, right after the repeated start; a count of 0 raises
I2C_COUNT_ZERO (R410, R412; where a rule writes STAT[6:0], STAT[7] or CTL1 bit 0, the positions of LISTEN and SWRST are FIELDPOS's, log
12). -/
def Obligations.RegisterTransactionsBegin : Prop :=
  ∀ (ch : Chan) (reg : Byte) (s : State), s.chanAbsent ch = false → ch.kind = .b → s.params.fieldPos.legal = true →
    s.params.irqBits.legal = true →
    let addr := s.cur.arg0.extractLsb' 0 10
    let ten := s.cur.arg0.getLsbD 16
    let n := (s.cur.arg1.extractLsb' 0 16).toNat
    let src := s.cur.arg2.extractLsb' 0 16
    (∃ t, exec (.iwreg ch reg) s = .next t ∧ t.held ch = true ∧ VolatileDrawn ch s.drawCount s t ∧
      Begun (.iwreg ch reg)
        (prepareTail ch addr ten ++
          [.fieldWrite ch .txstt true, .poll ch .tx, .txByte ch reg] ++
          (List.range n).flatMap (fun j => [.poll ch .tx, .txMem ch (src + BitVec.ofNat 16 j)]) ++
          [.poll ch .tx, .fieldWrite ch .txstp true]) s t ∧
      CellsKeptBut ch [.ctl1, .stat] s t ∧ CoreKept s t ∧ ResKept s t ∧ OtherDevicesKept s t) ∧
    (1 ≤ n →
      ∃ t, exec (.irreg ch reg) s = .next t ∧ t.held ch = true ∧ VolatileDrawn ch s.drawCount s t ∧
        Begun (.irreg ch reg)
          (prepareTail ch addr ten ++
            [.fieldWrite ch .txstt true, .poll ch .tx, .txByte ch reg, .poll ch .tx, .fieldWrite ch .tr false,
             .fieldWrite ch .txstt true] ++
            (List.replicate (n - 1) [MicroOp.poll ch .rx, .rxPush ch (s.i2cRb ch)]).flatten ++
            [.fieldWrite ch .txstp true, .poll ch .rx, .rxPush ch (s.i2cRb ch)]) s t ∧
        CellsKeptBut ch [.ctl1, .stat] s t ∧ CoreKept s t ∧ ResKept s t ∧ OtherDevicesKept s t) ∧
    (n = 0 → ∃ t, exec (.irreg ch reg) s = .next t ∧ Raises .i2cCountZero (encode (.irreg ch reg)) s t)

/-- IWREG of n bytes, run to its end with one TX-ready step before each poll: the register byte and then the n bytes of data memory pass
through TXBUF in that order, one after each pair of poll and write, and the command ends with the stop queued, whatever the hold drew and
whatever turns come after (R331, R401, R409). -/
def Obligations.RegisterWriteSendsBytesInOrder : Prop :=
  ∀ (ch : Chan) (reg : Byte) (s : State), Runs s → s.chanAbsent ch = false → ch.kind = .b →
    let n := (s.cur.arg1.extractLsb' 0 16).toNat
    let src := s.cur.arg2.extractLsb' 0 16
    (∀ j, j ≤ n → ∃ t, Finishes (.iwreg ch reg) (readySchedule ch (j + 1)) s t ∧
      (t.cells ch).txbuf = (if j = 0 then reg else s.readByte (src + BitVec.ofNat 16 (j - 1)))) ∧
    ∃ t, Finishes (.iwreg ch reg) (readySchedule ch (n + 2)) s t ∧ Retired (.iwreg ch reg) s t ∧ TurnsKept s t ∧
      t.field ch .txstt = true ∧ t.field ch .txstp = true ∧ t.field ch .tr = true ∧ t.held ch = false ∧
      t.cellValue ch .i2csa = (s.cur.arg0.extractLsb' 0 10).setWidth 16 ∧ t.field ch .sla10 = s.cur.arg0.getLsbD 16 ∧
      (t.cells ch).txbuf = (if n = 0 then reg else s.readByte (src + BitVec.ofNat 16 (n - 1))) ∧
      CellsKeptBut ch [.ctl0, .ctl1, .stat, .txbuf, .i2csa] s t ∧
      (∀ c d, c ≠ ch → t.ifg c d = s.ifg c d ∧ t.ie c d = s.ie c d) ∧ t.drawCount = s.drawCount + 1 ∧
      t.gie = s.gie ∧ ProcKept s t ∧ ArgsKept s t ∧ ResKept s t ∧ GuardKept s t ∧ MemKept s t ∧ OtherDevicesKept s t

/-- IRREG of any count from 1 on, run to its end under a schedule in which the device answers one byte for each: the bytes are inserted
into the channel's ring buffer in the order they arrive. Before the last one arrives the register byte is in TXBUF, the direction is
receive, start and stop are both set and all the others are inserted, whatever the hold drew and whatever turns come after (R332, R401,
R410, R412). -/
def Obligations.RegisterReadPushesBytesInOrder : Prop :=
  ∀ (ch : Chan) (reg : Byte) (front : List Byte) (last : Byte) (r r1 : Ring) (s : State), Runs s → s.chanAbsent ch = false →
    ch.kind = .b → (s.cur.arg1.extractLsb' 0 16).toNat = front.length + 1 → s.rings[s.i2cRb ch]? = some r → Shares s r r1 →
    (∃ t r2, Finishes (.irreg ch reg) (answersBeforeLast ch front) s t ∧ (t.cells ch).txbuf = reg ∧
      t.field ch .txstt = true ∧ t.field ch .txstp = true ∧ t.field ch .tr = false ∧
      InsertedAll (if front = [] then r else r1) front r2 ∧ t.rings[s.i2cRb ch]? = some r2) ∧
    ∃ t r2, Finishes (.irreg ch reg) (answerSchedule ch front last) s t ∧ Retired (.irreg ch reg) s t ∧ TurnsKept s t ∧
      InsertedAll r1 (front ++ [last]) r2 ∧ t.rings[s.i2cRb ch]? = some r2 ∧ OtherRingsKept (s.i2cRb ch) s t ∧
      (t.cells ch).txbuf = reg ∧ (t.cells ch).rxbuf = last ∧ t.ifg ch .rx = false ∧ t.field ch .tr = false ∧
      t.field ch .txstt = true ∧ t.field ch .txstp = true ∧ t.held ch = false ∧
      t.cellValue ch .i2csa = (s.cur.arg0.extractLsb' 0 10).setWidth 16 ∧ t.field ch .sla10 = s.cur.arg0.getLsbD 16 ∧
      CellsKeptBut ch [.ctl0, .ctl1, .stat, .rxbuf, .txbuf, .i2csa] s t ∧
      (∀ c d, c ≠ ch → t.ifg c d = s.ifg c d ∧ t.ie c d = s.ie c d) ∧ t.drawCount = s.drawCount + 1 ∧
      t.gie = s.gie ∧ ProcKept s t ∧ ArgsKept s t ∧ ResKept s t ∧ GuardKept s t ∧ MemKept s t ∧ TimersKept s t

/-! ### U5 SPI master (45_spi.md) -/

/-- PINIT on any channel that is present, held or not, completes in five steps: the three control fields ORed into CTL0, the divisor pair,
the hold released, the hold-volatile bits as drawn (R451; where a rule writes STAT[6:0], STAT[7] or CTL1 bit 0, the positions of LISTEN
and SWRST are FIELDPOS's, log 12). -/
def Obligations.SpiInitCompletes : Prop :=
  ∀ (ch : Chan) (divisor : Half) (s : State), Runs s → s.chanAbsent ch = false →
    ∃ t, Finishes (.pinit ch divisor) (sequencerTurns 4) s t ∧ Retired (.pinit ch divisor) s t ∧
      (t.cells ch).ctl0 = s.cur.arg0.extractLsb' 0 8 ||| s.cur.arg0.extractLsb' 8 8 ||| s.cur.arg0.extractLsb' 16 8 ∧
      (t.cells ch).br1 ++ (t.cells ch).br0 = divisor ∧ t.held ch = false ∧ VolatileDrawn ch s.drawCount s t ∧
      BitsKeptBut ch .ctl1 (holdPositions s.params.fieldPos ch.kind) s t ∧
      CellsKeptBut ch [.ctl0, .ctl1, .br0, .br1, .stat] s t ∧ CoreKept s t ∧ ResKept s t ∧ OtherDevicesKept s t

/-- PLOOP writes the LISTEN bit, held or not; PGLOOP, PGFE and PGOE read LISTEN, FE and OE into RES and clear nothing (R454 to R457). -/
def Obligations.StatusBitAccessorsComplete : Prop :=
  ∀ (ch : Chan) (en : Bool) (s : State), s.chanAbsent ch = false → s.params.fieldPos.legal = true →
    (∃ t, exec (.ploop ch en) s = .next t ∧ Retired (.ploop ch en) s t ∧ t.field ch .listen = en ∧
      BitsKeptBut ch .stat [s.params.fieldPos.listen] s t ∧ CellsKeptBut ch [.stat] s t ∧ IrqKept s t ∧ CoreKept s t ∧
      ResKept s t ∧ OtherDevicesKept s t) ∧
    (∃ t, exec (.pgloop ch) s = .next t ∧ Retired (.pgloop ch) s t ∧ ResIs (if s.field ch .listen then 1 else 0) s t ∧
      CoreKept s t ∧ DevicesKept s t) ∧
    (∃ t, exec (.pgfe ch) s = .next t ∧ Retired (.pgfe ch) s t ∧ ResIs (if s.field ch .fe then 1 else 0) s t ∧
      CoreKept s t ∧ DevicesKept s t) ∧
    (∃ t, exec (.pgoe ch) s = .next t ∧ Retired (.pgoe ch) s t ∧ ResIs (if s.field ch .oe then 1 else 0) s t ∧
      CoreKept s t ∧ DevicesKept s t)

/-! ### U6 ring buffer (46_ring_buffer.md) -/

/-- RINS of an immediate and of RES complete: the overflow flag is set when the cursors are equal, NEVER becomes 0, the byte is written
and the write cursor advances modulo the capacity; an insert never fails (R504, R505). -/
def Obligations.RingInsertsComplete : Prop :=
  ∀ (b : Fin 16) (v : Byte) (r r1 r2 r3 : Ring) (s : State), s.rings[b.val]? = some r → Shares s r r1 →
    Inserted r1 v r2 → Inserted r1 (s.cur.res.extractLsb' 0 8) r3 →
    RingBecomes (.rins b v) b r2 s.cur.res s ∧ RingBecomes (.rinsR b) b r3 s.cur.res s

/-- RGET, REMPTY, ROVF, RCLROVF and RCLR complete: RGET answers 0 on NEVER without moving, else the byte at the read cursor, which
advances; REMPTY and ROVF read; RCLROVF clears the flag; RCLR resets both cursors and the flag and keeps the data and the tracking bits
(R506 to R510). -/
def Obligations.RingReadsAndClearsComplete : Prop :=
  ∀ (b : Fin 16) (r r1 : Ring) (s : State), s.rings[b.val]? = some r → Shares s r r1 →
    (r.rd = none → RingBecomes (.rget b) b r1 0 s) ∧
    (∀ i v, r.rd = some i → r.buf[i]? = some v →
      RingBecomes (.rget b) b { r1 with rd := some ((i + 1) % r.buf.length) } (v.setWidth 32) s) ∧
    RingBecomes (.rempty b) b r1
      (if (r.rd = some r.wr ∧ r.ovf = false) ∨ r.rd = none then 1 else 0) s ∧
    RingBecomes (.rovf b) b r1 (if r.ovf then 1 else 0) s ∧
    RingBecomes (.rclrovf b) b { r1 with ovf := false } s.cur.res s ∧
    RingBecomes (.rclr b) b { r1 with wr := 0, rd := none, ovf := false } s.cur.res s

/-- An access that completes the pattern of unguarded sharing raises UNGUARDED_SHARED_RB and does nothing else, for each U6 command and
for the push of IRECV, whichever context comes second; an index at or above NRB raises INSTANCE_RANGE (R505, R511; that the step of the
fault loads nothing is log 10). -/
def Obligations.RingAccessFaults : Prop :=
  ∀ (i : Instr) (b : Fin 16) (ch : Chan) (s : State), i.ring? = some b →
    (∀ r, s.rings[b.val]? = some r → Unshared s r →
      ∃ t, exec i s = .next t ∧ Raises .unguardedSharedRb (encode i) s t) ∧
    (∀ r, s.rings[s.i2cRb ch]? = some r → Unshared s r →
      (MicroOp.rxPush ch (s.i2cRb ch)).run s = .trap .unguardedSharedRb) ∧
    (s.rings.length ≤ b.val → ∃ t, exec i s = .next t ∧ Raises .instanceRange (encode i) s t)

/-- The consequences of the literal algorithm, from a cleared buffer of capacity N: the round trip of fewer than N bytes, with REMPTY
giving 1 after exactly the last get; N inserts that leave the cursors equal without overflow, so that REMPTY gives 1 although the
buffer is full; the insert beyond them, which sets the flag and overwrites the first slot; the insert after a drain, which sets the
flag; and a get of the cleared buffer (R512; where N is 1 the write cursor after N + 1 inserts is 0, by R504). -/
def Obligations.RingCapacityConsequences : Prop :=
  ∀ (n : Nat) (r : Ring) (l : List Byte) (v : Byte), Cleared n r → 1 ≤ n → 1 ≤ l.length → l.length ≤ n →
    let full := l.foldl Ring.insert r
    let past := full.insert v
    let drained := afterGets l.length full
    (l.length < n →
      full.wr = l.length ∧ full.rd = some 0 ∧ full.ovf = false ∧
      (∀ j (h : j < l.length), (afterGets j full).front = l[j] ∧ (afterGets j full).isEmpty = false) ∧
      drained.isEmpty = true ∧ drained.rd = some l.length ∧ (drained.insert v).ovf = true) ∧
    (l.length = n →
      full.wr = 0 ∧ full.rd = some 0 ∧ full.ovf = false ∧ full.isEmpty = true ∧
      (∀ j (h : j < l.length), (afterGets j full).front = l[j]) ∧
      past.ovf = true ∧ past.rd = some 0 ∧ past.wr = 1 % n ∧ past.buf = l.set 0 v ∧
      (∀ j (h : j < n), (afterGets j past).front = (l.set 0 v).getD j 0)) ∧
    r.front = 0 ∧ r.advance = r ∧ r.isEmpty = true

/-! ### Interrupts (60_exceptions.md) -/

/-- An interrupt turn enters the Isr context exactly when status is Running, the context is Main, GIE is 1 and there is an interrupt
program; its effect is R620's, and Main is untouched, a command in progress included. Otherwise nothing changes (R620, R622; the turn
itself is log 2, its being dropped log 3). -/
def Obligations.InterruptEntryEffect : Prop :=
  ∀ (s : State) (rest : List Turn), s.legal = true → s.agenda = .interrupt :: rest →
    (s.status = .running ∧ s.ctx = .main ∧ s.gie = true ∧ s.progIsr ≠ [] →
      step s = .next { s with
        agenda := rest, isrGieSaved := true, gie := false, ctx := .isr
        isr := { s.isr with cp := 0, gdepth := 0, useq := [] } }) ∧
    (¬ (s.status = .running ∧ s.ctx = .main ∧ s.gie = true ∧ s.progIsr ≠ []) → step s = .next { s with agenda := rest })

/-- An entry followed by RETI leaves Main exactly where it was, in the middle of a command or not, with interrupts enabled again, whatever
turns come after; only what the Isr context and its saved GIE hold has changed (R109, R212, R620). -/
def Obligations.InterruptThenRetiResumesMain : Prop :=
  ∀ (s : State) (rest : List Turn), Runs s → s.ctx = .main → s.gie = true → s.progIsr[0]? = some 0x0B000000 →
    s.agenda = .interrupt :: .sequencer :: rest →
    Host.Core.run Sys2Proof.core 2 s = .next { s with
      agenda := rest, isrGieSaved := true
      isr := { s.isr with cp := 0, gdepth := 0, useq := [], word := 0x0B000000 } }

/-- The context changes only by interrupt entry from Main and by RETI from Isr (R216, R622, R623). -/
def Obligations.ContextChangesOnlyByEntryAndReti : Prop :=
  ∀ (s t : State), s.inv = true → step s = .next t → t.ctx ≠ s.ctx →
    (s.ctx = .main ∧ t.ctx = .isr ∧ s.status = .running ∧ s.gie = true ∧ s.nextTurn = .interrupt) ∨
    (s.ctx = .isr ∧ t.ctx = .main ∧ t.gie = true ∧ SequencerNext s ∧ Fetches s .reti)

/-- The block becomes Halted only by a HALT fetched in Main with the guard released (R46, R202). -/
def Obligations.HaltedOnlyByHaltInMain : Prop :=
  ∀ (s t : State), s.inv = true → step s = .next t → s.status = .running → t.status = .halted →
    SequencerNext s ∧ Fetches s .halt ∧ s.ctx = .main ∧ s.main.gdepth = 0

/-- GIE changes only by EINT, DINT, GACQ, GREL, RETI and interrupt entry (R33, R216). -/
def Obligations.GieChangesOnlyByItsWriters : Prop :=
  ∀ (s t : State), s.inv = true → step s = .next t → t.gie ≠ s.gie →
    s.nextTurn = .interrupt ∨ (SequencerNext s ∧ ∃ i ∈ [Instr.eint, .dint, .gacq, .grel, .reti], Fetches s i)

/-! ### The environment (10_state.md R36, 41_timer.md, 42_serial_engine.md) -/

/-- A step of the environment changes only the hardware-owned state: of a channel its flags, which it only sets, RXBUF, the STAT bits but
LISTEN, and on kind B TXSTT and TXSTP, which it only clears; of a timer the count of a running timer, and of a channel in capture mode the
value and the overflow flag, which it only sets (R36, R280 to R283, R336; the hardware-owned bits of STAT are all but the one at
FIELDPOS's LISTEN, log 12). -/
def Obligations.EnvironmentChangesOnlyItsOwn : Prop :=
  ∀ (e : EnvStep) (s t : State), s.params.irqBits.legal = true → s.params.fieldPos.legal = true → t = envStep e s →
    t.main = s.main ∧ t.isr = s.isr ∧ FlagsKept s t ∧ ConfigKept s t ∧ t.dm = s.dm ∧ t.rings = s.rings ∧
    t.drawCount = s.drawCount ∧
    (∀ c r, r.hasCell c.kind = true → r ∉ [Role.ctl1, .stat, .rxbuf] → t.cellValue c r = s.cellValue c r) ∧
    (∀ c, c.kind = .a → (t.cells c).ctl1 = (s.cells c).ctl1) ∧
    (∀ c, BitsKeptBut c .ctl1 [s.params.fieldPos.txstt, s.params.fieldPos.txstp] s t) ∧
    (∀ c, (t.field c .txstt = true → s.field c .txstt = true) ∧ (t.field c .txstp = true → s.field c .txstp = true)) ∧
    (∀ c, t.field c .listen = s.field c .listen) ∧
    (∀ c d, t.ie c d = s.ie c d) ∧ (∀ c d, s.ifg c d = true → t.ifg c d = true) ∧
    (∀ (n : Nat) (tm : Timer), s.timers[n]? = some tm → ∃ tm1 : Timer, t.timers[n]? = some tm1 ∧ tm1.kind = tm.kind ∧
      tm1.mode = tm.mode ∧ tm1.div = tm.div ∧ tm1.src = tm.src ∧ (tm.mode = .stop → tm1.count = tm.count) ∧
      ∀ (c : Nat) (tc : TimerChan), tm.chans[c]? = some tc → ∃ tc1 : TimerChan, tm1.chans[c]? = some tc1 ∧ tc1.cm = tc.cm ∧
        tc1.ccis = tc.ccis ∧ tc1.scs = tc.scs ∧ tc1.outmod = tc.outmod ∧ tc1.ccie = tc.ccie ∧
        (tc.cov = true → tc1.cov = true) ∧ (tc.cm = .none → tc1 = tc))

/-- The serial steps of the environment do nothing to a channel that is absent or held, and have their stated effect, and no other, on
one that is present and enabled: TX-ready sets its flag; RX-byte sets its flag, RXBUF, and OE on overrun; start-done and stop-done clear
their bit on kind B; status writes STAT but LISTEN. A capture latches the count into a channel in capture mode and may set its overflow
flag; a count step sets the count of a running timer (R280, R281, R330 to R335; the position of LISTEN is log 12; that a step which is
not enabled leaves the state as it is is log 3). -/
def Obligations.EnvironmentStepEffects : Prop :=
  ∀ (ch : Chan) (v : Byte) (s : State), s.params.irqBits.legal = true → s.params.fieldPos.legal = true →
    (s.chanAbsent ch = true ∨ s.held ch = true →
      ∀ e ∈ [EnvStep.txReady ch, .rxByte ch v, .startDone ch, .stopDone ch, .status ch v], envStep e s = s) ∧
    (s.chanAbsent ch = false → s.held ch = false →
      (let t := envStep (.txReady ch) s;
        t.ifg ch .tx = true ∧ IfgKeptBut ch .tx s t ∧ SerialHardwareKept ch [] s t) ∧
      (let t := envStep (.rxByte ch v) s;
        t.ifg ch .rx = true ∧ (t.cells ch).rxbuf = v ∧ t.field ch .oe = (s.field ch .oe || s.ifg ch .rx) ∧
        BitsKeptBut ch .stat [s.params.fieldPos.oe] s t ∧ IfgKeptBut ch .rx s t ∧
        SerialHardwareKept ch [.rxbuf, .stat] s t) ∧
      (ch.kind = .b →
        (let t := envStep (.startDone ch) s;
          t.field ch .txstt = false ∧ BitsKeptBut ch .ctl1 [s.params.fieldPos.txstt] s t ∧ IrqKept s t ∧
          SerialHardwareKept ch [.ctl1] s t) ∧
        (let t := envStep (.stopDone ch) s;
          t.field ch .txstp = false ∧ BitsKeptBut ch .ctl1 [s.params.fieldPos.txstp] s t ∧ IrqKept s t ∧
          SerialHardwareKept ch [.ctl1] s t)) ∧
      (ch.kind = .a → envStep (.startDone ch) s = s ∧ envStep (.stopDone ch) s = s) ∧
      (let t := envStep (.status ch v) s;
        (∀ n, n ≠ s.params.fieldPos.listen → (t.cells ch).stat.getLsbD n = v.getLsbD n) ∧
        t.field ch .listen = s.field ch .listen ∧ IrqKept s t ∧ SerialHardwareKept ch [.stat] s t)) ∧
    (∀ (n c : Nat) (tm : Timer) (tc : TimerChan) (overflow : Bool), s.timers[n]? = some tm → tm.chans[c]? = some tc →
      (let t := envStep (.capture n c overflow) s;
        (tc.cm ≠ .none →
          t.timers[n]? = some { tm with
            chans := tm.chans.set c { tc with value := tm.count, cov := tc.cov || overflow } } ∧
          OtherTimersKept n s t ∧ SerialKept s t) ∧
        (tc.cm = .none → t = s))) ∧
    (∀ (n : Nat) (tm : Timer) (x : Half), s.timers[n]? = some tm →
      (let t := envStep (.count n x) s;
        (tm.mode ≠ .stop → t.timers[n]? = some { tm with count := x } ∧ OtherTimersKept n s t ∧ SerialKept s t) ∧
        (tm.mode = .stop → t = s)))

/-! ### Whole-machine rules -/

/-- A configuration cell changes only while its channel is held, whatever agent takes the step (R305, R314, R721). -/
def Obligations.ConfigCellsChangeOnlyWhileHeld : Prop :=
  ∀ (s t : State) (ch : Chan) (role : Role), step s = .next t → role ∈ [Role.ctl0, .br0, .br1, .mctl] →
    role.hasCell ch.kind = true → t.cellValue ch role ≠ s.cellValue ch role → s.held ch = true

/-- A byte of the data memory changes only by an STB to its address (R100, R206). -/
def Obligations.MemoryChangesOnlyByStb : Prop :=
  ∀ (s t : State) (a : Half), s.inv = true → step s = .next t → t.readByte a ≠ s.readByte a →
    SequencerNext s ∧ ∃ k, Fetches s (.stb k a)

/-- No step changes the parameters, the programs, the number and capacities of the ring buffers, or the number and kinds of the timers
(R7, R112, R113). -/
def Obligations.StepKeepsConfiguration : Prop :=
  ∀ (s t : State), step s = .next t →
    ConfigKept s t ∧ t.rings.map (fun r => r.buf.length) = s.rings.map (fun r => r.buf.length) ∧
    t.timers.map Timer.kind = s.timers.map Timer.kind

/-- Every step keeps the invariant: a legal parameter set, a canonical memory, ring cursors that name slots, timers of their kind's
shape, pointers of 0 to 65536 and guard depths of 0 to 255, commands in progress fetched inside their program, a saved GIE of 1 in the
Isr context, a fault code exactly when Faulted, and Halted only in Main with the guard released (R32, R34, R46, R212, R500, R601). -/
def Obligations.StepKeepsInvariant : Prop :=
  ∀ (s t : State), s.inv = true → step s = .next t → t.inv = true

/-! ### Reset (70_reset_and_hazards.md) -/

/-- After reset, for every choice of the host and every draw, with the default FIELDPOS: both banks zero, pointers 0, nothing in
progress, GIE 0, context Main, status Running, no fault; every channel held with its cells at R306's values; every timer stopped with
zero fields; every ring buffer cleared; STAT[6:0], RXBUF, TXBUF and the interrupt flags as drawn (R252, R306, R503, R700). -/
def Obligations.ResetValues : Prop :=
  ∀ b : Boot, b.params.fieldPos = FieldPos.default →
    let s := State.boot b
    (∀ k, (∀ r, (s.ctxState k).arg r = 0) ∧ (s.ctxState k).res = 0 ∧ (s.ctxState k).cp = 0 ∧ (s.ctxState k).useq = [] ∧
      (s.ctxState k).word = 0 ∧ (s.ctxState k).gdepth = 0 ∧ (s.ctxState k).gsaved = false) ∧
    s.gie = false ∧ s.ctx = .main ∧ s.isrGieSaved = false ∧ s.status = .running ∧
    s.fault = { code := 0, cp := 0, ctx := .main, word := 0 } ∧
    s.dm = b.dmInit ∧ s.progMain = b.progMain ∧ s.progIsr = b.progIsr ∧
    (∀ ch, (s.cells ch).ctl0 = (if ch.kind = .a then 0x00 else 0x01) ∧ (s.cells ch).ctl1 = 0x01 ∧ (s.cells ch).br0 = 0 ∧
      (s.cells ch).br1 = 0 ∧ (s.cells ch).stat.getLsbD 7 = false ∧
      (∀ n, n < 7 → (s.cells ch).stat.getLsbD n = (b.stat.get ch).getLsbD n) ∧
      (s.cells ch).rxbuf = b.rxbuf.get ch ∧ (s.cells ch).txbuf = b.txbuf.get ch ∧ s.held ch = true ∧ ∀ d, s.ie ch d = false) ∧
    (∀ i, s.serial.mctl.get i = 0 ∧ s.serial.i2coa.get i = 0 ∧ s.serial.i2csa.get i = 0 ∧ s.serial.i2cie.get i = 0 ∧
      s.serial.ie.get i = 0 ∧ s.serial.ifg.get i = b.ifg.get i) ∧
    (∀ tm ∈ s.timers, tm.mode = .stop ∧ tm.div = .by1 ∧ tm.src = .taclk ∧ tm.count = 0 ∧ tm.chans.length = b.params.channels tm.kind ∧
      ∀ tc ∈ tm.chans, tc.cm = .none ∧ tc.ccis = .ccia ∧ tc.scs = false ∧ tc.outmod = 0 ∧ tc.ccie = false ∧ tc.cov = false ∧
        tc.value = 0) ∧
    (∀ r ∈ s.rings, r.wr = 0 ∧ r.rd = none ∧ r.ovf = false ∧ r.isrSeen = false ∧ r.mainUnguarded = false ∧ ∀ x ∈ r.buf, x = 0)

/-- The reset state, and every boot of a legal parameter set with a canonical initial memory, meets the invariant. -/
def Obligations.ResetMeetsInvariant : Prop :=
  State.reset.inv = true ∧
  ∀ b : Boot, (State.boot b).legal = true → Memory.wf b.dmInit = true → (State.boot b).inv = true
end

