-- ==== Sys2Proof/Laws/Fields.lean ====
section
/-! SUPPORT. The laws of the command word: its fields come back from the word, and each small field from the field it is packed in. -/

namespace Sys2Proof

/-- The fields of the word of some fields are those fields (R141). -/
@[simp] theorem Fields.ofWord_toWord (f : Fields) : Fields.ofWord f.toWord = f := by
  obtain ⟨u, op, x, y, imm⟩ := f
  simp only [Fields.ofWord, Fields.toWord, Fields.mk.injEq]
  refine ⟨?_, ?_, ?_, ?_, ?_⟩ <;>
  · apply BitVec.eq_of_getLsbD_eq
    intro i hi
    simp only [BitVec.getLsbD_extractLsb', BitVec.getLsbD_append]
    simp (disch := omega) only [hi, decide_true, Bool.true_and, if_pos, if_neg, Nat.add_sub_cancel_left, ite_true,
      show ¬ (28 + i < 24) by omega, show ¬ (28 + i < 20) by omega, show ¬ (28 + i < 16) by omega, show ¬ (24 + i < 20) by omega,
      show ¬ (24 + i < 16) by omega, show ¬ (20 + i < 16) by omega, Nat.zero_add]
    try congr 1
    try omega

end Sys2Proof
end

