-- ==== Sys2Proof/Laws/Memory.lean ====
section
/-! SUPPORT. The laws of the data memory: a read after a write, the bytes a write leaves alone, and the canonical form. -/

namespace Sys2Proof.Machine

theorem dmWfFrom_mono {lo lo' : Nat} {m : List Host.Cell} (h : dmWfFrom lo m = true) (hl : lo' ≤ lo) :
    dmWfFrom lo' m = true := by
  cases m with
  | nil => rfl
  | cons c rest =>
    obtain ⟨b, v⟩ := c
    simp only [dmWfFrom, Bool.and_eq_true, decide_eq_true_eq] at h ⊢
    exact ⟨⟨⟨by omega, h.1.1.2⟩, h.1.2⟩, h.2⟩

/-- A list in canonical form above lo holds nothing below lo. -/
theorem dmRead_below {lo a : Nat} {m : List Host.Cell} (h : dmWfFrom lo m = true) (ha : a < lo) : dmRead m a = 0 := by
  induction m generalizing lo with
  | nil => rfl
  | cons c rest ih =>
    obtain ⟨b, v⟩ := c
    simp only [dmWfFrom, Bool.and_eq_true, decide_eq_true_eq] at h
    have hb : a ≠ b := by omega
    simp only [dmRead, hb, if_false]
    exact ih h.2 (by omega)

/-- A byte written is the byte read, where the list is in canonical form. -/
theorem dmRead_dmWrite_self {lo : Nat} {m : List Host.Cell} (h : dmWfFrom lo m = true) (a : Nat) (v : Byte) :
    dmRead (dmWrite m a v) a = v := by
  induction m generalizing lo with
  | nil => by_cases hv : v = 0 <;> simp only [dmWrite, dmRead, hv, if_true, if_false]
  | cons c rest ih =>
    obtain ⟨b, u⟩ := c
    simp only [dmWfFrom, Bool.and_eq_true, decide_eq_true_eq] at h
    unfold dmWrite
    by_cases hlt : a < b
    · by_cases hv : v = 0
      · simp only [hlt, hv, if_true, dmRead, show a ≠ b by omega, if_false]
        exact dmRead_below h.2 (by omega)
      · simp only [hlt, hv, dmRead, if_true, if_false]
    · by_cases hab : a = b
      · subst hab
        by_cases hv : v = 0
        · simp only [lt_irrefl, if_false, hv, if_true]
          exact dmRead_below h.2 (by omega)
        · simp only [lt_irrefl, hv, dmRead, if_true, if_false]
      · simp only [hlt, hab, if_false, dmRead]
        exact ih h.2

/-- Every other byte reads as before, whatever the list. -/
theorem dmRead_dmWrite_ne (m : List Host.Cell) {a b : Nat} (v : Byte) (hab : b ≠ a) : dmRead (dmWrite m a v) b = dmRead m b := by
  induction m with
  | nil => by_cases hv : v = 0 <;> simp only [dmWrite, dmRead, hv, hab, if_true, if_false]
  | cons c rest ih =>
    obtain ⟨x, u⟩ := c
    unfold dmWrite
    by_cases hlt : a < x
    · by_cases hv : v = 0 <;> simp only [hlt, hv, dmRead, hab, if_true, if_false]
    · by_cases hax : a = x
      · subst hax
        by_cases hv : v = 0 <;> simp only [lt_irrefl, hv, dmRead, hab, if_true, if_false]
      · simp only [hlt, hax, if_false, dmRead, ih]

theorem dmWfFrom_dmWrite {lo : Nat} {m : List Host.Cell} (h : dmWfFrom lo m = true) {a : Nat} (v : Byte) (hlo : lo ≤ a)
    (ha : a < 65536) : dmWfFrom lo (dmWrite m a v) = true := by
  induction m generalizing lo with
  | nil =>
    by_cases hv : v = 0
    · simp only [dmWrite, dmWfFrom, hv, if_true]
    · simp only [dmWrite, dmWfFrom, hv, hlo, ha, if_false]
      simpa using hv
  | cons c rest ih =>
    obtain ⟨b, u⟩ := c
    simp only [dmWfFrom, Bool.and_eq_true, decide_eq_true_eq] at h
    unfold dmWrite
    by_cases hlt : a < b
    · by_cases hv : v = 0
      · simp only [hlt, hv, if_true, dmWfFrom, Bool.and_eq_true, decide_eq_true_eq]
        exact h
      · simp only [hlt, hv, if_true, if_false, dmWfFrom, Bool.and_eq_true, decide_eq_true_eq]
        exact ⟨⟨⟨hlo, ha⟩, hv⟩, ⟨⟨by omega, h.1.1.2⟩, h.1.2⟩, h.2⟩
    · by_cases hab : a = b
      · subst hab
        by_cases hv : v = 0
        · simp only [lt_irrefl, if_false, hv, if_true]
          exact dmWfFrom_mono h.2 (by omega)
        · simp only [lt_irrefl, if_false, if_true, hv, dmWfFrom, Bool.and_eq_true, decide_eq_true_eq]
          exact ⟨⟨⟨hlo, ha⟩, hv⟩, h.2⟩
      · simp only [hlt, hab, if_false, dmWfFrom, Bool.and_eq_true, decide_eq_true_eq]
        exact ⟨h.1, ih h.2 (by omega)⟩

/-- A write keeps the canonical form of the data memory. -/
theorem State.writeByte_wf (s : State) (a : Half) (v : Byte) (h : Memory.wf s.dm = true) : Memory.wf (s.writeByte a v).dm = true :=
  dmWfFrom_dmWrite h v (Nat.zero_le _) a.isLt

theorem State.readByte_writeByte_self (s : State) (a : Half) (v : Byte) (h : Memory.wf s.dm = true) :
    (s.writeByte a v).readByte a = v := dmRead_dmWrite_self h a.toNat v

theorem State.readByte_writeByte_ne (s : State) {a b : Half} (v : Byte) (h : b ≠ a) :
    (s.writeByte a v).readByte b = s.readByte b :=
  dmRead_dmWrite_ne s.dm v (fun hab => h (BitVec.eq_of_toNat_eq hab))

/-- The memory after reset is in canonical form. -/
theorem reset_memory_wf : Memory.wf State.reset.dm = true := rfl

end Sys2Proof.Machine
end

