-- ==== Sys2Proof/Laws/PerInstr.lean ====
section
/-! SUPPORT. The family FieldRoundTrip, one lemma for each command: the fields of a well-formed command decode to that command. -/

namespace Sys2Proof.Laws

/-- The low part of a zero-extended field is the field. -/
theorem low_of_zero_append {m n : Nat} (v : BitVec n) : ((0#m) ++ v).extractLsb' 0 n = v := by
  apply BitVec.eq_of_getLsbD_eq
  intro i hi
  simp [BitVec.getLsbD_append, hi]

/-- The high part of a zero-extended field is zero. -/
theorem high_of_zero_append {m n : Nat} (v : BitVec n) : ((0#m) ++ v).extractLsb' n m = 0 := by
  apply BitVec.eq_of_getLsbD_eq
  intro i hi
  simp [BitVec.getLsbD_extractLsb', BitVec.getLsbD_append]

/-- The fields of a well-formed command decode to that command. -/
def FieldRoundTrip.Statement (i : Instr) : Prop := i.wellFormed = true → decodeFields (encodeFields i) = .ok i

namespace FieldRoundTrip

theorem nop : Statement .nop := by
  intro _
  rfl

theorem halt : Statement .halt := by
  intro _
  rfl

theorem ldlo (k : ArgReg) (imm : Half) : Statement (.ldlo k imm) := by
  intro _
  cases k <;>
  simp [decodeFields, encodeFields, decodeControl, zeros, Fields.xHigh, Fields.xLow, xOf, ArgReg.code, ArgReg.ofCode]

theorem ldhi (k : ArgReg) (imm : Half) : Statement (.ldhi k imm) := by
  intro _
  cases k <;>
  simp [decodeFields, encodeFields, decodeControl, zeros, Fields.xHigh, Fields.xLow, xOf, ArgReg.code, ArgReg.ofCode]

theorem movres (k : ArgReg) : Statement (.movres k) := by
  intro _
  cases k <;> rfl

theorem stb (k : ArgReg) (addr : Half) : Statement (.stb k addr) := by
  intro _
  cases k <;>
  simp [decodeFields, encodeFields, decodeControl, zeros, Fields.xHigh, Fields.xLow, xOf, ArgReg.code, ArgReg.ofCode]

theorem ldb (addr : Half) : Statement (.ldb addr) := by
  intro _
  simp [decodeFields, encodeFields, decodeControl, zeros]

theorem gacq : Statement .gacq := by
  intro _
  rfl

theorem grel : Statement .grel := by
  intro _
  rfl

theorem eint : Statement .eint := by
  intro _
  rfl

theorem dint : Statement .dint := by
  intro _
  rfl

theorem reti : Statement .reti := by
  intro _
  rfl

theorem jmp (target : Half) : Statement (.jmp target) := by
  intro _
  simp [decodeFields, encodeFields, decodeControl, zeros]

theorem bz (target : Half) : Statement (.bz target) := by
  intro _
  simp [decodeFields, encodeFields, decodeControl, zeros]

theorem bnz (target : Half) : Statement (.bnz target) := by
  intro _
  simp [decodeFields, encodeFields, decodeControl, zeros]

theorem tinit (t : Fin 16) (mode : TimerMode) (div : Divider) (src : ClockSource) : Statement (.tinit t mode div src) := by
  intro _
  cases mode <;> cases div <;> cases src <;>
  simp [decodeFields, encodeFields, decodeTimer, zeros, Fields.immBits, TimerMode.code, TimerMode.ofCode, Divider.code, Divider.ofCode, ClockSource.code,
    ClockSource.ofCode]

theorem tmode (t : Fin 16) (mode : TimerMode) : Statement (.tmode t mode) := by
  intro _
  cases mode <;>
  simp [decodeFields, encodeFields, decodeTimer, zeros, Fields.immBits, immOf2, TimerMode.code, TimerMode.ofCode]

theorem treset (t : Fin 16) : Statement (.treset t) := by
  intro _
  simp [decodeFields, encodeFields, decodeTimer, zeros]

theorem tcapm (t c : Fin 16) (cm : CaptureMode) (scs : Bool) : Statement (.tcapm t c cm scs) := by
  intro _
  cases cm <;> cases scs <;>
  simp [decodeFields, encodeFields, decodeTimer, zeros, Fields.immBits, CaptureMode.code, CaptureMode.ofCode]

theorem tccis (t c : Fin 16) (src : CaptureInput) : Statement (.tccis t c src) := by
  intro _
  cases src <;>
  simp [decodeFields, encodeFields, decodeTimer, zeros, Fields.immBits, immOf2, CaptureInput.code, CaptureInput.ofCode]

theorem toutm (t c : Fin 16) (om : BitVec 3) : Statement (.toutm t c om) := by
  intro _
  have h0 := low_of_zero_append (m := 13) om
  have h1 := high_of_zero_append (m := 13) om
  simp [decodeFields, encodeFields, decodeTimer, zeros, Fields.immBits, h0, h1]

theorem tsetcmp (t c : Fin 16) (value : Half) : Statement (.tsetcmp t c value) := by
  intro _
  simp [decodeFields, encodeFields, decodeTimer]

theorem tgetcap (t c : Fin 16) : Statement (.tgetcap t c) := by
  intro _
  simp [decodeFields, encodeFields, decodeTimer, zeros]

theorem tccie (t c : Fin 16) (en : Bool) : Statement (.tccie t c en) := by
  intro _
  cases en <;>
  simp [decodeFields, encodeFields, decodeTimer, zeros, Fields.immBits, immOfBit]

theorem tgetcov (t c : Fin 16) : Statement (.tgetcov t c) := by
  intro _
  simp [decodeFields, encodeFields, decodeTimer, zeros]

theorem tclrcov (t c : Fin 16) : Statement (.tclrcov t c) := by
  intro _
  simp [decodeFields, encodeFields, decodeTimer, zeros]

theorem sena (ch : Chan) : Statement (.sena ch) := by
  intro _
  cases ch <;> rfl

theorem sdis (ch : Chan) : Statement (.sdis ch) := by
  intro _
  cases ch <;> rfl

theorem sie (ch : Chan) (d : Dir) (en : Bool) : Statement (.sie ch d en) := by
  intro _
  cases ch <;> cases d <;> cases en <;> rfl

theorem sifg (ch : Chan) (d : Dir) : Statement (.sifg ch d) := by
  intro _
  cases ch <;> cases d <;> rfl

theorem swr (ch : Chan) (role : Role) (value : Half) : Statement (.swr ch role value) := by
  intro h
  cases ch <;> cases role <;> simp_all [Instr.wellFormed, Role.isByte, decodeFields, encodeFields, decodeSerial, Fields.xHigh,
    Fields.xLow, xOf, Chan.code, Chan.ofCode, Role.code, Role.ofCode?]

theorem srd (ch : Chan) (role : Role) : Statement (.srd ch role) := by
  intro _
  cases ch <;> cases role <;> rfl

theorem bcalc (os : Bool) : Statement (.bcalc os) := by
  intro _
  cases os <;> rfl

theorem bset (ch : Chan) (os : Bool) : Statement (.bset ch os) := by
  intro _
  cases ch <;> cases os <;> rfl

theorem iptx (ch : Chan) (addr : BitVec 10) (ten : Bool) : Statement (.iptx ch addr ten) := by
  intro _
  have h0 := low_of_zero_append (m := 6) addr
  have h1 := high_of_zero_append (m := 6) addr
  cases ch <;> cases ten <;>
  simp [decodeFields, encodeFields, decodeI2c, zeros, Fields.immBits, h0, h1, Fields.xHigh, Fields.xLow, xOf,
    Chan.code, Chan.ofCode, Fields.yHigh, Fields.yBit, yOf]

theorem iprx (ch : Chan) (addr : BitVec 10) (ten : Bool) : Statement (.iprx ch addr ten) := by
  intro _
  have h0 := low_of_zero_append (m := 6) addr
  have h1 := high_of_zero_append (m := 6) addr
  cases ch <;> cases ten <;>
  simp [decodeFields, encodeFields, decodeI2c, zeros, Fields.immBits, h0, h1, Fields.xHigh, Fields.xLow, xOf,
    Chan.code, Chan.ofCode, Fields.yHigh, Fields.yBit, yOf]

theorem istt (ch : Chan) : Statement (.istt ch) := by
  intro _
  cases ch <;> rfl

theorem istp (ch : Chan) : Statement (.istp ch) := by
  intro _
  cases ch <;> rfl

theorem igstt (ch : Chan) : Statement (.igstt ch) := by
  intro _
  cases ch <;> rfl

theorem isend (ch : Chan) (byte : Byte) : Statement (.isend ch byte) := by
  intro _
  have h0 := low_of_zero_append (m := 8) byte
  have h1 := high_of_zero_append (m := 8) byte
  cases ch <;>
  simp [decodeFields, encodeFields, decodeI2c, zeros, Fields.immBits, h0, h1, immOfByte, Fields.xHigh, Fields.xLow,
    xOf, Chan.code, Chan.ofCode, Fields.yHigh, Fields.yBit, yOf]

theorem isendR (ch : Chan) : Statement (.isendR ch) := by
  intro _
  cases ch <;> rfl

theorem iwreg (ch : Chan) (reg : Byte) : Statement (.iwreg ch reg) := by
  intro _
  have h0 := low_of_zero_append (m := 8) reg
  have h1 := high_of_zero_append (m := 8) reg
  cases ch <;>
  simp [decodeFields, encodeFields, decodeI2c, zeros, Fields.immBits, h0, h1, immOfByte, Fields.xHigh, Fields.xLow,
    xOf, Chan.code, Chan.ofCode]

theorem irreg (ch : Chan) (reg : Byte) : Statement (.irreg ch reg) := by
  intro _
  have h0 := low_of_zero_append (m := 8) reg
  have h1 := high_of_zero_append (m := 8) reg
  cases ch <;>
  simp [decodeFields, encodeFields, decodeI2c, zeros, Fields.immBits, h0, h1, immOfByte, Fields.xHigh, Fields.xLow,
    xOf, Chan.code, Chan.ofCode]

theorem irecv (ch : Chan) : Statement (.irecv ch) := by
  intro _
  cases ch <;> rfl

theorem pinit (ch : Chan) (divisor : Half) : Statement (.pinit ch divisor) := by
  intro _
  cases ch <;>
  simp [decodeFields, encodeFields, decodeSpi, zeros, Fields.xHigh, Fields.xLow, xOf, Chan.code, Chan.ofCode]

theorem psend (ch : Chan) (byte : Byte) : Statement (.psend ch byte) := by
  intro _
  have h0 := low_of_zero_append (m := 8) byte
  have h1 := high_of_zero_append (m := 8) byte
  cases ch <;>
  simp [decodeFields, encodeFields, decodeSpi, zeros, Fields.immBits, h0, h1, immOfByte, Fields.xHigh, Fields.xLow,
    xOf, Chan.code, Chan.ofCode, Fields.yHigh, Fields.yBit, yOf]

theorem psendR (ch : Chan) : Statement (.psendR ch) := by
  intro _
  cases ch <;> rfl

theorem precv (ch : Chan) : Statement (.precv ch) := by
  intro _
  cases ch <;> rfl

theorem ploop (ch : Chan) (en : Bool) : Statement (.ploop ch en) := by
  intro _
  cases ch <;> cases en <;> rfl

theorem pgloop (ch : Chan) : Statement (.pgloop ch) := by
  intro _
  cases ch <;> rfl

theorem pgfe (ch : Chan) : Statement (.pgfe ch) := by
  intro _
  cases ch <;> rfl

theorem pgoe (ch : Chan) : Statement (.pgoe ch) := by
  intro _
  cases ch <;> rfl

theorem rins (b : Fin 16) (byte : Byte) : Statement (.rins b byte) := by
  intro _
  have h0 := low_of_zero_append (m := 8) byte
  have h1 := high_of_zero_append (m := 8) byte
  simp [decodeFields, encodeFields, decodeRing, zeros, Fields.immBits, h0, h1, immOfByte, Fields.yHigh, Fields.yBit, yOf]

theorem rinsR (b : Fin 16) : Statement (.rinsR b) := by
  intro _
  simp [decodeFields, encodeFields, decodeRing, zeros, Fields.yHigh, Fields.yBit, yOf]

theorem rget (b : Fin 16) : Statement (.rget b) := by
  intro _
  simp [decodeFields, encodeFields, decodeRing, zeros]

theorem rempty (b : Fin 16) : Statement (.rempty b) := by
  intro _
  simp [decodeFields, encodeFields, decodeRing, zeros]

theorem rovf (b : Fin 16) : Statement (.rovf b) := by
  intro _
  simp [decodeFields, encodeFields, decodeRing, zeros]

theorem rclrovf (b : Fin 16) : Statement (.rclrovf b) := by
  intro _
  simp [decodeFields, encodeFields, decodeRing, zeros]

theorem rclr (b : Fin 16) : Statement (.rclr b) := by
  intro _
  simp [decodeFields, encodeFields, decodeRing, zeros]

end FieldRoundTrip

end Sys2Proof.Laws
end

