-- ==== Sys2Proof/Laws/State.lean ====
section
/-! SUPPORT. For each update of the state, one lemma per field it leaves alone and one for what it writes, so that no later proof
unfolds a record update. -/

namespace Sys2Proof.Machine

/-! ### Contexts -/

@[simp] theorem State.updCtx_params (s : State) (k : Ctx) (f : CtxState → CtxState) : (s.updCtx k f).params = s.params := by cases k <;> rfl
@[simp] theorem State.updCtx_progMain (s : State) (k : Ctx) (f : CtxState → CtxState) : (s.updCtx k f).progMain = s.progMain := by cases k <;> rfl
@[simp] theorem State.updCtx_progIsr (s : State) (k : Ctx) (f : CtxState → CtxState) : (s.updCtx k f).progIsr = s.progIsr := by cases k <;> rfl
@[simp] theorem State.updCtx_gie (s : State) (k : Ctx) (f : CtxState → CtxState) : (s.updCtx k f).gie = s.gie := by cases k <;> rfl
@[simp] theorem State.updCtx_ctx (s : State) (k : Ctx) (f : CtxState → CtxState) : (s.updCtx k f).ctx = s.ctx := by cases k <;> rfl
@[simp] theorem State.updCtx_isrGieSaved (s : State) (k : Ctx) (f : CtxState → CtxState) : (s.updCtx k f).isrGieSaved = s.isrGieSaved := by cases k <;> rfl
@[simp] theorem State.updCtx_status (s : State) (k : Ctx) (f : CtxState → CtxState) : (s.updCtx k f).status = s.status := by cases k <;> rfl
@[simp] theorem State.updCtx_fault (s : State) (k : Ctx) (f : CtxState → CtxState) : (s.updCtx k f).fault = s.fault := by cases k <;> rfl
@[simp] theorem State.updCtx_dm (s : State) (k : Ctx) (f : CtxState → CtxState) : (s.updCtx k f).dm = s.dm := by cases k <;> rfl
@[simp] theorem State.updCtx_serial (s : State) (k : Ctx) (f : CtxState → CtxState) : (s.updCtx k f).serial = s.serial := by cases k <;> rfl
@[simp] theorem State.updCtx_timers (s : State) (k : Ctx) (f : CtxState → CtxState) : (s.updCtx k f).timers = s.timers := by cases k <;> rfl
@[simp] theorem State.updCtx_rings (s : State) (k : Ctx) (f : CtxState → CtxState) : (s.updCtx k f).rings = s.rings := by cases k <;> rfl
@[simp] theorem State.updCtx_drawCount (s : State) (k : Ctx) (f : CtxState → CtxState) : (s.updCtx k f).drawCount = s.drawCount := by cases k <;> rfl
@[simp] theorem State.updCtx_agenda (s : State) (k : Ctx) (f : CtxState → CtxState) : (s.updCtx k f).agenda = s.agenda := by cases k <;> rfl
@[simp] theorem State.updCtx_interludeCount (s : State) (k : Ctx) (f : CtxState → CtxState) : (s.updCtx k f).interludeCount = s.interludeCount := by cases k <;> rfl

@[simp] theorem State.updCtx_self (s : State) (k : Ctx) (f : CtxState → CtxState) :
    (s.updCtx k f).ctxState k = f (s.ctxState k) := by cases k <;> rfl

theorem State.updCtx_other (s : State) {k j : Ctx} (f : CtxState → CtxState) (h : j ≠ k) :
    (s.updCtx k f).ctxState j = s.ctxState j := by cases k <;> cases j <;> first | rfl | exact absurd rfl h

@[simp] theorem State.updCtx_prog (s : State) (k j : Ctx) (f : CtxState → CtxState) :
    (s.updCtx k f).prog j = s.prog j := by cases k <;> cases j <;> rfl

@[simp] theorem State.updCur_params (s : State) (f : CtxState → CtxState) : (s.updCur f).params = s.params := by simp [State.updCur]
@[simp] theorem State.updCur_progMain (s : State) (f : CtxState → CtxState) : (s.updCur f).progMain = s.progMain := by simp [State.updCur]
@[simp] theorem State.updCur_progIsr (s : State) (f : CtxState → CtxState) : (s.updCur f).progIsr = s.progIsr := by simp [State.updCur]
@[simp] theorem State.updCur_gie (s : State) (f : CtxState → CtxState) : (s.updCur f).gie = s.gie := by simp [State.updCur]
@[simp] theorem State.updCur_ctx (s : State) (f : CtxState → CtxState) : (s.updCur f).ctx = s.ctx := by simp [State.updCur]
@[simp] theorem State.updCur_isrGieSaved (s : State) (f : CtxState → CtxState) : (s.updCur f).isrGieSaved = s.isrGieSaved := by simp [State.updCur]
@[simp] theorem State.updCur_status (s : State) (f : CtxState → CtxState) : (s.updCur f).status = s.status := by simp [State.updCur]
@[simp] theorem State.updCur_fault (s : State) (f : CtxState → CtxState) : (s.updCur f).fault = s.fault := by simp [State.updCur]
@[simp] theorem State.updCur_dm (s : State) (f : CtxState → CtxState) : (s.updCur f).dm = s.dm := by simp [State.updCur]
@[simp] theorem State.updCur_serial (s : State) (f : CtxState → CtxState) : (s.updCur f).serial = s.serial := by simp [State.updCur]
@[simp] theorem State.updCur_timers (s : State) (f : CtxState → CtxState) : (s.updCur f).timers = s.timers := by simp [State.updCur]
@[simp] theorem State.updCur_rings (s : State) (f : CtxState → CtxState) : (s.updCur f).rings = s.rings := by simp [State.updCur]
@[simp] theorem State.updCur_drawCount (s : State) (f : CtxState → CtxState) : (s.updCur f).drawCount = s.drawCount := by simp [State.updCur]
@[simp] theorem State.updCur_agenda (s : State) (f : CtxState → CtxState) : (s.updCur f).agenda = s.agenda := by simp [State.updCur]
@[simp] theorem State.updCur_interludeCount (s : State) (f : CtxState → CtxState) : (s.updCur f).interludeCount = s.interludeCount := by simp [State.updCur]

@[simp] theorem State.setArg_params (s : State) (k : ArgReg) (v : Word) : (s.setArg k v).params = s.params := by simp [State.setArg, State.updCur]
@[simp] theorem State.setArg_progMain (s : State) (k : ArgReg) (v : Word) : (s.setArg k v).progMain = s.progMain := by simp [State.setArg, State.updCur]
@[simp] theorem State.setArg_progIsr (s : State) (k : ArgReg) (v : Word) : (s.setArg k v).progIsr = s.progIsr := by simp [State.setArg, State.updCur]
@[simp] theorem State.setArg_gie (s : State) (k : ArgReg) (v : Word) : (s.setArg k v).gie = s.gie := by simp [State.setArg, State.updCur]
@[simp] theorem State.setArg_ctx (s : State) (k : ArgReg) (v : Word) : (s.setArg k v).ctx = s.ctx := by simp [State.setArg, State.updCur]
@[simp] theorem State.setArg_isrGieSaved (s : State) (k : ArgReg) (v : Word) : (s.setArg k v).isrGieSaved = s.isrGieSaved := by simp [State.setArg, State.updCur]
@[simp] theorem State.setArg_status (s : State) (k : ArgReg) (v : Word) : (s.setArg k v).status = s.status := by simp [State.setArg, State.updCur]
@[simp] theorem State.setArg_fault (s : State) (k : ArgReg) (v : Word) : (s.setArg k v).fault = s.fault := by simp [State.setArg, State.updCur]
@[simp] theorem State.setArg_dm (s : State) (k : ArgReg) (v : Word) : (s.setArg k v).dm = s.dm := by simp [State.setArg, State.updCur]
@[simp] theorem State.setArg_serial (s : State) (k : ArgReg) (v : Word) : (s.setArg k v).serial = s.serial := by simp [State.setArg, State.updCur]
@[simp] theorem State.setArg_timers (s : State) (k : ArgReg) (v : Word) : (s.setArg k v).timers = s.timers := by simp [State.setArg, State.updCur]
@[simp] theorem State.setArg_rings (s : State) (k : ArgReg) (v : Word) : (s.setArg k v).rings = s.rings := by simp [State.setArg, State.updCur]
@[simp] theorem State.setArg_drawCount (s : State) (k : ArgReg) (v : Word) : (s.setArg k v).drawCount = s.drawCount := by simp [State.setArg, State.updCur]
@[simp] theorem State.setArg_agenda (s : State) (k : ArgReg) (v : Word) : (s.setArg k v).agenda = s.agenda := by simp [State.setArg, State.updCur]
@[simp] theorem State.setArg_interludeCount (s : State) (k : ArgReg) (v : Word) : (s.setArg k v).interludeCount = s.interludeCount := by simp [State.setArg, State.updCur]

@[simp] theorem State.setRes_params (s : State) (v : Word) : (s.setRes v).params = s.params := by simp [State.setRes, State.updCur]
@[simp] theorem State.setRes_progMain (s : State) (v : Word) : (s.setRes v).progMain = s.progMain := by simp [State.setRes, State.updCur]
@[simp] theorem State.setRes_progIsr (s : State) (v : Word) : (s.setRes v).progIsr = s.progIsr := by simp [State.setRes, State.updCur]
@[simp] theorem State.setRes_gie (s : State) (v : Word) : (s.setRes v).gie = s.gie := by simp [State.setRes, State.updCur]
@[simp] theorem State.setRes_ctx (s : State) (v : Word) : (s.setRes v).ctx = s.ctx := by simp [State.setRes, State.updCur]
@[simp] theorem State.setRes_isrGieSaved (s : State) (v : Word) : (s.setRes v).isrGieSaved = s.isrGieSaved := by simp [State.setRes, State.updCur]
@[simp] theorem State.setRes_status (s : State) (v : Word) : (s.setRes v).status = s.status := by simp [State.setRes, State.updCur]
@[simp] theorem State.setRes_fault (s : State) (v : Word) : (s.setRes v).fault = s.fault := by simp [State.setRes, State.updCur]
@[simp] theorem State.setRes_dm (s : State) (v : Word) : (s.setRes v).dm = s.dm := by simp [State.setRes, State.updCur]
@[simp] theorem State.setRes_serial (s : State) (v : Word) : (s.setRes v).serial = s.serial := by simp [State.setRes, State.updCur]
@[simp] theorem State.setRes_timers (s : State) (v : Word) : (s.setRes v).timers = s.timers := by simp [State.setRes, State.updCur]
@[simp] theorem State.setRes_rings (s : State) (v : Word) : (s.setRes v).rings = s.rings := by simp [State.setRes, State.updCur]
@[simp] theorem State.setRes_drawCount (s : State) (v : Word) : (s.setRes v).drawCount = s.drawCount := by simp [State.setRes, State.updCur]
@[simp] theorem State.setRes_agenda (s : State) (v : Word) : (s.setRes v).agenda = s.agenda := by simp [State.setRes, State.updCur]
@[simp] theorem State.setRes_interludeCount (s : State) (v : Word) : (s.setRes v).interludeCount = s.interludeCount := by simp [State.setRes, State.updCur]

@[simp] theorem State.setCp_params (s : State) (v : Nat) : (s.setCp v).params = s.params := by simp [State.setCp, State.updCur]
@[simp] theorem State.setCp_progMain (s : State) (v : Nat) : (s.setCp v).progMain = s.progMain := by simp [State.setCp, State.updCur]
@[simp] theorem State.setCp_progIsr (s : State) (v : Nat) : (s.setCp v).progIsr = s.progIsr := by simp [State.setCp, State.updCur]
@[simp] theorem State.setCp_gie (s : State) (v : Nat) : (s.setCp v).gie = s.gie := by simp [State.setCp, State.updCur]
@[simp] theorem State.setCp_ctx (s : State) (v : Nat) : (s.setCp v).ctx = s.ctx := by simp [State.setCp, State.updCur]
@[simp] theorem State.setCp_isrGieSaved (s : State) (v : Nat) : (s.setCp v).isrGieSaved = s.isrGieSaved := by simp [State.setCp, State.updCur]
@[simp] theorem State.setCp_status (s : State) (v : Nat) : (s.setCp v).status = s.status := by simp [State.setCp, State.updCur]
@[simp] theorem State.setCp_fault (s : State) (v : Nat) : (s.setCp v).fault = s.fault := by simp [State.setCp, State.updCur]
@[simp] theorem State.setCp_dm (s : State) (v : Nat) : (s.setCp v).dm = s.dm := by simp [State.setCp, State.updCur]
@[simp] theorem State.setCp_serial (s : State) (v : Nat) : (s.setCp v).serial = s.serial := by simp [State.setCp, State.updCur]
@[simp] theorem State.setCp_timers (s : State) (v : Nat) : (s.setCp v).timers = s.timers := by simp [State.setCp, State.updCur]
@[simp] theorem State.setCp_rings (s : State) (v : Nat) : (s.setCp v).rings = s.rings := by simp [State.setCp, State.updCur]
@[simp] theorem State.setCp_drawCount (s : State) (v : Nat) : (s.setCp v).drawCount = s.drawCount := by simp [State.setCp, State.updCur]
@[simp] theorem State.setCp_agenda (s : State) (v : Nat) : (s.setCp v).agenda = s.agenda := by simp [State.setCp, State.updCur]
@[simp] theorem State.setCp_interludeCount (s : State) (v : Nat) : (s.setCp v).interludeCount = s.interludeCount := by simp [State.setCp, State.updCur]

@[simp] theorem State.updCur_cur (s : State) (f : CtxState → CtxState) : (s.updCur f).cur = f s.cur := by
  simp [State.cur, State.updCur]

@[simp] theorem State.setArg_cur (s : State) (k : ArgReg) (v : Word) : (s.setArg k v).cur = s.cur.setArg k v := by
  simp [State.setArg]

@[simp] theorem State.setRes_cur (s : State) (v : Word) : (s.setRes v).cur = { s.cur with res := v } := by
  simp [State.setRes]

@[simp] theorem State.setCp_cur (s : State) (v : Nat) : (s.setCp v).cur = { s.cur with cp := v } := by
  simp [State.setCp]

/-! ### The register bank -/

@[simp] theorem CtxState.setArg_arg_self (c : CtxState) (k : ArgReg) (v : Word) : (c.setArg k v).arg k = v := by
  cases k <;> rfl

theorem CtxState.setArg_arg_ne (c : CtxState) {k j : ArgReg} (v : Word) (h : j ≠ k) : (c.setArg k v).arg j = c.arg j := by
  cases k <;> cases j <;> first | rfl | exact absurd rfl h

@[simp] theorem CtxState.setArg_res (c : CtxState) (k : ArgReg) (v : Word) : (c.setArg k v).res = c.res := by
  cases k <;> rfl

@[simp] theorem CtxState.setArg_cp (c : CtxState) (k : ArgReg) (v : Word) : (c.setArg k v).cp = c.cp := by
  cases k <;> rfl

@[simp] theorem CtxState.setArg_useq (c : CtxState) (k : ArgReg) (v : Word) : (c.setArg k v).useq = c.useq := by
  cases k <;> rfl

@[simp] theorem CtxState.setArg_word (c : CtxState) (k : ArgReg) (v : Word) : (c.setArg k v).word = c.word := by
  cases k <;> rfl

@[simp] theorem CtxState.setArg_gdepth (c : CtxState) (k : ArgReg) (v : Word) : (c.setArg k v).gdepth = c.gdepth := by
  cases k <;> rfl

@[simp] theorem CtxState.setArg_gsaved (c : CtxState) (k : ArgReg) (v : Word) : (c.setArg k v).gsaved = c.gsaved := by
  cases k <;> rfl

/-! ### Memory, cells, flags, timers, ring buffers -/

@[simp] theorem State.writeByte_params (s : State) (a : Half) (v : Byte) : (s.writeByte a v).params = s.params := rfl
@[simp] theorem State.writeByte_progMain (s : State) (a : Half) (v : Byte) : (s.writeByte a v).progMain = s.progMain := rfl
@[simp] theorem State.writeByte_progIsr (s : State) (a : Half) (v : Byte) : (s.writeByte a v).progIsr = s.progIsr := rfl
@[simp] theorem State.writeByte_main (s : State) (a : Half) (v : Byte) : (s.writeByte a v).main = s.main := rfl
@[simp] theorem State.writeByte_isr (s : State) (a : Half) (v : Byte) : (s.writeByte a v).isr = s.isr := rfl
@[simp] theorem State.writeByte_gie (s : State) (a : Half) (v : Byte) : (s.writeByte a v).gie = s.gie := rfl
@[simp] theorem State.writeByte_ctx (s : State) (a : Half) (v : Byte) : (s.writeByte a v).ctx = s.ctx := rfl
@[simp] theorem State.writeByte_isrGieSaved (s : State) (a : Half) (v : Byte) : (s.writeByte a v).isrGieSaved = s.isrGieSaved := rfl
@[simp] theorem State.writeByte_status (s : State) (a : Half) (v : Byte) : (s.writeByte a v).status = s.status := rfl
@[simp] theorem State.writeByte_fault (s : State) (a : Half) (v : Byte) : (s.writeByte a v).fault = s.fault := rfl
@[simp] theorem State.writeByte_serial (s : State) (a : Half) (v : Byte) : (s.writeByte a v).serial = s.serial := rfl
@[simp] theorem State.writeByte_timers (s : State) (a : Half) (v : Byte) : (s.writeByte a v).timers = s.timers := rfl
@[simp] theorem State.writeByte_rings (s : State) (a : Half) (v : Byte) : (s.writeByte a v).rings = s.rings := rfl
@[simp] theorem State.writeByte_drawCount (s : State) (a : Half) (v : Byte) : (s.writeByte a v).drawCount = s.drawCount := rfl
@[simp] theorem State.writeByte_agenda (s : State) (a : Half) (v : Byte) : (s.writeByte a v).agenda = s.agenda := rfl
@[simp] theorem State.writeByte_interludeCount (s : State) (a : Half) (v : Byte) : (s.writeByte a v).interludeCount = s.interludeCount := rfl

@[simp] theorem State.updCells_params (s : State) (ch : Chan) (f : Cells → Cells) : (s.updCells ch f).params = s.params := rfl
@[simp] theorem State.updCells_progMain (s : State) (ch : Chan) (f : Cells → Cells) : (s.updCells ch f).progMain = s.progMain := rfl
@[simp] theorem State.updCells_progIsr (s : State) (ch : Chan) (f : Cells → Cells) : (s.updCells ch f).progIsr = s.progIsr := rfl
@[simp] theorem State.updCells_main (s : State) (ch : Chan) (f : Cells → Cells) : (s.updCells ch f).main = s.main := rfl
@[simp] theorem State.updCells_isr (s : State) (ch : Chan) (f : Cells → Cells) : (s.updCells ch f).isr = s.isr := rfl
@[simp] theorem State.updCells_gie (s : State) (ch : Chan) (f : Cells → Cells) : (s.updCells ch f).gie = s.gie := rfl
@[simp] theorem State.updCells_ctx (s : State) (ch : Chan) (f : Cells → Cells) : (s.updCells ch f).ctx = s.ctx := rfl
@[simp] theorem State.updCells_isrGieSaved (s : State) (ch : Chan) (f : Cells → Cells) : (s.updCells ch f).isrGieSaved = s.isrGieSaved := rfl
@[simp] theorem State.updCells_status (s : State) (ch : Chan) (f : Cells → Cells) : (s.updCells ch f).status = s.status := rfl
@[simp] theorem State.updCells_fault (s : State) (ch : Chan) (f : Cells → Cells) : (s.updCells ch f).fault = s.fault := rfl
@[simp] theorem State.updCells_dm (s : State) (ch : Chan) (f : Cells → Cells) : (s.updCells ch f).dm = s.dm := rfl
@[simp] theorem State.updCells_timers (s : State) (ch : Chan) (f : Cells → Cells) : (s.updCells ch f).timers = s.timers := rfl
@[simp] theorem State.updCells_rings (s : State) (ch : Chan) (f : Cells → Cells) : (s.updCells ch f).rings = s.rings := rfl
@[simp] theorem State.updCells_drawCount (s : State) (ch : Chan) (f : Cells → Cells) : (s.updCells ch f).drawCount = s.drawCount := rfl
@[simp] theorem State.updCells_agenda (s : State) (ch : Chan) (f : Cells → Cells) : (s.updCells ch f).agenda = s.agenda := rfl
@[simp] theorem State.updCells_interludeCount (s : State) (ch : Chan) (f : Cells → Cells) : (s.updCells ch f).interludeCount = s.interludeCount := rfl

@[simp] theorem State.setField_params (s : State) (ch : Chan) (f : Field) (v : Bool) : (s.setField ch f v).params = s.params := rfl
@[simp] theorem State.setField_progMain (s : State) (ch : Chan) (f : Field) (v : Bool) : (s.setField ch f v).progMain = s.progMain := rfl
@[simp] theorem State.setField_progIsr (s : State) (ch : Chan) (f : Field) (v : Bool) : (s.setField ch f v).progIsr = s.progIsr := rfl
@[simp] theorem State.setField_main (s : State) (ch : Chan) (f : Field) (v : Bool) : (s.setField ch f v).main = s.main := rfl
@[simp] theorem State.setField_isr (s : State) (ch : Chan) (f : Field) (v : Bool) : (s.setField ch f v).isr = s.isr := rfl
@[simp] theorem State.setField_gie (s : State) (ch : Chan) (f : Field) (v : Bool) : (s.setField ch f v).gie = s.gie := rfl
@[simp] theorem State.setField_ctx (s : State) (ch : Chan) (f : Field) (v : Bool) : (s.setField ch f v).ctx = s.ctx := rfl
@[simp] theorem State.setField_isrGieSaved (s : State) (ch : Chan) (f : Field) (v : Bool) : (s.setField ch f v).isrGieSaved = s.isrGieSaved := rfl
@[simp] theorem State.setField_status (s : State) (ch : Chan) (f : Field) (v : Bool) : (s.setField ch f v).status = s.status := rfl
@[simp] theorem State.setField_fault (s : State) (ch : Chan) (f : Field) (v : Bool) : (s.setField ch f v).fault = s.fault := rfl
@[simp] theorem State.setField_dm (s : State) (ch : Chan) (f : Field) (v : Bool) : (s.setField ch f v).dm = s.dm := rfl
@[simp] theorem State.setField_timers (s : State) (ch : Chan) (f : Field) (v : Bool) : (s.setField ch f v).timers = s.timers := rfl
@[simp] theorem State.setField_rings (s : State) (ch : Chan) (f : Field) (v : Bool) : (s.setField ch f v).rings = s.rings := rfl
@[simp] theorem State.setField_drawCount (s : State) (ch : Chan) (f : Field) (v : Bool) : (s.setField ch f v).drawCount = s.drawCount := rfl
@[simp] theorem State.setField_agenda (s : State) (ch : Chan) (f : Field) (v : Bool) : (s.setField ch f v).agenda = s.agenda := rfl
@[simp] theorem State.setField_interludeCount (s : State) (ch : Chan) (f : Field) (v : Bool) : (s.setField ch f v).interludeCount = s.interludeCount := rfl

@[simp] theorem State.setIfg_params (s : State) (ch : Chan) (d : Dir) (v : Bool) : (s.setIfg ch d v).params = s.params := rfl
@[simp] theorem State.setIfg_progMain (s : State) (ch : Chan) (d : Dir) (v : Bool) : (s.setIfg ch d v).progMain = s.progMain := rfl
@[simp] theorem State.setIfg_progIsr (s : State) (ch : Chan) (d : Dir) (v : Bool) : (s.setIfg ch d v).progIsr = s.progIsr := rfl
@[simp] theorem State.setIfg_main (s : State) (ch : Chan) (d : Dir) (v : Bool) : (s.setIfg ch d v).main = s.main := rfl
@[simp] theorem State.setIfg_isr (s : State) (ch : Chan) (d : Dir) (v : Bool) : (s.setIfg ch d v).isr = s.isr := rfl
@[simp] theorem State.setIfg_gie (s : State) (ch : Chan) (d : Dir) (v : Bool) : (s.setIfg ch d v).gie = s.gie := rfl
@[simp] theorem State.setIfg_ctx (s : State) (ch : Chan) (d : Dir) (v : Bool) : (s.setIfg ch d v).ctx = s.ctx := rfl
@[simp] theorem State.setIfg_isrGieSaved (s : State) (ch : Chan) (d : Dir) (v : Bool) : (s.setIfg ch d v).isrGieSaved = s.isrGieSaved := rfl
@[simp] theorem State.setIfg_status (s : State) (ch : Chan) (d : Dir) (v : Bool) : (s.setIfg ch d v).status = s.status := rfl
@[simp] theorem State.setIfg_fault (s : State) (ch : Chan) (d : Dir) (v : Bool) : (s.setIfg ch d v).fault = s.fault := rfl
@[simp] theorem State.setIfg_dm (s : State) (ch : Chan) (d : Dir) (v : Bool) : (s.setIfg ch d v).dm = s.dm := rfl
@[simp] theorem State.setIfg_timers (s : State) (ch : Chan) (d : Dir) (v : Bool) : (s.setIfg ch d v).timers = s.timers := rfl
@[simp] theorem State.setIfg_rings (s : State) (ch : Chan) (d : Dir) (v : Bool) : (s.setIfg ch d v).rings = s.rings := rfl
@[simp] theorem State.setIfg_drawCount (s : State) (ch : Chan) (d : Dir) (v : Bool) : (s.setIfg ch d v).drawCount = s.drawCount := rfl
@[simp] theorem State.setIfg_agenda (s : State) (ch : Chan) (d : Dir) (v : Bool) : (s.setIfg ch d v).agenda = s.agenda := rfl
@[simp] theorem State.setIfg_interludeCount (s : State) (ch : Chan) (d : Dir) (v : Bool) : (s.setIfg ch d v).interludeCount = s.interludeCount := rfl

@[simp] theorem State.setIe_params (s : State) (ch : Chan) (d : Dir) (v : Bool) : (s.setIe ch d v).params = s.params := rfl
@[simp] theorem State.setIe_progMain (s : State) (ch : Chan) (d : Dir) (v : Bool) : (s.setIe ch d v).progMain = s.progMain := rfl
@[simp] theorem State.setIe_progIsr (s : State) (ch : Chan) (d : Dir) (v : Bool) : (s.setIe ch d v).progIsr = s.progIsr := rfl
@[simp] theorem State.setIe_main (s : State) (ch : Chan) (d : Dir) (v : Bool) : (s.setIe ch d v).main = s.main := rfl
@[simp] theorem State.setIe_isr (s : State) (ch : Chan) (d : Dir) (v : Bool) : (s.setIe ch d v).isr = s.isr := rfl
@[simp] theorem State.setIe_gie (s : State) (ch : Chan) (d : Dir) (v : Bool) : (s.setIe ch d v).gie = s.gie := rfl
@[simp] theorem State.setIe_ctx (s : State) (ch : Chan) (d : Dir) (v : Bool) : (s.setIe ch d v).ctx = s.ctx := rfl
@[simp] theorem State.setIe_isrGieSaved (s : State) (ch : Chan) (d : Dir) (v : Bool) : (s.setIe ch d v).isrGieSaved = s.isrGieSaved := rfl
@[simp] theorem State.setIe_status (s : State) (ch : Chan) (d : Dir) (v : Bool) : (s.setIe ch d v).status = s.status := rfl
@[simp] theorem State.setIe_fault (s : State) (ch : Chan) (d : Dir) (v : Bool) : (s.setIe ch d v).fault = s.fault := rfl
@[simp] theorem State.setIe_dm (s : State) (ch : Chan) (d : Dir) (v : Bool) : (s.setIe ch d v).dm = s.dm := rfl
@[simp] theorem State.setIe_timers (s : State) (ch : Chan) (d : Dir) (v : Bool) : (s.setIe ch d v).timers = s.timers := rfl
@[simp] theorem State.setIe_rings (s : State) (ch : Chan) (d : Dir) (v : Bool) : (s.setIe ch d v).rings = s.rings := rfl
@[simp] theorem State.setIe_drawCount (s : State) (ch : Chan) (d : Dir) (v : Bool) : (s.setIe ch d v).drawCount = s.drawCount := rfl
@[simp] theorem State.setIe_agenda (s : State) (ch : Chan) (d : Dir) (v : Bool) : (s.setIe ch d v).agenda = s.agenda := rfl
@[simp] theorem State.setIe_interludeCount (s : State) (ch : Chan) (d : Dir) (v : Bool) : (s.setIe ch d v).interludeCount = s.interludeCount := rfl

@[simp] theorem State.setStatusBits_params (s : State) (ch : Chan) (v : Byte) : (s.setStatusBits ch v).params = s.params := rfl
@[simp] theorem State.setStatusBits_progMain (s : State) (ch : Chan) (v : Byte) : (s.setStatusBits ch v).progMain = s.progMain := rfl
@[simp] theorem State.setStatusBits_progIsr (s : State) (ch : Chan) (v : Byte) : (s.setStatusBits ch v).progIsr = s.progIsr := rfl
@[simp] theorem State.setStatusBits_main (s : State) (ch : Chan) (v : Byte) : (s.setStatusBits ch v).main = s.main := rfl
@[simp] theorem State.setStatusBits_isr (s : State) (ch : Chan) (v : Byte) : (s.setStatusBits ch v).isr = s.isr := rfl
@[simp] theorem State.setStatusBits_gie (s : State) (ch : Chan) (v : Byte) : (s.setStatusBits ch v).gie = s.gie := rfl
@[simp] theorem State.setStatusBits_ctx (s : State) (ch : Chan) (v : Byte) : (s.setStatusBits ch v).ctx = s.ctx := rfl
@[simp] theorem State.setStatusBits_isrGieSaved (s : State) (ch : Chan) (v : Byte) : (s.setStatusBits ch v).isrGieSaved = s.isrGieSaved := rfl
@[simp] theorem State.setStatusBits_status (s : State) (ch : Chan) (v : Byte) : (s.setStatusBits ch v).status = s.status := rfl
@[simp] theorem State.setStatusBits_fault (s : State) (ch : Chan) (v : Byte) : (s.setStatusBits ch v).fault = s.fault := rfl
@[simp] theorem State.setStatusBits_dm (s : State) (ch : Chan) (v : Byte) : (s.setStatusBits ch v).dm = s.dm := rfl
@[simp] theorem State.setStatusBits_timers (s : State) (ch : Chan) (v : Byte) : (s.setStatusBits ch v).timers = s.timers := rfl
@[simp] theorem State.setStatusBits_rings (s : State) (ch : Chan) (v : Byte) : (s.setStatusBits ch v).rings = s.rings := rfl
@[simp] theorem State.setStatusBits_drawCount (s : State) (ch : Chan) (v : Byte) : (s.setStatusBits ch v).drawCount = s.drawCount := rfl
@[simp] theorem State.setStatusBits_agenda (s : State) (ch : Chan) (v : Byte) : (s.setStatusBits ch v).agenda = s.agenda := rfl
@[simp] theorem State.setStatusBits_interludeCount (s : State) (ch : Chan) (v : Byte) : (s.setStatusBits ch v).interludeCount = s.interludeCount := rfl

@[simp] theorem State.drawCtl1_params (s : State) (ch : Chan) (d : HoldDraw) : (s.drawCtl1 ch d).params = s.params := by cases ch <;> rfl
@[simp] theorem State.drawCtl1_progMain (s : State) (ch : Chan) (d : HoldDraw) : (s.drawCtl1 ch d).progMain = s.progMain := by cases ch <;> rfl
@[simp] theorem State.drawCtl1_progIsr (s : State) (ch : Chan) (d : HoldDraw) : (s.drawCtl1 ch d).progIsr = s.progIsr := by cases ch <;> rfl
@[simp] theorem State.drawCtl1_main (s : State) (ch : Chan) (d : HoldDraw) : (s.drawCtl1 ch d).main = s.main := by cases ch <;> rfl
@[simp] theorem State.drawCtl1_isr (s : State) (ch : Chan) (d : HoldDraw) : (s.drawCtl1 ch d).isr = s.isr := by cases ch <;> rfl
@[simp] theorem State.drawCtl1_gie (s : State) (ch : Chan) (d : HoldDraw) : (s.drawCtl1 ch d).gie = s.gie := by cases ch <;> rfl
@[simp] theorem State.drawCtl1_ctx (s : State) (ch : Chan) (d : HoldDraw) : (s.drawCtl1 ch d).ctx = s.ctx := by cases ch <;> rfl
@[simp] theorem State.drawCtl1_isrGieSaved (s : State) (ch : Chan) (d : HoldDraw) : (s.drawCtl1 ch d).isrGieSaved = s.isrGieSaved := by cases ch <;> rfl
@[simp] theorem State.drawCtl1_status (s : State) (ch : Chan) (d : HoldDraw) : (s.drawCtl1 ch d).status = s.status := by cases ch <;> rfl
@[simp] theorem State.drawCtl1_fault (s : State) (ch : Chan) (d : HoldDraw) : (s.drawCtl1 ch d).fault = s.fault := by cases ch <;> rfl
@[simp] theorem State.drawCtl1_dm (s : State) (ch : Chan) (d : HoldDraw) : (s.drawCtl1 ch d).dm = s.dm := by cases ch <;> rfl
@[simp] theorem State.drawCtl1_timers (s : State) (ch : Chan) (d : HoldDraw) : (s.drawCtl1 ch d).timers = s.timers := by cases ch <;> rfl
@[simp] theorem State.drawCtl1_rings (s : State) (ch : Chan) (d : HoldDraw) : (s.drawCtl1 ch d).rings = s.rings := by cases ch <;> rfl
@[simp] theorem State.drawCtl1_drawCount (s : State) (ch : Chan) (d : HoldDraw) : (s.drawCtl1 ch d).drawCount = s.drawCount := by cases ch <;> rfl
@[simp] theorem State.drawCtl1_agenda (s : State) (ch : Chan) (d : HoldDraw) : (s.drawCtl1 ch d).agenda = s.agenda := by cases ch <;> rfl
@[simp] theorem State.drawCtl1_interludeCount (s : State) (ch : Chan) (d : HoldDraw) : (s.drawCtl1 ch d).interludeCount = s.interludeCount := by cases ch <;> rfl

@[simp] theorem State.applyDraw_params (s : State) (ch : Chan) (d : HoldDraw) : (s.applyDraw ch d).params = s.params := by simp [State.applyDraw]
@[simp] theorem State.applyDraw_progMain (s : State) (ch : Chan) (d : HoldDraw) : (s.applyDraw ch d).progMain = s.progMain := by simp [State.applyDraw]
@[simp] theorem State.applyDraw_progIsr (s : State) (ch : Chan) (d : HoldDraw) : (s.applyDraw ch d).progIsr = s.progIsr := by simp [State.applyDraw]
@[simp] theorem State.applyDraw_main (s : State) (ch : Chan) (d : HoldDraw) : (s.applyDraw ch d).main = s.main := by simp [State.applyDraw]
@[simp] theorem State.applyDraw_isr (s : State) (ch : Chan) (d : HoldDraw) : (s.applyDraw ch d).isr = s.isr := by simp [State.applyDraw]
@[simp] theorem State.applyDraw_gie (s : State) (ch : Chan) (d : HoldDraw) : (s.applyDraw ch d).gie = s.gie := by simp [State.applyDraw]
@[simp] theorem State.applyDraw_ctx (s : State) (ch : Chan) (d : HoldDraw) : (s.applyDraw ch d).ctx = s.ctx := by simp [State.applyDraw]
@[simp] theorem State.applyDraw_isrGieSaved (s : State) (ch : Chan) (d : HoldDraw) : (s.applyDraw ch d).isrGieSaved = s.isrGieSaved := by simp [State.applyDraw]
@[simp] theorem State.applyDraw_status (s : State) (ch : Chan) (d : HoldDraw) : (s.applyDraw ch d).status = s.status := by simp [State.applyDraw]
@[simp] theorem State.applyDraw_fault (s : State) (ch : Chan) (d : HoldDraw) : (s.applyDraw ch d).fault = s.fault := by simp [State.applyDraw]
@[simp] theorem State.applyDraw_dm (s : State) (ch : Chan) (d : HoldDraw) : (s.applyDraw ch d).dm = s.dm := by simp [State.applyDraw]
@[simp] theorem State.applyDraw_timers (s : State) (ch : Chan) (d : HoldDraw) : (s.applyDraw ch d).timers = s.timers := by simp [State.applyDraw]
@[simp] theorem State.applyDraw_rings (s : State) (ch : Chan) (d : HoldDraw) : (s.applyDraw ch d).rings = s.rings := by simp [State.applyDraw]
@[simp] theorem State.applyDraw_drawCount (s : State) (ch : Chan) (d : HoldDraw) : (s.applyDraw ch d).drawCount = s.drawCount := by simp [State.applyDraw]
@[simp] theorem State.applyDraw_agenda (s : State) (ch : Chan) (d : HoldDraw) : (s.applyDraw ch d).agenda = s.agenda := by simp [State.applyDraw]
@[simp] theorem State.applyDraw_interludeCount (s : State) (ch : Chan) (d : HoldDraw) : (s.applyDraw ch d).interludeCount = s.interludeCount := by simp [State.applyDraw]

@[simp] theorem State.drawVolatile_params (s : State) (ch : Chan) : (s.drawVolatile ch).params = s.params := by simp [State.drawVolatile]
@[simp] theorem State.drawVolatile_progMain (s : State) (ch : Chan) : (s.drawVolatile ch).progMain = s.progMain := by simp [State.drawVolatile]
@[simp] theorem State.drawVolatile_progIsr (s : State) (ch : Chan) : (s.drawVolatile ch).progIsr = s.progIsr := by simp [State.drawVolatile]
@[simp] theorem State.drawVolatile_main (s : State) (ch : Chan) : (s.drawVolatile ch).main = s.main := by simp [State.drawVolatile]
@[simp] theorem State.drawVolatile_isr (s : State) (ch : Chan) : (s.drawVolatile ch).isr = s.isr := by simp [State.drawVolatile]
@[simp] theorem State.drawVolatile_gie (s : State) (ch : Chan) : (s.drawVolatile ch).gie = s.gie := by simp [State.drawVolatile]
@[simp] theorem State.drawVolatile_ctx (s : State) (ch : Chan) : (s.drawVolatile ch).ctx = s.ctx := by simp [State.drawVolatile]
@[simp] theorem State.drawVolatile_isrGieSaved (s : State) (ch : Chan) : (s.drawVolatile ch).isrGieSaved = s.isrGieSaved := by simp [State.drawVolatile]
@[simp] theorem State.drawVolatile_status (s : State) (ch : Chan) : (s.drawVolatile ch).status = s.status := by simp [State.drawVolatile]
@[simp] theorem State.drawVolatile_fault (s : State) (ch : Chan) : (s.drawVolatile ch).fault = s.fault := by simp [State.drawVolatile]
@[simp] theorem State.drawVolatile_dm (s : State) (ch : Chan) : (s.drawVolatile ch).dm = s.dm := by simp [State.drawVolatile]
@[simp] theorem State.drawVolatile_timers (s : State) (ch : Chan) : (s.drawVolatile ch).timers = s.timers := by simp [State.drawVolatile]
@[simp] theorem State.drawVolatile_rings (s : State) (ch : Chan) : (s.drawVolatile ch).rings = s.rings := by simp [State.drawVolatile]
@[simp] theorem State.drawVolatile_agenda (s : State) (ch : Chan) : (s.drawVolatile ch).agenda = s.agenda := by simp [State.drawVolatile]
@[simp] theorem State.drawVolatile_interludeCount (s : State) (ch : Chan) : (s.drawVolatile ch).interludeCount = s.interludeCount := by simp [State.drawVolatile]

@[simp] theorem State.writeHold_params (s : State) (ch : Chan) (v : Bool) : (s.writeHold ch v).params = s.params := by cases v <;> simp [State.writeHold]
@[simp] theorem State.writeHold_progMain (s : State) (ch : Chan) (v : Bool) : (s.writeHold ch v).progMain = s.progMain := by cases v <;> simp [State.writeHold]
@[simp] theorem State.writeHold_progIsr (s : State) (ch : Chan) (v : Bool) : (s.writeHold ch v).progIsr = s.progIsr := by cases v <;> simp [State.writeHold]
@[simp] theorem State.writeHold_main (s : State) (ch : Chan) (v : Bool) : (s.writeHold ch v).main = s.main := by cases v <;> simp [State.writeHold]
@[simp] theorem State.writeHold_isr (s : State) (ch : Chan) (v : Bool) : (s.writeHold ch v).isr = s.isr := by cases v <;> simp [State.writeHold]
@[simp] theorem State.writeHold_gie (s : State) (ch : Chan) (v : Bool) : (s.writeHold ch v).gie = s.gie := by cases v <;> simp [State.writeHold]
@[simp] theorem State.writeHold_ctx (s : State) (ch : Chan) (v : Bool) : (s.writeHold ch v).ctx = s.ctx := by cases v <;> simp [State.writeHold]
@[simp] theorem State.writeHold_isrGieSaved (s : State) (ch : Chan) (v : Bool) : (s.writeHold ch v).isrGieSaved = s.isrGieSaved := by cases v <;> simp [State.writeHold]
@[simp] theorem State.writeHold_status (s : State) (ch : Chan) (v : Bool) : (s.writeHold ch v).status = s.status := by cases v <;> simp [State.writeHold]
@[simp] theorem State.writeHold_fault (s : State) (ch : Chan) (v : Bool) : (s.writeHold ch v).fault = s.fault := by cases v <;> simp [State.writeHold]
@[simp] theorem State.writeHold_dm (s : State) (ch : Chan) (v : Bool) : (s.writeHold ch v).dm = s.dm := by cases v <;> simp [State.writeHold]
@[simp] theorem State.writeHold_timers (s : State) (ch : Chan) (v : Bool) : (s.writeHold ch v).timers = s.timers := by cases v <;> simp [State.writeHold]
@[simp] theorem State.writeHold_rings (s : State) (ch : Chan) (v : Bool) : (s.writeHold ch v).rings = s.rings := by cases v <;> simp [State.writeHold]
@[simp] theorem State.writeHold_agenda (s : State) (ch : Chan) (v : Bool) : (s.writeHold ch v).agenda = s.agenda := by cases v <;> simp [State.writeHold]
@[simp] theorem State.writeHold_interludeCount (s : State) (ch : Chan) (v : Bool) : (s.writeHold ch v).interludeCount = s.interludeCount := by cases v <;> simp [State.writeHold]

@[simp] theorem State.writeTxbuf_params (s : State) (ch : Chan) (v : Byte) : (s.writeTxbuf ch v).params = s.params := rfl
@[simp] theorem State.writeTxbuf_progMain (s : State) (ch : Chan) (v : Byte) : (s.writeTxbuf ch v).progMain = s.progMain := rfl
@[simp] theorem State.writeTxbuf_progIsr (s : State) (ch : Chan) (v : Byte) : (s.writeTxbuf ch v).progIsr = s.progIsr := rfl
@[simp] theorem State.writeTxbuf_main (s : State) (ch : Chan) (v : Byte) : (s.writeTxbuf ch v).main = s.main := rfl
@[simp] theorem State.writeTxbuf_isr (s : State) (ch : Chan) (v : Byte) : (s.writeTxbuf ch v).isr = s.isr := rfl
@[simp] theorem State.writeTxbuf_gie (s : State) (ch : Chan) (v : Byte) : (s.writeTxbuf ch v).gie = s.gie := rfl
@[simp] theorem State.writeTxbuf_ctx (s : State) (ch : Chan) (v : Byte) : (s.writeTxbuf ch v).ctx = s.ctx := rfl
@[simp] theorem State.writeTxbuf_isrGieSaved (s : State) (ch : Chan) (v : Byte) : (s.writeTxbuf ch v).isrGieSaved = s.isrGieSaved := rfl
@[simp] theorem State.writeTxbuf_status (s : State) (ch : Chan) (v : Byte) : (s.writeTxbuf ch v).status = s.status := rfl
@[simp] theorem State.writeTxbuf_fault (s : State) (ch : Chan) (v : Byte) : (s.writeTxbuf ch v).fault = s.fault := rfl
@[simp] theorem State.writeTxbuf_dm (s : State) (ch : Chan) (v : Byte) : (s.writeTxbuf ch v).dm = s.dm := rfl
@[simp] theorem State.writeTxbuf_timers (s : State) (ch : Chan) (v : Byte) : (s.writeTxbuf ch v).timers = s.timers := rfl
@[simp] theorem State.writeTxbuf_rings (s : State) (ch : Chan) (v : Byte) : (s.writeTxbuf ch v).rings = s.rings := rfl
@[simp] theorem State.writeTxbuf_drawCount (s : State) (ch : Chan) (v : Byte) : (s.writeTxbuf ch v).drawCount = s.drawCount := rfl
@[simp] theorem State.writeTxbuf_agenda (s : State) (ch : Chan) (v : Byte) : (s.writeTxbuf ch v).agenda = s.agenda := rfl
@[simp] theorem State.writeTxbuf_interludeCount (s : State) (ch : Chan) (v : Byte) : (s.writeTxbuf ch v).interludeCount = s.interludeCount := rfl

@[simp] theorem State.writeCtl1_params (s : State) (ch : Chan) (v : Byte) : (s.writeCtl1 ch v).params = s.params := by
  unfold State.writeCtl1; split <;> simp
@[simp] theorem State.writeCtl1_progMain (s : State) (ch : Chan) (v : Byte) : (s.writeCtl1 ch v).progMain = s.progMain := by
  unfold State.writeCtl1; split <;> simp
@[simp] theorem State.writeCtl1_progIsr (s : State) (ch : Chan) (v : Byte) : (s.writeCtl1 ch v).progIsr = s.progIsr := by
  unfold State.writeCtl1; split <;> simp
@[simp] theorem State.writeCtl1_main (s : State) (ch : Chan) (v : Byte) : (s.writeCtl1 ch v).main = s.main := by
  unfold State.writeCtl1; split <;> simp
@[simp] theorem State.writeCtl1_isr (s : State) (ch : Chan) (v : Byte) : (s.writeCtl1 ch v).isr = s.isr := by
  unfold State.writeCtl1; split <;> simp
@[simp] theorem State.writeCtl1_gie (s : State) (ch : Chan) (v : Byte) : (s.writeCtl1 ch v).gie = s.gie := by
  unfold State.writeCtl1; split <;> simp
@[simp] theorem State.writeCtl1_ctx (s : State) (ch : Chan) (v : Byte) : (s.writeCtl1 ch v).ctx = s.ctx := by
  unfold State.writeCtl1; split <;> simp
@[simp] theorem State.writeCtl1_isrGieSaved (s : State) (ch : Chan) (v : Byte) : (s.writeCtl1 ch v).isrGieSaved = s.isrGieSaved := by
  unfold State.writeCtl1; split <;> simp
@[simp] theorem State.writeCtl1_status (s : State) (ch : Chan) (v : Byte) : (s.writeCtl1 ch v).status = s.status := by
  unfold State.writeCtl1; split <;> simp
@[simp] theorem State.writeCtl1_fault (s : State) (ch : Chan) (v : Byte) : (s.writeCtl1 ch v).fault = s.fault := by
  unfold State.writeCtl1; split <;> simp
@[simp] theorem State.writeCtl1_dm (s : State) (ch : Chan) (v : Byte) : (s.writeCtl1 ch v).dm = s.dm := by
  unfold State.writeCtl1; split <;> simp
@[simp] theorem State.writeCtl1_timers (s : State) (ch : Chan) (v : Byte) : (s.writeCtl1 ch v).timers = s.timers := by
  unfold State.writeCtl1; split <;> simp
@[simp] theorem State.writeCtl1_rings (s : State) (ch : Chan) (v : Byte) : (s.writeCtl1 ch v).rings = s.rings := by
  unfold State.writeCtl1; split <;> simp
@[simp] theorem State.writeCtl1_agenda (s : State) (ch : Chan) (v : Byte) : (s.writeCtl1 ch v).agenda = s.agenda := by
  unfold State.writeCtl1; split <;> simp
@[simp] theorem State.writeCtl1_interludeCount (s : State) (ch : Chan) (v : Byte) : (s.writeCtl1 ch v).interludeCount = s.interludeCount := by
  unfold State.writeCtl1; split <;> simp

@[simp] theorem State.storeCell_params (s : State) (ch : Chan) (role : Role) (v : Half) : (s.storeCell ch role v).params = s.params := by
  cases role <;> simp [State.storeCell]
@[simp] theorem State.storeCell_progMain (s : State) (ch : Chan) (role : Role) (v : Half) : (s.storeCell ch role v).progMain = s.progMain := by
  cases role <;> simp [State.storeCell]
@[simp] theorem State.storeCell_progIsr (s : State) (ch : Chan) (role : Role) (v : Half) : (s.storeCell ch role v).progIsr = s.progIsr := by
  cases role <;> simp [State.storeCell]
@[simp] theorem State.storeCell_main (s : State) (ch : Chan) (role : Role) (v : Half) : (s.storeCell ch role v).main = s.main := by
  cases role <;> simp [State.storeCell]
@[simp] theorem State.storeCell_isr (s : State) (ch : Chan) (role : Role) (v : Half) : (s.storeCell ch role v).isr = s.isr := by
  cases role <;> simp [State.storeCell]
@[simp] theorem State.storeCell_gie (s : State) (ch : Chan) (role : Role) (v : Half) : (s.storeCell ch role v).gie = s.gie := by
  cases role <;> simp [State.storeCell]
@[simp] theorem State.storeCell_ctx (s : State) (ch : Chan) (role : Role) (v : Half) : (s.storeCell ch role v).ctx = s.ctx := by
  cases role <;> simp [State.storeCell]
@[simp] theorem State.storeCell_isrGieSaved (s : State) (ch : Chan) (role : Role) (v : Half) : (s.storeCell ch role v).isrGieSaved = s.isrGieSaved := by
  cases role <;> simp [State.storeCell]
@[simp] theorem State.storeCell_status (s : State) (ch : Chan) (role : Role) (v : Half) : (s.storeCell ch role v).status = s.status := by
  cases role <;> simp [State.storeCell]
@[simp] theorem State.storeCell_fault (s : State) (ch : Chan) (role : Role) (v : Half) : (s.storeCell ch role v).fault = s.fault := by
  cases role <;> simp [State.storeCell]
@[simp] theorem State.storeCell_dm (s : State) (ch : Chan) (role : Role) (v : Half) : (s.storeCell ch role v).dm = s.dm := by
  cases role <;> simp [State.storeCell]
@[simp] theorem State.storeCell_timers (s : State) (ch : Chan) (role : Role) (v : Half) : (s.storeCell ch role v).timers = s.timers := by
  cases role <;> simp [State.storeCell]
@[simp] theorem State.storeCell_rings (s : State) (ch : Chan) (role : Role) (v : Half) : (s.storeCell ch role v).rings = s.rings := by
  cases role <;> simp [State.storeCell]
@[simp] theorem State.storeCell_agenda (s : State) (ch : Chan) (role : Role) (v : Half) : (s.storeCell ch role v).agenda = s.agenda := by
  cases role <;> simp [State.storeCell]
@[simp] theorem State.storeCell_interludeCount (s : State) (ch : Chan) (role : Role) (v : Half) : (s.storeCell ch role v).interludeCount = s.interludeCount := by
  cases role <;> simp [State.storeCell]

@[simp] theorem State.updTimer_params (s : State) (t : Nat) (f : Timer → Timer) : (s.updTimer t f).params = s.params := rfl
@[simp] theorem State.updTimer_progMain (s : State) (t : Nat) (f : Timer → Timer) : (s.updTimer t f).progMain = s.progMain := rfl
@[simp] theorem State.updTimer_progIsr (s : State) (t : Nat) (f : Timer → Timer) : (s.updTimer t f).progIsr = s.progIsr := rfl
@[simp] theorem State.updTimer_main (s : State) (t : Nat) (f : Timer → Timer) : (s.updTimer t f).main = s.main := rfl
@[simp] theorem State.updTimer_isr (s : State) (t : Nat) (f : Timer → Timer) : (s.updTimer t f).isr = s.isr := rfl
@[simp] theorem State.updTimer_gie (s : State) (t : Nat) (f : Timer → Timer) : (s.updTimer t f).gie = s.gie := rfl
@[simp] theorem State.updTimer_ctx (s : State) (t : Nat) (f : Timer → Timer) : (s.updTimer t f).ctx = s.ctx := rfl
@[simp] theorem State.updTimer_isrGieSaved (s : State) (t : Nat) (f : Timer → Timer) : (s.updTimer t f).isrGieSaved = s.isrGieSaved := rfl
@[simp] theorem State.updTimer_status (s : State) (t : Nat) (f : Timer → Timer) : (s.updTimer t f).status = s.status := rfl
@[simp] theorem State.updTimer_fault (s : State) (t : Nat) (f : Timer → Timer) : (s.updTimer t f).fault = s.fault := rfl
@[simp] theorem State.updTimer_dm (s : State) (t : Nat) (f : Timer → Timer) : (s.updTimer t f).dm = s.dm := rfl
@[simp] theorem State.updTimer_serial (s : State) (t : Nat) (f : Timer → Timer) : (s.updTimer t f).serial = s.serial := rfl
@[simp] theorem State.updTimer_rings (s : State) (t : Nat) (f : Timer → Timer) : (s.updTimer t f).rings = s.rings := rfl
@[simp] theorem State.updTimer_drawCount (s : State) (t : Nat) (f : Timer → Timer) : (s.updTimer t f).drawCount = s.drawCount := rfl
@[simp] theorem State.updTimer_agenda (s : State) (t : Nat) (f : Timer → Timer) : (s.updTimer t f).agenda = s.agenda := rfl
@[simp] theorem State.updTimer_interludeCount (s : State) (t : Nat) (f : Timer → Timer) : (s.updTimer t f).interludeCount = s.interludeCount := rfl

@[simp] theorem State.updTimerChan_params (s : State) (t c : Nat) (f : TimerChan → TimerChan) : (s.updTimerChan t c f).params = s.params := rfl
@[simp] theorem State.updTimerChan_progMain (s : State) (t c : Nat) (f : TimerChan → TimerChan) : (s.updTimerChan t c f).progMain = s.progMain := rfl
@[simp] theorem State.updTimerChan_progIsr (s : State) (t c : Nat) (f : TimerChan → TimerChan) : (s.updTimerChan t c f).progIsr = s.progIsr := rfl
@[simp] theorem State.updTimerChan_main (s : State) (t c : Nat) (f : TimerChan → TimerChan) : (s.updTimerChan t c f).main = s.main := rfl
@[simp] theorem State.updTimerChan_isr (s : State) (t c : Nat) (f : TimerChan → TimerChan) : (s.updTimerChan t c f).isr = s.isr := rfl
@[simp] theorem State.updTimerChan_gie (s : State) (t c : Nat) (f : TimerChan → TimerChan) : (s.updTimerChan t c f).gie = s.gie := rfl
@[simp] theorem State.updTimerChan_ctx (s : State) (t c : Nat) (f : TimerChan → TimerChan) : (s.updTimerChan t c f).ctx = s.ctx := rfl
@[simp] theorem State.updTimerChan_isrGieSaved (s : State) (t c : Nat) (f : TimerChan → TimerChan) : (s.updTimerChan t c f).isrGieSaved = s.isrGieSaved := rfl
@[simp] theorem State.updTimerChan_status (s : State) (t c : Nat) (f : TimerChan → TimerChan) : (s.updTimerChan t c f).status = s.status := rfl
@[simp] theorem State.updTimerChan_fault (s : State) (t c : Nat) (f : TimerChan → TimerChan) : (s.updTimerChan t c f).fault = s.fault := rfl
@[simp] theorem State.updTimerChan_dm (s : State) (t c : Nat) (f : TimerChan → TimerChan) : (s.updTimerChan t c f).dm = s.dm := rfl
@[simp] theorem State.updTimerChan_serial (s : State) (t c : Nat) (f : TimerChan → TimerChan) : (s.updTimerChan t c f).serial = s.serial := rfl
@[simp] theorem State.updTimerChan_rings (s : State) (t c : Nat) (f : TimerChan → TimerChan) : (s.updTimerChan t c f).rings = s.rings := rfl
@[simp] theorem State.updTimerChan_drawCount (s : State) (t c : Nat) (f : TimerChan → TimerChan) : (s.updTimerChan t c f).drawCount = s.drawCount := rfl
@[simp] theorem State.updTimerChan_agenda (s : State) (t c : Nat) (f : TimerChan → TimerChan) : (s.updTimerChan t c f).agenda = s.agenda := rfl
@[simp] theorem State.updTimerChan_interludeCount (s : State) (t c : Nat) (f : TimerChan → TimerChan) : (s.updTimerChan t c f).interludeCount = s.interludeCount := rfl

@[simp] theorem State.setRing_params (s : State) (b : Nat) (r : Ring) : (s.setRing b r).params = s.params := rfl
@[simp] theorem State.setRing_progMain (s : State) (b : Nat) (r : Ring) : (s.setRing b r).progMain = s.progMain := rfl
@[simp] theorem State.setRing_progIsr (s : State) (b : Nat) (r : Ring) : (s.setRing b r).progIsr = s.progIsr := rfl
@[simp] theorem State.setRing_main (s : State) (b : Nat) (r : Ring) : (s.setRing b r).main = s.main := rfl
@[simp] theorem State.setRing_isr (s : State) (b : Nat) (r : Ring) : (s.setRing b r).isr = s.isr := rfl
@[simp] theorem State.setRing_gie (s : State) (b : Nat) (r : Ring) : (s.setRing b r).gie = s.gie := rfl
@[simp] theorem State.setRing_ctx (s : State) (b : Nat) (r : Ring) : (s.setRing b r).ctx = s.ctx := rfl
@[simp] theorem State.setRing_isrGieSaved (s : State) (b : Nat) (r : Ring) : (s.setRing b r).isrGieSaved = s.isrGieSaved := rfl
@[simp] theorem State.setRing_status (s : State) (b : Nat) (r : Ring) : (s.setRing b r).status = s.status := rfl
@[simp] theorem State.setRing_fault (s : State) (b : Nat) (r : Ring) : (s.setRing b r).fault = s.fault := rfl
@[simp] theorem State.setRing_dm (s : State) (b : Nat) (r : Ring) : (s.setRing b r).dm = s.dm := rfl
@[simp] theorem State.setRing_serial (s : State) (b : Nat) (r : Ring) : (s.setRing b r).serial = s.serial := rfl
@[simp] theorem State.setRing_timers (s : State) (b : Nat) (r : Ring) : (s.setRing b r).timers = s.timers := rfl
@[simp] theorem State.setRing_drawCount (s : State) (b : Nat) (r : Ring) : (s.setRing b r).drawCount = s.drawCount := rfl
@[simp] theorem State.setRing_agenda (s : State) (b : Nat) (r : Ring) : (s.setRing b r).agenda = s.agenda := rfl
@[simp] theorem State.setRing_interludeCount (s : State) (b : Nat) (r : Ring) : (s.setRing b r).interludeCount = s.interludeCount := rfl

/-! ### Faults, interrupt entry and return, the guard -/

@[simp] theorem State.raise_params (s : State) (t : Trap) (w : Word) : (s.raise t w).params = s.params := rfl
@[simp] theorem State.raise_progMain (s : State) (t : Trap) (w : Word) : (s.raise t w).progMain = s.progMain := rfl
@[simp] theorem State.raise_progIsr (s : State) (t : Trap) (w : Word) : (s.raise t w).progIsr = s.progIsr := rfl
@[simp] theorem State.raise_main (s : State) (t : Trap) (w : Word) : (s.raise t w).main = s.main := rfl
@[simp] theorem State.raise_isr (s : State) (t : Trap) (w : Word) : (s.raise t w).isr = s.isr := rfl
@[simp] theorem State.raise_gie (s : State) (t : Trap) (w : Word) : (s.raise t w).gie = s.gie := rfl
@[simp] theorem State.raise_ctx (s : State) (t : Trap) (w : Word) : (s.raise t w).ctx = s.ctx := rfl
@[simp] theorem State.raise_isrGieSaved (s : State) (t : Trap) (w : Word) : (s.raise t w).isrGieSaved = s.isrGieSaved := rfl
@[simp] theorem State.raise_dm (s : State) (t : Trap) (w : Word) : (s.raise t w).dm = s.dm := rfl
@[simp] theorem State.raise_serial (s : State) (t : Trap) (w : Word) : (s.raise t w).serial = s.serial := rfl
@[simp] theorem State.raise_timers (s : State) (t : Trap) (w : Word) : (s.raise t w).timers = s.timers := rfl
@[simp] theorem State.raise_rings (s : State) (t : Trap) (w : Word) : (s.raise t w).rings = s.rings := rfl
@[simp] theorem State.raise_drawCount (s : State) (t : Trap) (w : Word) : (s.raise t w).drawCount = s.drawCount := rfl
@[simp] theorem State.raise_agenda (s : State) (t : Trap) (w : Word) : (s.raise t w).agenda = s.agenda := rfl
@[simp] theorem State.raise_interludeCount (s : State) (t : Trap) (w : Word) : (s.raise t w).interludeCount = s.interludeCount := rfl

@[simp] theorem State.interruptEntry_params (s : State) : (s.interruptEntry).params = s.params := rfl
@[simp] theorem State.interruptEntry_progMain (s : State) : (s.interruptEntry).progMain = s.progMain := rfl
@[simp] theorem State.interruptEntry_progIsr (s : State) : (s.interruptEntry).progIsr = s.progIsr := rfl
@[simp] theorem State.interruptEntry_main (s : State) : (s.interruptEntry).main = s.main := rfl
@[simp] theorem State.interruptEntry_status (s : State) : (s.interruptEntry).status = s.status := rfl
@[simp] theorem State.interruptEntry_fault (s : State) : (s.interruptEntry).fault = s.fault := rfl
@[simp] theorem State.interruptEntry_dm (s : State) : (s.interruptEntry).dm = s.dm := rfl
@[simp] theorem State.interruptEntry_serial (s : State) : (s.interruptEntry).serial = s.serial := rfl
@[simp] theorem State.interruptEntry_timers (s : State) : (s.interruptEntry).timers = s.timers := rfl
@[simp] theorem State.interruptEntry_rings (s : State) : (s.interruptEntry).rings = s.rings := rfl
@[simp] theorem State.interruptEntry_drawCount (s : State) : (s.interruptEntry).drawCount = s.drawCount := rfl
@[simp] theorem State.interruptEntry_agenda (s : State) : (s.interruptEntry).agenda = s.agenda := rfl
@[simp] theorem State.interruptEntry_interludeCount (s : State) : (s.interruptEntry).interludeCount = s.interludeCount := rfl

@[simp] theorem State.returnFromIsr_params (s : State) : (s.returnFromIsr).params = s.params := rfl
@[simp] theorem State.returnFromIsr_progMain (s : State) : (s.returnFromIsr).progMain = s.progMain := rfl
@[simp] theorem State.returnFromIsr_progIsr (s : State) : (s.returnFromIsr).progIsr = s.progIsr := rfl
@[simp] theorem State.returnFromIsr_main (s : State) : (s.returnFromIsr).main = s.main := rfl
@[simp] theorem State.returnFromIsr_isr (s : State) : (s.returnFromIsr).isr = s.isr := rfl
@[simp] theorem State.returnFromIsr_isrGieSaved (s : State) : (s.returnFromIsr).isrGieSaved = s.isrGieSaved := rfl
@[simp] theorem State.returnFromIsr_status (s : State) : (s.returnFromIsr).status = s.status := rfl
@[simp] theorem State.returnFromIsr_fault (s : State) : (s.returnFromIsr).fault = s.fault := rfl
@[simp] theorem State.returnFromIsr_dm (s : State) : (s.returnFromIsr).dm = s.dm := rfl
@[simp] theorem State.returnFromIsr_serial (s : State) : (s.returnFromIsr).serial = s.serial := rfl
@[simp] theorem State.returnFromIsr_timers (s : State) : (s.returnFromIsr).timers = s.timers := rfl
@[simp] theorem State.returnFromIsr_rings (s : State) : (s.returnFromIsr).rings = s.rings := rfl
@[simp] theorem State.returnFromIsr_drawCount (s : State) : (s.returnFromIsr).drawCount = s.drawCount := rfl
@[simp] theorem State.returnFromIsr_agenda (s : State) : (s.returnFromIsr).agenda = s.agenda := rfl
@[simp] theorem State.returnFromIsr_interludeCount (s : State) : (s.returnFromIsr).interludeCount = s.interludeCount := rfl

@[simp] theorem State.guardAcquire_params (s : State) : (s.guardAcquire).params = s.params := by simp [State.guardAcquire]
@[simp] theorem State.guardAcquire_progMain (s : State) : (s.guardAcquire).progMain = s.progMain := by simp [State.guardAcquire]
@[simp] theorem State.guardAcquire_progIsr (s : State) : (s.guardAcquire).progIsr = s.progIsr := by simp [State.guardAcquire]
@[simp] theorem State.guardAcquire_ctx (s : State) : (s.guardAcquire).ctx = s.ctx := by simp [State.guardAcquire]
@[simp] theorem State.guardAcquire_isrGieSaved (s : State) : (s.guardAcquire).isrGieSaved = s.isrGieSaved := by simp [State.guardAcquire]
@[simp] theorem State.guardAcquire_status (s : State) : (s.guardAcquire).status = s.status := by simp [State.guardAcquire]
@[simp] theorem State.guardAcquire_fault (s : State) : (s.guardAcquire).fault = s.fault := by simp [State.guardAcquire]
@[simp] theorem State.guardAcquire_dm (s : State) : (s.guardAcquire).dm = s.dm := by simp [State.guardAcquire]
@[simp] theorem State.guardAcquire_serial (s : State) : (s.guardAcquire).serial = s.serial := by simp [State.guardAcquire]
@[simp] theorem State.guardAcquire_timers (s : State) : (s.guardAcquire).timers = s.timers := by simp [State.guardAcquire]
@[simp] theorem State.guardAcquire_rings (s : State) : (s.guardAcquire).rings = s.rings := by simp [State.guardAcquire]
@[simp] theorem State.guardAcquire_drawCount (s : State) : (s.guardAcquire).drawCount = s.drawCount := by simp [State.guardAcquire]
@[simp] theorem State.guardAcquire_agenda (s : State) : (s.guardAcquire).agenda = s.agenda := by simp [State.guardAcquire]
@[simp] theorem State.guardAcquire_interludeCount (s : State) : (s.guardAcquire).interludeCount = s.interludeCount := by simp [State.guardAcquire]

@[simp] theorem State.guardRelease_params (s : State) : (s.guardRelease).params = s.params := by
  simp only [State.guardRelease]; split <;> simp
@[simp] theorem State.guardRelease_progMain (s : State) : (s.guardRelease).progMain = s.progMain := by
  simp only [State.guardRelease]; split <;> simp
@[simp] theorem State.guardRelease_progIsr (s : State) : (s.guardRelease).progIsr = s.progIsr := by
  simp only [State.guardRelease]; split <;> simp
@[simp] theorem State.guardRelease_ctx (s : State) : (s.guardRelease).ctx = s.ctx := by
  simp only [State.guardRelease]; split <;> simp
@[simp] theorem State.guardRelease_isrGieSaved (s : State) : (s.guardRelease).isrGieSaved = s.isrGieSaved := by
  simp only [State.guardRelease]; split <;> simp
@[simp] theorem State.guardRelease_status (s : State) : (s.guardRelease).status = s.status := by
  simp only [State.guardRelease]; split <;> simp
@[simp] theorem State.guardRelease_fault (s : State) : (s.guardRelease).fault = s.fault := by
  simp only [State.guardRelease]; split <;> simp
@[simp] theorem State.guardRelease_dm (s : State) : (s.guardRelease).dm = s.dm := by
  simp only [State.guardRelease]; split <;> simp
@[simp] theorem State.guardRelease_serial (s : State) : (s.guardRelease).serial = s.serial := by
  simp only [State.guardRelease]; split <;> simp
@[simp] theorem State.guardRelease_timers (s : State) : (s.guardRelease).timers = s.timers := by
  simp only [State.guardRelease]; split <;> simp
@[simp] theorem State.guardRelease_rings (s : State) : (s.guardRelease).rings = s.rings := by
  simp only [State.guardRelease]; split <;> simp
@[simp] theorem State.guardRelease_drawCount (s : State) : (s.guardRelease).drawCount = s.drawCount := by
  simp only [State.guardRelease]; split <;> simp
@[simp] theorem State.guardRelease_agenda (s : State) : (s.guardRelease).agenda = s.agenda := by
  simp only [State.guardRelease]; split <;> simp
@[simp] theorem State.guardRelease_interludeCount (s : State) : (s.guardRelease).interludeCount = s.interludeCount := by
  simp only [State.guardRelease]; split <;> simp

/-! ### Issuing a command -/

@[simp] theorem State.loadSeq_params (s : State) (k : Ctx) (q : List MicroOp) (w : Word) : (s.loadSeq k q w).params = s.params := by simp [State.loadSeq]
@[simp] theorem State.loadSeq_progMain (s : State) (k : Ctx) (q : List MicroOp) (w : Word) : (s.loadSeq k q w).progMain = s.progMain := by simp [State.loadSeq]
@[simp] theorem State.loadSeq_progIsr (s : State) (k : Ctx) (q : List MicroOp) (w : Word) : (s.loadSeq k q w).progIsr = s.progIsr := by simp [State.loadSeq]
@[simp] theorem State.loadSeq_gie (s : State) (k : Ctx) (q : List MicroOp) (w : Word) : (s.loadSeq k q w).gie = s.gie := by simp [State.loadSeq]
@[simp] theorem State.loadSeq_ctx (s : State) (k : Ctx) (q : List MicroOp) (w : Word) : (s.loadSeq k q w).ctx = s.ctx := by simp [State.loadSeq]
@[simp] theorem State.loadSeq_isrGieSaved (s : State) (k : Ctx) (q : List MicroOp) (w : Word) : (s.loadSeq k q w).isrGieSaved = s.isrGieSaved := by simp [State.loadSeq]
@[simp] theorem State.loadSeq_status (s : State) (k : Ctx) (q : List MicroOp) (w : Word) : (s.loadSeq k q w).status = s.status := by simp [State.loadSeq]
@[simp] theorem State.loadSeq_fault (s : State) (k : Ctx) (q : List MicroOp) (w : Word) : (s.loadSeq k q w).fault = s.fault := by simp [State.loadSeq]
@[simp] theorem State.loadSeq_dm (s : State) (k : Ctx) (q : List MicroOp) (w : Word) : (s.loadSeq k q w).dm = s.dm := by simp [State.loadSeq]
@[simp] theorem State.loadSeq_serial (s : State) (k : Ctx) (q : List MicroOp) (w : Word) : (s.loadSeq k q w).serial = s.serial := by simp [State.loadSeq]
@[simp] theorem State.loadSeq_timers (s : State) (k : Ctx) (q : List MicroOp) (w : Word) : (s.loadSeq k q w).timers = s.timers := by simp [State.loadSeq]
@[simp] theorem State.loadSeq_rings (s : State) (k : Ctx) (q : List MicroOp) (w : Word) : (s.loadSeq k q w).rings = s.rings := by simp [State.loadSeq]
@[simp] theorem State.loadSeq_drawCount (s : State) (k : Ctx) (q : List MicroOp) (w : Word) : (s.loadSeq k q w).drawCount = s.drawCount := by simp [State.loadSeq]
@[simp] theorem State.loadSeq_agenda (s : State) (k : Ctx) (q : List MicroOp) (w : Word) : (s.loadSeq k q w).agenda = s.agenda := by simp [State.loadSeq]
@[simp] theorem State.loadSeq_interludeCount (s : State) (k : Ctx) (q : List MicroOp) (w : Word) : (s.loadSeq k q w).interludeCount = s.interludeCount := by simp [State.loadSeq]

@[simp] theorem State.retire_params (s : State) (k : Ctx) (m : MicroOp) (rest : List MicroOp) (w : Word) : (s.retire k m rest w).params = s.params := by simp [State.retire]
@[simp] theorem State.retire_progMain (s : State) (k : Ctx) (m : MicroOp) (rest : List MicroOp) (w : Word) : (s.retire k m rest w).progMain = s.progMain := by simp [State.retire]
@[simp] theorem State.retire_progIsr (s : State) (k : Ctx) (m : MicroOp) (rest : List MicroOp) (w : Word) : (s.retire k m rest w).progIsr = s.progIsr := by simp [State.retire]
@[simp] theorem State.retire_gie (s : State) (k : Ctx) (m : MicroOp) (rest : List MicroOp) (w : Word) : (s.retire k m rest w).gie = s.gie := by simp [State.retire]
@[simp] theorem State.retire_ctx (s : State) (k : Ctx) (m : MicroOp) (rest : List MicroOp) (w : Word) : (s.retire k m rest w).ctx = s.ctx := by simp [State.retire]
@[simp] theorem State.retire_isrGieSaved (s : State) (k : Ctx) (m : MicroOp) (rest : List MicroOp) (w : Word) : (s.retire k m rest w).isrGieSaved = s.isrGieSaved := by simp [State.retire]
@[simp] theorem State.retire_status (s : State) (k : Ctx) (m : MicroOp) (rest : List MicroOp) (w : Word) : (s.retire k m rest w).status = s.status := by simp [State.retire]
@[simp] theorem State.retire_fault (s : State) (k : Ctx) (m : MicroOp) (rest : List MicroOp) (w : Word) : (s.retire k m rest w).fault = s.fault := by simp [State.retire]
@[simp] theorem State.retire_dm (s : State) (k : Ctx) (m : MicroOp) (rest : List MicroOp) (w : Word) : (s.retire k m rest w).dm = s.dm := by simp [State.retire]
@[simp] theorem State.retire_serial (s : State) (k : Ctx) (m : MicroOp) (rest : List MicroOp) (w : Word) : (s.retire k m rest w).serial = s.serial := by simp [State.retire]
@[simp] theorem State.retire_timers (s : State) (k : Ctx) (m : MicroOp) (rest : List MicroOp) (w : Word) : (s.retire k m rest w).timers = s.timers := by simp [State.retire]
@[simp] theorem State.retire_rings (s : State) (k : Ctx) (m : MicroOp) (rest : List MicroOp) (w : Word) : (s.retire k m rest w).rings = s.rings := by simp [State.retire]
@[simp] theorem State.retire_drawCount (s : State) (k : Ctx) (m : MicroOp) (rest : List MicroOp) (w : Word) : (s.retire k m rest w).drawCount = s.drawCount := by simp [State.retire]
@[simp] theorem State.retire_agenda (s : State) (k : Ctx) (m : MicroOp) (rest : List MicroOp) (w : Word) : (s.retire k m rest w).agenda = s.agenda := by simp [State.retire]
@[simp] theorem State.retire_interludeCount (s : State) (k : Ctx) (m : MicroOp) (rest : List MicroOp) (w : Word) : (s.retire k m rest w).interludeCount = s.interludeCount := by simp [State.retire]

@[simp] theorem State.loadSeq_self (s : State) (k : Ctx) (q : List MicroOp) (w : Word) :
    (s.loadSeq k q w).ctxState k = { s.ctxState k with useq := q, word := w } := by simp [State.loadSeq]

theorem State.loadSeq_other (s : State) {k j : Ctx} (q : List MicroOp) (w : Word) (h : j ≠ k) :
    (s.loadSeq k q w).ctxState j = s.ctxState j := by simp [State.loadSeq, State.updCtx_other _ _ h]

theorem State.retire_self (s : State) (k : Ctx) (m : MicroOp) (rest : List MicroOp) (w : Word) :
    (s.retire k m rest w).ctxState k =
      { s.ctxState k with
        useq := rest, word := w
        cp := if rest.isEmpty && !m.isControl then (s.ctxState k).cp + 1 else (s.ctxState k).cp } := by
  simp only [State.retire, State.updCtx_self, State.loadSeq_self]; split <;> rfl

theorem State.retire_other (s : State) {k j : Ctx} (m : MicroOp) (rest : List MicroOp) (w : Word) (h : j ≠ k) :
    (s.retire k m rest w).ctxState j = s.ctxState j := by
  simp [State.retire, State.updCtx_other _ _ h, State.loadSeq_other _ _ _ h]

/-! ### Spending a turn -/

@[simp] theorem State.spendTurn_params (s : State) : (s.spendTurn).params = s.params := by
  unfold State.spendTurn; split <;> rfl
@[simp] theorem State.spendTurn_progMain (s : State) : (s.spendTurn).progMain = s.progMain := by
  unfold State.spendTurn; split <;> rfl
@[simp] theorem State.spendTurn_progIsr (s : State) : (s.spendTurn).progIsr = s.progIsr := by
  unfold State.spendTurn; split <;> rfl
@[simp] theorem State.spendTurn_main (s : State) : (s.spendTurn).main = s.main := by
  unfold State.spendTurn; split <;> rfl
@[simp] theorem State.spendTurn_isr (s : State) : (s.spendTurn).isr = s.isr := by
  unfold State.spendTurn; split <;> rfl
@[simp] theorem State.spendTurn_gie (s : State) : (s.spendTurn).gie = s.gie := by
  unfold State.spendTurn; split <;> rfl
@[simp] theorem State.spendTurn_ctx (s : State) : (s.spendTurn).ctx = s.ctx := by
  unfold State.spendTurn; split <;> rfl
@[simp] theorem State.spendTurn_isrGieSaved (s : State) : (s.spendTurn).isrGieSaved = s.isrGieSaved := by
  unfold State.spendTurn; split <;> rfl
@[simp] theorem State.spendTurn_status (s : State) : (s.spendTurn).status = s.status := by
  unfold State.spendTurn; split <;> rfl
@[simp] theorem State.spendTurn_fault (s : State) : (s.spendTurn).fault = s.fault := by
  unfold State.spendTurn; split <;> rfl
@[simp] theorem State.spendTurn_dm (s : State) : (s.spendTurn).dm = s.dm := by
  unfold State.spendTurn; split <;> rfl
@[simp] theorem State.spendTurn_serial (s : State) : (s.spendTurn).serial = s.serial := by
  unfold State.spendTurn; split <;> rfl
@[simp] theorem State.spendTurn_timers (s : State) : (s.spendTurn).timers = s.timers := by
  unfold State.spendTurn; split <;> rfl
@[simp] theorem State.spendTurn_rings (s : State) : (s.spendTurn).rings = s.rings := by
  unfold State.spendTurn; split <;> rfl
@[simp] theorem State.spendTurn_drawCount (s : State) : (s.spendTurn).drawCount = s.drawCount := by
  unfold State.spendTurn; split <;> rfl

@[simp] theorem State.spendTurn_ctxState (s : State) (k : Ctx) : s.spendTurn.ctxState k = s.ctxState k := by
  cases k <;> simp [State.ctxState]

@[simp] theorem State.spendTurn_cur (s : State) : s.spendTurn.cur = s.cur := by simp [State.cur]

@[simp] theorem State.spendTurn_legal (s : State) : s.spendTurn.legal = s.legal := by
  simp [State.legal, State.ringsLegal, State.progsLegal]

@[simp] theorem State.spendTurn_fetchWord (s : State) : fetchWord s.spendTurn = fetchWord s := by
  cases h : s.ctx <;> simp [fetchWord, State.prog, h]

@[simp] theorem State.spendTurn_entryEnabled (s : State) : s.spendTurn.entryEnabled = s.entryEnabled := by
  simp [State.entryEnabled]

theorem State.nextTurn_cons {s : State} {t : Turn} {l : List Turn} (h : s.agenda = t :: l) : s.nextTurn = t := by
  simp [State.nextTurn, h]

theorem State.nextTurn_nil {s : State} (h : s.agenda = []) : s.nextTurn = .sequencer := by simp [State.nextTurn, h]

/-- A turn that the agenda names is taken from it, and nothing is drawn. -/
theorem State.spendTurn_cons {s : State} {t : Turn} {l : List Turn} (h : s.agenda = t :: l) :
    s.spendTurn = { s with agenda := l } := by simp [State.spendTurn, h]

/-- The sequencer's turn at the end of the agenda draws the next interlude. -/
theorem State.spendTurn_nil {s : State} (h : s.agenda = []) :
    s.spendTurn = { s with agenda := Config.interlude s.interludeCount, interludeCount := s.interludeCount + 1 } := by
  simp [State.spendTurn, h]

/-- A turn other than the sequencer's is one that the agenda names. -/
theorem State.agenda_of_nextTurn {s : State} (h : s.nextTurn ≠ .sequencer) :
    s.agenda = s.nextTurn :: s.spendTurn.agenda ∧ s.spendTurn.interludeCount = s.interludeCount := by
  cases ha : s.agenda with
  | nil => exact absurd (State.nextTurn_nil ha) h
  | cons t l => simp [State.nextTurn_cons ha, State.spendTurn_cons ha]

end Sys2Proof.Machine
end

