-- ==== Sys2Proof/Laws/Serial.lean ====
section
/-! SUPPORT. The laws of one bit, of the values per channel and instance, and of the fields, flags and cells of the serial unit. -/

namespace Sys2Proof

/-- A bit of a cell with one bit replaced (R311). -/
theorem getLsbD_setBit {w : Nat} (x : BitVec w) (n k : Nat) (b : Bool) :
    (setBit x n b).getLsbD k = if k = n ∧ n < w then b else x.getLsbD k := by
  have h1 : (1#w <<< n).getLsbD k = decide (k = n ∧ n < w) := by
    rw [BitVec.getLsbD_shiftLeft, BitVec.getLsbD_one]
    by_cases hk : k = n
    · subst hk
      by_cases hw : k < w <;> simp [hw]
      omega
    · by_cases hlt : k < n
      · simp [hk, hlt]
      · simp [hk, show ¬ (k - n = 0) by omega]
  unfold setBit bitMask
  by_cases h : k = n ∧ n < w
  · have hk : k < w := by omega
    cases b
    · rw [if_neg Bool.false_ne_true, BitVec.getLsbD_and, BitVec.getLsbD_not, h1, if_pos h, decide_eq_true h, decide_eq_true hk]
      simp
    · rw [if_pos rfl, BitVec.getLsbD_or, h1, if_pos h, decide_eq_true h]
      simp
  · cases b <;> simp only [Bool.false_eq_true, if_true, if_false, BitVec.getLsbD_or, BitVec.getLsbD_and, BitVec.getLsbD_not, h1, h] <;>
      simp
    exact fun hx => BitVec.lt_of_getLsbD hx

theorem getLsbD_setBit_self {w : Nat} (x : BitVec w) {n : Nat} (b : Bool) (h : n < w) : (setBit x n b).getLsbD n = b := by
  rw [getLsbD_setBit, if_pos ⟨rfl, h⟩]

theorem getLsbD_setBit_ne {w : Nat} (x : BitVec w) {n k : Nat} (b : Bool) (h : k ≠ n) :
    (setBit x n b).getLsbD k = x.getLsbD k := by
  rw [getLsbD_setBit, if_neg (fun hk => h hk.1)]

/-- The legal positions of FIELDPOS: below 8, and no two fields of one cell on one bit (log 13). -/
theorem FieldPos.legal_iff (p : FieldPos) :
    p.legal = true ↔ p.sla10 < 8 ∧ p.tr < 8 ∧ p.txnack < 8 ∧ p.txstp < 8 ∧ p.txstt < 8 ∧ p.swrst < 8 ∧
      (p.tr ≠ p.txnack ∧ p.tr ≠ p.txstp ∧ p.tr ≠ p.txstt ∧ p.tr ≠ p.swrst ∧ p.txnack ≠ p.txstp ∧ p.txnack ≠ p.txstt ∧
        p.txnack ≠ p.swrst ∧ p.txstp ≠ p.txstt ∧ p.txstp ≠ p.swrst ∧ p.txstt ≠ p.swrst) ∧
      p.listen < 8 ∧ p.fe < 8 ∧ p.oe < 8 ∧ p.listen ≠ p.fe ∧ p.listen ≠ p.oe ∧ p.fe ≠ p.oe := by
  simp [FieldPos.legal, List.nodup_cons]
  tauto

/-- The legal positions of IRQBITS: below 4 and different (log 13). -/
theorem IrqBits.legal_iff (p : IrqBits) :
    p.legal = true ↔ p.aRx < 4 ∧ p.aTx < 4 ∧ p.bRx < 4 ∧ p.bTx < 4 ∧ p.aRx ≠ p.aTx ∧ p.aRx ≠ p.bRx ∧ p.aRx ≠ p.bTx ∧
      p.aTx ≠ p.bRx ∧ p.aTx ≠ p.bTx ∧ p.bRx ≠ p.bTx := by
  simp [IrqBits.legal, List.nodup_cons]
  tauto

/-- What a legal parameter set says of the parameters that are no lists (R7). -/
theorem Params.legal_iff (p : Params) :
    p.legal = true ↔ p.fieldPos.legal = true ∧ p.irqBits.legal = true ∧ (p.nchA = 3 ∨ p.nchA = 7) ∧ (p.nchB = 3 ∨ p.nchB = 7) := by
  simp [Params.legal, Params.nchLegal, and_assoc]

theorem Machine.State.legal_params {s : Machine.State} (h : s.legal = true) : s.params.legal = true := by
  simp only [Machine.State.legal, Bool.and_eq_true] at h
  exact h.1.1

theorem IrqBits.pos_lt {p : IrqBits} (h : p.legal = true) (k : SerialKind) (d : Dir) : p.pos k d < 4 := by
  obtain ⟨h1, h2, h3, h4, -⟩ := p.legal_iff.1 h
  cases k <;> cases d <;> assumption

theorem IrqBits.pos_inj {p : IrqBits} (h : p.legal = true) {k j : SerialKind} {d e : Dir} (hp : p.pos k d = p.pos j e) :
    k = j ∧ d = e := by
  obtain ⟨-, -, -, -, h1, h2, h3, h4, h5, h6⟩ := p.legal_iff.1 h
  cases k <;> cases d <;> cases j <;> cases e <;>
    first | exact ⟨rfl, rfl⟩ | exact absurd hp (by assumption) | exact absurd hp.symm (by assumption)

/-- A channel is its kind and its instance index (R300). -/
theorem Chan.ext_kind_inst {c d : Chan} (hk : c.kind = d.kind) (hi : c.inst = d.inst) : c = d := by
  cases c <;> cases d <;> simp_all [Chan.kind, Chan.inst]

end Sys2Proof

namespace Sys2Proof.Machine

@[simp] theorem PerChan.get_set_self {α : Type} (p : PerChan α) (ch : Chan) (v : α) : (p.set ch v).get ch = v := by
  cases ch <;> rfl

theorem PerChan.get_set_ne {α : Type} (p : PerChan α) {ch c : Chan} (v : α) (h : c ≠ ch) : (p.set ch v).get c = p.get c := by
  cases ch <;> cases c <;> first | rfl | exact absurd rfl h

@[simp] theorem PerInst.get_set_self {α : Type} (p : PerInst α) (i : Inst) (v : α) : (p.set i v).get i = v := by
  cases i <;> rfl

theorem PerInst.get_set_ne {α : Type} (p : PerInst α) {i j : Inst} (v : α) (h : j ≠ i) : (p.set i v).get j = p.get j := by
  cases i <;> cases j <;> first | rfl | exact absurd rfl h

/-! ### Cells -/

@[simp] theorem State.updCells_cells_self (s : State) (ch : Chan) (f : Cells → Cells) :
    (s.updCells ch f).cells ch = f (s.cells ch) := by
  simp [State.updCells, State.cells]

theorem State.updCells_cells_ne (s : State) {ch c : Chan} (f : Cells → Cells) (h : c ≠ ch) :
    (s.updCells ch f).cells c = s.cells c := by
  simp [State.updCells, State.cells, PerChan.get_set_ne _ _ h]

@[simp] theorem State.updCells_mctl (s : State) (ch : Chan) (f : Cells → Cells) : (s.updCells ch f).serial.mctl = s.serial.mctl := rfl
@[simp] theorem State.updCells_i2coa (s : State) (ch : Chan) (f : Cells → Cells) : (s.updCells ch f).serial.i2coa = s.serial.i2coa := rfl
@[simp] theorem State.updCells_i2csa (s : State) (ch : Chan) (f : Cells → Cells) : (s.updCells ch f).serial.i2csa = s.serial.i2csa := rfl
@[simp] theorem State.updCells_i2cie (s : State) (ch : Chan) (f : Cells → Cells) : (s.updCells ch f).serial.i2cie = s.serial.i2cie := rfl
@[simp] theorem State.updCells_ieReg (s : State) (ch : Chan) (f : Cells → Cells) : (s.updCells ch f).serial.ie = s.serial.ie := rfl
@[simp] theorem State.updCells_ifgReg (s : State) (ch : Chan) (f : Cells → Cells) : (s.updCells ch f).serial.ifg = s.serial.ifg := rfl
@[simp] theorem State.updCells_ie (s : State) (ch : Chan) (f : Cells → Cells) (c : Chan) (d : Dir) :
    (s.updCells ch f).ie c d = s.ie c d := rfl
@[simp] theorem State.updCells_ifg (s : State) (ch : Chan) (f : Cells → Cells) (c : Chan) (d : Dir) :
    (s.updCells ch f).ifg c d = s.ifg c d := rfl

/-- The cells that a change of channel ch's common cells leaves alone. -/
theorem State.updCells_cellValue_ne (s : State) {ch c : Chan} (f : Cells → Cells) (h : c ≠ ch) (r : Role) :
    (s.updCells ch f).cellValue c r = s.cellValue c r := by
  cases r <;> simp [State.cellValue, State.updCells_cells_ne _ _ h]

@[simp] theorem State.setIfg_cells (s : State) (ch : Chan) (d : Dir) (v : Bool) (c : Chan) : (s.setIfg ch d v).cells c = s.cells c := rfl
@[simp] theorem State.setIe_cells (s : State) (ch : Chan) (d : Dir) (v : Bool) (c : Chan) : (s.setIe ch d v).cells c = s.cells c := rfl
@[simp] theorem State.setIfg_cellValue (s : State) (ch : Chan) (d : Dir) (v : Bool) (c : Chan) (r : Role) :
    (s.setIfg ch d v).cellValue c r = s.cellValue c r := by cases r <;> rfl
@[simp] theorem State.setIe_cellValue (s : State) (ch : Chan) (d : Dir) (v : Bool) (c : Chan) (r : Role) :
    (s.setIe ch d v).cellValue c r = s.cellValue c r := by cases r <;> rfl
@[simp] theorem State.setIfg_field (s : State) (ch : Chan) (d : Dir) (v : Bool) (c : Chan) (f : Field) :
    (s.setIfg ch d v).field c f = s.field c f := by cases f <;> rfl
@[simp] theorem State.setIe_field (s : State) (ch : Chan) (d : Dir) (v : Bool) (c : Chan) (f : Field) :
    (s.setIe ch d v).field c f = s.field c f := by cases f <;> rfl

/-! ### Flags -/

@[simp] theorem State.setIfg_ie (s : State) (ch : Chan) (d : Dir) (v : Bool) (c : Chan) (e : Dir) : (s.setIfg ch d v).ie c e = s.ie c e := rfl
@[simp] theorem State.setIe_ifg (s : State) (ch : Chan) (d : Dir) (v : Bool) (c : Chan) (e : Dir) : (s.setIe ch d v).ifg c e = s.ifg c e := rfl

theorem State.setIfg_ifg_self (s : State) (ch : Chan) (d : Dir) (v : Bool) (h : s.params.irqBits.legal = true) :
    (s.setIfg ch d v).ifg ch d = v := by
  simpa [State.setIfg, State.ifg, State.irqPos] using getLsbD_setBit_self _ v (IrqBits.pos_lt h ch.kind d)

theorem State.setIfg_ifg_ne (s : State) {ch c : Chan} {d e : Dir} (v : Bool) (h : s.params.irqBits.legal = true)
    (hne : (c, e) ≠ (ch, d)) : (s.setIfg ch d v).ifg c e = s.ifg c e := by
  by_cases hi : c.inst = ch.inst
  · have hp : s.params.irqBits.pos c.kind e ≠ s.params.irqBits.pos ch.kind d := fun hp =>
      hne (by obtain ⟨hk, rfl⟩ := IrqBits.pos_inj h hp; rw [Chan.ext_kind_inst hk hi])
    simpa [State.setIfg, State.ifg, State.irqPos, hi] using getLsbD_setBit_ne _ v hp
  · simp [State.setIfg, State.ifg, State.irqPos, PerInst.get_set_ne _ _ hi]

theorem State.setIe_ie_self (s : State) (ch : Chan) (d : Dir) (v : Bool) (h : s.params.irqBits.legal = true) :
    (s.setIe ch d v).ie ch d = v := by
  simpa [State.setIe, State.ie, State.irqPos] using getLsbD_setBit_self _ v (IrqBits.pos_lt h ch.kind d)

theorem State.setIe_ie_ne (s : State) {ch c : Chan} {d e : Dir} (v : Bool) (h : s.params.irqBits.legal = true)
    (hne : (c, e) ≠ (ch, d)) : (s.setIe ch d v).ie c e = s.ie c e := by
  by_cases hi : c.inst = ch.inst
  · have hp : s.params.irqBits.pos c.kind e ≠ s.params.irqBits.pos ch.kind d := fun hp =>
      hne (by obtain ⟨hk, rfl⟩ := IrqBits.pos_inj h hp; rw [Chan.ext_kind_inst hk hi])
    simpa [State.setIe, State.ie, State.irqPos, hi] using getLsbD_setBit_ne _ v hp
  · simp [State.setIe, State.ie, State.irqPos, PerInst.get_set_ne _ _ hi]

/-! ### Fields -/

@[simp] theorem State.setField_ie (s : State) (ch : Chan) (f : Field) (v : Bool) (c : Chan) (d : Dir) :
    (s.setField ch f v).ie c d = s.ie c d := rfl
@[simp] theorem State.setField_ifg (s : State) (ch : Chan) (f : Field) (v : Bool) (c : Chan) (d : Dir) :
    (s.setField ch f v).ifg c d = s.ifg c d := rfl

/-- A field write leaves the cells of the other channels alone. -/
theorem State.setField_cellValue_ne (s : State) {ch c : Chan} (f : Field) (v : Bool) (h : c ≠ ch) (r : Role) :
    (s.setField ch f v).cellValue c r = s.cellValue c r := State.updCells_cellValue_ne s _ h r

/-- A field write leaves the other cells of its channel alone (R311). -/
theorem State.setField_cellValue_role (s : State) (ch : Chan) (f : Field) (v : Bool) {r : Role} (h : r ≠ f.role) :
    (s.setField ch f v).cellValue ch r = s.cellValue ch r := by
  cases f <;> cases r <;> first | exact absurd rfl h | simp [State.cellValue, State.setField]

/-- The bits of the cell a field write changes: the field's, and no other (R311). -/
theorem State.setField_bit (s : State) (ch : Chan) (f : Field) (v : Bool) (n : Nat) :
    ((s.setField ch f v).cellValue ch f.role).getLsbD n =
      if n = f.pos s.params.fieldPos ∧ f.pos s.params.fieldPos < 8 then v else (s.cellValue ch f.role).getLsbD n := by
  cases f <;>
    simp only [State.cellValue, Field.role, State.setField, State.updCells_cells_self, BitVec.getLsbD_setWidth,
      getLsbD_setBit] <;>
    split <;> simp_all <;> omega

theorem State.setField_field_self (s : State) (ch : Chan) (f : Field) (v : Bool) (h : f.pos s.params.fieldPos < 8) :
    (s.setField ch f v).field ch f = v := by
  simp [State.field, State.setField_bit, h]

theorem State.setField_field_ne (s : State) {ch c : Chan} {f g : Field} (v : Bool)
    (h : c ≠ ch ∨ g.role ≠ f.role ∨ g.pos s.params.fieldPos ≠ f.pos s.params.fieldPos) :
    (s.setField ch f v).field c g = s.field c g := by
  by_cases hc : c = ch
  · subst hc
    by_cases hr : g.role = f.role
    · have hp : g.pos s.params.fieldPos ≠ f.pos s.params.fieldPos := by simpa [hr] using h
      simp [State.field, hr, State.setField_bit, hp]
    · simp [State.field, State.setField_cellValue_role _ _ _ _ hr]
  · simp [State.field, State.setField_cellValue_ne _ _ _ hc]

/-- A field lies below bit 8 where FIELDPOS is legal. -/
theorem Field.pos_lt {p : FieldPos} (h : p.legal = true) (f : Field) : f.pos p < 8 := by
  obtain ⟨h1, h2, h3, h4, h5, h6, -, h7, h8, h9, -⟩ := p.legal_iff.1 h
  cases f <;> assumption

/-- Two fields of one cell lie on different bits where FIELDPOS is legal. -/
theorem Field.pos_inj {p : FieldPos} (h : p.legal = true) {f g : Field} (hr : f.role = g.role) (hp : f.pos p = g.pos p) : f = g := by
  obtain ⟨-, -, -, -, -, -, ⟨h1, h2, h3, h4, h5, h6, h7, h8, h9, h10⟩, -, -, -, h11, h12, h13⟩ := p.legal_iff.1 h
  cases f <;> cases g <;>
    first
    | rfl
    | exact absurd hr (by decide)
    | exact absurd hp (by assumption)
    | exact absurd hp.symm (by assumption)

/-- A field write leaves every other field alone where FIELDPOS is legal. -/
theorem State.setField_field_other (s : State) {ch c : Chan} {f g : Field} (v : Bool) (h : s.params.fieldPos.legal = true)
    (hne : (c, g) ≠ (ch, f)) : (s.setField ch f v).field c g = s.field c g := by
  apply State.setField_field_ne
  by_cases hc : c = ch
  · by_cases hr : g.role = f.role
    · exact .inr (.inr (fun hp => hne (by rw [hc, Field.pos_inj h hr hp])))
    · exact .inr (.inl hr)
  · exact .inl hc

/-! ### The status cell and the hold -/

@[simp] theorem State.setStatusBits_ie (s : State) (ch : Chan) (v : Byte) (c : Chan) (d : Dir) : (s.setStatusBits ch v).ie c d = s.ie c d := rfl
@[simp] theorem State.setStatusBits_ifg (s : State) (ch : Chan) (v : Byte) (c : Chan) (d : Dir) : (s.setStatusBits ch v).ifg c d = s.ifg c d := rfl

/-- The status cell takes the value but for LISTEN, which stays (R335). -/
theorem State.setStatusBits_stat (s : State) (ch : Chan) (v : Byte) (n : Nat) :
    ((s.setStatusBits ch v).cells ch).stat.getLsbD n =
      if n = s.params.fieldPos.listen ∧ s.params.fieldPos.listen < 8 then (s.cells ch).stat.getLsbD s.params.fieldPos.listen
      else v.getLsbD n := by
  simp [State.setStatusBits, getLsbD_setBit]

theorem State.setStatusBits_cellValue (s : State) (ch : Chan) (v : Byte) {c : Chan} {r : Role} (h : c ≠ ch ∨ r ≠ .stat) :
    (s.setStatusBits ch v).cellValue c r = s.cellValue c r := by
  by_cases hc : c = ch
  · subst hc
    have hr : r ≠ .stat := by simpa using h
    cases r <;> first | exact absurd rfl hr | simp [State.cellValue, State.setStatusBits]
  · exact State.updCells_cellValue_ne s _ hc r

/-- Releasing the hold writes SWRST and nothing else (R313). -/
theorem State.writeHold_false (s : State) (ch : Chan) : s.writeHold ch false = s.setField ch .swrst false := rfl

/-- Asserting the hold writes SWRST, then draws (R313). -/
theorem State.writeHold_true (s : State) (ch : Chan) : s.writeHold ch true = (s.setField ch .swrst true).drawVolatile ch := rfl

end Sys2Proof.Machine
end

