-- ==== Sys2Proof/Laws/Step.lean ====
section
/-! SUPPORT. What each shared operation can do, said once: the Decode checks, the micro-operations, issuing and resuming a command, and
the step. -/

namespace Sys2Proof.Machine

/-! ### Views of two states with the same parts -/

theorem State.cells_congr {s t : State} (h : t.serial = s.serial) (c : Chan) : t.cells c = s.cells c := by
  simp [State.cells, h]

theorem State.cellValue_congr {s t : State} (h : t.serial = s.serial) (c : Chan) (r : Role) : t.cellValue c r = s.cellValue c r := by
  cases r <;> simp [State.cellValue, State.cells_congr h, h]

theorem State.field_congr {s t : State} (hp : t.params = s.params) (h : t.serial = s.serial) (c : Chan) (f : Field) :
    t.field c f = s.field c f := by
  simp [State.field, State.cellValue_congr h, hp]

theorem State.ifg_congr {s t : State} (hp : t.params = s.params) (h : t.serial = s.serial) (c : Chan) (d : Dir) :
    t.ifg c d = s.ifg c d := by
  simp [State.ifg, State.irqPos, h, hp]

theorem State.ie_congr {s t : State} (hp : t.params = s.params) (h : t.serial = s.serial) (c : Chan) (d : Dir) :
    t.ie c d = s.ie c d := by
  simp [State.ie, State.irqPos, h, hp]

theorem State.readByte_congr {s t : State} (h : t.dm = s.dm) (a : Half) : t.readByte a = s.readByte a := by
  simp [State.readByte, h]

/-! ### The Decode checks (R150) -/

@[simp] theorem firstTrap_nil : firstTrap [] = none := rfl
@[simp] theorem firstTrap_pass (t : Trap) (l : List (Bool × Trap)) : firstTrap ((false, t) :: l) = firstTrap l := rfl
@[simp] theorem firstTrap_fail (t : Trap) (l : List (Bool × Trap)) : firstTrap ((true, t) :: l) = some t := rfl

/-- A command whose checks pass runs its first micro-operation. -/
theorem issue_pass {i : Instr} {checks : List (Bool × Trap)} {q : List MicroOp} {s : State} (h : firstTrap checks = none) :
    issue i checks q s = .next (runHead (encode i) q s) := by simp [issue, h]

/-- A command whose checks fail raises the first of them. -/
theorem issue_fail {i : Instr} {checks : List (Bool × Trap)} {q : List MicroOp} {s : State} {t : Trap}
    (h : firstTrap checks = some t) : issue i checks q s = .next (s.raise t (encode i)) := by simp [issue, h]

/-- Every command has its checks and a non-empty list of micro-operations (R42). Those after the first are of the kinds that can be
left over, and so is the first of a list with more than one. -/
theorem exec_issue (i : Instr) (s : State) :
    ∃ checks m rest, exec i s = issue i checks (m :: rest) s ∧ rest.all MicroOp.canWait = true ∧
      (rest ≠ [] → m.canWait = true) := by
  cases i
  case iwreg ch reg =>
    refine ⟨_, _, _, rfl, ?_, fun _ => rfl⟩
    simp [iwregData, List.all_flatMap, MicroOp.canWait]
  case irreg ch reg =>
    refine ⟨_, _, _, rfl, ?_, fun _ => rfl⟩
    simp only [List.append_eq, List.all_append, irregReceive]
    split
    · simp [MicroOp.canWait]
    · simp only [List.all_flatMap]
      simp [MicroOp.canWait]
      intro x _
      split <;> simp
  all_goals
    first
    | exact ⟨[], _, [], rfl, rfl, fun h => absurd rfl h⟩
    | exact ⟨_, _, [], rfl, rfl, fun h => absurd rfl h⟩
    | exact ⟨_, _, _ :: _, rfl, rfl, fun _ => rfl⟩

/-- Every command answers a next state: the model refuses none and stops on none. -/
theorem exec_next (i : Instr) (s : State) : ∃ t, exec i s = .next t := by
  obtain ⟨checks, m, rest, h, -⟩ := exec_issue i s
  rw [h]
  cases hf : firstTrap checks with
  | none => exact ⟨_, issue_pass hf⟩
  | some tr => exact ⟨_, issue_fail hf⟩

/-! ### Issuing and resuming (R43) -/

theorem runHead_done {w : Word} {m : MicroOp} {rest : List MicroOp} {s s1 : State} (h : m.run s = .done s1) :
    runHead w (m :: rest) s = s1.retire s.ctx m rest w := by simp [runHead, h]

theorem runHead_wait {w : Word} {m : MicroOp} {rest : List MicroOp} {s : State} (h : m.run s = .wait) :
    runHead w (m :: rest) s = s.loadSeq s.ctx (m :: rest) w := by simp [runHead, h]

theorem runHead_trap {w : Word} {m : MicroOp} {rest : List MicroOp} {s : State} {t : Trap} (h : m.run s = .trap t) :
    runHead w (m :: rest) s = s.raise t w := by simp [runHead, h]

/-- The three ends of the head of a command's micro-operations. -/
theorem runHead_cases (w : Word) (m : MicroOp) (rest : List MicroOp) (s : State) :
    (∃ s1, m.run s = .done s1 ∧ runHead w (m :: rest) s = s1.retire s.ctx m rest w) ∨
    (m.run s = .wait ∧ runHead w (m :: rest) s = s.loadSeq s.ctx (m :: rest) w) ∨
    (∃ t, m.run s = .trap t ∧ runHead w (m :: rest) s = s.raise t w) := by
  cases h : m.run s with
  | done s1 => exact .inl ⟨s1, rfl, runHead_done h⟩
  | wait => exact .inr (.inl ⟨rfl, runHead_wait h⟩)
  | trap t => exact .inr (.inr ⟨t, rfl, runHead_trap h⟩)

/-- The four ends of a command that is issued: a Decode fault, or one of the three ends of its first micro-operation. -/
theorem exec_cases {i : Instr} {s t : State} (h : exec i s = .next t) :
    ∃ checks m rest, exec i s = issue i checks (m :: rest) s ∧ rest.all MicroOp.canWait = true ∧
      (rest ≠ [] → m.canWait = true) ∧
      ((∃ tr, firstTrap checks = some tr ∧ t = s.raise tr (encode i)) ∨
       (firstTrap checks = none ∧ t = runHead (encode i) (m :: rest) s)) := by
  obtain ⟨checks, m, rest, he, hr, hm⟩ := exec_issue i s
  refine ⟨checks, m, rest, he, hr, hm, ?_⟩
  rw [he] at h
  cases hf : firstTrap checks with
  | none =>
    rw [issue_pass hf] at h
    exact .inr ⟨rfl, by injection h with h; exact h.symm⟩
  | some tr =>
    rw [issue_fail hf] at h
    exact .inl ⟨tr, rfl, by injection h with h; exact h.symm⟩

/-! ### The micro-operations with more than one case -/

theorem microFieldWrite_cases (ch : Chan) (f : Field) (v : Bool) (s : State) :
    (s.configBlocked ch f.role = true ∧ microFieldWrite ch f v s = .trap .configWhileEnabled) ∨
    (s.configBlocked ch f.role = false ∧ f = .swrst ∧ microFieldWrite ch f v s = .done (s.writeHold ch v)) ∨
    (s.configBlocked ch f.role = false ∧ f ≠ .swrst ∧ microFieldWrite ch f v s = .done (s.setField ch f v)) := by
  unfold microFieldWrite
  cases hb : s.configBlocked ch f.role <;> by_cases hf : f = .swrst <;> simp [hf]

theorem microCellWrite_cases (ch : Chan) (role : Role) (v : Half) (s : State) :
    (role.hasCell ch.kind = false ∧ microCellWrite ch role v s = .done s) ∨
    (role.hasCell ch.kind = true ∧ s.configBlocked ch role = true ∧ microCellWrite ch role v s = .trap .configWhileEnabled) ∨
    (role.hasCell ch.kind = true ∧ s.configBlocked ch role = false ∧ microCellWrite ch role v s = .done (s.storeCell ch role v)) := by
  unfold microCellWrite
  cases hb : s.configBlocked ch role <;> cases hc : role.hasCell ch.kind <;> simp

theorem microPoll_ready {ch : Chan} {d : Dir} {s : State} (h : s.ifg ch d = true) : (MicroOp.poll ch d).run s = .done s := by
  simp [MicroOp.run, microPoll, h]

theorem microPoll_wait {ch : Chan} {d : Dir} {s : State} (h : s.ifg ch d = false) : (MicroOp.poll ch d).run s = .wait := by
  simp [MicroOp.run, microPoll, h]

/-- An access to a ring buffer that exists, by the outcome of its shared-access check (R511). -/
theorem ringAccess_cases {b : Nat} {r : Ring} {s : State} (f : Ring → State → State) (h : s.rings[b]? = some r) :
    (r.share s.ctx s.gie = none ∧ ringAccess b f s = .trap .unguardedSharedRb) ∨
    (∃ r1, r.share s.ctx s.gie = some r1 ∧ ringAccess b f s = .done (f r1 s)) := by
  unfold ringAccess
  rw [h]
  cases hs : r.share s.ctx s.gie with
  | none => exact .inl ⟨rfl, by simp [hs]⟩
  | some r1 => exact .inr ⟨r1, rfl, by simp [hs]⟩

/-- `Shares` is the shared-access check passing. -/
theorem share_of_shares {s : State} {r r1 : Ring} (h : Shares s r r1) : r.share s.ctx s.gie = some r1 := by
  obtain ⟨h1, h2, h3⟩ := h
  cases hc : s.ctx with
  | isr => obtain ⟨ha, hb⟩ := h1 hc; simp [Ring.share, ha, hb]
  | main =>
    cases hg : s.gie with
    | true => obtain ⟨ha, hb⟩ := h2 hc hg; simp [Ring.share, ha, hb]
    | false => simp [Ring.share, h3 hc hg]

/-- `Unshared` is the shared-access check failing. -/
theorem share_of_unshared {s : State} {r : Ring} (h : Unshared s r) : r.share s.ctx s.gie = none := by
  rcases h with ⟨hc, hm⟩ | ⟨hc, hg, hi⟩
  · simp [Ring.share, hc, hm]
  · simp [Ring.share, hc, hg, hi]

/-- A share changes the tracking bits only (R502, R511). -/
theorem share_kept {r r1 : Ring} {c : Ctx} {g : Bool} (h : r.share c g = some r1) :
    r1.buf = r.buf ∧ r1.wr = r.wr ∧ r1.rd = r.rd ∧ r1.ovf = r.ovf := by
  unfold Ring.share at h
  cases c <;> simp only at h <;> split at h <;> try split at h
  all_goals first | (injection h with h; subst h; exact ⟨rfl, rfl, rfl, rfl⟩) | cases h

/-- A micro-operation that is Done keeps the parameters, the programs, the turns to come, the fault record and the other context. -/
theorem run_done_kept {m : MicroOp} {s s1 : State} (h : m.run s = .done s1) :
    s1.params = s.params ∧ s1.progMain = s.progMain ∧ s1.progIsr = s.progIsr ∧ s1.agenda = s.agenda ∧
    s1.interludeCount = s.interludeCount ∧ s1.fault = s.fault ∧
    s1.isrGieSaved = s.isrGieSaved ∧ ∀ k, k ≠ s.ctx → s1.ctxState k = s.ctxState k := by
  have hcur : ∀ (f : CtxState → CtxState) k, k ≠ s.ctx → (s.updCur f).ctxState k = s.ctxState k :=
    fun f k hk => State.updCtx_other s f hk
  cases m <;> simp only [MicroOp.run] at h
  case fieldWrite ch f v =>
    rcases microFieldWrite_cases ch f v s with ⟨-, h2⟩ | ⟨-, -, h2⟩ | ⟨-, -, h2⟩ <;> rw [h2] at h
    · cases h
    · injection h with h; subst h; exact ⟨by simp, by simp, by simp, by simp, by simp, by simp, by simp, fun k _ => by cases k <;> simp [State.ctxState]⟩
    · injection h with h; subst h; exact ⟨rfl, rfl, rfl, rfl, rfl, rfl, rfl, fun k _ => by cases k <;> rfl⟩
  case cellWrite ch role v =>
    rcases microCellWrite_cases ch role v s with ⟨-, h2⟩ | ⟨-, -, h2⟩ | ⟨-, -, h2⟩ <;> rw [h2] at h
    · injection h with h; subst h; exact ⟨rfl, rfl, rfl, rfl, rfl, rfl, rfl, fun _ _ => rfl⟩
    · cases h
    · injection h with h; subst h
      exact ⟨by simp, by simp, by simp, by simp, by simp, by simp, by simp, fun k _ => by cases k <;> simp [State.ctxState]⟩
  case cellRead ch role =>
    unfold microCellRead at h
    split at h
    · injection h with h; subst h
      split <;> exact ⟨by simp, by simp, by simp, by simp, by simp, by simp, by simp, fun k hk => hcur _ k hk⟩
    · injection h with h; subst h; exact ⟨rfl, rfl, rfl, rfl, rfl, rfl, rfl, fun _ _ => rfl⟩
  case poll ch d =>
    unfold microPoll at h
    split at h
    · injection h with h; subst h; exact ⟨rfl, rfl, rfl, rfl, rfl, rfl, rfl, fun _ _ => rfl⟩
    · cases h
  case guardRelease =>
    injection h with h; subst h
    unfold State.guardRelease
    simp only
    split <;> exact ⟨by simp, by simp, by simp, by simp, by simp, by simp, by simp, fun k hk => hcur _ k hk⟩
  case timerGetValue t c =>
    injection h with h; subst h
    unfold State.timerToRes
    split <;> exact ⟨by simp, by simp, by simp, by simp, by simp, by simp, by simp, fun k hk => by first | rfl | exact hcur _ k hk⟩
  case timerGetCov t c =>
    injection h with h; subst h
    unfold State.timerToRes
    split <;> exact ⟨by simp, by simp, by simp, by simp, by simp, by simp, by simp, fun k hk => by first | rfl | exact hcur _ k hk⟩
  case hold ch v =>
    injection h with h; subst h
    exact ⟨by simp, by simp, by simp, by simp, by simp, by simp, by simp, fun k _ => by cases k <;> simp [State.ctxState]⟩
  case rxPush ch b =>
    unfold microRxPush ringAccess at h
    split at h
    · injection h with h; subst h; exact ⟨rfl, rfl, rfl, rfl, rfl, rfl, rfl, fun _ _ => rfl⟩
    · split at h
      · cases h
      · injection h with h; subst h; exact ⟨rfl, rfl, rfl, rfl, rfl, rfl, rfl, fun k _ => by cases k <;> rfl⟩
  case ringInsert | ringGet | ringEmpty | ringOvf | ringClearOvf | ringClear =>
    all_goals
      unfold ringAccess at h
      split at h
      · injection h with h; subst h; exact ⟨rfl, rfl, rfl, rfl, rfl, rfl, rfl, fun _ _ => rfl⟩
      · split at h
        · cases h
        · injection h with h; subst h
          refine ⟨by simp, by simp, by simp, by simp, by simp, by simp, by simp, fun k hk => ?_⟩
          first
          | (cases k <;> rfl)
          | (exact (State.updCtx_other _ _ hk).trans (by cases k <;> rfl))
  all_goals
    injection h with h; subst h
    refine ⟨by simp [State.rxToRes], by simp [State.rxToRes], by simp [State.rxToRes], by simp [State.rxToRes],
      by simp [State.rxToRes], by simp [State.rxToRes], by simp [State.rxToRes], fun k hk => ?_⟩
    first
    | (cases k <;> rfl)
    | exact hcur _ k hk

/-- Only a poll waits (R42). -/
theorem run_wait {m : MicroOp} {s : State} (h : m.run s = .wait) : ∃ ch d, m = .poll ch d ∧ s.ifg ch d = false := by
  cases m <;> simp only [MicroOp.run] at h
  case poll ch d =>
    refine ⟨ch, d, rfl, ?_⟩
    unfold microPoll at h
    split at h
    · cases h
    · rename_i hi
      simpa using hi
  case fieldWrite ch f v =>
    rcases microFieldWrite_cases ch f v s with ⟨-, h2⟩ | ⟨-, -, h2⟩ | ⟨-, -, h2⟩ <;> rw [h2] at h <;> cases h
  case cellWrite ch role v =>
    rcases microCellWrite_cases ch role v s with ⟨-, h2⟩ | ⟨-, -, h2⟩ | ⟨-, -, h2⟩ <;> rw [h2] at h <;> cases h
  case cellRead => unfold microCellRead at h; split at h <;> cases h
  case rxPush => unfold microRxPush ringAccess at h; split at h <;> try split at h
                 all_goals cases h
  case ringInsert | ringGet | ringEmpty | ringOvf | ringClearOvf | ringClear =>
    all_goals unfold ringAccess at h; split at h <;> try split at h
    all_goals cases h
  all_goals cases h

/-- A Done micro-operation leaves the state Running unless it is HALT's, and the state is never Faulted by it. -/
theorem run_done_status {m : MicroOp} {s s1 : State} (h : m.run s = .done s1) :
    s1.status = s.status ∨ (m = .halt ∧ s1.status = .halted) := by
  cases m <;> simp only [MicroOp.run] at h
  case halt => injection h with h; subst h; exact .inr ⟨rfl, rfl⟩
  case fieldWrite ch f v =>
    rcases microFieldWrite_cases ch f v s with ⟨-, h2⟩ | ⟨-, -, h2⟩ | ⟨-, -, h2⟩ <;> rw [h2] at h
    · cases h
    · injection h with h; subst h; exact .inl (by simp)
    · injection h with h; subst h; exact .inl (by simp)
  case cellWrite ch role v =>
    rcases microCellWrite_cases ch role v s with ⟨-, h2⟩ | ⟨-, -, h2⟩ | ⟨-, -, h2⟩ <;> rw [h2] at h
    · injection h with h; subst h; exact .inl rfl
    · cases h
    · injection h with h; subst h; exact .inl (by simp)
  case cellRead =>
    unfold microCellRead at h
    split at h <;> injection h with h <;> subst h <;> left
    · split <;> simp
    · rfl
  case poll =>
    unfold microPoll at h
    split at h
    · injection h with h; subst h; exact .inl rfl
    · cases h
  case timerGetValue | timerGetCov =>
    all_goals
      injection h with h; subst h; left
      unfold State.timerToRes
      split <;> simp
  case rxPush | ringInsert | ringGet | ringEmpty | ringOvf | ringClearOvf | ringClear =>
    all_goals
      try unfold microRxPush at h
      unfold ringAccess at h
      split at h
      · injection h with h; subst h; exact .inl rfl
      · split at h
        · cases h
        · injection h with h; subst h; exact .inl (by simp)
  all_goals injection h with h; subst h; exact .inl (by simp [State.rxToRes])

/-! ### The step (R43, R44) -/

/-- Beginning a command: past the program's end, on a reserved word, or as its meaning says. -/
theorem beginCommand_cases (s : State) :
    (fetchWord s = none ∧ beginCommand s = .next (s.raise .fetchRange 0)) ∨
    (∃ w e, fetchWord s = some w ∧ decode w = .error e ∧ beginCommand s = .next (s.raise .reservedEncoding w)) ∨
    (∃ w i, fetchWord s = some w ∧ decode w = .ok i ∧ beginCommand s = exec i s) := by
  unfold beginCommand
  cases hw : fetchWord s with
  | none => exact .inl ⟨rfl, rfl⟩
  | some w =>
    cases hd : decode w with
    | error e => exact .inr (.inl ⟨w, e, rfl, hd, by simp [hd]⟩)
    | ok i => exact .inr (.inr ⟨w, i, rfl, hd, by simp [hd]⟩)

/-- The sequencer's step: it begins a command, or goes on with the one in progress. -/
theorem sequencerStep_cases {s t : State} (h : sequencerStep s = .next t) :
    s.status = .running ∧ ((s.cur.useq = [] ∧ beginCommand s = .next t) ∨ (s.cur.useq ≠ [] ∧ t = resume s)) := by
  unfold sequencerStep at h
  split at h
  · cases h
  · cases h
  · rename_i hr
    refine ⟨hr, ?_⟩
    split at h <;> rename_i hu
    · exact .inl ⟨by simpa using hu, h⟩
    · injection h with h
      exact .inr ⟨by simpa using hu, h.symm⟩

/-- What a step can do, by whose turn it is. -/
theorem step_cases {s t : State} (h : step s = .next t) :
    s.legal = true ∧
    ((s.nextTurn = .sequencer ∧ s.status = .running ∧
        ((s.cur.useq = [] ∧ beginCommand s.spendTurn = .next t) ∨ (s.cur.useq ≠ [] ∧ t = resume s.spendTurn))) ∨
     (s.nextTurn = .interrupt ∧
        ((s.entryEnabled = true ∧ t = s.spendTurn.interruptEntry) ∨ (s.entryEnabled = false ∧ t = s.spendTurn))) ∨
     (∃ e, s.nextTurn = .env e ∧ t = envStep e s.spendTurn)) := by
  unfold step at h
  split at h
  · refine ⟨‹_›, ?_⟩
    cases ht : s.nextTurn <;> rw [ht] at h <;> simp only [takeTurn] at h
    case sequencer => exact .inl (by simpa using sequencerStep_cases h)
    case interrupt =>
      injection h with h
      cases he : s.entryEnabled <;> simp [he] at h <;> simp [h]
    case env e =>
      injection h with h
      exact .inr (.inr ⟨e, rfl, h.symm⟩)
  · cases h

/-- A step of the environment changes the serial unit and the timers, and nothing else (R36). -/
theorem envStep_kept (e : EnvStep) (s : State) :
    envStep e s = { s with serial := (envStep e s).serial, timers := (envStep e s).timers } := by
  cases e <;> simp only [envStep]
  case capture t c o => unfold State.captureStep; split <;> rfl
  case rxByte ch v => split <;> first | rfl | (simp only [State.receiveByte]; split <;> rfl)
  all_goals first | rfl | (split <;> rfl)

end Sys2Proof.Machine
end

