-- ==== Sys2Proof/Machine/Assembler.lean ====
section
/-! DEFINITION. The text level of the block: the assembler spelling of a command (R152), the pseudo-instructions' expansions and the
assembler's check of a GUARD block (R153). No step of the machine uses it. -/

namespace Sys2Proof

/-! ### Operand spellings (R152) -/

def ArgReg.asm : ArgReg → String
  | .a0 => "a0"
  | .a1 => "a1"
  | .a2 => "a2"
  | .a3 => "a3"

def Chan.asm : Chan → String
  | .a0 => "A0"
  | .a1 => "A1"
  | .b0 => "B0"
  | .b1 => "B1"

def Dir.asm : Dir → String
  | .rx => "RX"
  | .tx => "TX"

def Role.asm : Role → String
  | .ctl0 => "CTL0"
  | .ctl1 => "CTL1"
  | .br0 => "BR0"
  | .br1 => "BR1"
  | .mctl => "MCTL"
  | .stat => "STAT"
  | .rxbuf => "RXBUF"
  | .txbuf => "TXBUF"
  | .i2coa => "I2COA"
  | .i2csa => "I2CSA"
  | .i2cie => "I2CIE"

def TimerMode.asm : TimerMode → String
  | .stop => "STOP"
  | .up => "UP"
  | .cont => "CONT"
  | .updown => "UPDOWN"

def Divider.asm : Divider → String
  | .by1 => "1"
  | .by2 => "2"
  | .by4 => "4"
  | .by8 => "8"

def ClockSource.asm : ClockSource → String
  | .taclk => "TACLK"
  | .aclk => "ACLK"
  | .smclk => "SMCLK"
  | .inclk => "INCLK"

def CaptureMode.asm : CaptureMode → String
  | .none => "NONE"
  | .rising => "RISING"
  | .falling => "FALLING"
  | .both => "BOTH"

def CaptureInput.asm : CaptureInput → String
  | .ccia => "CCIA"
  | .ccib => "CCIB"
  | .gnd => "GND"
  | .vcc => "VCC"

def timerAsm (t : Fin 16) : String := "t" ++ toString t.val

def timerChanAsm (c : Fin 16) : String := "c" ++ toString c.val

def ringAsm (b : Fin 16) : String := "rb" ++ toString b.val

def immAsm (v : Half) : String := toString v.toNat

def byteAsm (v : Byte) : String := toString v.toNat

def bitAsm (v : Bool) : String := if v then "1" else "0"

def scsAsm (v : Bool) : String := if v then "SYNC" else "ASYNC"

def tenAsm (v : Bool) : String := if v then "10" else "7"

/-- A command line: the mnemonic, then the operands separated by commas (R152). -/
def asmLine (m : String) (ops : List String) : String :=
  match ops with
  | [] => m
  | _ => m ++ " " ++ String.intercalate ", " ops

/-- The assembler spelling of a command (R152). -/
def Instr.asm : Instr → String
  | .nop => asmLine "NOP" []
  | .halt => asmLine "HALT" []
  | .ldlo k imm => asmLine "LDLO" [k.asm, immAsm imm]
  | .ldhi k imm => asmLine "LDHI" [k.asm, immAsm imm]
  | .movres k => asmLine "MOVRES" [k.asm]
  | .stb k addr => asmLine "STB" [k.asm, immAsm addr]
  | .ldb addr => asmLine "LDB" [immAsm addr]
  | .gacq => asmLine "GACQ" []
  | .grel => asmLine "GREL" []
  | .eint => asmLine "EINT" []
  | .dint => asmLine "DINT" []
  | .reti => asmLine "RETI" []
  | .jmp target => asmLine "JMP" [immAsm target]
  | .bz target => asmLine "BZ" [immAsm target]
  | .bnz target => asmLine "BNZ" [immAsm target]
  | .tinit t mode div src => asmLine "TINIT" [timerAsm t, mode.asm, div.asm, src.asm]
  | .tmode t mode => asmLine "TMODE" [timerAsm t, mode.asm]
  | .treset t => asmLine "TRESET" [timerAsm t]
  | .tcapm t c cm scs => asmLine "TCAPM" [timerAsm t, timerChanAsm c, cm.asm, scsAsm scs]
  | .tccis t c src => asmLine "TCCIS" [timerAsm t, timerChanAsm c, src.asm]
  | .toutm t c om => asmLine "TOUTM" [timerAsm t, timerChanAsm c, toString om.toNat]
  | .tsetcmp t c value => asmLine "TSETCMP" [timerAsm t, timerChanAsm c, immAsm value]
  | .tgetcap t c => asmLine "TGETCAP" [timerAsm t, timerChanAsm c]
  | .tccie t c en => asmLine "TCCIE" [timerAsm t, timerChanAsm c, bitAsm en]
  | .tgetcov t c => asmLine "TGETCOV" [timerAsm t, timerChanAsm c]
  | .tclrcov t c => asmLine "TCLRCOV" [timerAsm t, timerChanAsm c]
  | .sena ch => asmLine "SENA" [ch.asm]
  | .sdis ch => asmLine "SDIS" [ch.asm]
  | .sie ch d en => asmLine "SIE" [ch.asm, d.asm, bitAsm en]
  | .sifg ch d => asmLine "SIFG" [ch.asm, d.asm]
  | .swr ch role value => asmLine "SWR" [ch.asm, role.asm, immAsm value]
  | .srd ch role => asmLine "SRD" [ch.asm, role.asm]
  | .bcalc os => asmLine "BCALC" [bitAsm os]
  | .bset ch os => asmLine "BSET" [ch.asm, bitAsm os]
  | .iptx ch addr ten => asmLine "IPTX" [ch.asm, toString addr.toNat, tenAsm ten]
  | .iprx ch addr ten => asmLine "IPRX" [ch.asm, toString addr.toNat, tenAsm ten]
  | .istt ch => asmLine "ISTT" [ch.asm]
  | .istp ch => asmLine "ISTP" [ch.asm]
  | .igstt ch => asmLine "IGSTT" [ch.asm]
  | .isend ch byte => asmLine "ISEND" [ch.asm, byteAsm byte]
  | .isendR ch => asmLine "ISEND" [ch.asm, "RES"]
  | .iwreg ch reg => asmLine "IWREG" [ch.asm, byteAsm reg]
  | .irreg ch reg => asmLine "IRREG" [ch.asm, byteAsm reg]
  | .irecv ch => asmLine "IRECV" [ch.asm]
  | .pinit ch divisor => asmLine "PINIT" [ch.asm, immAsm divisor]
  | .psend ch byte => asmLine "PSEND" [ch.asm, byteAsm byte]
  | .psendR ch => asmLine "PSEND" [ch.asm, "RES"]
  | .precv ch => asmLine "PRECV" [ch.asm]
  | .ploop ch en => asmLine "PLOOP" [ch.asm, bitAsm en]
  | .pgloop ch => asmLine "PGLOOP" [ch.asm]
  | .pgfe ch => asmLine "PGFE" [ch.asm]
  | .pgoe ch => asmLine "PGOE" [ch.asm]
  | .rins b byte => asmLine "RINS" [ringAsm b, byteAsm byte]
  | .rinsR b => asmLine "RINS" [ringAsm b, "RES"]
  | .rget b => asmLine "RGET" [ringAsm b]
  | .rempty b => asmLine "REMPTY" [ringAsm b]
  | .rovf b => asmLine "ROVF" [ringAsm b]
  | .rclrovf b => asmLine "RCLROVF" [ringAsm b]
  | .rclr b => asmLine "RCLR" [ringAsm b]

/-! ### Pseudo-instructions (R153) -/

/-- LI ak, imm32 (R153). -/
def expandLi (k : ArgReg) (v : Word) : List Instr := [.ldlo k (v.extractLsb' 0 16), .ldhi k (v.extractLsb' 16 16)]

/-- WAITSTT ch, placed at command index `at_` (R153). -/
def expandWaitstt (at_ : Half) (ch : Chan) : List Instr := [.igstt ch, .bnz at_]

/-- GUARD ... ENDGUARD around a body (R153). -/
def expandGuard (body : List Instr) : List Instr := .gacq :: (body ++ [.grel])

/-- The target of a jump or branch. -/
def Instr.target? : Instr → Option Half
  | .jmp target | .bz target | .bnz target => some target
  | _ => none

/-- The assembler accepts a GUARD block whose GUARD stands at command index `at_`: no jump or branch inside it leaves it, and there is
no HALT and no RETI in it (R153). The block runs from its GACQ to its GREL. -/
def guardBlockOk (at_ : Nat) (body : List Instr) : Bool :=
  body.all (fun i =>
    match i.target? with
    | some target => decide (at_ ≤ target.toNat) && decide (target.toNat ≤ at_ + body.length + 1)
    | none => i != .halt && i != .reti)

end Sys2Proof
end

