-- ==== Sys2Proof/Tests/Slice0.lean ====
section
/-! SUPPORT. The model's own tests: what WellFormed refuses, one word of every command, one step of every command from the spec's
examples, and for each statement with hypotheses a state that meets them. The expected values are the spec's (the example of the
command's rule, or 95_test_vectors.md), written out by hand. -/

namespace Sys2Proof.Tests

open Sys2Proof.Machine

/-! ### WellFormed (R149) -/

theorem test_wide_byte_write_refused : (Instr.swr .a0 .br0 0x100).wellFormed = false := by decide
theorem test_byte_write_at_limit_accepted : (Instr.swr .a0 .br0 0xFF).wellFormed = true := by decide
theorem test_word_write_accepted : (Instr.swr .b0 .i2csa 0xFFFF).wellFormed = true := by decide

/-! ### One word of every command: the examples of the command rules and of R143 -/

theorem test_decode_control :
    decode 0x00000000 = .ok .nop ∧ decode 0x01000000 = .ok .halt ∧ decode 0x02102580 = .ok (.ldlo .a1 9600) ∧
    decode 0x0300000F = .ok (.ldhi .a0 0xF) ∧ decode 0x04200000 = .ok (.movres .a2) ∧
    decode 0x05300200 = .ok (.stb .a3 0x200) ∧ decode 0x06000200 = .ok (.ldb 0x200) ∧ decode 0x07000000 = .ok .gacq ∧
    decode 0x08000000 = .ok .grel ∧ decode 0x09000000 = .ok .eint ∧ decode 0x0A000000 = .ok .dint ∧
    decode 0x0B000000 = .ok .reti ∧ decode 0x0C000007 = .ok (.jmp 7) ∧ decode 0x0D000000 = .ok (.bz 0) ∧
    decode 0x0E000003 = .ok (.bnz 3) := by
  refine ⟨?_, ?_, ?_, ?_, ?_, ?_, ?_, ?_, ?_, ?_, ?_, ?_, ?_, ?_, ?_⟩ <;> rfl

theorem test_decode_timer :
    decode 0x10000029 = .ok (.tinit 0 .up .by4 .smclk) ∧ decode 0x11000002 = .ok (.tmode 0 .cont) ∧
    decode 0x12000000 = .ok (.treset 0) ∧ decode 0x13120005 = .ok (.tcapm 1 2 .rising true) ∧
    decode 0x14010001 = .ok (.tccis 0 1 .ccib) ∧ decode 0x15000007 = .ok (.toutm 0 0 7) ∧
    decode 0x160003E8 = .ok (.tsetcmp 0 0 1000) ∧ decode 0x17010000 = .ok (.tgetcap 0 1) ∧
    decode 0x18000001 = .ok (.tccie 0 0 true) ∧ decode 0x19010000 = .ok (.tgetcov 0 1) ∧
    decode 0x1A010000 = .ok (.tclrcov 0 1) := by
  refine ⟨?_, ?_, ?_, ?_, ?_, ?_, ?_, ?_, ?_, ?_, ?_⟩ <;> rfl

theorem test_decode_serial :
    decode 0x20000000 = .ok (.sena .a0) ∧ decode 0x21200000 = .ok (.sdis .b0) ∧ decode 0x22100001 = .ok (.sie .a1 .rx true) ∧
    decode 0x23210000 = .ok (.sifg .b0 .tx) ∧ decode 0x24020068 = .ok (.swr .a0 .br0 0x68) ∧
    decode 0x25300000 = .ok (.srd .b1 .ctl0) ∧ decode 0x25340000 = .ok (.srd .b1 .mctl) ∧
    decode 0x30000000 = .ok (.bcalc false) ∧ decode 0x31010000 = .ok (.bset .a0 true) := by
  refine ⟨?_, ?_, ?_, ?_, ?_, ?_, ?_, ?_, ?_⟩ <;> rfl

theorem test_decode_i2c :
    decode 0x40200048 = .ok (.iptx .b0 0x48 false) ∧ decode 0x413102A5 = .ok (.iprx .b1 0x2A5 true) ∧
    decode 0x42200000 = .ok (.istt .b0) ∧ decode 0x43200000 = .ok (.istp .b0) ∧ decode 0x44200000 = .ok (.igstt .b0) ∧
    decode 0x452000A5 = .ok (.isend .b0 0xA5) ∧ decode 0x45210000 = .ok (.isendR .b0) ∧
    decode 0x46200010 = .ok (.iwreg .b0 0x10) ∧ decode 0x4720000F = .ok (.irreg .b0 0x0F) ∧
    decode 0x48300000 = .ok (.irecv .b1) := by
  refine ⟨?_, ?_, ?_, ?_, ?_, ?_, ?_, ?_, ?_, ?_⟩ <;> rfl

theorem test_decode_spi_and_ring :
    decode 0x50100002 = .ok (.pinit .a1 2) ∧ decode 0x5100003C = .ok (.psend .a0 0x3C) ∧ decode 0x51010000 = .ok (.psendR .a0) ∧
    decode 0x52300000 = .ok (.precv .b1) ∧ decode 0x53000001 = .ok (.ploop .a0 true) ∧ decode 0x54000000 = .ok (.pgloop .a0) ∧
    decode 0x55200000 = .ok (.pgfe .b0) ∧ decode 0x56200000 = .ok (.pgoe .b0) ∧ decode 0x60000011 = .ok (.rins 0 0x11) ∧
    decode 0x60110000 = .ok (.rinsR 1) ∧ decode 0x61000000 = .ok (.rget 0) ∧ decode 0x62000000 = .ok (.rempty 0) ∧
    decode 0x63000000 = .ok (.rovf 0) ∧ decode 0x64000000 = .ok (.rclrovf 0) ∧ decode 0x65200000 = .ok (.rclr 2) := by
  refine ⟨?_, ?_, ?_, ?_, ?_, ?_, ?_, ?_, ?_, ?_, ?_, ?_, ?_, ?_, ?_⟩ <;> rfl

/-- R148 and R149: a reserved unit, a reserved operation, a one in a zero bit, a reserved role, a wide immediate. -/
theorem test_decode_rejects :
    decode 0x70000000 = .error .reservedUnit ∧ decode 0x0F000000 = .error .reservedOperation ∧
    decode 0x00000001 = .error .nonzeroField ∧ decode 0x240B0000 = .error .reservedRole ∧
    decode 0x24020100 = .error .wideImmediate ∧ decode 0x45220000 = .error .nonzeroField := by
  refine ⟨?_, ?_, ?_, ?_, ?_, ?_⟩ <;> rfl

/-! ### Small states -/

/-- The state that a command leaves. -/
def after (i : Instr) (s : State) : State :=
  match exec i s with
  | .next t => t
  | _ => s

/-- The state n steps on. -/
def stepsOn : Nat → State → State
  | 0, s => s
  | n + 1, s =>
    match step s with
    | .next t => stepsOn n t
    | _ => s

/-- The state after n turns of the sequencer. -/
def later (n : Nat) (s : State) : State := stepsOn n { s with agenda := sequencerTurns n }

/-- Reset, with a main program. -/
def loaded (p : List Word) : State := { State.reset with progMain := p }

/-- Reset, with channel ch enabled. -/
def enabled (ch : Chan) : State := State.reset.setField ch .swrst false

/-- Reset, with the interrupt flag of ch and d as given. -/
def flagged (ch : Chan) (d : Dir) (v : Bool) : State := State.reset.setIfg ch d v

/-- Reset, with a0 and a1 loaded. -/
def args (a b : Word) : State := (State.reset.setArg .a0 a).setArg .a1 b

/-- Reset, in the Isr context of an entry. -/
def inIsr : State := { State.reset with ctx := .isr, isrGieSaved := true, progIsr := [0x0B000000] }

/-! ### One step of every command -/

theorem test_nop : (after .nop { State.reset with main := { State.reset.main with cp := 5 } }).main.cp = 6 := by decide
theorem test_halt : (after .halt State.reset).status = .halted ∧ (after .halt State.reset).main.cp = 0 := by decide
theorem test_ldlo : (after (.ldlo .a1 9600) (args 0 0xFFFFFFFF)).main.arg1 = 0x2580 := by decide
theorem test_ldhi : (after (.ldhi .a0 0xF) (args 0x4240 0)).main.arg0 = 1000000 := by decide
theorem test_movres : (after (.movres .a2) (State.reset.setRes 0x20068)).main.arg2 = 0x20068 := by decide
theorem test_stb : (after (.stb .a3 0x200) (State.reset.setArg .a3 0x1234)).dm = [(0x200, 0x34)] := by decide
theorem test_stb_zero_unlists : (after (.stb .a0 0x200) { State.reset with dm := [(0x200, 0x34)] }).dm = [] := by decide
theorem test_ldb : (after (.ldb 0xFFFF) { State.reset with dm := [(0xFFFF, 0x80)] }).main.res = 0x80 := by decide
theorem test_gacq :
    let t := after .gacq { State.reset with gie := true }
    (t.gie, t.main.gdepth, t.main.gsaved) = (false, 1, true) := by decide
theorem test_grel : (after .grel (after .gacq { State.reset with gie := true })).gie = true := by decide
theorem test_eint : (after .eint State.reset).gie = true := by decide
theorem test_dint : (after .dint { State.reset with gie := true }).gie = false := by decide
theorem test_reti :
    let t := after .reti { inIsr with isr := { inIsr.isr with cp := 3 } }
    (t.ctx, t.gie, t.isr.cp) = (.main, true, 3) := by decide
theorem test_jmp : (after (.jmp 7) State.reset).main.cp = 7 := by decide
theorem test_bz_all_bits : (after (.bz 9) (State.reset.setRes 0x80000000)).main.cp = 1 := by decide
theorem test_bnz_all_bits : (after (.bnz 3) (State.reset.setRes 0x100)).main.cp = 3 := by decide

theorem test_tinit :
    ((after (.tinit 0 .up .by4 .smclk) State.reset).timers.map (fun t => (t.mode, t.div, t.src)))[0]? = some (.up, .by4, .smclk) := by
  decide
theorem test_tmode : ((after (.tmode 1 .cont) State.reset).timers.map Timer.mode) = [.stop, .cont] := by decide
theorem test_treset :
    ((after (.treset 0) (State.reset.updTimer 0 (fun t => { t with count := 0x1234 }))).timers.map Timer.count) = [0, 0] := by decide
theorem test_tcapm :
    ((after (.tcapm 1 2 .rising true) State.reset).timerChan? 1 2).map (fun c => (c.cm, c.scs)) = some (.rising, true) := by decide
theorem test_tccis : ((after (.tccis 0 1 .ccib) State.reset).timerChan? 0 1).map TimerChan.ccis = some .ccib := by decide
theorem test_toutm : ((after (.toutm 0 0 7) State.reset).timerChan? 0 0).map TimerChan.outmod = some 7 := by decide
theorem test_tsetcmp : ((after (.tsetcmp 0 0 1000) State.reset).timerChan? 0 0).map TimerChan.value = some 1000 := by decide
theorem test_tgetcap : (after (.tgetcap 0 1) (after (.tsetcmp 0 1 0xBB8) State.reset)).main.res = 0xBB8 := by decide
theorem test_tccie : ((after (.tccie 0 0 true) State.reset).timerChan? 0 0).map TimerChan.ccie = some true := by decide
theorem test_tgetcov :
    (after (.tgetcov 0 1) (State.reset.updTimerChan 0 1 (fun c => { c with cov := true }))).main.res = 1 := by decide
theorem test_tclrcov :
    ((after (.tclrcov 0 1) (State.reset.updTimerChan 0 1 (fun c => { c with cov := true }))).timerChan? 0 1).map TimerChan.cov =
      some false := by decide
theorem test_channel_3_of_t0_faults : (after (.tgetcap 0 3) State.reset).fault.code = 4 := by decide
theorem test_channel_3_of_t1_is_legal : (after (.tgetcap 1 3) State.reset).status = .running := by decide

theorem test_sena : ((after (.sena .a0) State.reset).cells .a0).ctl1 = 0 := by decide
theorem test_sdis_holds : (after (.sdis .a0) (enabled .a0)).held .a0 = true := by decide
theorem test_sdis_counts_the_draw : (after (.sdis .a0) (enabled .a0)).drawCount = 1 := by decide
theorem test_sie : (after (.sie .a1 .rx true) State.reset).serial.ie.i1 = 1 := by decide
theorem test_sifg :
    (after (.sifg .b0 .tx) { State.reset with serial := { State.reset.serial with ifg := ⟨8, 0⟩ } }).main.res = 1 := by decide
theorem test_swr : ((after (.swr .a0 .br0 0x68) State.reset).cells .a0).br0 = 0x68 := by decide
theorem test_swr_enabled_faults : (after (.swr .a0 .br0 0x68) (enabled .a0)).fault.code = 10 := by decide
theorem test_srd : (after (.srd .b1 .ctl0) State.reset).main.res = 1 := by decide
theorem test_srd_no_cell : (after (.srd .b1 .mctl) (State.reset.setRes 7)).main.res = 7 := by decide

theorem test_bcalc : (after (.bcalc false) (args 1000000 9600)).main.res = 0x20068 := by decide
theorem test_bcalc_saturates : (baudOf 255 16 false).brs = 7 ∧ (baudOf 255 16 false).br = 15 := by decide
theorem test_bset :
    let t := later 3 { args 16000000 115200 with progMain := [0x31010000] }
    ((t.cells .a0).br0, (t.cells .a0).br1, t.serial.mctl.i0) = (0x08, 0x00, 0xBF) := by decide

theorem test_iptx :
    (after (.iptx .b0 0x48 false) State.reset).main.useq =
      [.fieldWrite .b0 .sla10 false, .cellWrite .b0 .i2csa 0x48, .fieldWrite .b0 .tr true, .hold .b0 false] := by decide
theorem test_iprx :
    (after (.iprx .b1 0x2A5 true) State.reset).main.useq =
      [.fieldWrite .b1 .sla10 true, .cellWrite .b1 .i2csa 0x2A5, .fieldWrite .b1 .tr false, .hold .b1 false] := by decide
theorem test_istt : (after (.istt .b0) State.reset).field .b0 .txstt = true := by decide
theorem test_istp : (after (.istp .b0) State.reset).field .b0 .txstp = true := by decide
theorem test_igstt : (after (.igstt .b0) (after (.istt .b0) State.reset)).main.res = 1 := by decide
theorem test_isend : ((later 2 { flagged .b0 .tx true with progMain := [0x452000A5] }).cells .b0).txbuf = 0xA5 := by decide
theorem test_isend_res :
    ((later 2 { (flagged .b0 .tx true).setRes 0x1FE with progMain := [0x45210000] }).cells .b0).txbuf = 0xFE := by decide
theorem test_isend_waits :
    (later 9 { flagged .b0 .tx false with progMain := [0x452000A5] }).main.useq = [.poll .b0 .tx, .txByte .b0 0xA5] := by decide
theorem test_iwreg_length : (after (.iwreg .b0 0x10) (args 0x48 2)).main.useq.length = 13 := by decide
theorem test_irreg_single_byte_order :
    (after (.irreg .b0 0x0F) (args 0x48 1)).main.useq.drop 4 =
      [.fieldWrite .b0 .txstt true, .poll .b0 .tx, .txByte .b0 0x0F, .poll .b0 .tx, .fieldWrite .b0 .tr false,
       .fieldWrite .b0 .txstt true, .fieldWrite .b0 .txstp true, .poll .b0 .rx, .rxPush .b0 0] := by decide
theorem test_irreg_count_zero_faults : (after (.irreg .b0 0x0F) (args 0x48 0)).fault.code = 9 := by decide
theorem test_irecv :
    let t := later 2 { (flagged .b1 .rx true).updCells .b1 (fun c => { c with rxbuf := 0x5A }) with progMain := [0x48300000] }
    (t.rings[1]?.map (fun r => r.buf.take 1), t.ifg .b1 .rx) = (some [0x5A], false) := by decide

theorem test_pinit :
    let t := later 5 { args 0x29 0 with progMain := [0x50100002] }
    ((t.cells .a1).ctl0, (t.cells .a1).br0, (t.cells .a1).br1, t.held .a1) = (0x29, 2, 0, false) := by decide
theorem test_psend : ((later 2 { flagged .a0 .tx true with progMain := [0x5100003C] }).cells .a0).txbuf = 0x3C := by decide
theorem test_psend_res :
    ((later 2 { (flagged .a0 .tx true).setRes 0x13C with progMain := [0x51010000] }).cells .a0).txbuf = 0x3C := by decide
theorem test_precv :
    (later 2 { (flagged .b1 .rx true).updCells .b1 (fun c => { c with rxbuf := 0x99 }) with progMain := [0x52300000] }).main.res =
      0x99 := by decide
theorem test_ploop : ((after (.ploop .a0 true) (enabled .a0)).cells .a0).stat = 0x80 := by decide
theorem test_pgloop : (after (.pgloop .a0) (after (.ploop .a0 true) State.reset)).main.res = 1 := by decide
theorem test_pgfe :
    (after (.pgfe .b0) (State.reset.updCells .b0 (fun c => { c with stat := 0x40 }))).main.res = 1 := by decide
theorem test_pgoe_after_overrun :
    (after (.pgoe .b0) (envStep (.rxByte .b0 2) (envStep (.rxByte .b0 1) (enabled .b0)))).main.res = 1 := by decide

theorem test_rins :
    (after (.rins 0 0x11) State.reset).rings[0]?.map (fun r => (r.buf.take 1, r.wr, r.rd, r.ovf)) = some ([0x11], 1, some 0, false) := by
  decide
theorem test_rins_res : (after (.rinsR 1) (State.reset.setRes 0x111)).rings[1]?.map (fun r => r.buf.take 1) = some [0x11] := by decide
theorem test_rget : (after (.rget 0) (after (.rins 0 0x11) State.reset)).main.res = 0x11 := by decide
theorem test_rget_never : (after (.rget 0) (State.reset.setRes 5)).main.res = 0 := by decide
theorem test_rempty : (after (.rempty 0) State.reset).main.res = 1 := by decide
theorem test_rovf :
    (after (.rovf 0) (State.reset.setRing 0 { Ring.reset 16 with ovf := true })).main.res = 1 := by decide
theorem test_rclrovf :
    (after (.rclrovf 0) (State.reset.setRing 0 { Ring.reset 16 with ovf := true })).rings[0]?.map Ring.ovf = some false := by decide
theorem test_rclr :
    (after (.rclr 2) (after (.rins 2 7) State.reset)).rings[2]?.map (fun r => (r.buf.take 1, r.wr, r.rd)) = some ([7], 0, none) := by
  decide

theorem test_interrupt_entry :
    let t := ({ State.reset with gie := true, progIsr := [0x0B000000], isr := { State.reset.isr with cp := 4 } } : State).interruptEntry
    (t.ctx, t.gie, t.isrGieSaved, t.isr.cp) = (.isr, false, true, 0) := by decide
theorem test_empty_program_faults : (later 1 State.reset).fault = { code := 1, cp := 0, ctx := .main, word := 0 } := by decide
theorem test_channel_counts :
    let wide := State.boot { Boot.default with params := { Params.default with nchA := 7 } }
    let odd := State.boot { Boot.default with params := { Params.default with nchA := 5 } }
    (wide.legal, wide.channelMissing 0 6, State.reset.channelMissing 0 3, odd.legal) = (true, false, true, false) := by decide
theorem test_capture :
    ((envStep (.capture 0 1 true) (after (.tcapm 0 1 .both false)
      (State.reset.updTimer 0 (fun t => { t with count := 0xBB8 })))).timerChan? 0 1).map (fun c => (c.value, c.cov)) =
      some (0xBB8, true) := by decide

/-! ### For each statement with hypotheses, a state and operands that meet them -/

/-- Reset in Main, with a command in progress. -/
def midway (s : State) (q : List MicroOp) : State := { s with progMain := [0], main := { s.main with useq := q } }

/-- Reset with ring buffer 0 as given. -/
def withRing (r : Ring) : State := State.reset.setRing 0 r

theorem runs_loaded : Runs (loaded [0]) := ⟨by decide, rfl⟩

theorem witness_DecodeEncodeRoundTrip : (Instr.swr .a1 .mctl 0xFF).wellFormed = true := by decide

theorem witness_EncodeDecodeRoundTrip : decode 0x4720000F = .ok (.irreg .b0 0x0F) := rfl

theorem witness_DecodableWordsMatchRows :
    (⟨"NOP", 0xFFFFFFFF#32, 0x00000000#32⟩ : OpRow) ∈ opRows ∧ OpRow.hits ⟨"NOP", 0xFFFFFFFF#32, 0x00000000#32⟩ 0 = true := by
  decide

theorem witness_ReservedWordsRaise :
    (AtFetch (loaded [0x70000000]) ∧ fetchWord (loaded [0x70000000]) = some 0x70000000 ∧
      ∀ r ∈ opRows, r.hits 0x70000000 = false) ∧
    (AtFetch (loaded [0x24020100]) ∧ fetchWord (loaded [0x24020100]) = some 0x24020100 ∧ valueReserved 0x24020100 = true) :=
  ⟨⟨⟨⟨by decide, rfl⟩, rfl, rfl⟩, rfl, by decide⟩, ⟨⟨⟨by decide, rfl⟩, rfl, rfl⟩, rfl, by decide⟩⟩

theorem witness_StepRunsFetchedCommand :
    let s := loaded [0x02102580]
    let u := { s with agenda := [Turn.sequencer] }
    (s.legal = true ∧ s.status = .running ∧ s.cur.useq = [] ∧ fetchWord s = some 0x02102580 ∧
      decode 0x02102580 = .ok (.ldlo .a1 9600) ∧ s.agenda = []) ∧
    (u.legal = true ∧ u.status = .running ∧ u.cur.useq = [] ∧ fetchWord u = some 0x02102580 ∧ u.agenda = .sequencer :: []) :=
  ⟨⟨by decide, rfl, rfl, rfl, rfl, rfl⟩, ⟨by decide, rfl, rfl, rfl, rfl⟩⟩

theorem witness_StepResumesCommandInProgress :
    let s := midway State.reset [.txByte .a0 1]
    let u := midway State.reset [.poll .a0 .tx, .txByte .a0 1]
    let v := { midway (enabled .a0) [.cellWrite .a0 .br1 0] with agenda := [Turn.sequencer, .interrupt] }
    (Runs s ∧ SequencerNext s ∧ ∃ s1, (MicroOp.txByte .a0 1).run s.spendTurn = .done s1) ∧
    (Runs u ∧ SequencerNext u ∧ (MicroOp.poll .a0 .tx).run u.spendTurn = .wait) ∧
    (Runs v ∧ SequencerNext v ∧ (MicroOp.cellWrite .a0 .br1 0).run v.spendTurn = .trap .configWhileEnabled) :=
  ⟨⟨⟨by decide, rfl⟩, rfl, _, rfl⟩, ⟨⟨by decide, rfl⟩, rfl, rfl⟩, ⟨⟨by decide, rfl⟩, rfl, rfl⟩⟩

theorem witness_FetchPastEndRaises :
    AtFetch State.reset ∧ (State.reset.prog State.reset.ctx).length ≤ State.reset.cur.cp := ⟨⟨⟨by decide, rfl⟩, rfl, rfl⟩, le_refl _⟩

theorem witness_FaultChangesNothingElse :
    let s := midway (enabled .a0) [.cellWrite .a0 .br1 0]
    (State.reset.status = .running ∧ ∃ t, exec .reti State.reset = .next t ∧ t.status = .faulted) ∧
    (SequencerNext (loaded [0x0B000000]) ∧ ∃ t, step (loaded [0x0B000000]) = .next t ∧ t.status = .faulted) ∧
    (SequencerNext s ∧ s.status = .running ∧ ∃ t, step s = .next t ∧ t.status = .faulted) :=
  ⟨⟨rfl, _, rfl, rfl⟩, ⟨rfl, _, rfl, rfl⟩, ⟨rfl, rfl, _, rfl, rfl⟩⟩

theorem witness_StoppedBlockStaysStopped :
    let s := { State.reset with status := .halted, agenda := [.env (.txReady .a0)] }
    s.status ≠ .running ∧ ∃ t, step s = .next t := ⟨by decide, _, rfl⟩

theorem witness_CommandKeepsOtherContext :
    let s := midway State.reset [.txByte .a0 1]
    (SequencerNext (loaded [0]) ∧ ∃ t, step (loaded [0]) = .next t) ∧ (SequencerNext s ∧ ∃ t, step s = .next t) ∧
    Ctx.isr ≠ (loaded [0]).ctx ∧ Ctx.isr ≠ s.ctx := ⟨⟨rfl, _, rfl⟩, ⟨rfl, _, rfl⟩, by decide, by decide⟩

theorem witness_MemoryByteCommandsComplete : Memory.wf ({ State.reset with dm := [(0xFFFF, 0x80)] } : State).dm = true := by decide

theorem witness_GuardCommandsComplete :
    ({ State.reset with main := { State.reset.main with gdepth := 254 } } : State).cur.gdepth < 255 ∧
    0 < ({ State.reset with main := { State.reset.main with gdepth := 1 } } : State).cur.gdepth := by decide

theorem witness_HaltAndRetiComplete :
    (State.reset.ctx = .main ∧ State.reset.main.gdepth = 0) ∧ (inIsr.ctx = .isr ∧ inIsr.isr.gdepth = 0) := by decide

theorem witness_ContextAndGuardFaults :
    let s : Nat → State := fun n => { State.reset with main := { State.reset.main with gdepth := n } }
    inIsr.ctx = .isr ∧ State.reset.ctx = .main ∧ ((s 1).ctx = .main ∧ 0 < (s 1).main.gdepth) ∧
    (let u := { inIsr with isr := { inIsr.isr with gdepth := 1 } }
     u.ctx = .isr ∧ 0 < u.isr.gdepth) ∧
    (s 255).cur.gdepth = 255 ∧ (s 0).cur.gdepth = 0 := by decide

theorem witness_TimerControlCommandsComplete : State.reset.timers[(1 : Fin 16).val]? = some (Timer.reset Params.default .b) := by decide

theorem witness_TimerChannelCommandsComplete :
    State.reset.timers[(1 : Fin 16).val]? = some (Timer.reset Params.default .b) ∧ (6 : Fin 16).val < State.reset.params.channels .b ∧
    (Timer.reset Params.default .b).chans[(6 : Fin 16).val]? = some TimerChan.reset := by decide

theorem witness_TimerIndexFaults :
    ((Instr.tmode 2 .up).timer? = some 2 ∧ State.reset.timers.length ≤ (2 : Fin 16).val) ∧
    ((Instr.tgetcap 0 3).timer? = some 0 ∧ State.reset.timers[(0 : Fin 16).val]? = some (Timer.reset Params.default .a) ∧
      (Instr.tgetcap 0 3).timerChannel? = some 3 ∧ State.reset.params.channels .a ≤ (3 : Fin 16).val) := by decide

theorem witness_EnableCompletes : State.reset.chanAbsent .b1 = false := by decide

theorem witness_DisableCompletes :
    (enabled .b1).chanAbsent .b1 = false ∧ (enabled .b1).params.fieldPos.legal = true ∧
    (enabled .b1).params.irqBits.legal = true := by decide

theorem witness_IrqBitCommandsComplete : State.reset.chanAbsent .a1 = false ∧ State.reset.params.irqBits.legal = true := by decide

theorem witness_PlainCellWriteCompletes :
    (State.reset.chanAbsent .a0 = false ∧ (Instr.swr .a0 .mctl 0xFF).wellFormed = true ∧
      Role.mctl ∈ [Role.ctl0, .br0, .br1, .mctl, .i2coa, .i2csa, .i2cie] ∧ Role.mctl.hasCell Chan.a0.kind = true ∧
      (Role.mctl.isConfig = true → State.reset.held .a0 = true)) ∧
    ((enabled .b1).chanAbsent .b1 = false ∧ (Instr.swr .b1 .i2csa 0xFFFF).wellFormed = true ∧
      Role.i2csa ∈ [Role.ctl0, .br0, .br1, .mctl, .i2coa, .i2csa, .i2cie] ∧ Role.i2csa.hasCell Chan.b1.kind = true ∧
      (Role.i2csa.isConfig = true → (enabled .b1).held .b1 = true)) := by decide

theorem witness_SideEffectCellWritesComplete :
    (State.reset.chanAbsent .a0 = false ∧ State.reset.params.fieldPos.legal = true ∧ State.reset.params.irqBits.legal = true) ∧
    ((Instr.swr .a0 .i2csa 0xFFFF).wellFormed = true ∧ Role.i2csa.hasCell Chan.a0.kind = false) ∧
    (Instr.swr .a0 .rxbuf 0xFF).wellFormed = true ∧ (Instr.swr .a0 .stat 0xFF).wellFormed = true ∧
    (Instr.swr .a0 .txbuf 0xFF).wellFormed = true ∧
    ((Instr.swr .a0 .ctl1 0xFE).wellFormed = true ∧ (0xFE : Half).getLsbD State.reset.params.fieldPos.swrst = false) ∧
    ((Instr.swr .a0 .ctl1 0x01).wellFormed = true ∧ (0x01 : Half).getLsbD State.reset.params.fieldPos.swrst = true) := by decide

theorem witness_CellReadCompletes :
    (State.reset.chanAbsent .b1 = false ∧ State.reset.params.irqBits.legal = true) ∧ Role.i2csa.hasCell Chan.b1.kind = true ∧
    Role.mctl.hasCell Chan.b1.kind = false ∧ Role.ctl0 ≠ .rxbuf := by decide

theorem witness_ConfigWriteWhileEnabledFaults :
    let s := enabled .a0
    let u := (s.setArg .a0 1000000).setArg .a1 9600
    (s.chanAbsent .a0 = false ∧ s.held .a0 = false) ∧
    ((Instr.swr .a0 .mctl 0xFF).wellFormed = true ∧ Role.mctl.hasCell Chan.a0.kind = true ∧
      Role.mctl ∈ [Role.ctl0, .br0, .br1, .mctl]) ∧
    (u.chanAbsent .a0 = false ∧ u.held .a0 = false ∧ Chan.a0.kind = .a ∧ u.cur.arg0 ≠ 0 ∧ u.cur.arg1 ≠ 0 ∧
      (baudOf u.cur.arg0.toNat u.cur.arg1.toNat true).br ≤ 65535) := by decide

theorem witness_ChannelInstanceFaults :
    let s := { State.reset with params := { State.reset.params with serialPresent := [.a0] } }
    ((Instr.sena .b0).serialChannel? = some .b0 ∧ (Instr.sena .b0).wellFormed = true ∧ s.chanAbsent .b0 = true) ∧
    ((Instr.istt .a0).serialChannel? = some .a0 ∧ (Instr.istt .a0).kindNeeded = some .b ∧ Chan.a0.kind ≠ .b) ∧
    ((Instr.bset .b0 true).serialChannel? = some .b0 ∧ (Instr.bset .b0 true).kindNeeded = some .a ∧ Chan.b0.kind ≠ .a) := by
  decide

theorem witness_BaudMatchesExactRationals :
    (0 < 16000000 ∧ 0 < 1000000 ∧ true = true ∧ (16 : ℚ) ≤ ((16000000 : Nat) : ℚ) / (1000000 : Nat)) ∧
    ¬ (true = true ∧ (16 : ℚ) ≤ ((15999999 : Nat) : ℚ) / (1000000 : Nat)) := by norm_num

theorem witness_BaudCalculationCompletes :
    let s := args 65535 1
    s.cur.arg0 ≠ 0 ∧ s.cur.arg1 ≠ 0 ∧ (baudOf s.cur.arg0.toNat s.cur.arg1.toNat false).br ≤ 65535 := by decide

theorem witness_BaudOperandFaults :
    let s := args 65536 1
    let i := Instr.bset .a0 false
    (i = .bcalc false ∨ ∃ ch : Chan, s.chanAbsent ch = false ∧ ch.kind = .a ∧ i = .bset ch false) ∧
    (Instr.bcalc true = .bcalc true ∨
      ∃ ch : Chan, s.chanAbsent ch = false ∧ ch.kind = .a ∧ Instr.bcalc true = .bset ch true) ∧
    ((args 0 9600).cur.arg0 = 0 ∧ (args 1 0).cur.arg1 = 0) ∧
    (s.cur.arg0 ≠ 0 ∧ s.cur.arg1 ≠ 0 ∧ 65535 < (baudOf s.cur.arg0.toNat s.cur.arg1.toNat false).br) :=
  ⟨.inr ⟨.a0, by decide, rfl, rfl⟩, .inl rfl, by decide, by decide⟩

theorem witness_BaudSetCompletes :
    let s := args 16000000 115200
    Runs s ∧ s.chanAbsent .a0 = false ∧ Chan.a0.kind = .a ∧ s.held .a0 = true ∧ s.cur.arg0 ≠ 0 ∧ s.cur.arg1 ≠ 0 ∧
    (baudOf s.cur.arg0.toNat s.cur.arg1.toNat true).br ≤ 65535 :=
  ⟨⟨by decide, rfl⟩, by decide, rfl, by decide, by decide, by decide, by decide⟩

theorem witness_PrepareCommandsComplete : Runs (loaded [0]) ∧ (loaded [0]).chanAbsent .b0 = false ∧ Chan.b0.kind = .b :=
  ⟨runs_loaded, by decide, rfl⟩

theorem witness_StartStopCommandsComplete :
    State.reset.chanAbsent .b1 = false ∧ Chan.b1.kind = .b ∧ State.reset.params.fieldPos.legal = true := by decide

theorem witness_SendCommandsCompleteOrWait :
    (Runs (flagged .b0 .tx true) ∧ (flagged .b0 .tx true).chanAbsent .b0 = false ∧
      (Instr.isend .b0 7, (7 : Byte)) ∈ sendCommands .b0 7 (flagged .b0 .tx true) ∧ (flagged .b0 .tx true).ifg .b0 .tx = true) ∧
    (Runs State.reset ∧ (Instr.psend .a0 7, (7 : Byte)) ∈ sendCommands .a0 7 State.reset ∧
      State.reset.ifg .a0 .tx = false) :=
  ⟨⟨⟨by decide, rfl⟩, by decide, by decide, by decide⟩, ⟨⟨by decide, rfl⟩, by decide, by decide⟩⟩

/-- The three ways a shared access can pass: from Isr, from Main unguarded, from Main guarded. -/
theorem witness_Shares :
    Shares inIsr (Ring.reset 16) { Ring.reset 16 with isrSeen := true } ∧
    Shares { State.reset with gie := true } (Ring.reset 16) { Ring.reset 16 with mainUnguarded := true } ∧
    Shares State.reset { Ring.reset 16 with isrSeen := true } { Ring.reset 16 with isrSeen := true } :=
  ⟨⟨by decide, by decide, by decide⟩, ⟨by decide, by decide, by decide⟩, ⟨by decide, by decide, by decide⟩⟩

theorem shares_reset : Shares State.reset (Ring.reset 16) (Ring.reset 16) := ⟨by decide, by decide, by decide⟩

theorem witness_ReceiveCommandsCompleteOrWait :
    (Runs (flagged .b0 .rx true) ∧ (flagged .b0 .rx true).chanAbsent .b0 = false ∧ (flagged .b0 .rx true).ifg .b0 .rx = true ∧
      Chan.b0.kind = .b ∧ (flagged .b0 .rx true).rings[(flagged .b0 .rx true).i2cRb .b0]? = some (Ring.reset 16) ∧
      Shares (flagged .b0 .rx true) (Ring.reset 16) (Ring.reset 16)) ∧
    (Runs State.reset ∧ State.reset.ifg .b0 .rx = false) :=
  ⟨⟨⟨by decide, rfl⟩, by decide, by decide, rfl, by decide, ⟨by decide, by decide, by decide⟩⟩, ⟨by decide, rfl⟩, by decide⟩

theorem witness_RegisterTransactionsBegin :
    (State.reset.chanAbsent .b0 = false ∧ Chan.b0.kind = .b ∧ State.reset.params.fieldPos.legal = true ∧
      State.reset.params.irqBits.legal = true) ∧
    1 ≤ (((args 0x48 1).cur.arg1).extractLsb' 0 16).toNat ∧ (((args 0x48 0x10000).cur.arg1).extractLsb' 0 16).toNat = 0 := by decide

theorem witness_RegisterWriteSendsBytesInOrder :
    (Runs (args 0x48 2) ∧ (args 0x48 2).chanAbsent .b0 = false ∧ Chan.b0.kind = .b ∧
      1 ≤ ((args 0x48 2).cur.arg1.extractLsb' 0 16).toNat) ∧
    (Runs (args 0x48 0) ∧ (args 0x48 0).chanAbsent .b0 = false ∧ ((args 0x48 0).cur.arg1.extractLsb' 0 16).toNat = 0) :=
  ⟨⟨⟨by decide, rfl⟩, by decide, rfl, by decide⟩, ⟨by decide, rfl⟩, by decide, by decide⟩

theorem witness_RegisterReadPushesBytesInOrder :
    let s := args 0x48 3
    let u := { args 0x48 1 with gie := true }
    (Runs s ∧ s.chanAbsent .b0 = false ∧ Chan.b0.kind = .b ∧
      (s.cur.arg1.extractLsb' 0 16).toNat = [(0x5A : Byte), 0x5B].length + 1 ∧
      s.rings[s.i2cRb .b0]? = some (Ring.reset 16) ∧ Shares s (Ring.reset 16) (Ring.reset 16)) ∧
    (Runs u ∧ u.chanAbsent .b0 = false ∧ (u.cur.arg1.extractLsb' 0 16).toNat = ([] : List Byte).length + 1 ∧
      u.rings[u.i2cRb .b0]? = some (Ring.reset 16) ∧ Shares u (Ring.reset 16) { Ring.reset 16 with mainUnguarded := true }) :=
  ⟨⟨⟨by decide, rfl⟩, by decide, rfl, by decide, by decide, ⟨by decide, by decide, by decide⟩⟩,
   ⟨by decide, rfl⟩, by decide, by decide, by decide, ⟨by decide, by decide, by decide⟩⟩

theorem witness_SpiInitCompletes : Runs (loaded [0]) ∧ (loaded [0]).chanAbsent .a1 = false := ⟨runs_loaded, by decide⟩

theorem witness_StatusBitAccessorsComplete :
    State.reset.chanAbsent .a0 = false ∧ State.reset.params.fieldPos.legal = true := by decide

theorem witness_RingInsertsComplete :
    State.reset.rings[(3 : Fin 16).val]? = some (Ring.reset 16) ∧ Shares State.reset (Ring.reset 16) (Ring.reset 16) ∧
    Inserted (Ring.reset 16) 0x11 ((Ring.reset 16).insert 0x11) ∧ Inserted (Ring.reset 16) 0 ((Ring.reset 16).insert 0) :=
  ⟨by decide, shares_reset, rfl, rfl⟩

theorem witness_RingReadsAndClearsComplete :
    let r := (Ring.reset 16).insert 0x11
    (State.reset.rings[(0 : Fin 16).val]? = some (Ring.reset 16) ∧ Shares State.reset (Ring.reset 16) (Ring.reset 16) ∧
      (Ring.reset 16).rd = none) ∧
    ((withRing r).rings[(0 : Fin 16).val]? = some r ∧ Shares (withRing r) r r ∧ r.rd = some 0 ∧ r.buf[0]? = some 0x11) :=
  ⟨⟨by decide, shares_reset, rfl⟩, ⟨by decide, ⟨by decide, by decide, by decide⟩, by decide, by decide⟩⟩

theorem witness_RingAccessFaults :
    let r := { Ring.reset 16 with mainUnguarded := true }
    let s := { withRing r with ctx := .isr }
    let q := { Ring.reset 16 with isrSeen := true }
    let u := { withRing q with gie := true }
    ((Instr.rget 0).ring? = some 0 ∧ s.rings[(0 : Fin 16).val]? = some r ∧ Unshared s r ∧ s.rings[s.i2cRb .b0]? = some r) ∧
    (u.rings[(0 : Fin 16).val]? = some q ∧ Unshared u q) ∧
    ((Instr.rget 4).ring? = some 4 ∧ State.reset.rings.length ≤ (4 : Fin 16).val) :=
  ⟨⟨rfl, by decide, .inl ⟨rfl, rfl⟩, by decide⟩, ⟨by decide, .inr ⟨rfl, rfl, rfl⟩⟩, rfl, by decide⟩

theorem witness_RingCapacityConsequences :
    (Cleared 2 (Ring.reset 2) ∧ 1 ≤ 2 ∧ 1 ≤ [(7 : Byte)].length ∧ [(7 : Byte)].length < 2) ∧
    (Cleared 1 (Ring.reset 1) ∧ 1 ≤ [(7 : Byte)].length ∧ [(7 : Byte)].length = 1) :=
  ⟨⟨⟨rfl, rfl, rfl, rfl⟩, by decide, by decide, by decide⟩, ⟨rfl, rfl, rfl, rfl⟩, by decide, rfl⟩

/-- Reset with interrupts enabled, an interrupt program of one RETI and an entry next. -/
def aboutToEnter : State := { State.reset with gie := true, progIsr := [0x0B000000], agenda := [.interrupt, .sequencer] }

theorem witness_InterruptEntryEffect :
    (aboutToEnter.legal = true ∧ aboutToEnter.agenda = .interrupt :: [.sequencer] ∧ aboutToEnter.status = .running ∧
      aboutToEnter.ctx = .main ∧ aboutToEnter.gie = true ∧ aboutToEnter.progIsr ≠ []) ∧
    (let s := { aboutToEnter with gie := false }
     s.legal = true ∧ s.agenda = .interrupt :: [.sequencer] ∧
      ¬ (s.status = .running ∧ s.ctx = .main ∧ s.gie = true ∧ s.progIsr ≠ [])) := by decide

theorem witness_InterruptThenRetiResumesMain :
    aboutToEnter.legal = true ∧ aboutToEnter.status = .running ∧ aboutToEnter.ctx = .main ∧ aboutToEnter.gie = true ∧
    aboutToEnter.progIsr[0]? = some 0x0B000000 ∧ aboutToEnter.agenda = .interrupt :: .sequencer :: [] := by decide

theorem witness_ContextChangesOnlyByEntryAndReti :
    (aboutToEnter.inv = true ∧ ∃ t, step aboutToEnter = .next t ∧ t.ctx ≠ aboutToEnter.ctx) ∧
    (inIsr.inv = true ∧ ∃ t, step inIsr = .next t ∧ t.ctx ≠ inIsr.ctx) :=
  ⟨⟨by decide, _, rfl, by decide⟩, ⟨by decide, _, rfl, by decide⟩⟩

theorem witness_HaltedOnlyByHaltInMain :
    let s := loaded [0x01000000]
    s.inv = true ∧ ∃ t, step s = .next t ∧ s.status = .running ∧ t.status = .halted := ⟨by decide, _, rfl, rfl, by decide⟩

theorem witness_GieChangesOnlyByItsWriters :
    let s := loaded [0x09000000]
    s.inv = true ∧ ∃ t, step s = .next t ∧ t.gie ≠ s.gie := ⟨by decide, _, rfl, by decide⟩

theorem witness_EnvironmentChangesOnlyItsOwn :
    (enabled .b0).params.irqBits.legal = true ∧ (enabled .b0).params.fieldPos.legal = true ∧
    (envStep (.txReady .b0) (enabled .b0)).ifg .b0 .tx = true := by decide

theorem witness_EnvironmentStepEffects :
    let s := after (.tcapm 0 1 .both false) (after (.tmode 0 .up) (enabled .b0))
    (s.params.irqBits.legal = true ∧ s.params.fieldPos.legal = true) ∧ State.reset.held .b0 = true ∧
    (s.chanAbsent .b0 = false ∧ s.held .b0 = false ∧ Chan.b0.kind = .b) ∧
    ((enabled .a0).chanAbsent .a0 = false ∧ (enabled .a0).held .a0 = false ∧ Chan.a0.kind = .a) ∧
    (s.timers[0]?.map Timer.mode = some .up ∧ (s.timerChan? 0 1).map TimerChan.cm = some .both) ∧
    (State.reset.timers[0]?.map Timer.mode = some .stop ∧ (State.reset.timerChan? 0 1).map TimerChan.cm = some .none) := by decide

theorem witness_ConfigCellsChangeOnlyWhileHeld :
    let s := loaded [0x24020068]
    ∃ t, step s = .next t ∧ Role.br0 ∈ [Role.ctl0, .br0, .br1, .mctl] ∧ Role.br0.hasCell Chan.a0.kind = true ∧
      t.cellValue .a0 .br0 ≠ s.cellValue .a0 .br0 := ⟨_, rfl, by decide, by decide, by decide⟩

theorem witness_MemoryChangesOnlyByStb :
    let s := (loaded [0x05300200]).setArg .a3 0x1234
    s.inv = true ∧ ∃ t, step s = .next t ∧ t.readByte 0x200 ≠ s.readByte 0x200 := ⟨by decide, _, rfl, by decide⟩

theorem witness_StepKeepsConfiguration : ∃ t, step (loaded [0]) = .next t := ⟨_, rfl⟩

theorem witness_StepKeepsInvariant : (loaded [0]).inv = true ∧ ∃ t, step (loaded [0]) = .next t := ⟨by decide, _, rfl⟩

theorem witness_ResetValues : Boot.default.params.fieldPos = FieldPos.default := rfl

theorem witness_ResetMeetsInvariant : (State.boot Boot.default).legal = true ∧ Memory.wf Boot.default.dmInit = true := by decide

end Sys2Proof.Tests
end

section
/-! SUPPORT. PROOFS. A word that decodes matches a row of the operation map and is not value-reserved; a word that does not
decode raises RESERVED_ENCODING at its fetch (30_encoding.md). -/

open Sys2Proof.Machine

namespace Sys2Proof.Encoding

/-! ### A word and its fields (R141) -/

/-- The fields hold every bit of the word. -/
theorem toWord_ofWord (w : Word) : (Fields.ofWord w).toWord = w := by
  simp only [Fields.ofWord, Fields.toWord]
  rw [BitVec.extractLsb'_append_extractLsb'_eq_extractLsb' (show 16 = 0 + 16 from rfl),
    BitVec.extractLsb'_append_extractLsb'_eq_extractLsb' (show 20 = 0 + 20 from rfl),
    BitVec.extractLsb'_append_extractLsb'_eq_extractLsb' (show 24 = 0 + 24 from rfl),
    BitVec.extractLsb'_append_extractLsb'_eq_extractLsb' (show 28 = 0 + 28 from rfl), BitVec.extractLsb'_eq_self]

/-- Masking a word masks each of its fields. -/
theorem ofWord_and (w m : Word) :
    Fields.ofWord (w &&& m) =
      { u := (Fields.ofWord w).u &&& (Fields.ofWord m).u, op := (Fields.ofWord w).op &&& (Fields.ofWord m).op,
        x := (Fields.ofWord w).x &&& (Fields.ofWord m).x, y := (Fields.ofWord w).y &&& (Fields.ofWord m).y,
        imm := (Fields.ofWord w).imm &&& (Fields.ofWord m).imm } := by
  simp [Fields.ofWord, BitVec.extractLsb'_and]

/-! ### The zero bits of a field, as the decoder and as the table's masks say them (R143) -/

theorem xHigh_eq_zero (f : Fields) : f.xHigh = 0#2 ↔ f.x &&& 12#4 = 0#4 := by
  have all : ∀ x : BitVec 4, x.extractLsb' 2 2 = 0#2 ↔ x &&& 12#4 = 0#4 := by decide
  exact all f.x

theorem yHigh_eq_zero (f : Fields) : f.yHigh = 0#3 ↔ f.y &&& 14#4 = 0#4 := by
  have all : ∀ y : BitVec 4, y.extractLsb' 1 3 = 0#3 ↔ y &&& 14#4 = 0#4 := by decide
  exact all f.y

theorem y_eq_zero_iff (f : Fields) : f.y = 0#4 ↔ f.y &&& 14#4 = 0#4 ∧ f.yBit = false := by
  have all : ∀ y : BitVec 4, y = 0#4 ↔ y &&& 14#4 = 0#4 ∧ y.getLsbD 0 = false := by decide
  exact all f.y

theorem y_eq_one_iff (f : Fields) : f.y = 1#4 ↔ f.y &&& 14#4 = 0#4 ∧ f.yBit = true := by
  have all : ∀ y : BitVec 4, y = 1#4 ↔ y &&& 14#4 = 0#4 ∧ y.getLsbD 0 = true := by decide
  exact all f.y

/-- IMM from bit lo on is zero when the mask of these bits finds none. -/
theorem immBits_eq_zero (f : Fields) {lo len : Nat} (h : lo + len = 16) :
    f.immBits lo len = 0#len ↔ f.imm &&& (BitVec.allOnes 16 <<< lo) = 0#16 := by
  unfold Fields.immBits
  constructor <;> intro hz <;> ext i hi
  · by_cases hl : i < lo
    · simp [hl]
    · have bit := congrArg (fun v => v.getLsbD (i - lo)) hz
      have hlt : i - lo < len := by omega
      have hsum : lo + (i - lo) = i := by omega
      simpa [hl, hi, hlt, hsum, -BitVec.reduceAllOnes] using bit
  · have bit := congrArg (fun v => v.getLsbD (lo + i)) hz
    have hlt : lo + i < 16 := by omega
    simpa [hi, hlt, -BitVec.reduceAllOnes] using bit

/-- IMM[15:8] is zero exactly when IMM holds a byte (R149). -/
theorem immHigh_eq_zero (f : Fields) : f.immBits 8 8 = 0#8 ↔ f.imm.toNat < 256 := by
  unfold Fields.immBits
  rw [← BitVec.toNat_inj]
  simp [BitVec.extractLsb'_toNat, Nat.shiftRight_eq_div_pow]
  omega

/-! ### Which rows of the operation map a word matches (R143, R148) -/

/-- The rows of operation `op` of unit `u`. -/
def rowsAt (u op : Nat) : List OpRow :=
  opRows.filter fun r => (Fields.ofWord r.value).u.toNat == u && (Fields.ofWord r.value).op.toNat == op

/-- Below the operation, the masked fields are the row's. -/
def OperandsMatch (r : OpRow) (f : Fields) : Prop :=
  f.x &&& (Fields.ofWord r.mask).x = (Fields.ofWord r.value).x ∧
  f.y &&& (Fields.ofWord r.mask).y = (Fields.ofWord r.value).y ∧
  f.imm &&& (Fields.ofWord r.mask).imm = (Fields.ofWord r.value).imm

/-- Every row fixes all bits of U and OP (R143). -/
theorem mask_unit_operation {r : OpRow} (hr : r ∈ opRows) :
    (Fields.ofWord r.mask).u = 15#4 ∧ (Fields.ofWord r.mask).op = 15#4 := by
  have all : ∀ r ∈ opRows, (Fields.ofWord r.mask).u = 15#4 ∧ (Fields.ofWord r.mask).op = 15#4 := by decide
  exact all r hr

/-- The mask of a whole 4-bit field keeps it; `BitVec.and_allOnes` for the numeral of a row. -/
@[simp] theorem and_fifteen (v : BitVec 4) : v &&& 15#4 = v := BitVec.and_allOnes

/-- The mask of all of IMM keeps it; `BitVec.and_allOnes` for the numeral of a row. -/
@[simp] theorem and_ffff (v : Half) : v &&& 65535#16 = v := BitVec.and_allOnes

/-- The fields match a row of their unit and operation. -/
def HasRow (f : Fields) : Prop := ∃ r ∈ rowsAt f.u.toNat f.op.toNat, OperandsMatch r f

theorem hasRow_of {f : Fields} {u op : Nat} (hu : f.u.toNat = u) (hop : f.op.toNat = op)
    (h : ∃ r ∈ rowsAt u op, OperandsMatch r f) : HasRow f := by
  rw [HasRow, hu, hop]
  exact h

/-- A word whose fields match a row is hit by a row of the operation map. -/
theorem exists_hit_of_hasRow {w : Word} (h : HasRow (Fields.ofWord w)) : ∃ r ∈ opRows, r.hits w = true := by
  obtain ⟨r, hr, hx, hy, himm⟩ := h
  simp only [rowsAt, List.mem_filter, Bool.and_eq_true, beq_iff_eq, BitVec.toNat_inj] at hr
  obtain ⟨hr, hu, hop⟩ := hr
  obtain ⟨hmu, hmop⟩ := mask_unit_operation hr
  have hfields : Fields.ofWord (w &&& r.mask) = Fields.ofWord r.value := by
    simp [ofWord_and, hmu, hmop, ← hu, ← hop, hx, hy, himm]
  refine ⟨r, hr, ?_⟩
  rw [OpRow.hits, beq_iff_eq, ← toWord_ofWord (w &&& r.mask), hfields, toWord_ofWord]

/-! ### The decoder of each unit accepts only fields that match a row -/

/-- The zero check passes only with its bits zero. -/
theorem zeros_ok {ok : Bool} {i j : Instr} (h : zeros ok j = .ok i) : ok = true := by
  cases ok with
  | true => rfl
  | false => cases h

section
variable {f : Fields} {i : Instr}

theorem decodeControl_hasRow (hu : f.u.toNat = 0) (h : decodeControl f = .ok i) : HasRow f := by
  unfold decodeControl at h
  split at h
  case h_16 => cases h
  all_goals
    refine hasRow_of hu (by assumption) ⟨_, .head _, ?_⟩
    simpa [OperandsMatch, Fields.ofWord, xHigh_eq_zero, and_assoc] using zeros_ok h

theorem decodeTimer_hasRow (hu : f.u.toNat = 1) (h : decodeTimer f = .ok i) : HasRow f := by
  unfold decodeTimer at h
  split at h
  case h_12 => cases h
  case h_7 hop => exact hasRow_of hu hop ⟨_, .head _, by simp [OperandsMatch, Fields.ofWord]⟩
  all_goals
    refine hasRow_of hu (by assumption) ⟨_, .head _, ?_⟩
    simpa [OperandsMatch, Fields.ofWord, immBits_eq_zero] using zeros_ok h

/-- SWR and SRD need X[3:2] zero, and SRD IMM too, before their role is looked at. -/
theorem decodeSerial_hasRow (hu : f.u.toNat = 2) (h : decodeSerial f = .ok i) : HasRow f := by
  unfold decodeSerial at h
  split at h
  case h_7 => cases h
  case h_5 hop | h_6 hop =>
    split at h
    · rename_i hzero
      refine hasRow_of hu hop ⟨_, .head _, ?_⟩
      simpa [OperandsMatch, Fields.ofWord, xHigh_eq_zero] using hzero
    · cases h
  all_goals
    refine hasRow_of hu (by assumption) ⟨_, .head _, ?_⟩
    simpa [OperandsMatch, Fields.ofWord, xHigh_eq_zero, yHigh_eq_zero, immBits_eq_zero, and_assoc] using zeros_ok h

theorem decodeBaud_hasRow (hu : f.u.toNat = 3) (h : decodeBaud f = .ok i) : HasRow f := by
  unfold decodeBaud at h
  split at h
  case h_3 => cases h
  all_goals
    refine hasRow_of hu (by assumption) ⟨_, .head _, ?_⟩
    simpa [OperandsMatch, Fields.ofWord, xHigh_eq_zero, yHigh_eq_zero, and_assoc] using zeros_ok h

/-- ISEND and ISEND.R share their operation: bit 0 of Y tells them apart. -/
theorem decodeI2c_hasRow (hu : f.u.toNat = 4) (h : decodeI2c f = .ok i) : HasRow f := by
  unfold decodeI2c at h
  split at h
  case h_10 => cases h
  case h_6 hop =>
    split at h <;> rename_i hbit
    · refine hasRow_of hu hop ⟨_, .tail _ (.head _), ?_⟩
      simpa [OperandsMatch, Fields.ofWord, xHigh_eq_zero, yHigh_eq_zero, y_eq_one_iff, hbit, and_assoc] using zeros_ok h
    · refine hasRow_of hu hop ⟨_, .head _, ?_⟩
      simpa [OperandsMatch, Fields.ofWord, xHigh_eq_zero, yHigh_eq_zero, immBits_eq_zero, y_eq_zero_iff, hbit, and_assoc]
        using zeros_ok h
  all_goals
    refine hasRow_of hu (by assumption) ⟨_, .head _, ?_⟩
    simpa [OperandsMatch, Fields.ofWord, xHigh_eq_zero, yHigh_eq_zero, immBits_eq_zero, and_assoc] using zeros_ok h

/-- PSEND and PSEND.R share their operation: bit 0 of Y tells them apart. -/
theorem decodeSpi_hasRow (hu : f.u.toNat = 5) (h : decodeSpi f = .ok i) : HasRow f := by
  unfold decodeSpi at h
  split at h
  case h_8 => cases h
  case h_2 hop =>
    split at h <;> rename_i hbit
    · refine hasRow_of hu hop ⟨_, .tail _ (.head _), ?_⟩
      simpa [OperandsMatch, Fields.ofWord, xHigh_eq_zero, yHigh_eq_zero, y_eq_one_iff, hbit, and_assoc] using zeros_ok h
    · refine hasRow_of hu hop ⟨_, .head _, ?_⟩
      simpa [OperandsMatch, Fields.ofWord, xHigh_eq_zero, yHigh_eq_zero, immBits_eq_zero, y_eq_zero_iff, hbit, and_assoc]
        using zeros_ok h
  all_goals
    refine hasRow_of hu (by assumption) ⟨_, .head _, ?_⟩
    simpa [OperandsMatch, Fields.ofWord, xHigh_eq_zero, immBits_eq_zero, and_assoc] using zeros_ok h

/-- RINS and RINS.R share their operation: bit 0 of Y tells them apart. -/
theorem decodeRing_hasRow (hu : f.u.toNat = 6) (h : decodeRing f = .ok i) : HasRow f := by
  unfold decodeRing at h
  split at h
  case h_7 => cases h
  case h_1 hop =>
    split at h <;> rename_i hbit
    · refine hasRow_of hu hop ⟨_, .tail _ (.head _), ?_⟩
      simpa [OperandsMatch, Fields.ofWord, yHigh_eq_zero, y_eq_one_iff, hbit] using zeros_ok h
    · refine hasRow_of hu hop ⟨_, .head _, ?_⟩
      simpa [OperandsMatch, Fields.ofWord, yHigh_eq_zero, immBits_eq_zero, y_eq_zero_iff, hbit] using zeros_ok h
  all_goals
    refine hasRow_of hu (by assumption) ⟨_, .head _, ?_⟩
    simpa [OperandsMatch, Fields.ofWord] using zeros_ok h

theorem decodeFields_hasRow (h : decodeFields f = .ok i) : HasRow f := by
  unfold decodeFields at h
  split at h
  case h_1 hu => exact decodeControl_hasRow hu h
  case h_2 hu => exact decodeTimer_hasRow hu h
  case h_3 hu => exact decodeSerial_hasRow hu h
  case h_4 hu => exact decodeBaud_hasRow hu h
  case h_5 hu => exact decodeI2c_hasRow hu h
  case h_6 hu => exact decodeSpi_hasRow hu h
  case h_7 hu => exact decodeRing_hasRow hu h
  case h_8 => cases h

end

/-! ### Reserved words are no commands (R148, R149) -/

/-- A word that decodes matches a row of the operation map (R148). -/
theorem exists_hit_of_decode {w : Word} {i : Instr} (h : decode w = .ok i) : ∃ r ∈ opRows, r.hits w = true :=
  exists_hit_of_hasRow (decodeFields_hasRow h)

/-- SWR and SRD with a role code 11 to 15 are no commands (R149). -/
theorem decodeSerial_reservedRole {f : Fields} (hop : f.op = 4#4 ∨ f.op = 5#4) (hrole : Role.ofCode? f.y = none) :
    ∃ e, decodeSerial f = .error e := by
  obtain hop | hop := hop
  all_goals
    simp only [decodeSerial, hop, hrole, BitVec.toNat_ofNat, Nat.reducePow, Nat.reduceMod]
    split <;> exact ⟨_, rfl⟩

/-- SWR to a byte role with a one in IMM[15:8] is no command (R149). -/
theorem decodeSerial_wideImmediate {f : Fields} {role : Role} (hop : f.op = 4#4) (hrole : Role.ofCode? f.y = some role)
    (hbyte : role.isByte = true) (himm : f.immBits 8 8 ≠ 0#8) : ∃ e, decodeSerial f = .error e := by
  have hwide : ¬ f.imm.toNat < 256 := fun hlt => himm ((immHigh_eq_zero f).mpr hlt)
  simp only [decodeSerial, hop, hrole, hbyte, hwide, BitVec.toNat_ofNat, Nat.reducePow, Nat.reduceMod, decide_false,
    Bool.not_false, Bool.and_self, if_true]
  split <;> exact ⟨_, rfl⟩

/-- A word of unit 2 is decoded as a serial command (R143). -/
theorem decode_unit_two {w : Word} (hu : (Fields.ofWord w).u = 2#4) : decode w = decodeSerial (Fields.ofWord w) := by
  simp [decode, decodeFields, hu]

/-- A value-dependent reserved form does not decode (R149). -/
theorem decode_valueReserved {w : Word} (h : valueReserved w = true) : ∃ e, decode w = .error e := by
  simp only [valueReserved, Bool.or_eq_true, Bool.and_eq_true, beq_iff_eq, bne_iff_ne, Option.isNone_iff_eq_none,
    Option.map_eq_some_iff] at h
  obtain ⟨⟨hu, hop⟩, hrole⟩ | ⟨⟨⟨hu, hop⟩, role, hrole, hbyte⟩, himm⟩ := h
  · rw [decode_unit_two hu]
    exact decodeSerial_reservedRole hop hrole
  · rw [decode_unit_two hu]
    exact decodeSerial_wideImmediate hop hrole hbyte himm

/-- A word that matches no row, or is a value-dependent reserved form, does not decode (R148, R149). -/
theorem decode_reserved {w : Word} (h : (∀ r ∈ opRows, r.hits w = false) ∨ valueReserved w = true) :
    ∃ e, decode w = .error e := by
  obtain hnone | hvalue := h
  · cases hd : decode w with
    | error e => exact ⟨e, rfl⟩
    | ok i =>
      obtain ⟨r, hr, hhit⟩ := exists_hit_of_decode hd
      exact absurd hhit (by simp [hnone r hr])
  · exact decode_valueReserved hvalue

/-! ### The fetch of a word that does not decode (R43, R148, R149) -/

/-- At a fetch the block's step begins the command, with the turn spent. -/
theorem step_of_atFetch {s : State} (h : AtFetch s) : step s = beginCommand s.spendTurn := by
  have hturn : s.nextTurn = .sequencer := h.turn
  simp [step, takeTurn, sequencerStep, h.legal, h.running, h.idle, hturn]

/-- The fetch of a word that does not decode raises RESERVED_ENCODING for that word. -/
theorem beginCommand_of_decode_error {s : State} {w : Word} {e : Reject} (hw : fetchWord s = some w)
    (hd : decode w = .error e) : beginCommand s = .next (s.raise .reservedEncoding w) := by
  simp [beginCommand, hw, hd]

/-- `raise` changes what a fault changes, and nothing else (R600). -/
theorem raises_raise (s : State) (tr : Trap) (w : Word) : Raises tr w s (s.raise tr w) := rfl

/-- Settles O5: by the operation map a reserved word does not decode, and at its fetch the step is that of a word that does not. -/
theorem reservedWordsRaise : Obligations.ReservedWordsRaise := by
  intro s w hs hw hreserved
  obtain ⟨e, hd⟩ := decode_reserved hreserved
  have hbegin := beginCommand_of_decode_error (s := s.spendTurn) (by simpa using hw) hd
  exact ⟨_, (step_of_atFetch hs).trans hbegin, raises_raise ..⟩

end Sys2Proof.Encoding
end

section
/-! SUPPORT. PROOFS. A command of one micro-operation: what its completion leaves, given what the micro-operation leaves (R42, R43, R150). -/

open Sys2Proof.Machine

namespace Sys2Proof.Completion

/-! ### The end of a command of one micro-operation (R43) -/

/-- A command whose checks pass and whose only micro-operation is Done is retired at once. -/
theorem exec_of_done {i : Instr} {checks : List (Bool × Trap)} {m : MicroOp} {s s1 : State}
    (he : exec i s = issue i checks [m] s) (hc : firstTrap checks = none) (hr : m.run s = .done s1) :
    exec i s = .next (s1.retire s.ctx m [] (encode i)) := by
  rw [he, issue_pass hc, runHead_done hr]

/-- The pointer advances when the last micro-operation is Done and is no control one; the rest of the bank stays. -/
theorem retire_last {m : MicroOp} (hm : m.isControl = false) (s : State) (k : Ctx) (w : Word) :
    (s.retire k m [] w).ctxState k = { s.ctxState k with useq := [], word := w, cp := (s.ctxState k).cp + 1 } := by
  simp [State.retire_self, hm]

/-- A command is over once its last micro-operation, which is no control one and leaves the pointer and the other context, is
retired (R43). -/
theorem retired_retire {m : MicroOp} {s s1 : State} (i : Instr) (hm : m.isControl = false) (hconfig : ConfigKept s s1)
    (hcp : (s1.ctxState s.ctx).cp = s.cur.cp) (hother : ∀ k, k ≠ s.ctx → s1.ctxState k = s.ctxState k) :
    Retired i s (s1.retire s.ctx m [] (encode i)) where
  config :=
    { params := (State.retire_params ..).trans hconfig.params
      progMain := (State.retire_progMain ..).trans hconfig.progMain
      progIsr := (State.retire_progIsr ..).trans hconfig.progIsr }
  cp := by simp [retire_last hm, hcp]
  useq := by simp [retire_last hm]
  word := by simp [retire_last hm]
  other k hk := (State.retire_other _ _ _ _ hk).trans (hother k hk)

section
variable {s s1 : State} (m : MicroOp) (rest : List MicroOp) (w : Word)

/-- Retiring a micro-operation writes nothing of what `CoreKept` names (R43). -/
theorem coreKept_retire (h : CoreKept s s1) : CoreKept s (s1.retire s.ctx m rest w) where
  args r := by
    rw [State.retire_self, ← h.args r]
    cases r <;> rfl
  guard := by simpa [GuardKept, State.retire_self] using h.guard
  flags :=
    { ctx := (State.retire_ctx ..).trans h.flags.ctx
      isrGieSaved := (State.retire_isrGieSaved ..).trans h.flags.isrGieSaved
      status := (State.retire_status ..).trans h.flags.status
      fault := (State.retire_fault ..).trans h.flags.fault
      agenda := (State.retire_agenda ..).trans h.flags.agenda
      interludes := (State.retire_interludeCount ..).trans h.flags.interludes
      gie := (State.retire_gie ..).trans h.flags.gie }
  mem a := by rw [State.readByte_congr (State.retire_dm ..), h.mem a]

theorem resIs_retire {v : Word} (h : ResIs v s s1) : ResIs v s (s1.retire s.ctx m rest w) := by
  simpa [ResIs, State.retire_self] using h

theorem serialKept_retire (h : SerialKept s s1) : SerialKept s (s1.retire s.ctx m rest w) := by
  simpa [SerialKept] using h

theorem ringsKept_retire (h : RingsKept s s1) : RingsKept s (s1.retire s.ctx m rest w) := by
  simpa [RingsKept] using h

theorem devicesKept_retire (h : DevicesKept s s1) : DevicesKept s (s1.retire s.ctx m rest w) where
  serial := serialKept_retire m rest w h.serial
  timers := by simpa [TimersKept] using h.timers
  rings := ringsKept_retire m rest w h.rings

end

/-! ### A micro-operation that writes RES -/

theorem bitWord_eq_ite (b : Bool) : bitWord b = if b then 1 else 0 := by
  cases b <;> rfl

theorem setRes_self (s : State) (v : Word) : (s.setRes v).ctxState s.ctx = { s.cur with res := v } := by
  simp [State.setRes, State.updCur, State.cur]

theorem setRes_other (s : State) (v : Word) {k : Ctx} (hk : k ≠ s.ctx) : (s.setRes v).ctxState k = s.ctxState k :=
  State.updCtx_other _ _ hk

/-- RES is the only register that `setRes` writes (R31). -/
theorem coreKept_setRes (s : State) (v : Word) : CoreKept s (s.setRes v) where
  args r := by rw [setRes_self]; cases r <;> rfl
  guard := by simp [GuardKept, setRes_self]
  flags := ⟨⟨by simp, by simp, by simp, by simp⟩, ⟨by simp, by simp⟩, by simp⟩
  mem := State.readByte_congr (State.setRes_dm ..)

theorem devicesKept_setRes (s : State) (v : Word) : DevicesKept s (s.setRes v) where
  serial := by simp [SerialKept]
  timers := by simp [TimersKept]
  rings := by simp [RingsKept]

/-- A command whose one micro-operation writes RES completes with that value in RES, and nothing else changes. -/
theorem completes_of_setRes {i : Instr} {checks : List (Bool × Trap)} {m : MicroOp} {s : State} {v : Word}
    (he : exec i s = issue i checks [m] s) (hc : firstTrap checks = none) (hm : m.isControl = false)
    (hr : m.run s = .done (s.setRes v)) :
    ∃ t, exec i s = .next t ∧ Retired i s t ∧ ResIs v s t ∧ CoreKept s t ∧ DevicesKept s t := by
  refine ⟨_, exec_of_done he hc hr, retired_retire i hm (by constructor <;> simp) ?_ (fun k => setRes_other s v), ?_, ?_, ?_⟩
  · simp [setRes_self]
  · exact resIs_retire _ _ _ (by simp [ResIs, setRes_self])
  · exact coreKept_retire _ _ _ (coreKept_setRes s v)
  · exact devicesKept_retire _ _ _ (devicesKept_setRes s v)

end Sys2Proof.Completion
end

section
/-! SUPPORT. PROOFS. The timer commands: what they write, what they leave, and their Decode faults (41_timer.md). -/

open Sys2Proof.Machine Sys2Proof.Completion

namespace Sys2Proof.TimerUnit

/-! ### The Decode checks of the timer commands (R150, R254) -/

/-- The checks of a command that names timer n and, for the channel commands, channel c. -/
def timerChecks (n : Fin 16) (c : Option (Fin 16)) (s : State) : List (Bool × Trap) :=
  match c with
  | none => [(s.timerMissing n, .instanceRange)]
  | some c => channelChecks n c s

/-- Every timer command has these checks, by the timer and the channel it names, and one micro-operation (R254, R255 to R265). -/
theorem exec_timer {i : Instr} {n : Fin 16} (s : State) (h : i.timer? = some n) :
    ∃ m, exec i s = issue i (timerChecks n i.timerChannel? s) [m] s := by
  cases i
  case tinit | tmode | treset | tcapm | tccis | toutm | tsetcmp | tgetcap | tccie | tgetcov | tclrcov =>
    obtain rfl := Option.some.inj h
    exact ⟨_, rfl⟩
  all_goals cases h

theorem timerMissing_iff {s : State} {n : Nat} : s.timerMissing n = true ↔ s.timers.length ≤ n := by
  simp [State.timerMissing]

theorem timerMissing_of_some {s : State} {n : Nat} {tm : Timer} (h : s.timers[n]? = some tm) : s.timerMissing n = false := by
  obtain ⟨hlt, -⟩ := List.getElem?_eq_some_iff.mp h
  simpa [State.timerMissing] using hlt

theorem channelMissing_of_some {s : State} {n : Nat} {tm : Timer} (c : Nat) (h : s.timers[n]? = some tm) :
    s.channelMissing n c = decide (s.params.channels tm.kind ≤ c) := by
  simp [State.channelMissing, h]

/-- The timer is checked first, whatever the channel (R150). -/
theorem firstTrap_timerChecks_missing {s : State} {n : Fin 16} (c : Option (Fin 16)) (h : s.timers.length ≤ n.val) :
    firstTrap (timerChecks n c s) = some .instanceRange := by
  cases c <;> simp [timerChecks, channelChecks, timerMissing_iff.mpr h]

section
variable {s : State} {n c : Fin 16} {tm : Timer} (htm : s.timers[n.val]? = some tm)
include htm

theorem firstTrap_timerChecks_pass : firstTrap (timerChecks n none s) = none := by
  simp [timerChecks, timerMissing_of_some htm]

theorem firstTrap_channelChecks_pass (hc : c.val < s.params.channels tm.kind) : firstTrap (timerChecks n (some c) s) = none := by
  simp [timerChecks, channelChecks, timerMissing_of_some htm, channelMissing_of_some c.val htm, Nat.not_le.mpr hc]

theorem firstTrap_channelChecks_missing (hc : s.params.channels tm.kind ≤ c.val) :
    firstTrap (timerChecks n (some c) s) = some .channelRange := by
  simp [timerChecks, channelChecks, timerMissing_of_some htm, channelMissing_of_some c.val htm, hc]

end

/-! ### A write of one timer, and of one channel (R250) -/

section
variable {s : State} {n c : Nat} {tm : Timer} {ch : TimerChan} (htm : s.timers[n]? = some tm)

theorem updTimer_ctxState (s : State) (n : Nat) (f : Timer → Timer) (k : Ctx) : (s.updTimer n f).ctxState k = s.ctxState k := by
  cases k <;> rfl

theorem updTimer_timers_ne (s : State) {n j : Nat} (f : Timer → Timer) (h : j ≠ n) :
    (s.updTimer n f).timers[j]? = s.timers[j]? := by
  simp [State.updTimer, h.symm]

/-- Nothing that `CoreKept` names is a timer's. -/
theorem coreKept_updTimer (s : State) (n : Nat) (f : Timer → Timer) : CoreKept s (s.updTimer n f) where
  args r := by rw [updTimer_ctxState]; rfl
  guard := by simp [GuardKept, updTimer_ctxState, State.cur]
  flags := ⟨⟨rfl, rfl, rfl, rfl⟩, ⟨rfl, rfl⟩, rfl⟩
  mem := State.readByte_congr (State.updTimer_dm ..)

include htm

theorem updTimer_timers_self (f : Timer → Timer) : (s.updTimer n f).timers[n]? = some (f tm) := by
  simp [State.updTimer, htm]

theorem timerToRes_of_some (hch : tm.chans[c]? = some ch) (f : TimerChan → Word) : s.timerToRes n c f = s.setRes (f ch) := by
  simp [State.timerToRes, State.timerChan?, htm, hch]

end

/-! ### The commands that write a timer -/

/-- A command that writes one timer completes: the timer becomes tm, and everything else stays. -/
def TimerBecomes (i : Instr) (n : Nat) (tm : Timer) (s : State) : Prop :=
  ∃ t, exec i s = .next t ∧ Retired i s t ∧ t.timers[n]? = some tm ∧ OtherTimersKept n s t ∧ CoreKept s t ∧ ResKept s t ∧
    SerialKept s t ∧ RingsKept s t

/-- A channel that becomes c1 is its timer with that channel replaced. -/
theorem channelBecomes_iff {i : Instr} {n c : Nat} {tm : Timer} {c1 : TimerChan} {s : State} :
    ChannelBecomes i n c tm c1 s ↔ TimerBecomes i n { tm with chans := tm.chans.set c c1 } s := Iff.rfl

section
variable {i : Instr} {checks : List (Bool × Trap)} {m : MicroOp} {s : State} {n c : Nat} {tm : Timer} {ch : TimerChan}

/-- A command whose one micro-operation changes timer n by f. -/
theorem timerBecomes_of_updTimer {f : Timer → Timer} (htm : s.timers[n]? = some tm) (he : exec i s = issue i checks [m] s)
    (hc : firstTrap checks = none) (hm : m.isControl = false) (hr : m.run s = .done (s.updTimer n f)) :
    TimerBecomes i n (f tm) s := by
  refine ⟨_, exec_of_done he hc hr, retired_retire i hm (by constructor <;> simp) ?_ ?_, ?_, ?_, ?_, ?_, ?_, ?_⟩
  · rw [updTimer_ctxState]; rfl
  · exact fun k _ => updTimer_ctxState s n f k
  · rw [State.retire_timers, updTimer_timers_self htm]
  · exact fun j hj => by rw [State.retire_timers, updTimer_timers_ne s f hj]
  · exact coreKept_retire _ _ _ (coreKept_updTimer s n f)
  · exact resIs_retire _ _ _ (by rw [ResIs, updTimer_ctxState]; rfl)
  · exact serialKept_retire _ _ _ ⟨rfl, rfl⟩
  · exact ringsKept_retire _ _ _ rfl

/-- A command whose one micro-operation changes channel c of timer n by f. -/
theorem channelBecomes_of_updTimerChan {f : TimerChan → TimerChan} (htm : s.timers[n]? = some tm)
    (hch : tm.chans[c]? = some ch) (he : exec i s = issue i checks [m] s) (hc : firstTrap checks = none)
    (hm : m.isControl = false) (hr : m.run s = .done (s.updTimerChan n c f)) : ChannelBecomes i n c tm (f ch) s := by
  have hset : tm.chans.modify c f = tm.chans.set c (f ch) := by simp [List.modify_eq_set_getElem?, hch]
  rw [channelBecomes_iff, ← hset]
  exact timerBecomes_of_updTimer htm he hc hm hr

end

/-- Settles O19: each is a command of one micro-operation that changes the timer it names. -/
theorem timerControlCommandsComplete : Obligations.TimerControlCommandsComplete := by
  intro n mode div src tm s htm
  have pass := firstTrap_timerChecks_pass htm
  exact ⟨timerBecomes_of_updTimer (f := fun tm => { tm with mode := mode, div := div, src := src }) htm rfl pass rfl rfl,
    timerBecomes_of_updTimer (f := fun tm => { tm with mode := mode }) htm rfl pass rfl rfl,
    timerBecomes_of_updTimer (f := fun tm => { tm with count := 0 }) htm rfl pass rfl rfl⟩

/-- Settles O20: six commands change the channel they name, and two write RES from it. -/
theorem timerChannelCommandsComplete : Obligations.TimerChannelCommandsComplete := by
  intro n c tm ch s htm hc hch
  have pass := firstTrap_channelChecks_pass htm hc
  refine ⟨fun cm scs => ?_, fun src => ?_, fun om => ?_, fun v => ?_, fun en => ?_, ?_, ?_, ?_⟩
  · exact channelBecomes_of_updTimerChan (f := fun ch => { ch with cm := cm, scs := scs }) htm hch rfl pass rfl rfl
  · exact channelBecomes_of_updTimerChan (f := fun ch => { ch with ccis := src }) htm hch rfl pass rfl rfl
  · exact channelBecomes_of_updTimerChan (f := fun ch => { ch with outmod := om }) htm hch rfl pass rfl rfl
  · exact channelBecomes_of_updTimerChan (f := fun ch => { ch with value := v }) htm hch rfl pass rfl rfl
  · exact channelBecomes_of_updTimerChan (f := fun ch => { ch with ccie := en }) htm hch rfl pass rfl rfl
  · exact channelBecomes_of_updTimerChan (f := fun ch => { ch with cov := false }) htm hch rfl pass rfl rfl
  · exact completes_of_setRes rfl pass rfl (congrArg MicroResult.done (timerToRes_of_some htm hch _))
  · rw [← bitWord_eq_ite]
    exact completes_of_setRes rfl pass rfl (congrArg MicroResult.done (timerToRes_of_some htm hch _))

/-- Settles O21: the timer is checked before the channel, and the first check that fails names the fault. -/
theorem timerIndexFaults : Obligations.TimerIndexFaults := by
  intro i n s hi
  obtain ⟨m, hexec⟩ := exec_timer s hi
  refine ⟨fun hn => ?_, fun tm c htm hchan hc => ?_⟩
  · exact ⟨_, hexec.trans (issue_fail (firstTrap_timerChecks_missing _ hn)), Encoding.raises_raise ..⟩
  · rw [hchan] at hexec
    exact ⟨_, hexec.trans (issue_fail (firstTrap_channelChecks_missing htm hc)), Encoding.raises_raise ..⟩

end Sys2Proof.TimerUnit
end

section
/-! SUPPORT. PROOFS. What reset leaves (70_reset_and_hazards.md). -/

open Sys2Proof.Machine

namespace Sys2Proof.Reset

/-! ### The parts of the reset state -/

theorem boot_ctxState (b : Boot) (k : Ctx) : (State.boot b).ctxState k = CtxState.reset := by
  cases k <;> rfl

theorem reset_arg (r : ArgReg) : CtxState.reset.arg r = 0 := by
  cases r <;> rfl

theorem boot_cells (b : Boot) (ch : Chan) :
    (State.boot b).cells ch = Cells.reset b.params.fieldPos ch.kind (b.stat.get ch) (b.rxbuf.get ch) (b.txbuf.get ch) := by
  cases ch <;> rfl

/-! ### The bits of CTL1 and STAT (R306) -/

section
variable (p : FieldPos) (kind : SerialKind) (stat rxbuf txbuf : Byte)

theorem reset_ctl1 : (Cells.reset p kind stat rxbuf txbuf).ctl1 = BitVec.twoPow 8 p.swrst := rfl

theorem reset_stat : (Cells.reset p kind stat rxbuf txbuf).stat = stat &&& ~~~BitVec.twoPow 8 p.listen := rfl

/-- LISTEN is off, and the rest of STAT is as drawn. -/
theorem reset_stat_bit (n : Nat) :
    (Cells.reset p kind stat rxbuf txbuf).stat.getLsbD n = (stat.getLsbD n && decide (n ≠ p.listen)) := by
  rw [reset_stat, BitVec.getLsbD_and, BitVec.getLsbD_not, BitVec.getLsbD_twoPow]
  obtain hn | hn := Nat.lt_or_ge n 8
  · by_cases hl : n = p.listen
    · simp [← hl, hn]
    · simp [hl, hn, Ne.symm hl]
  · simp [BitVec.getLsbD_of_ge _ n hn]

end

/-- Every channel is held after reset, where SWRST is a bit of the byte cell. -/
theorem boot_held (b : Boot) (ch : Chan) (h : b.params.fieldPos.swrst < 8) : (State.boot b).held ch = true := by
  have hctl1 : (State.boot b).cellValue ch .ctl1 = (BitVec.twoPow 8 b.params.fieldPos.swrst).setWidth 16 := by
    rw [State.cellValue, boot_cells, reset_ctl1]
  change ((State.boot b).cellValue ch .ctl1).getLsbD b.params.fieldPos.swrst = true
  have hwide : b.params.fieldPos.swrst < 16 := by omega
  simp [hctl1, h, hwide]

/-- No interrupt is enabled after reset (R306). -/
theorem boot_ie (b : Boot) (ch : Chan) (d : Dir) : (State.boot b).ie ch d = false := by
  cases ch <;> exact BitVec.getLsbD_zero

/-- Settles O59: the banks, the timers and the ring buffers are copies of their reset values, and the cells of a channel are
`Cells.reset`, whose STAT is read bit by bit. -/
theorem resetValues : Obligations.ResetValues := by
  intro b hpos s
  refine ⟨fun k => ?banks, rfl, rfl, rfl, rfl, rfl, rfl, rfl, rfl, fun ch => ?channels, fun i => ?registers,
    fun tm htm => ?timers, fun r hr => ?rings⟩
  case banks =>
    rw [boot_ctxState b k]
    exact ⟨reset_arg, rfl, rfl, rfl, rfl, rfl, rfl⟩
  case channels =>
    have held : s.held ch = true := boot_held b ch (by rw [hpos]; decide)
    rw [boot_cells b ch, hpos]
    refine ⟨?ctl0, rfl, rfl, rfl, ?listen, fun n hn => ?stat, rfl, rfl, held, boot_ie b ch⟩
    case ctl0 => cases ch <;> rfl
    case listen =>
      rw [reset_stat_bit]
      exact Bool.and_false _
    case stat =>
      have hne : n ≠ FieldPos.default.listen := Nat.ne_of_lt hn
      simp only [reset_stat_bit, hne, ne_eq, not_false_eq_true, decide_true, Bool.and_true]
  case registers => cases i <;> exact ⟨rfl, rfl, rfl, rfl, rfl, rfl⟩
  case timers =>
    obtain ⟨kind, -, rfl⟩ := List.mem_map.mp htm
    refine ⟨rfl, rfl, rfl, rfl, List.length_replicate, fun tc htc => ?_⟩
    obtain rfl := List.eq_of_mem_replicate htc
    exact ⟨rfl, rfl, rfl, rfl, rfl, rfl, rfl⟩
  case rings =>
    obtain ⟨cap, -, rfl⟩ := List.mem_map.mp hr
    exact ⟨rfl, rfl, rfl, rfl, rfl, fun x hx => List.eq_of_mem_replicate hx⟩

end Sys2Proof.Reset
end

section
/-! SUPPORT. PROOFS. The serial commands: the instance check at the head of their Decode checks (42_serial_engine.md). -/

open Sys2Proof.Machine

namespace Sys2Proof.SerialEngine

/-! ### The instance check of the serial commands (R150, R303) -/

/-- The instance check of a command that asks for the given kind of channel, or for neither, on channel ch. -/
def instanceRefused (need : Option SerialKind) (ch : Chan) (s : State) : Bool :=
  match need with
  | none => s.chanAbsent ch
  | some .a => s.chanAbsent ch || ch.kind == .b
  | some .b => s.chanAbsent ch || ch.kind == .a

/-- There are two kinds, so that the check for the other kind is the check for a wrong one (R300, R303). -/
theorem instanceRefused_iff {need : Option SerialKind} {ch : Chan} {s : State} :
    instanceRefused need ch s = true ↔ s.chanAbsent ch = true ∨ ∃ k, need = some k ∧ ch.kind ≠ k := by
  match need with
  | none => simp [instanceRefused]
  | some .a => cases hk : ch.kind <;> simp [instanceRefused, hk]
  | some .b => cases hk : ch.kind <;> simp [instanceRefused, hk]

/-- A check that does not fail can be left out. -/
theorem issue_skip {i : Instr} {bad : Bool} {tr : Trap} {rest : List (Bool × Trap)} {q : List MicroOp} {s : State}
    (h : bad = false) : issue i ((bad, tr) :: rest) q s = issue i rest q s := by
  subst h
  rfl

/-- Every serial command begins with the instance check of its channel and its kind; only the check that SWR's immediate fits its role
comes before, and a command word has no other immediate (R149, R150, R303). -/
theorem exec_serial {i : Instr} {ch : Chan} (s : State) (h : i.serialChannel? = some ch) (hwf : i.wellFormed = true) :
    ∃ rest q, exec i s = issue i ((instanceRefused i.kindNeeded ch s, .instanceRange) :: rest) q s := by
  cases i
  case swr =>
    obtain rfl := Option.some.inj h
    exact ⟨_, _, issue_skip (by simp [hwf])⟩
  case sena | sdis | sie | sifg | srd | bset | iptx | iprx | istt | istp | igstt | isend | isendR | iwreg | irreg | irecv |
      pinit | psend | psendR | precv | ploop | pgloop | pgfe | pgoe =>
    obtain rfl := Option.some.inj h
    exact ⟨_, _, rfl⟩
  all_goals cases h

/-- Settles O29: the instance check comes first, and it fails where the channel is absent or of the wrong kind. -/
theorem channelInstanceFaults : Obligations.ChannelInstanceFaults := by
  intro i ch s hch hwf hbad
  obtain ⟨rest, q, hexec⟩ := exec_serial s hch hwf
  rw [instanceRefused_iff.mpr hbad] at hexec
  exact ⟨_, hexec.trans (issue_fail (firstTrap_fail ..)), Encoding.raises_raise ..⟩

end Sys2Proof.SerialEngine
end

section
/-! SUPPORT. PROOFS. The baud calculator against its rational definition, and the layout of its modulation byte and divisor pair
(43_uart_baud.md). -/

open Sys2Proof.Machine

namespace Sys2Proof.BaudUnit

/-! ### Rounding the scaled fraction of a quotient of naturals (R11, R352) -/

/-- The rounding step of R354 and R355: a + n/2 over n, with numerator and denominator doubled to stay in the naturals. -/
theorem nearestInt_div (a : Nat) {n : Nat} (hn : 0 < n) :
    nearestInt ((a : ℚ) / n) = ((2 * a + n) / (2 * n) : Nat) := by
  have hn0 : (n : ℚ) ≠ 0 := Nat.cast_ne_zero.mpr hn.ne'
  have hsum : (a : ℚ) / n + 1 / 2 = ((2 * a + n : Nat) : ℚ) / ((2 * n : Nat) : ℚ) := by
    push_cast
    field_simp
  rw [nearestInt, hsum, Rat.floor_natCast_div_natCast, Int.natCast_div]

/-- The fraction of m/n is (m mod n)/n, so that scaling it by c and rounding is a division of naturals (R354, R355). -/
theorem nearestInt_fract_mul (m c : Nat) {n : Nat} (hn : 0 < n) :
    nearestInt (Int.fract ((m : ℚ) / n) * c) = ((2 * (c * (m % n)) + n) / (2 * n) : Nat) := by
  rw [← nearestInt_div _ hn, Int.fract_div_natCast_eq_div_natCast_mod]
  push_cast
  ring_nf

/-! ### The outputs of Baud (R353 to R356) -/

section
variable {clk baud : Nat} {os : Bool}

/-- A factor of at least 16, compared as naturals (R353). -/
theorem sixteen_le_factor_iff (hb : 0 < baud) : (16 : ℚ) ≤ clk / baud ↔ 16 * baud ≤ clk := by
  rw [le_div_iff₀ (Nat.cast_pos.mpr hb)]
  exact_mod_cast Iff.rfl

theorem oversampled_iff (hb : 0 < baud) : oversampled clk baud os = true ↔ os = true ∧ (16 : ℚ) ≤ clk / baud := by
  rw [oversampled, Bool.and_eq_true, decide_eq_true_eq, sixteen_le_factor_iff hb]

theorem factor_div_sixteen : (clk : ℚ) / baud / 16 = clk / (16 * baud : Nat) := by
  rw [div_div, mul_comm]
  push_cast
  rfl

/-- BRS before saturation is the rounded fraction of the factor, scaled by 8 (R354, R355). -/
theorem brsRaw_eq_nearestInt (hb : 0 < baud) : (brsRaw clk baud : ℤ) = nearestInt (Int.fract ((clk : ℚ) / baud) * 8) := by
  have hround := nearestInt_fract_mul clk 8 hb
  rw [← mul_assoc] at hround
  exact hround.symm

/-- BRF before saturation is the rounded fraction of a sixteenth of the factor, scaled by 16; the scale cancels against the 16 of the
denominator (R354). -/
theorem brfRaw_eq_nearestInt (hb : 0 < baud) :
    (brfRaw clk baud : ℤ) = nearestInt (Int.fract ((clk : ℚ) / baud / 16) * 16) := by
  have hround := nearestInt_fract_mul clk 16 (show 0 < 16 * baud by omega)
  have hcancel : (2 * (16 * (clk % (16 * baud))) + 16 * baud) / (2 * (16 * baud)) = brfRaw clk baud := by
    rw [brfRaw, mul_left_comm 2 16, mul_left_comm 2 16, ← mul_add, Nat.mul_div_mul_left _ _ (by decide)]
  rw [factor_div_sixteen, ← hcancel]
  exact hround.symm

/-- A value saturated at the greatest of its field fits the field (R356). -/
theorem toNat_ofNat_saturated (w n : Nat) : (BitVec.ofNat w (min n (2 ^ w - 1))).toNat = min n (2 ^ w - 1) := by
  have hpos := Nat.two_pow_pos w
  rw [BitVec.toNat_ofNat, Nat.mod_eq_of_lt (by omega)]

/-- Both paths give the same BRS (R354, R355). -/
theorem baudOf_brs : (baudOf clk baud os).brs.toNat = min (brsRaw clk baud) 7 := by
  have hfield : (baudOf clk baud os).brs = BitVec.ofNat 3 (min (brsRaw clk baud) 7) := by
    unfold baudOf
    split <;> rfl
  rw [hfield]
  exact toNat_ofNat_saturated 3 _

theorem baudOf_brs_rational (hb : 0 < baud) :
    ((baudOf clk baud os).brs.toNat : ℤ) = min (nearestInt (Int.fract ((clk : ℚ) / baud) * 8)) 7 := by
  rw [baudOf_brs, Nat.cast_min, brsRaw_eq_nearestInt hb, Nat.cast_ofNat]

theorem baudOf_of_oversampled (h : oversampled clk baud os = true) :
    (baudOf clk baud os).os16 = true ∧ (baudOf clk baud os).br = clk / (16 * baud) ∧
      (baudOf clk baud os).brf.toNat = min (brfRaw clk baud) 15 := by
  rw [baudOf, if_pos h]
  exact ⟨rfl, rfl, toNat_ofNat_saturated 4 _⟩

theorem baudOf_of_not_oversampled (h : ¬ oversampled clk baud os = true) :
    (baudOf clk baud os).os16 = false ∧ (baudOf clk baud os).br = clk / baud ∧ (baudOf clk baud os).brf = 0 := by
  rw [baudOf, if_neg h]
  exact ⟨rfl, rfl, rfl⟩

end

/-- Settles O30: the model chooses its path as the factor does, and on either path each rational form is the division of naturals that
the model takes. -/
theorem baudMatchesExactRationals : Obligations.BaudMatchesExactRationals := by
  intro clk baud os _ hb factor r
  refine ⟨fun hpath => ?oversampling, fun hpath => ?lowFrequency, baudOf_brs⟩
  case oversampling =>
    obtain ⟨hos, hbr, hbrf⟩ := baudOf_of_oversampled ((oversampled_iff hb).mpr hpath)
    have hfloor : (r.br : ℤ) = ⌊factor / 16⌋ := by
      rw [hbr, factor_div_sixteen, Rat.floor_natCast_div_natCast, Int.natCast_div]
    have hround : (r.brf.toNat : ℤ) = min (nearestInt (Int.fract (factor / 16) * 16)) 15 := by
      rw [hbrf, Nat.cast_min, brfRaw_eq_nearestInt hb, Nat.cast_ofNat]
    exact ⟨hos, hfloor, hbr, hround, hbrf, baudOf_brs_rational hb⟩
  case lowFrequency =>
    obtain ⟨hos, hbr, hbrf⟩ := baudOf_of_not_oversampled (mt (oversampled_iff hb).mp hpath)
    have hfloor : (r.br : ℤ) = ⌊factor⌋ := by
      rw [hbr, Rat.floor_natCast_div_natCast, Int.natCast_div]
    have hbrs : (r.brs.toNat : ℤ) = min (nearestInt ((factor - ⌊factor⌋) * 8)) 7 := by
      rw [Int.self_sub_floor]
      exact baudOf_brs_rational hb
    exact ⟨hos, hfloor, hbr, hbrf, hbrs⟩

/-! ### The modulation byte and the divisor pair (R358, R359) -/

/-- The three fields side by side are the three fields shifted to their places. -/
theorem mctl_eq_shifts (r : BaudResult) :
    r.mctl = (r.brf.setWidth 8 <<< 4) ||| (r.brs.setWidth 8 <<< 1) ||| (BitVec.ofBool r.os16).setWidth 8 :=
  calc r.mctl = (r.brf ++ r.brs ++ BitVec.ofBool r.os16).setWidth 8 := by
        rw [BitVec.setWidth_eq]
        exact BitVec.append_assoc'
    _ = _ := BitVec.setWidth_append_append_eq_shiftLeft_setWidth_or

theorem mctl_brf (r : BaudResult) : r.mctl.extractLsb' 4 4 = r.brf := BitVec.extractLsb'_append_eq_left

/-- Bits 3:1 lie in the low half of the byte, where BRS stands above OS16. -/
theorem mctl_brs (r : BaudResult) : r.mctl.extractLsb' 1 3 = r.brs := by
  rw [BaudResult.mctl, BitVec.extractLsb'_append_eq_of_add_le (by decide)]
  exact BitVec.extractLsb'_append_eq_left

theorem mctl_os16 (r : BaudResult) : r.mctl.getLsbD 0 = r.os16 := by
  rw [BaudResult.mctl, BitVec.getLsbD_append, if_pos (by decide), BitVec.getLsbD_append, if_pos (by decide)]
  simp

theorem divisorHigh_append_divisorLow (v : Half) : divisorHigh v ++ divisorLow v = v :=
  BitVec.extractLsb'_append_extractLsb'

/-- Settles O31: each field is read back from the concatenation that the byte is, and the two halves of the divisor append to it. -/
theorem modulationByteLayout : Obligations.ModulationByteLayout := fun r =>
  ⟨mctl_brf r, mctl_brs r, mctl_os16 r, mctl_eq_shifts r, divisorHigh_append_divisorLow⟩

end Sys2Proof.BaudUnit
end

section
/-! SUPPORT. PROOFS. The ring-buffer commands, and what the literal algorithm does at and beyond capacity (46_ring_buffer.md). -/

open Sys2Proof.Machine Sys2Proof.Completion

namespace Sys2Proof.RingUnit

/-! ### The conditions on the cursors (R504, R507) -/

section
variable {r : Ring}

theorem full_iff : r.full = true ↔ r.rd = some r.wr := beq_iff_eq

theorem isEmpty_iff : r.isEmpty = true ↔ (r.rd = some r.wr ∧ r.ovf = false) ∨ r.rd = none := by
  simp [Ring.isEmpty]

/-! ### Insert, get and clear, field by field (R504, R506) -/

variable (r) (v : Byte)

@[simp] theorem insert_buf : (r.insert v).buf = r.buf.set r.wr v := rfl

@[simp] theorem insert_wr : (r.insert v).wr = (r.wr + 1) % r.buf.length := rfl

@[simp] theorem insert_ovf : (r.insert v).ovf = (r.ovf || r.full) := rfl

/-- An insert moves the read cursor from NEVER to 0 and not otherwise. -/
@[simp] theorem insert_rd : (r.insert v).rd = some (r.rd.getD 0) := by
  cases h : r.rd <;> simp [Ring.insert, h]

/-- The model's insert is the one that R504 writes out. -/
theorem inserted_iff {r2 : Ring} : Inserted r v r2 ↔ r2 = r.insert v := by
  have hovf : (if r.rd = some r.wr then true else r.ovf) = (r.insert v).ovf := by
    simp only [insert_ovf, ← full_iff]
    cases r.full <;> simp
  have hrd : (if r.rd = none then some 0 else r.rd) = (r.insert v).rd := by
    rw [insert_rd]
    cases r.rd <;> rfl
  rw [Inserted, hovf, hrd]
  rfl

/-- An insert at a full buffer, or at a drained one, sets the flag (R504). -/
theorem insert_ovf_of_full (h : r.rd = some r.wr) : (r.insert v).ovf = true := by
  simp [full_iff.mpr h]

variable {r}

theorem front_of_never (h : r.rd = none) : r.front = 0 := by
  simp [Ring.front, h]

theorem advance_of_never (h : r.rd = none) : r.advance = r := by
  simp [Ring.advance, h]

theorem front_of_rd {i : Nat} (h : r.rd = some i) : r.front = r.buf.getD i 0 := by
  simp [Ring.front, h]

theorem advance_of_rd {i : Nat} (h : r.rd = some i) : r.advance = { r with rd := some ((i + 1) % r.buf.length) } := by
  simp [Ring.advance, h]

end

/-! ### A write of one ring buffer, beside a write of RES -/

section
variable (s : State) (b : Nat) (r : Ring)

@[simp] theorem setRing_ctxState (k : Ctx) : (s.setRing b r).ctxState k = s.ctxState k := by
  cases k <;> rfl

theorem setRing_rings_ne {j : Nat} (h : j ≠ b) : (s.setRing b r).rings[j]? = s.rings[j]? := by
  simp [State.setRing, h.symm]

theorem setRing_rings_self {r0 : Ring} (h : s.rings[b]? = some r0) : (s.setRing b r).rings[b]? = some r := by
  obtain ⟨hlt, -⟩ := List.getElem?_eq_some_iff.mp h
  simp [State.setRing, hlt]

theorem setRing_setRes (v : Word) : (s.setRing b r).setRes v = (s.setRes v).setRing b r := by
  cases h : s.ctx <;> simp [State.setRes, State.updCur, State.updCtx, State.setRing, h]

theorem setRes_cur_res : s.setRes s.cur.res = s := by
  cases h : s.ctx <;> simp only [State.setRes, State.updCur, State.updCtx, State.cur, State.ctxState, h] <;> rw [← h]

/-- Nothing that `CoreKept` names is a ring buffer's. -/
theorem coreKept_setRing {s t : State} (h : CoreKept s t) : CoreKept s (t.setRing b r) where
  args k := by rw [setRing_ctxState, h.args k]
  guard := by simpa [GuardKept] using h.guard
  flags :=
    { ctx := h.flags.ctx
      isrGieSaved := h.flags.isrGieSaved
      status := h.flags.status
      fault := h.flags.fault
      agenda := h.flags.agenda
      interludes := h.flags.interludes
      gie := h.flags.gie }
  mem := h.mem

end

/-! ### A command on a ring buffer whose sharing is guarded (R505, R511) -/

section
variable {i : Instr} {b : Nat} {m : MicroOp} {r r1 r2 : Ring} {s : State} {v : Word}

theorem firstTrap_ringChecks_pass (h : s.rings[b]? = some r) : firstTrap [(s.ringMissing b, .instanceRange)] = none := by
  obtain ⟨hlt, -⟩ := List.getElem?_eq_some_iff.mp h
  have hpresent : s.ringMissing b = false := by simpa [State.ringMissing] using hlt
  simp [hpresent]

theorem ringAccess_of_shares (f : Ring → State → State) (hr : s.rings[b]? = some r) (hs : Shares s r r1) :
    ringAccess b f s = .done (f r1 s) := by
  simp [ringAccess, hr, share_of_shares hs]

/-- A command whose one micro-operation replaces ring buffer b by r2 and writes v to RES. -/
theorem ringBecomes_of_setRing_setRes (hr : s.rings[b]? = some r)
    (he : exec i s = issue i [(s.ringMissing b, .instanceRange)] [m] s) (hm : m.isControl = false)
    (hrun : m.run s = .done ((s.setRing b r2).setRes v)) : RingBecomes i b r2 v s := by
  rw [setRing_setRes] at hrun
  have hres : (s.setRes v).rings = s.rings := State.setRes_rings ..
  refine ⟨_, exec_of_done he (firstTrap_ringChecks_pass hr) hrun,
    retired_retire i hm (by constructor <;> simp) ?cp (fun k hk => ?other), ?ring, fun j hj => ?others, ?res, ?core, ?serial,
    ?timers⟩
  case cp => simp [setRes_self]
  case other => rw [setRing_ctxState, setRes_other s v hk]
  case ring => rw [State.retire_rings, setRing_rings_self _ _ _ (hres ▸ hr)]
  case others => rw [State.retire_rings, setRing_rings_ne _ _ _ hj, hres]
  case res => exact resIs_retire _ _ _ (by simp [ResIs, setRes_self])
  case core => exact coreKept_retire _ _ _ (coreKept_setRing b r2 (coreKept_setRes s v))
  case serial => exact serialKept_retire _ _ _ (by simp [SerialKept])
  case timers => simp [TimersKept]

/-- A command that computes the buffer and RES from the checked buffer. -/
theorem ringBecomes_of_read {g : Ring → Ring} {f : Ring → Word} (hr : s.rings[b]? = some r) (hs : Shares s r r1)
    (he : exec i s = issue i [(s.ringMissing b, .instanceRange)] [m] s) (hm : m.isControl = false)
    (hrun : m.run s = ringAccess b (fun r s0 => (s0.setRing b (g r)).setRes (f r)) s) : RingBecomes i b (g r1) (f r1) s :=
  ringBecomes_of_setRing_setRes hr he hm (hrun.trans (ringAccess_of_shares _ hr hs))

/-- A command that computes the buffer from the checked buffer, and leaves RES. -/
theorem ringBecomes_of_write {g : Ring → Ring} (hr : s.rings[b]? = some r) (hs : Shares s r r1)
    (he : exec i s = issue i [(s.ringMissing b, .instanceRange)] [m] s) (hm : m.isControl = false)
    (hrun : m.run s = ringAccess b (fun r s0 => s0.setRing b (g r)) s) : RingBecomes i b (g r1) s.cur.res s := by
  refine ringBecomes_of_setRing_setRes hr he hm ?_
  rw [hrun, ringAccess_of_shares _ hr hs, setRing_setRes, setRes_cur_res]

end

/-- Settles O44: both forms insert into the checked buffer, and RINS.R takes its byte from RES at Decode. -/
theorem ringInsertsComplete : Obligations.RingInsertsComplete := by
  intro b v r r1 r2 r3 s hr hs h2 h3
  obtain rfl := (inserted_iff ..).mp h2
  obtain rfl := (inserted_iff ..).mp h3
  exact ⟨ringBecomes_of_write (g := (·.insert v)) hr hs rfl rfl rfl,
    ringBecomes_of_write (g := (·.insert s.resByte)) hr hs rfl rfl rfl⟩

/-- Settles O45: the check changes no cursor, flag or data, so that each result read from r1 is the one read from r. -/
theorem ringReadsAndClearsComplete : Obligations.RingReadsAndClearsComplete := by
  intro b r r1 s hr hs
  obtain ⟨hbuf, hwr, hrd, hovf⟩ := share_kept (share_of_shares hs)
  have get : RingBecomes (.rget b) b r1.advance (zext32 r1.front) s :=
    ringBecomes_of_read (g := Ring.advance) (f := fun r => zext32 r.front) hr hs rfl rfl rfl
  have empty : RingBecomes (.rempty b) b r1 (bitWord r1.isEmpty) s :=
    ringBecomes_of_read (g := id) (f := fun r => bitWord r.isEmpty) hr hs rfl rfl rfl
  have ovf : RingBecomes (.rovf b) b r1 (bitWord r1.ovf) s :=
    ringBecomes_of_read (g := id) (f := fun r => bitWord r.ovf) hr hs rfl rfl rfl
  refine ⟨fun hnever => ?never, fun i v hi hv => ?get, ?empty, ?ovf, ?clearOvf, ?clear⟩
  case never =>
    rw [← hrd] at hnever
    rw [advance_of_never hnever, front_of_never hnever] at get
    exact get
  case get =>
    rw [← hrd] at hi
    rw [← hbuf] at hv ⊢
    rw [advance_of_rd hi, front_of_rd hi, List.getD_eq_getElem?_getD, hv] at get
    exact get
  case empty =>
    rw [bitWord_eq_ite] at empty
    simpa only [isEmpty_iff, hrd, hwr, hovf] using empty
  case ovf =>
    rw [bitWord_eq_ite, hovf] at ovf
    exact ovf
  case clearOvf => exact ringBecomes_of_write (g := Ring.clearOvf) hr hs rfl rfl rfl
  case clear => exact ringBecomes_of_write (g := Ring.clear) hr hs rfl rfl rfl

/-! ### Filling a cleared buffer (R512) -/

/-- The buffer after the bytes `stored`, no more than its capacity n, were inserted since it was cleared: they stand at its start, and
none was lost. -/
structure Filled (n : Nat) (stored : List Byte) (r : Ring) : Prop where
  capacity : r.buf.length = n
  wr : r.wr = stored.length % n
  rd : r.rd = if stored = [] then none else some 0
  ovf : r.ovf = false
  content : stored <+: r.buf

section
variable {n : Nat} {stored l : List Byte} {r : Ring}

theorem filled_nil_iff : Filled n [] r ↔ Cleared n r := by
  constructor
  · intro h
    exact ⟨h.capacity, by simpa using h.wr, h.rd, h.ovf⟩
  · rintro ⟨hcap, hwr, hrd, hovf⟩
    exact ⟨hcap, by simpa using hwr, hrd, hovf, ⟨r.buf, rfl⟩⟩

/-- Below capacity the cursors differ: the read cursor is NEVER, or it is 0 and the write cursor is not. -/
theorem Filled.not_full (h : Filled n stored r) (hlt : stored.length < n) : r.full = false := by
  rw [Bool.eq_false_iff, ne_eq, full_iff, h.rd, h.wr, Nat.mod_eq_of_lt hlt]
  cases stored <;> simp

/-- A byte written just after the bytes that a list begins with. -/
theorem append_isPrefix_set {stored buf : List Byte} (v : Byte) (h : stored <+: buf) (hlt : stored.length < buf.length) :
    stored ++ [v] <+: buf.set stored.length v := by
  obtain ⟨rest, rfl⟩ := h
  cases rest with
  | nil => simp at hlt
  | cons x rest => exact ⟨rest, by simp⟩

/-- Below capacity an insert appends (R504). -/
theorem Filled.insert (h : Filled n stored r) (hlt : stored.length < n) (v : Byte) : Filled n (stored ++ [v]) (r.insert v) where
  capacity := by simp [h.capacity]
  wr := by simp [h.wr, h.capacity]
  rd := by rw [insert_rd, h.rd]; cases stored <;> rfl
  ovf := by simp [h.ovf, h.not_full hlt]
  content := by
    rw [insert_buf, h.wr, Nat.mod_eq_of_lt hlt]
    exact append_isPrefix_set v h.content (h.capacity ▸ hlt)

/-- Inserts up to capacity append one byte after the other. -/
theorem Filled.foldl_insert (h : Filled n stored r) (hle : stored.length + l.length ≤ n) :
    Filled n (stored ++ l) (l.foldl Ring.insert r) := by
  induction l generalizing stored r with
  | nil => simpa using h
  | cons v l ih =>
    rw [List.length_cons] at hle
    have hnext := ih (h.insert (by omega) v) (by rw [List.length_append, List.length_singleton]; omega)
    rwa [List.append_assoc] at hnext

theorem Filled.rd_zero (h : Filled n stored r) (hpos : 1 ≤ stored.length) : r.rd = some 0 := by
  rw [h.rd, if_neg (List.ne_nil_of_length_pos hpos)]

theorem Filled.getD (h : Filled n stored r) {j : Nat} (hj : j < stored.length) : r.buf.getD j 0 = stored[j] := by
  rw [List.getD_eq_getElem _ _ (hj.trans_le h.content.length_le), h.content.getElem hj]

/-- At capacity the data is what was inserted. -/
theorem Filled.buf_eq (h : Filled n stored r) (hn : stored.length = n) : r.buf = stored :=
  (h.content.eq_of_length (hn.trans h.capacity.symm)).symm

end

/-! ### Draining it (R506, R512) -/

section
variable {r : Ring} (h : r.rd = some 0)
include h

/-- Gets from slot 0 on move the read cursor only, around the capacity. -/
theorem afterGets_eq (j : Nat) : afterGets j r = { r with rd := some (j % r.buf.length) } := by
  induction j with
  | zero => rw [Nat.zero_mod, ← h]; rfl
  | succ j ih =>
    have hstep : afterGets (j + 1) r = (afterGets j r).advance := Function.iterate_succ_apply' ..
    rw [hstep, ih, advance_of_rd rfl, Nat.mod_add_mod]

theorem front_afterGets {j : Nat} (hj : j < r.buf.length) : (afterGets j r).front = r.buf.getD j 0 := by
  rw [afterGets_eq h, front_of_rd rfl, Nat.mod_eq_of_lt hj]

/-- Where no insert overflowed, exactly the get that reaches the write cursor drains the buffer (R507). -/
theorem isEmpty_afterGets_iff {j : Nat} (hj : j < r.buf.length) (hovf : r.ovf = false) :
    (afterGets j r).isEmpty = true ↔ j = r.wr := by
  rw [afterGets_eq h, isEmpty_iff]
  simp [Nat.mod_eq_of_lt hj, hovf]

end

/-! ### The consequences of the algorithm (R512) -/

section
variable {n : Nat} {l : List Byte} {r : Ring} (v : Byte) (h : Filled n l r) (hpos : 1 ≤ l.length)
include h hpos

/-- The round trip of fewer bytes than the capacity, and the insert after the drain. -/
theorem Filled.below_capacity (hlt : l.length < n) :
    r.wr = l.length ∧ r.rd = some 0 ∧ r.ovf = false ∧
    (∀ j (h : j < l.length), (afterGets j r).front = l[j] ∧ (afterGets j r).isEmpty = false) ∧
    (afterGets l.length r).isEmpty = true ∧ (afterGets l.length r).rd = some l.length ∧
    ((afterGets l.length r).insert v).ovf = true := by
  have hrd := h.rd_zero hpos
  have hwr : r.wr = l.length := h.wr.trans (Nat.mod_eq_of_lt hlt)
  have hcap : l.length < r.buf.length := h.capacity ▸ hlt
  have hdrained : afterGets l.length r = { r with rd := some l.length } := by
    rw [afterGets_eq hrd, Nat.mod_eq_of_lt hcap]
  refine ⟨hwr, hrd, h.ovf, fun j hj => ⟨?front, ?more⟩, ?drained, ?cursor, ?again⟩
  case front => rw [front_afterGets hrd (hj.trans hcap), h.getD hj]
  case more =>
    rw [Bool.eq_false_iff, ne_eq, isEmpty_afterGets_iff hrd (hj.trans hcap) h.ovf, hwr]
    exact hj.ne
  case drained => exact (isEmpty_afterGets_iff hrd hcap h.ovf).mpr hwr.symm
  case cursor => rw [hdrained]
  case again =>
    rw [hdrained]
    exact insert_ovf_of_full _ v (congrArg some hwr.symm)

/-- The buffer filled to its capacity: it counts as empty, and all its bytes are read back. -/
theorem Filled.at_capacity (hn : l.length = n) :
    r.wr = 0 ∧ r.rd = some 0 ∧ r.ovf = false ∧ r.isEmpty = true ∧
    ∀ j (h : j < l.length), (afterGets j r).front = l[j] := by
  have hrd := h.rd_zero hpos
  have hwr : r.wr = 0 := by rw [h.wr, hn, Nat.mod_self]
  refine ⟨hwr, hrd, h.ovf, isEmpty_iff.mpr (.inl ⟨by rw [hrd, hwr], h.ovf⟩), fun j hj => ?_⟩
  rw [front_afterGets hrd (hj.trans_le h.content.length_le), h.getD hj]

/-- The insert beyond the capacity overwrites the first slot and leaves the read cursor there. -/
theorem Filled.past_capacity (hn : l.length = n) :
    (r.insert v).ovf = true ∧ (r.insert v).rd = some 0 ∧ (r.insert v).wr = 1 % n ∧ (r.insert v).buf = l.set 0 v ∧
    ∀ j, j < n → (afterGets j (r.insert v)).front = (l.set 0 v).getD j 0 := by
  obtain ⟨hwr, hrd, -⟩ := h.at_capacity hpos hn
  have hbuf : (r.insert v).buf = l.set 0 v := by rw [insert_buf, hwr, h.buf_eq hn]
  have hrd' : (r.insert v).rd = some 0 := by rw [insert_rd, hrd]; rfl
  refine ⟨insert_ovf_of_full r v (by rw [hrd, hwr]), hrd', by rw [insert_wr, hwr, h.capacity], hbuf, fun j hj => ?_⟩
  rw [front_afterGets hrd' (by rw [hbuf, List.length_set, hn]; exact hj), hbuf]

end

/-- Settles O47: up to N inserts fill the cleared buffer in order, and the rest is read off the filled buffer. -/
theorem ringCapacityConsequences : Obligations.RingCapacityConsequences := by
  intro n r l v hclear _ hpos hle full past drained
  have hfull : Filled n l full := (filled_nil_iff.mpr hclear).foldl_insert (by simpa using hle)
  obtain ⟨-, -, hnever, -⟩ := hclear
  refine ⟨hfull.below_capacity v hpos, fun hn => ?_, front_of_never hnever, advance_of_never hnever,
    isEmpty_iff.mpr (.inr hnever)⟩
  obtain ⟨hwr, hrd, hovf, hempty, hfront⟩ := hfull.at_capacity hpos hn
  exact ⟨hwr, hrd, hovf, hempty, hfront, hfull.past_capacity v hpos hn⟩

end Sys2Proof.RingUnit
end

section
/-! SUPPORT. PROOFS. The two round trips of the command word, and the decoder against the rows of the operation map (30_encoding.md). -/

open Sys2Proof.Machine Sys2Proof.Encoding

namespace Sys2Proof.RoundTrip

/-! ### From a command to its word and back (R141, R143) -/

open Laws Laws.FieldRoundTrip in
/-- The family FieldRoundTrip, as one statement. -/
theorem decodeFields_encodeFields : ∀ i : Instr, FieldRoundTrip.Statement i
  | .nop => nop
  | .halt => halt
  | .ldlo k imm => ldlo k imm
  | .ldhi k imm => ldhi k imm
  | .movres k => movres k
  | .stb k addr => stb k addr
  | .ldb addr => ldb addr
  | .gacq => gacq
  | .grel => grel
  | .eint => eint
  | .dint => dint
  | .reti => reti
  | .jmp target => jmp target
  | .bz target => bz target
  | .bnz target => bnz target
  | .tinit t mode div src => tinit t mode div src
  | .tmode t mode => tmode t mode
  | .treset t => treset t
  | .tcapm t c cm scs => tcapm t c cm scs
  | .tccis t c src => tccis t c src
  | .toutm t c om => toutm t c om
  | .tsetcmp t c value => tsetcmp t c value
  | .tgetcap t c => tgetcap t c
  | .tccie t c en => tccie t c en
  | .tgetcov t c => tgetcov t c
  | .tclrcov t c => tclrcov t c
  | .sena ch => sena ch
  | .sdis ch => sdis ch
  | .sie ch d en => sie ch d en
  | .sifg ch d => sifg ch d
  | .swr ch role value => swr ch role value
  | .srd ch role => srd ch role
  | .bcalc os => bcalc os
  | .bset ch os => bset ch os
  | .iptx ch addr ten => iptx ch addr ten
  | .iprx ch addr ten => iprx ch addr ten
  | .istt ch => istt ch
  | .istp ch => istp ch
  | .igstt ch => igstt ch
  | .isend ch byte => isend ch byte
  | .isendR ch => isendR ch
  | .iwreg ch reg => iwreg ch reg
  | .irreg ch reg => irreg ch reg
  | .irecv ch => irecv ch
  | .pinit ch divisor => pinit ch divisor
  | .psend ch byte => psend ch byte
  | .psendR ch => psendR ch
  | .precv ch => precv ch
  | .ploop ch en => ploop ch en
  | .pgloop ch => pgloop ch
  | .pgfe ch => pgfe ch
  | .pgoe ch => pgoe ch
  | .rins b byte => rins b byte
  | .rinsR b => rinsR b
  | .rget b => rget b
  | .rempty b => rempty b
  | .rovf b => rovf b
  | .rclrovf b => rclrovf b
  | .rclr b => rclr b

/-- Settles O2: the fields come back from the word, and the command from its fields. -/
theorem decodeEncodeRoundTrip : Obligations.DecodeEncodeRoundTrip := by
  intro i hwf
  rw [decode, encode, Fields.ofWord_toWord]
  exact decodeFields_encodeFields i hwf

/-! ### Each operand's code from the operand (R144, R145, R251, R301) -/

@[simp] theorem argReg_code_ofCode (v : BitVec 2) : (ArgReg.ofCode v).code = v := by
  revert v; decide

@[simp] theorem chan_code_ofCode (v : BitVec 2) : (Chan.ofCode v).code = v := by
  revert v; decide

@[simp] theorem dir_code_ofCode (b : Bool) : (Dir.ofCode b).code = b := by
  cases b <;> rfl

@[simp] theorem timerMode_code_ofCode (v : BitVec 2) : (TimerMode.ofCode v).code = v := by
  revert v; decide

@[simp] theorem divider_code_ofCode (v : BitVec 2) : (Divider.ofCode v).code = v := by
  revert v; decide

@[simp] theorem clockSource_code_ofCode (v : BitVec 2) : (ClockSource.ofCode v).code = v := by
  revert v; decide

@[simp] theorem captureMode_code_ofCode (v : BitVec 2) : (CaptureMode.ofCode v).code = v := by
  revert v; decide

@[simp] theorem captureInput_code_ofCode (v : BitVec 2) : (CaptureInput.ofCode v).code = v := by
  revert v; decide

theorem role_code_of_ofCode {v : BitVec 4} {r : Role} (h : Role.ofCode? v = some r) : r.code = v := by
  revert v; cases r <;> decide

/-! ### A field from its low part, where the rest is zero (R143) -/

theorem zero_append_low {m n : Nat} (v : BitVec (m + n)) (h : v.extractLsb' n m = 0#m) : 0#m ++ v.extractLsb' 0 n = v := by
  rw [← h]
  exact BitVec.extractLsb'_append_extractLsb'

theorem ofBool_getLsbD {w : Nat} (v : BitVec w) (n : Nat) : BitVec.ofBool (v.getLsbD n) = v.extractLsb' n 1 := by
  ext i hi
  obtain rfl : i = 0 := by omega
  simp

theorem xOf_xLow {f : Fields} (h : f.xHigh = 0#2) : xOf f.xLow = f.x :=
  zero_append_low (m := 2) (n := 2) f.x h

theorem yOf_yBit {f : Fields} (h : f.yHigh = 0#3) : yOf f.yBit = f.y := by
  rw [yOf, Fields.yBit, ofBool_getLsbD]
  exact zero_append_low (m := 3) (n := 1) f.y h

section
variable {f : Fields}

theorem immOfBit_low (h : f.immBits 1 15 = 0#15) : immOfBit f.imm[0] = f.imm := by
  rw [immOfBit, ← BitVec.getLsbD_eq_getElem, ofBool_getLsbD]
  exact zero_append_low (m := 15) (n := 1) f.imm h

theorem immOf2_low (h : f.immBits 2 14 = 0#14) : immOf2 (f.immBits 0 2) = f.imm :=
  zero_append_low (m := 14) (n := 2) f.imm h

theorem imm3_low (h : f.immBits 3 13 = 0#13) : 0#13 ++ f.immBits 0 3 = f.imm :=
  zero_append_low (m := 13) (n := 3) f.imm h

theorem immOfByte_low (h : f.immBits 8 8 = 0#8) : immOfByte (f.immBits 0 8) = f.imm :=
  zero_append_low (m := 8) (n := 8) f.imm h

theorem imm10_low (h : f.immBits 10 6 = 0#6) : 0#6 ++ f.immBits 0 10 = f.imm :=
  zero_append_low (m := 6) (n := 10) f.imm h

/-- The mode and the synchronizer bit of TCAPM (R258). -/
theorem immCapture_low (h : f.immBits 3 13 = 0#13) :
    0#13 ++ (BitVec.ofBool f.imm[2] ++ f.immBits 0 2) = f.imm := by
  rw [← BitVec.getLsbD_eq_getElem, ofBool_getLsbD, Fields.immBits,
    BitVec.extractLsb'_append_extractLsb'_eq_extractLsb' (show 2 = 0 + 2 from rfl)]
  exact imm3_low h

/-- The three control fields of TINIT (R255). -/
theorem immInit_low (h : f.immBits 6 10 = 0#10) :
    0#10 ++ (f.immBits 4 2 ++ (f.immBits 2 2 ++ f.immBits 0 2)) = f.imm := by
  simp only [Fields.immBits]
  rw [
    BitVec.extractLsb'_append_extractLsb'_eq_extractLsb' (show 2 = 0 + 2 from rfl),
    BitVec.extractLsb'_append_extractLsb'_eq_extractLsb' (show 4 = 0 + 4 from rfl)]
  exact zero_append_low (m := 10) (n := 6) f.imm h

end

/-! ### From a word to its command and back (R143, R148) -/

theorem zeros_eq_ok {ok : Bool} {i j : Instr} : zeros ok j = .ok i ↔ ok = true ∧ j = i := by
  cases ok <;> simp [zeros]

/-- The command is well formed and its fields are f. -/
def IsEncodedBy (i : Instr) (f : Fields) : Prop := encodeFields i = f ∧ i.wellFormed = true

theorem field_eq {v : BitVec 4} {n : Nat} (h : v.toNat = n) : BitVec.ofNat 4 n = v := by
  rw [← h, BitVec.ofNat_toNat, BitVec.setWidth_eq]

theorem fields_mk_eq {f : Fields} {u op x y : BitVec 4} {imm : Half} :
    Fields.mk u op x y imm = f ↔ u = f.u ∧ op = f.op ∧ x = f.x ∧ y = f.y ∧ imm = f.imm := by
  cases f
  simp

section
variable {f : Fields} {i : Instr}

theorem decodeControl_encoded (hu : f.u.toNat = 0) (h : decodeControl f = .ok i) : IsEncodedBy i f := by
  unfold decodeControl at h
  split at h
  case h_16 => cases h
  all_goals
    rename_i hop
    simp only [zeros_eq_ok, Bool.and_eq_true, beq_iff_eq] at h
    obtain ⟨hzero, rfl⟩ := h
    refine ⟨?_, rfl⟩
    simp [encodeFields, fields_mk_eq, ← field_eq hu, ← field_eq hop, hzero, xOf_xLow]

theorem decodeTimer_encoded (hu : f.u.toNat = 1) (h : decodeTimer f = .ok i) : IsEncodedBy i f := by
  unfold decodeTimer at h
  split at h
  case h_12 => cases h
  case h_1 hop =>
    simp only [zeros_eq_ok, Bool.and_eq_true, beq_iff_eq] at h
    obtain ⟨⟨hy, himm⟩, rfl⟩ := h
    refine ⟨fields_mk_eq.mpr ⟨field_eq hu, field_eq hop, by simp, hy.symm, ?_⟩, rfl⟩
    simpa using immInit_low himm
  case h_4 hop =>
    simp only [zeros_eq_ok, beq_iff_eq] at h
    obtain ⟨himm, rfl⟩ := h
    refine ⟨fields_mk_eq.mpr ⟨field_eq hu, field_eq hop, by simp, by simp, ?_⟩, rfl⟩
    simpa using immCapture_low himm
  case h_7 hop =>
    obtain rfl := Except.ok.inj h
    refine ⟨?_, rfl⟩
    simp [encodeFields, fields_mk_eq, ← field_eq hu, ← field_eq hop]
  all_goals
    rename_i hop
    simp only [zeros_eq_ok, Bool.and_eq_true, beq_iff_eq] at h
    obtain ⟨hzero, rfl⟩ := h
    refine ⟨?_, rfl⟩
    simp [encodeFields, fields_mk_eq, ← field_eq hu, ← field_eq hop, hzero, imm3_low, immOf2_low, immOfBit_low]

/-- SWR asks for an immediate that fits its role, which is what a well-formed command has (R149). -/
theorem decodeSerial_encoded (hu : f.u.toNat = 2) (h : decodeSerial f = .ok i) : IsEncodedBy i f := by
  unfold decodeSerial at h
  split at h
  case h_7 => cases h
  case h_5 hop =>
    split at h
    case isFalse => cases h
    split at h
    case h_1 => cases h
    rename_i hzero _ role hrole
    split at h
    case isTrue => cases h
    rename_i hfits
    obtain rfl := Except.ok.inj h
    refine ⟨?_, ?_⟩
    · simp [encodeFields, fields_mk_eq, ← field_eq hu, ← field_eq hop, xOf_xLow (beq_iff_eq.mp hzero),
        role_code_of_ofCode hrole]
    · cases hb : role.isByte <;> simp_all [Instr.wellFormed]
  case h_6 hop =>
    split at h
    case isFalse => cases h
    split at h
    case h_1 => cases h
    rename_i hzero _ role hrole
    simp only [Bool.and_eq_true, beq_iff_eq] at hzero
    obtain rfl := Except.ok.inj h
    refine ⟨?_, rfl⟩
    simp [encodeFields, fields_mk_eq, ← field_eq hu, ← field_eq hop, hzero, xOf_xLow, role_code_of_ofCode hrole]
  all_goals
    rename_i hop
    simp only [zeros_eq_ok, Bool.and_eq_true, beq_iff_eq] at h
    obtain ⟨hzero, rfl⟩ := h
    refine ⟨?_, rfl⟩
    simp [encodeFields, fields_mk_eq, ← field_eq hu, ← field_eq hop, hzero, xOf_xLow, yOf_yBit, immOfBit_low]

theorem decodeBaud_encoded (hu : f.u.toNat = 3) (h : decodeBaud f = .ok i) : IsEncodedBy i f := by
  unfold decodeBaud at h
  split at h
  case h_3 => cases h
  all_goals
    rename_i hop
    simp only [zeros_eq_ok, Bool.and_eq_true, beq_iff_eq] at h
    obtain ⟨hzero, rfl⟩ := h
    refine ⟨?_, rfl⟩
    simp [encodeFields, fields_mk_eq, ← field_eq hu, ← field_eq hop, hzero, xOf_xLow, yOf_yBit]

theorem decodeI2c_encoded (hu : f.u.toNat = 4) (h : decodeI2c f = .ok i) : IsEncodedBy i f := by
  unfold decodeI2c at h
  split at h
  case h_10 => cases h
  case h_6 hop =>
    split at h
    all_goals
      rename_i hbit
      simp only [zeros_eq_ok, Bool.and_eq_true, beq_iff_eq] at h
      obtain ⟨hzero, rfl⟩ := h
      refine ⟨?_, rfl⟩
      simp [encodeFields, fields_mk_eq, ← field_eq hu, ← field_eq hop, hzero, xOf_xLow, ← yOf_yBit, hbit, immOfByte_low]
  all_goals
    rename_i hop
    simp only [zeros_eq_ok, Bool.and_eq_true, beq_iff_eq] at h
    obtain ⟨hzero, rfl⟩ := h
    refine ⟨?_, rfl⟩
    simp [encodeFields, fields_mk_eq, ← field_eq hu, ← field_eq hop, hzero, xOf_xLow, yOf_yBit, immOfByte_low, imm10_low]

theorem decodeSpi_encoded (hu : f.u.toNat = 5) (h : decodeSpi f = .ok i) : IsEncodedBy i f := by
  unfold decodeSpi at h
  split at h
  case h_8 => cases h
  case h_2 hop =>
    split at h
    all_goals
      rename_i hbit
      simp only [zeros_eq_ok, Bool.and_eq_true, beq_iff_eq] at h
      obtain ⟨hzero, rfl⟩ := h
      refine ⟨?_, rfl⟩
      simp [encodeFields, fields_mk_eq, ← field_eq hu, ← field_eq hop, hzero, xOf_xLow, ← yOf_yBit, hbit, immOfByte_low]
  all_goals
    rename_i hop
    simp only [zeros_eq_ok, Bool.and_eq_true, beq_iff_eq] at h
    obtain ⟨hzero, rfl⟩ := h
    refine ⟨?_, rfl⟩
    simp [encodeFields, fields_mk_eq, ← field_eq hu, ← field_eq hop, hzero, xOf_xLow, immOfBit_low]

theorem decodeRing_encoded (hu : f.u.toNat = 6) (h : decodeRing f = .ok i) : IsEncodedBy i f := by
  unfold decodeRing at h
  split at h
  case h_7 => cases h
  case h_1 hop =>
    split at h
    all_goals
      rename_i hbit
      simp only [zeros_eq_ok, Bool.and_eq_true, beq_iff_eq] at h
      obtain ⟨hzero, rfl⟩ := h
      refine ⟨?_, rfl⟩
      simp [encodeFields, fields_mk_eq, ← field_eq hu, ← field_eq hop, hzero, ← yOf_yBit, hbit, immOfByte_low]
  all_goals
    rename_i hop
    simp only [zeros_eq_ok, Bool.and_eq_true, beq_iff_eq] at h
    obtain ⟨hzero, rfl⟩ := h
    refine ⟨?_, rfl⟩
    simp [encodeFields, fields_mk_eq, ← field_eq hu, ← field_eq hop, hzero]

theorem decodeFields_encoded (h : decodeFields f = .ok i) : IsEncodedBy i f := by
  unfold decodeFields at h
  split at h
  case h_1 hu => exact decodeControl_encoded hu h
  case h_2 hu => exact decodeTimer_encoded hu h
  case h_3 hu => exact decodeSerial_encoded hu h
  case h_4 hu => exact decodeBaud_encoded hu h
  case h_5 hu => exact decodeI2c_encoded hu h
  case h_6 hu => exact decodeSpi_encoded hu h
  case h_7 hu => exact decodeRing_encoded hu h
  case h_8 => cases h

end

theorem encode_of_decode {w : Word} {i : Instr} (h : decode w = .ok i) : encode i = w := by
  rw [encode, (decodeFields_encoded h).1, toWord_ofWord]

/-- Settles O3: the decoder of each unit reads back the fields that the encoder writes. -/
theorem encodeDecodeRoundTrip : Obligations.EncodeDecodeRoundTrip := fun _ _ h =>
  ⟨encode_of_decode h, (decodeFields_encoded h).2⟩

/-- Settles O1: each word is the encoding of its command. -/
theorem sampleWordsDecode : Obligations.SampleWordsDecode := ⟨rfl, rfl, rfl, rfl, rfl, rfl, rfl⟩

/-! ### The rows of the operation map (R143, R148, R149) -/

/-- Two rows hit by one word agree where both masks look. -/
theorem hits_agree {r q : OpRow} {w : Word} (hr : r.hits w = true) (hq : q.hits w = true) :
    r.value &&& q.mask = q.value &&& r.mask := by
  rw [OpRow.hits, beq_iff_eq] at hr hq
  rw [← hr, ← hq, BitVec.and_assoc, BitVec.and_assoc, BitVec.and_comm r.mask]

/-- Both rows can be hit by one word. -/
def OpRow.meets (r q : OpRow) : Bool := r.value &&& q.mask == q.value &&& r.mask

theorem meets_of_hits {r q : OpRow} {w : Word} (hr : r.hits w = true) (hq : q.hits w = true) : OpRow.meets r q = true :=
  beq_iff_eq.mpr (hits_agree hr hq)

theorem opRows_meet_only_themselves : (opRows.all fun r => opRows.all fun q => !OpRow.meets r q || decide (r = q)) = true := by
  rfl

theorem row_unique {r q : OpRow} {w : Word} (hr : r ∈ opRows) (hq : q ∈ opRows) (hrw : r.hits w = true) (hqw : q.hits w = true) :
    r = q := by
  have hrq := List.all_eq_true.mp (List.all_eq_true.mp opRows_meet_only_themselves r hr) q hq
  simpa [meets_of_hits hrw hqw] using hrq

/-- A word that a row hits has its fields match that row. -/
theorem hasRow_of_hit {r : OpRow} {w : Word} (hr : r ∈ opRows) (h : r.hits w = true) : HasRow (Fields.ofWord w) := by
  obtain ⟨hmu, hmop⟩ := mask_unit_operation hr
  rw [OpRow.hits, beq_iff_eq] at h
  have hfields := congrArg Fields.ofWord h
  rw [ofWord_and, hmu, hmop, and_fifteen, and_fifteen, fields_mk_eq] at hfields
  obtain ⟨hu, hop, hoperands⟩ := hfields
  exact ⟨r, by simp [rowsAt, hr, hu, hop], hoperands⟩

/-- How many operations each unit has (R143). -/
def operations : List Nat := [15, 11, 6, 2, 9, 7, 6]

theorem operation_lt {u op : Nat} {r : OpRow} (h : r ∈ rowsAt u op) : op < operations.getD u 0 := by
  have all : ∀ r ∈ opRows, (Fields.ofWord r.value).op.toNat < operations.getD (Fields.ofWord r.value).u.toNat 0 := by decide
  simp only [rowsAt, List.mem_filter, Bool.and_eq_true, beq_iff_eq] at h
  obtain ⟨hr, rfl, rfl⟩ := h
  exact all r hr

/-! ### The decoder of each unit accepts the fields that match a row (R148) -/

section
variable {f : Fields}

theorem operation_lt_of_hasRow (h : HasRow f) : f.op.toNat < operations.getD f.u.toNat 0 := by
  obtain ⟨r, hr, -⟩ := h
  exact operation_lt hr

theorem row_of_hasRow (h : HasRow f) {u op : Nat} (hu : f.u.toNat = u) (hop : f.op.toNat = op) : ∃ r ∈ rowsAt u op, OperandsMatch r f := by
  rwa [HasRow, hu, hop] at h

theorem decodeControl_accepts (hu : f.u.toNat = 0) (h : HasRow f) : ∃ i, decodeControl f = .ok i := by
  have hlt : f.op.toNat < 15 := by simpa [hu, operations] using operation_lt_of_hasRow h
  unfold decodeControl
  split
  case h_16 => grind
  all_goals
    rename_i hop
    obtain ⟨r, _ | ⟨_, ⟨⟩⟩, hrow⟩ := row_of_hasRow h hu hop
    refine ⟨_, zeros_eq_ok.mpr ⟨?_, rfl⟩⟩
    simpa [OperandsMatch, Fields.ofWord, xHigh_eq_zero, and_assoc] using hrow

theorem decodeTimer_accepts (hu : f.u.toNat = 1) (h : HasRow f) : ∃ i, decodeTimer f = .ok i := by
  have hlt : f.op.toNat < 11 := by simpa [hu, operations] using operation_lt_of_hasRow h
  unfold decodeTimer
  split
  case h_12 => grind
  case h_7 => exact ⟨_, rfl⟩
  all_goals
    rename_i hop
    obtain ⟨r, _ | ⟨_, ⟨⟩⟩, hrow⟩ := row_of_hasRow h hu hop
    refine ⟨_, zeros_eq_ok.mpr ⟨?_, rfl⟩⟩
    simpa [OperandsMatch, Fields.ofWord, immBits_eq_zero] using hrow

theorem decodeBaud_accepts (hu : f.u.toNat = 3) (h : HasRow f) : ∃ i, decodeBaud f = .ok i := by
  have hlt : f.op.toNat < 2 := by simpa [hu, operations] using operation_lt_of_hasRow h
  unfold decodeBaud
  split
  case h_3 => grind
  all_goals
    rename_i hop
    obtain ⟨r, _ | ⟨_, ⟨⟩⟩, hrow⟩ := row_of_hasRow h hu hop
    refine ⟨_, zeros_eq_ok.mpr ⟨?_, rfl⟩⟩
    simpa [OperandsMatch, Fields.ofWord, xHigh_eq_zero, yHigh_eq_zero, and_assoc] using hrow

/-- Where two rows share an operation, bit 0 of Y says which, and that row's zero bits are asked for. -/
theorem byBit_accepts {bit ok ok1 : Bool} {i j : Instr} (h : (bit = false ∧ ok = true) ∨ (bit = true ∧ ok1 = true)) :
    ∃ k, (if bit then zeros ok1 j else zeros ok i) = .ok k := by
  obtain ⟨rfl, rfl⟩ | ⟨rfl, rfl⟩ := h
  · exact ⟨i, rfl⟩
  · exact ⟨j, rfl⟩

theorem decodeI2c_accepts (hu : f.u.toNat = 4) (h : HasRow f) : ∃ i, decodeI2c f = .ok i := by
  have hlt : f.op.toNat < 9 := by simpa [hu, operations] using operation_lt_of_hasRow h
  unfold decodeI2c
  split
  case h_10 => grind
  case h_6 hop =>
    obtain ⟨r, _ | ⟨_, _ | ⟨_, ⟨⟩⟩⟩, hrow⟩ := row_of_hasRow h hu hop
    · refine byBit_accepts (.inl ?_)
      simpa [OperandsMatch, Fields.ofWord, xHigh_eq_zero, yHigh_eq_zero, immBits_eq_zero, y_eq_zero_iff, and_assoc,
        and_left_comm] using hrow
    · refine byBit_accepts (.inr ?_)
      simpa [OperandsMatch, Fields.ofWord, xHigh_eq_zero, yHigh_eq_zero, immBits_eq_zero, y_eq_one_iff, and_assoc,
        and_left_comm] using hrow
  all_goals
    rename_i hop
    obtain ⟨r, _ | ⟨_, ⟨⟩⟩, hrow⟩ := row_of_hasRow h hu hop
    refine ⟨_, zeros_eq_ok.mpr ⟨?_, rfl⟩⟩
    simpa [OperandsMatch, Fields.ofWord, xHigh_eq_zero, yHigh_eq_zero, immBits_eq_zero, and_assoc] using hrow

theorem decodeSpi_accepts (hu : f.u.toNat = 5) (h : HasRow f) : ∃ i, decodeSpi f = .ok i := by
  have hlt : f.op.toNat < 7 := by simpa [hu, operations] using operation_lt_of_hasRow h
  unfold decodeSpi
  split
  case h_8 => grind
  case h_2 hop =>
    obtain ⟨r, _ | ⟨_, _ | ⟨_, ⟨⟩⟩⟩, hrow⟩ := row_of_hasRow h hu hop
    · refine byBit_accepts (.inl ?_)
      simpa [OperandsMatch, Fields.ofWord, xHigh_eq_zero, yHigh_eq_zero, immBits_eq_zero, y_eq_zero_iff, and_assoc,
        and_left_comm] using hrow
    · refine byBit_accepts (.inr ?_)
      simpa [OperandsMatch, Fields.ofWord, xHigh_eq_zero, yHigh_eq_zero, immBits_eq_zero, y_eq_one_iff, and_assoc,
        and_left_comm] using hrow
  all_goals
    rename_i hop
    obtain ⟨r, _ | ⟨_, ⟨⟩⟩, hrow⟩ := row_of_hasRow h hu hop
    refine ⟨_, zeros_eq_ok.mpr ⟨?_, rfl⟩⟩
    simpa [OperandsMatch, Fields.ofWord, xHigh_eq_zero, immBits_eq_zero, and_assoc] using hrow

theorem decodeRing_accepts (hu : f.u.toNat = 6) (h : HasRow f) : ∃ i, decodeRing f = .ok i := by
  have hlt : f.op.toNat < 6 := by simpa [hu, operations] using operation_lt_of_hasRow h
  unfold decodeRing
  split
  case h_7 => grind
  case h_1 hop =>
    obtain ⟨r, _ | ⟨_, _ | ⟨_, ⟨⟩⟩⟩, hrow⟩ := row_of_hasRow h hu hop
    · refine byBit_accepts (.inl ?_)
      simpa [OperandsMatch, Fields.ofWord, xHigh_eq_zero, yHigh_eq_zero, immBits_eq_zero, y_eq_zero_iff, and_assoc,
        and_left_comm] using hrow
    · refine byBit_accepts (.inr ?_)
      simpa [OperandsMatch, Fields.ofWord, xHigh_eq_zero, yHigh_eq_zero, immBits_eq_zero, y_eq_one_iff, and_assoc,
        and_left_comm] using hrow
  all_goals
    rename_i hop
    obtain ⟨r, _ | ⟨_, ⟨⟩⟩, hrow⟩ := row_of_hasRow h hu hop
    refine ⟨_, zeros_eq_ok.mpr ⟨?_, rfl⟩⟩
    simpa [OperandsMatch, Fields.ofWord] using hrow

/-- The reserved forms of SWR and SRD, by the fields of unit 2 (R149). -/
def ValueReserved (f : Fields) : Prop :=
  ((f.op = 4#4 ∨ f.op = 5#4) ∧ Role.ofCode? f.y = none) ∨
  (f.op = 4#4 ∧ ∃ role, Role.ofCode? f.y = some role ∧ role.isByte = true ∧ f.immBits 8 8 ≠ 0#8)

theorem valueReserved_iff {w : Word} :
    valueReserved w = true ↔ (Fields.ofWord w).u = 2#4 ∧ ValueReserved (Fields.ofWord w) := by
  simp only [valueReserved, ValueReserved, Bool.or_eq_true, Bool.and_eq_true, beq_iff_eq, bne_iff_ne, Option.isNone_iff_eq_none,
    Option.map_eq_some_iff]
  tauto

/-- SWR and SRD are accepted where they are not of a reserved form. -/
theorem decodeSerial_accepts (hu : f.u.toNat = 2) (h : HasRow f) (hv : ¬ ValueReserved f) : ∃ i, decodeSerial f = .ok i := by
  have hlt : f.op.toNat < 6 := by simpa [hu, operations] using operation_lt_of_hasRow h
  unfold decodeSerial
  split
  case h_7 => grind
  case h_5 hop =>
    obtain ⟨r, _ | ⟨_, ⟨⟩⟩, hrow⟩ := row_of_hasRow h hu hop
    have hop4 : f.op = 4#4 := (field_eq hop).symm
    rw [if_pos (by simpa [OperandsMatch, Fields.ofWord, xHigh_eq_zero] using hrow)]
    cases hrole : Role.ofCode? f.y with
    | none => exact absurd (.inl ⟨.inl hop4, hrole⟩) hv
    | some role =>
      have hfits : role.isByte = true → f.immBits 8 8 = 0#8 := fun hb =>
        by_contra fun himm => hv (.inr ⟨hop4, role, hrole, hb, himm⟩)
      rw [immHigh_eq_zero] at hfits
      exact ⟨.swr (Chan.ofCode f.xLow) role f.imm, by cases hb : role.isByte <;> simp_all⟩
  case h_6 hop =>
    obtain ⟨r, _ | ⟨_, ⟨⟩⟩, hrow⟩ := row_of_hasRow h hu hop
    rw [if_pos (by simpa [OperandsMatch, Fields.ofWord, xHigh_eq_zero] using hrow)]
    cases hrole : Role.ofCode? f.y with
    | none => exact absurd (.inl ⟨.inr (field_eq hop).symm, hrole⟩) hv
    | some role => exact ⟨_, rfl⟩
  all_goals
    rename_i hop
    obtain ⟨r, _ | ⟨_, ⟨⟩⟩, hrow⟩ := row_of_hasRow h hu hop
    refine ⟨_, zeros_eq_ok.mpr ⟨?_, rfl⟩⟩
    simpa [OperandsMatch, Fields.ofWord, xHigh_eq_zero, yHigh_eq_zero, immBits_eq_zero, and_assoc] using hrow

end

theorem decode_accepts {w : Word} (h : HasRow (Fields.ofWord w)) (hv : valueReserved w = false) : ∃ i, decode w = .ok i := by
  unfold decode decodeFields
  split
  case h_1 hu => exact decodeControl_accepts hu h
  case h_2 hu => exact decodeTimer_accepts hu h
  case h_3 hu =>
    refine decodeSerial_accepts hu h fun hr => ?_
    rw [valueReserved_iff.mpr ⟨(field_eq hu).symm, hr⟩] at hv
    cases hv
  case h_4 hu => exact decodeBaud_accepts hu h
  case h_5 hu => exact decodeI2c_accepts hu h
  case h_6 hu => exact decodeSpi_accepts hu h
  case h_7 hu => exact decodeRing_accepts hu h
  case h_8 =>
    have hunit : operations.length ≤ (Fields.ofWord w).u.toNat := by
      change 7 ≤ (Fields.ofWord w).u.toNat
      grind
    have hlt := operation_lt_of_hasRow h
    rw [List.getD_eq_default _ _ hunit] at hlt
    exact absurd hlt (Nat.not_lt_zero _)

/-- Settles O4: rows that one word hits agree where both masks look, which only equal rows do; and on a word that a row hits the decoder
of its unit fails in the reserved forms alone. -/
theorem decodableWordsMatchRows : Obligations.DecodableWordsMatchRows := by
  refine ⟨fun r hr q hq w => row_unique hr hq, fun w => ⟨fun ⟨i, hi⟩ => ⟨exists_hit_of_decode hi, ?_⟩, fun ⟨⟨r, hr, hw⟩, hv⟩ => ?_⟩⟩
  · by_contra hv
    obtain ⟨e, he⟩ := decode_valueReserved (Bool.eq_true_of_not_eq_false hv)
    rw [hi] at he
    cases he
  · exact decode_accepts (hasRow_of_hit hr hw) hv

end Sys2Proof.RoundTrip
end

section
/-! SUPPORT. PROOFS. What a change of the devices alone leaves: the banks, the processor's flags, the memory and the programs (R31 to
R40). -/

open Sys2Proof.Machine

namespace Sys2Proof.Frames

/-! ### A change of the devices alone -/

/-- Between s and t only the serial unit, the timers, the ring buffers and the count of the draws can differ. -/
def DevicesOnly (s t : State) : Prop :=
  ∃ serial timers rings draws, t = { s with serial := serial, timers := timers, rings := rings, drawCount := draws }

section
variable {s t u : State}

theorem DevicesOnly.refl (s : State) : DevicesOnly s s := ⟨_, _, _, _, rfl⟩

theorem DevicesOnly.trans (h : DevicesOnly s t) (h' : DevicesOnly t u) : DevicesOnly s u := by
  obtain ⟨_, _, _, _, rfl⟩ := h
  obtain ⟨x, tm, r, n, rfl⟩ := h'
  exact ⟨x, tm, r, n, rfl⟩

theorem DevicesOnly.ctxState (h : DevicesOnly s t) (k : Ctx) : t.ctxState k = s.ctxState k := by
  obtain ⟨_, _, _, _, rfl⟩ := h
  cases k <;> rfl

theorem DevicesOnly.config (h : DevicesOnly s t) : ConfigKept s t := by
  obtain ⟨_, _, _, _, rfl⟩ := h
  exact ⟨rfl, rfl, rfl⟩

theorem DevicesOnly.flags (h : DevicesOnly s t) : FlagsKept s t := by
  obtain ⟨_, _, _, _, rfl⟩ := h
  exact ⟨⟨rfl, rfl, rfl, rfl⟩, ⟨rfl, rfl⟩, rfl⟩

theorem DevicesOnly.dm (h : DevicesOnly s t) : t.dm = s.dm := by
  obtain ⟨_, _, _, _, rfl⟩ := h
  rfl

theorem DevicesOnly.params (h : DevicesOnly s t) : t.params = s.params := h.config.params

theorem DevicesOnly.cur (h : DevicesOnly s t) : t.cur = s.cur := by
  rw [State.cur, h.flags.ctx, h.ctxState, State.cur]

theorem DevicesOnly.core (h : DevicesOnly s t) : CoreKept s t where
  args r := by rw [h.ctxState]; rfl
  guard := by rw [GuardKept, h.ctxState]; exact ⟨rfl, rfl⟩
  flags := h.flags
  mem := State.readByte_congr h.dm

theorem DevicesOnly.res (h : DevicesOnly s t) : ResKept s t := by
  rw [ResKept, h.ctxState]; rfl

end

/-! ### The operations of the serial unit, the timers and the ring buffers -/

section
variable (s : State) (ch : Chan)

theorem setIfg_devices (d : Dir) (v : Bool) : DevicesOnly s (s.setIfg ch d v) := ⟨_, _, _, _, rfl⟩

theorem setIe_devices (d : Dir) (v : Bool) : DevicesOnly s (s.setIe ch d v) := ⟨_, _, _, _, rfl⟩

theorem updCells_devices (f : Cells → Cells) : DevicesOnly s (s.updCells ch f) := ⟨_, _, _, _, rfl⟩

theorem setField_devices (f : Field) (v : Bool) : DevicesOnly s (s.setField ch f v) := ⟨_, _, _, _, rfl⟩

theorem setStatusBits_devices (v : Byte) : DevicesOnly s (s.setStatusBits ch v) := ⟨_, _, _, _, rfl⟩

theorem drawCtl1_devices (d : HoldDraw) : DevicesOnly s (s.drawCtl1 ch d) := by
  unfold State.drawCtl1
  split
  · exact .refl s
  · exact ((setField_devices ..).trans (setField_devices ..)).trans (setField_devices ..)

theorem applyDraw_devices (d : HoldDraw) : DevicesOnly s (s.applyDraw ch d) :=
  (((((setIfg_devices ..).trans (setIfg_devices ..)).trans (setIe_devices ..)).trans (setIe_devices ..)).trans
    (setStatusBits_devices ..)).trans (drawCtl1_devices ..)

theorem drawVolatile_devices : DevicesOnly s (s.drawVolatile ch) :=
  (applyDraw_devices ..).trans ⟨_, _, _, _, rfl⟩

theorem writeHold_devices (v : Bool) : DevicesOnly s (s.writeHold ch v) := by
  cases v
  · rw [State.writeHold_false]
    exact setField_devices ..
  · exact (setField_devices ..).trans (drawVolatile_devices ..)

theorem writeTxbuf_devices (v : Byte) : DevicesOnly s (s.writeTxbuf ch v) := ⟨_, _, _, _, rfl⟩

theorem writeCtl1_devices (v : Byte) : DevicesOnly s (s.writeCtl1 ch v) := by
  unfold State.writeCtl1
  split
  · exact (updCells_devices ..).trans (drawVolatile_devices ..)
  · exact updCells_devices ..

theorem storeCell_devices (role : Role) (v : Half) : DevicesOnly s (s.storeCell ch role v) := by
  cases role
  case ctl1 => exact writeCtl1_devices ..
  case rxbuf => exact .refl s
  all_goals exact ⟨_, _, _, _, rfl⟩

theorem updTimer_devices (n : Nat) (f : Timer → Timer) : DevicesOnly s (s.updTimer n f) := ⟨_, _, _, _, rfl⟩

theorem setRing_devices (b : Nat) (r : Ring) : DevicesOnly s (s.setRing b r) := ⟨_, _, _, _, rfl⟩

theorem receiveByte_devices (v : Byte) : DevicesOnly s (s.receiveByte ch v) := by
  unfold State.receiveByte
  split
  · exact (setField_devices ..).trans ((updCells_devices ..).trans (setIfg_devices ..))
  · exact (updCells_devices ..).trans (setIfg_devices ..)

/-- The environment changes the devices alone (R36). -/
theorem envStep_devices (e : EnvStep) : DevicesOnly s (envStep e s) := by
  rw [envStep_kept e s]
  exact ⟨_, _, _, _, rfl⟩

end

/-! ### A state with its micro-operation retired reads like the state before (R43) -/

section
variable (s : State) (k : Ctx) (m : MicroOp) (q : List MicroOp) (w : Word)

@[simp] theorem retire_cellValue (c : Chan) (r : Role) : (s.retire k m q w).cellValue c r = s.cellValue c r :=
  State.cellValue_congr (State.retire_serial ..) c r

@[simp] theorem retire_field (c : Chan) (f : Field) : (s.retire k m q w).field c f = s.field c f :=
  State.field_congr (State.retire_params ..) (State.retire_serial ..) c f

@[simp] theorem retire_readByte (a : Half) : (s.retire k m q w).readByte a = s.readByte a :=
  State.readByte_congr (State.retire_dm ..) a

end

/-! ### The current context's bank, changed (R31) -/

section
variable (s : State)

@[simp] theorem updCur_self (f : CtxState → CtxState) : (s.updCur f).ctxState s.ctx = f s.cur := State.updCtx_self ..

theorem updCur_other (f : CtxState → CtxState) {k : Ctx} (hk : k ≠ s.ctx) : (s.updCur f).ctxState k = s.ctxState k :=
  State.updCtx_other _ _ hk

@[simp] theorem setArg_self (r : ArgReg) (v : Word) : (s.setArg r v).ctxState s.ctx = s.cur.setArg r v := updCur_self ..

@[simp] theorem setCp_self (n : Nat) : (s.setCp n).ctxState s.ctx = { s.cur with cp := n } := updCur_self ..

@[simp] theorem writeByte_ctxState (a : Half) (v : Byte) (k : Ctx) : (s.writeByte a v).ctxState k = s.ctxState k := by
  cases k <;> rfl

/-- GACQ's effect on its own bank (R208). -/
@[simp] theorem guardAcquire_self : s.guardAcquire.ctxState s.ctx =
    { s.cur with gsaved := if s.cur.gdepth = 0 then s.gie else s.cur.gsaved, gdepth := s.cur.gdepth + 1 } := by
  cases hc : s.ctx <;> simp [State.guardAcquire, State.updCur, State.updCtx, State.ctxState, State.cur, hc]

@[simp] theorem guardAcquire_gie : s.guardAcquire.gie = false := rfl

/-- GREL's effect on its own bank (R209). -/
@[simp] theorem guardRelease_self : s.guardRelease.ctxState s.ctx = { s.cur with gdepth := s.cur.gdepth - 1 } := by
  simp only [State.guardRelease]
  split <;> cases hc : s.ctx <;> simp [State.updCur, State.updCtx, State.ctxState, State.cur, hc]

theorem guardRelease_gie : s.guardRelease.gie = if s.cur.gdepth - 1 = 0 then s.cur.gsaved else s.gie := by
  simp only [State.guardRelease, State.updCur_cur]
  split <;> simp

end

end Sys2Proof.Frames
end

section
/-! SUPPORT. PROOFS. The sequencer's step: which micro-operation runs and of which command, and the three ways it can end (R42, R43). -/

open Sys2Proof.Machine Sys2Proof.Encoding

namespace Sys2Proof.Sequencing

/-! ### The micro-operations that belong to one command (R202, R206, R208 to R212) -/

/-- The command whose micro-operation this is, for the kinds that only one command has. -/
def owner? : MicroOp → Option Instr
  | .halt => some .halt
  | .storeArg k addr => some (.stb k addr)
  | .guardAcquire => some .gacq
  | .guardRelease => some .grel
  | .setGie v => some (if v then .eint else .dint)
  | .returnFromIsr => some .reti
  | _ => none

/-- What the Decode checks of HALT, GACQ, GREL and RETI establish (R150). -/
def Allowed (s : State) : MicroOp → Prop
  | .halt => s.ctx = .main ∧ s.cur.gdepth = 0
  | .guardAcquire => s.cur.gdepth < 255
  | .guardRelease => 0 < s.cur.gdepth
  | .returnFromIsr => s.ctx = .isr ∧ s.cur.gdepth = 0
  | _ => True

/-- Command i is issued at s with these checks, m first and rest after it. -/
structure Issued (i : Instr) (s : State) (checks : List (Bool × Trap)) (m : MicroOp) (rest : List MicroOp) : Prop where
  exec : exec i s = issue i checks (m :: rest) s
  rest_canWait : rest.all MicroOp.canWait = true
  head_canWait : rest ≠ [] → m.canWait = true
  owner : ∀ j, owner? m = some j → i = j
  allowed : firstTrap checks = none → Allowed s m

section
variable {s : State}

theorem guardHeld_iff : s.guardHeld = true ↔ s.cur.gdepth ≠ 0 := by
  simp [State.guardHeld]

theorem guardHeld_eq_false : s.guardHeld = false ↔ s.cur.gdepth = 0 := by
  simp [State.guardHeld]

theorem guardFull_iff : s.guardFull = true ↔ 255 ≤ s.cur.gdepth := by
  simp [State.guardFull]

theorem guardFull_eq_false : s.guardFull = false ↔ s.cur.gdepth < 255 := by
  simp [State.guardFull]

theorem firstTrap_cons_none {bad : Bool} {t : Trap} {l : List (Bool × Trap)} :
    firstTrap ((bad, t) :: l) = none ↔ bad = false ∧ firstTrap l = none := by
  cases bad <;> simp

end

theorem owner_of_canWait {m : MicroOp} (h : m.canWait = true) : owner? m = none := by
  cases m <;> simp_all [MicroOp.canWait, owner?]

theorem allowed_of_owner_none {m : MicroOp} (s : State) (h : owner? m = none) : Allowed s m := by
  cases m <;> simp_all [Allowed, owner?]

section
variable {i : Instr} {s : State} {checks : List (Bool × Trap)} {m : MicroOp} {rest : List MicroOp}

/-- A command of one micro-operation of a kind that other commands have too. -/
theorem issued_single (he : exec i s = issue i checks [m] s) (ho : owner? m = none) : ∃ checks m rest, Issued i s checks m rest :=
  ⟨checks, m, [], he, rfl, fun h => absurd rfl h, fun _ h => by simp [ho] at h, fun _ => allowed_of_owner_none s ho⟩

/-- A command of one micro-operation of its own. -/
theorem issued_owned (he : exec i s = issue i checks [m] s) (ho : owner? m = some i) (ha : firstTrap checks = none → Allowed s m) :
    ∃ checks m rest, Issued i s checks m rest :=
  ⟨checks, m, [], he, rfl, fun h => absurd rfl h, fun _ h => Option.some.inj (ho.symm.trans h), ha⟩

/-- A command of micro-operations that can all be left over. -/
theorem issued_several (he : exec i s = issue i checks (m :: rest) s) (hall : (m :: rest).all MicroOp.canWait = true) :
    ∃ checks m rest, Issued i s checks m rest := by
  rw [List.all_cons, Bool.and_eq_true] at hall
  obtain ⟨hm, hrest⟩ := hall
  have ho := owner_of_canWait hm
  exact ⟨checks, m, rest, he, hrest, fun _ => hm, fun _ h => by simp [ho] at h, fun _ => allowed_of_owner_none s ho⟩

end

theorem irregReceive_canWait (ch : Chan) (b n : Nat) : (irregReceive ch b n).all MicroOp.canWait = true := by
  unfold irregReceive
  split
  · rfl
  · rw [List.all_flatMap, List.all_eq_true]
    intro j _
    split <;> rfl

theorem iwregData_canWait (ch : Chan) (src : Half) (n : Nat) : (iwregData ch src n).all MicroOp.canWait = true := by
  simp [iwregData, List.all_flatMap, MicroOp.canWait]

/-- Every command is issued so: `exec_issue`, with the command that an owned micro-operation belongs to and what its checks say. -/
theorem exists_issued (i : Instr) (s : State) : ∃ checks m rest, Issued i s checks m rest := by
  cases i
  case halt =>
    refine issued_owned rfl rfl fun h => ?_
    simp only [firstTrap_cons_none, guardHeld_eq_false, beq_eq_false_iff_ne] at h
    obtain ⟨hctx, hdepth, -⟩ := h
    exact ⟨by cases hc : s.ctx <;> simp_all, hdepth⟩
  case reti =>
    refine issued_owned rfl rfl fun h => ?_
    simp only [firstTrap_cons_none, guardHeld_eq_false, beq_eq_false_iff_ne] at h
    obtain ⟨hctx, hdepth, -⟩ := h
    exact ⟨by cases hc : s.ctx <;> simp_all, hdepth⟩
  case gacq => exact issued_owned rfl rfl fun h => guardFull_eq_false.mp (firstTrap_cons_none.mp h).1
  case grel =>
    refine issued_owned rfl rfl fun h => ?_
    simp only [firstTrap_cons_none, Bool.not_eq_false', guardHeld_iff] at h
    exact Nat.pos_of_ne_zero h.1
  case stb | eint | dint =>
    all_goals
      refine issued_owned (checks := []) rfl rfl fun _ => ?_
      trivial
  case nop | ldlo | ldhi | movres | ldb | jmp | bz | bnz =>
    all_goals
      refine issued_single (checks := []) rfl ?_
      rfl
  case iwreg ch reg => exact issued_several rfl (by simp [iwregData_canWait, MicroOp.canWait])
  case irreg ch reg => exact issued_several rfl (by simp [irregReceive_canWait, MicroOp.canWait])
  case bset | iptx | iprx | isend | isendR | irecv | pinit | psend | psendR | precv =>
    all_goals
      refine issued_several rfl ?_
      rfl
  all_goals
    refine issued_single rfl ?_
    rfl

/-! ### The micro-operation that the sequencer's step runs (R43) -/

/-- The sequencer's step at s runs m, with rest after it, for the command whose word is w: the command has just been fetched and its
checks pass, or it is in progress. -/
inductive Current (s : State) (m : MicroOp) (rest : List MicroOp) (w : Word) : Prop
  | fetched {i : Instr} {checks : List (Bool × Trap)} (idle : s.cur.useq = []) (word : fetchWord s = some w)
      (decodes : decode w = .ok i) (issued : Issued i s checks m rest) (pass : firstTrap checks = none)
  | resumed (inProgress : s.cur.useq = m :: rest) (word : w = s.cur.word)

/-- The three ends of the sequencer's step. -/
inductive SequencerEffect (s t : State) : Prop
  | raised (tr : Trap) (h : t = s.raise tr (faultWord s))
  | done {m : MicroOp} {rest : List MicroOp} {w : Word} {s1 : State} (current : Current s m rest w) (run : m.run s = .done s1)
      (h : t = s1.retire s.ctx m rest w)
  | waits {m : MicroOp} {rest : List MicroOp} {w : Word} (current : Current s m rest w) (run : m.run s = .wait)
      (h : t = s.loadSeq s.ctx (m :: rest) w)

section
variable {s t : State} {m : MicroOp} {rest : List MicroOp} {w : Word}

theorem faultWord_of_fetch (hu : s.cur.useq = []) (hw : fetchWord s = some w) : faultWord s = w := by
  simp [faultWord, hu, hw]

theorem faultWord_past_end (hu : s.cur.useq = []) (hw : fetchWord s = none) : faultWord s = 0 := by
  simp [faultWord, hu, hw]

theorem faultWord_of_inProgress (hu : s.cur.useq ≠ []) : faultWord s = s.cur.word := by
  simp [faultWord, hu]

theorem Current.faultWord (h : Current s m rest w) : faultWord s = w := by
  cases h with
  | fetched idle word => exact faultWord_of_fetch idle word
  | resumed inProgress word => rw [word, faultWord_of_inProgress (by simp [inProgress])]

theorem runHead_effect (h : Current s m rest w) : SequencerEffect s (runHead w (m :: rest) s) := by
  rcases runHead_cases w m rest s with ⟨s1, hrun, hend⟩ | ⟨hrun, hend⟩ | ⟨tr, -, hend⟩
  · exact .done h hrun hend
  · exact .waits h hrun hend
  · exact .raised tr (by rw [hend, h.faultWord])

theorem exec_effect {i : Instr} (hu : s.cur.useq = []) (hw : fetchWord s = some w) (hd : decode w = .ok i)
    (h : exec i s = .next t) : SequencerEffect s t := by
  obtain ⟨checks, m, rest, issued⟩ := exists_issued i s
  have hword : encode i = w := RoundTrip.encode_of_decode hd
  rw [issued.exec] at h
  cases hpass : firstTrap checks with
  | none =>
    rw [issue_pass hpass, hword] at h
    injection h with h
    exact h ▸ runHead_effect (.fetched hu hw hd issued hpass)
  | some tr =>
    rw [issue_fail hpass, hword] at h
    injection h with h
    exact .raised tr (by rw [← h, faultWord_of_fetch hu hw])

theorem beginCommand_effect (hu : s.cur.useq = []) (h : beginCommand s = .next t) : SequencerEffect s t := by
  rcases beginCommand_cases s with ⟨hw, hb⟩ | ⟨w, e, hw, -, hb⟩ | ⟨w, i, hw, hd, hb⟩ <;> rw [hb] at h
  · injection h with h
    exact .raised .fetchRange (by rw [← h, faultWord_past_end hu hw])
  · injection h with h
    exact .raised .reservedEncoding (by rw [← h, faultWord_of_fetch hu hw])
  · exact exec_effect hu hw hd h

theorem resume_effect (hu : s.cur.useq ≠ []) : SequencerEffect s (resume s) := by
  obtain ⟨m, rest, hq⟩ := List.exists_cons_of_ne_nil hu
  rw [resume, hq]
  exact runHead_effect (.resumed hq rfl)

/-- What a step of the block can do: the sequencer's step, an interrupt entry, a step of the environment, or a turn that is not enabled
(R43, R44). -/
inductive StepEffect (s t : State) : Prop
  | sequencer (turn : SequencerNext s) (running : s.status = .running) (effect : SequencerEffect s.spendTurn t)
  | entry (turn : s.nextTurn = .interrupt) (enabled : s.entryEnabled = true) (h : t = s.spendTurn.interruptEntry)
  | dropped (turn : s.nextTurn = .interrupt) (h : t = s.spendTurn)
  | environment (e : EnvStep) (turn : s.nextTurn = .env e) (h : t = envStep e s.spendTurn)

theorem step_effect (h : step s = .next t) : StepEffect s t := by
  obtain ⟨-, ⟨hturn, hrun, ⟨hu, hb⟩ | ⟨hu, rfl⟩⟩ | ⟨hturn, ⟨he, h⟩ | ⟨-, h⟩⟩ | ⟨e, hturn, h⟩⟩ := step_cases h
  · exact .sequencer hturn hrun (beginCommand_effect (by simpa using hu) hb)
  · exact .sequencer hturn hrun (resume_effect (by simpa using hu))
  · exact .entry hturn he h
  · exact .dropped hturn h
  · exact .environment e hturn h

end

/-! ### Enabled steps, forward (R43) -/

section
variable {s : State}

/-- A block that runs takes the sequencer's step on its turn. -/
theorem step_of_turn (h : Runs s) (hturn : SequencerNext s) : step s = sequencerStep s.spendTurn := by
  rw [SequencerNext] at hturn
  simp [step, h.legal, hturn, takeTurn]

theorem sequencerStep_inProgress (hrun : s.status = .running) (hu : s.cur.useq ≠ []) : sequencerStep s = .next (resume s) := by
  simp [sequencerStep, hrun, hu]

theorem step_inProgress {m : MicroOp} {rest : List MicroOp} (h : Runs s) (hturn : SequencerNext s) (hq : s.cur.useq = m :: rest) :
    step s = .next (runHead s.cur.word (m :: rest) s.spendTurn) := by
  rw [step_of_turn h hturn, sequencerStep_inProgress (by simp [h.running]) (by simp [hq]), resume]
  simp [hq]

/-- Retiring a micro-operation, as one update of the context (R43). -/
theorem retire_eq_updCtx (s : State) (k : Ctx) (m : MicroOp) (rest : List MicroOp) (w : Word) :
    s.retire k m rest w = s.updCtx k (fun c =>
      { c with useq := rest, word := w, cp := if rest = [] ∧ m.isControl = false then c.cp + 1 else c.cp }) := by
  have hcond : (rest.isEmpty && !m.isControl) = true ↔ rest = [] ∧ m.isControl = false := by simp
  simp only [State.retire, State.loadSeq, hcond]
  cases k <;> simp only [State.updCtx] <;> split <;> rfl

/-- Waiting changes nothing where the micro-operations are already loaded (R42). -/
theorem loadSeq_loaded {q : List MicroOp} (hq : s.cur.useq = q) : s.loadSeq s.ctx q s.cur.word = s := by
  subst hq
  cases hc : s.ctx <;> simp only [State.loadSeq, State.updCtx, State.cur, State.ctxState, hc] <;> rw [← hc]

end

/-- Settles O7: a step goes on with the head of the micro-operations, which ends in one of three ways. -/
theorem stepResumesCommandInProgress : Obligations.StepResumesCommandInProgress := by
  intro s m rest hs hturn hq
  rw [step_inProgress hs hturn hq]
  refine ⟨fun s1 hrun => ?done, fun hrun => ?wait, fun tr hrun => ⟨_, by rw [runHead_trap hrun], raises_raise ..⟩⟩
  case done => rw [runHead_done hrun, retire_eq_updCtx, State.spendTurn_ctx]
  case wait =>
    have hload := loadSeq_loaded (s := s.spendTurn) (q := m :: rest) (by simpa using hq)
    rw [runHead_wait hrun]
    rw [State.spendTurn_cur] at hload
    rw [hload]

/-- Settles O8: past the program's end there is no word to fetch. -/
theorem fetchPastEndRaises : Obligations.FetchPastEndRaises := by
  intro s hs hlen
  have hnone : fetchWord s.spendTurn = none := by
    rw [State.spendTurn_fetchWord, fetchWord, List.getElem?_eq_none hlen]
  exact ⟨_, by simp [step_of_atFetch hs, beginCommand, hnone], raises_raise ..⟩

/-- Settles O6: with the turn spent, the step fetches the word and runs the command that it decodes to. -/
theorem stepRunsFetchedCommand : Obligations.StepRunsFetchedCommand := by
  intro s i w hlegal hrun hu hw hd
  have hstep : SequencerNext s → step s = exec i s.spendTurn := fun hturn => by
    rw [step_of_atFetch ⟨⟨hlegal, hrun⟩, hturn, hu⟩]
    simp [beginCommand, hw, hd]
  refine ⟨fun hnil => ?_, fun rest hcons => ?_⟩
  · rw [hstep (State.nextTurn_nil hnil), State.spendTurn_nil hnil]
  · rw [hstep (State.nextTurn_cons hcons), State.spendTurn_cons hcons]

/-! ### What holds of every step of the sequencer -/

/-- Only a fault makes a step that ends Faulted (R42, R600). -/
theorem raised_of_faulted {s t : State} (hrun : s.status = .running) (h : SequencerEffect s t) (hf : t.status = .faulted) :
    ∃ tr, t = s.raise tr (faultWord s) := by
  cases h with
  | raised tr h => exact ⟨tr, h⟩
  | done _ run h =>
    subst h
    rw [State.retire_status] at hf
    obtain hs | ⟨-, hs⟩ := run_done_status run <;> simp_all
  | waits _ _ h => simp_all

/-- Settles O9: a command or a step that ends Faulted has raised the fault, for a micro-operation that is Done or waits leaves the block
Running or Halted. -/
theorem faultChangesNothingElse : Obligations.FaultChangesNothingElse := by
  refine ⟨fun i s t hrun hexec hf => ?_, fun s t hturn hrun hstep hf => ?_⟩
  · obtain ⟨checks, m, rest, -, -, -, ⟨tr, -, h⟩ | ⟨-, h⟩⟩ := exec_cases hexec
    · exact ⟨tr, h⟩
    · rcases runHead_cases (encode i) m rest s with ⟨s1, hdone, hend⟩ | ⟨-, hend⟩ | ⟨tr, -, hend⟩ <;> rw [hend] at h
      · rw [h, State.retire_status] at hf
        obtain hs | ⟨-, hs⟩ := run_done_status hdone <;> simp_all
      · simp_all
      · exact ⟨tr, h⟩
  · have hword : faultWord s.spendTurn = faultWord s := by simp [faultWord]
    cases step_effect hstep with
    | sequencer _ _ effect => exact hword ▸ raised_of_faulted (by simpa using hrun) effect hf
    | entry turn | dropped turn | environment _ turn =>
      all_goals rw [SequencerNext, turn] at hturn; cases hturn

/-- Settles O10: a stopped block is not Running, as a step of the sequencer and an entry ask, and the environment changes the devices
alone. -/
theorem stoppedBlockStaysStopped : Obligations.StoppedBlockStaysStopped := by
  intro s t hstop hstep
  cases step_effect hstep with
  | sequencer _ running => exact absurd running hstop
  | entry _ enabled =>
    simp only [State.entryEnabled, Bool.and_eq_true, beq_iff_eq] at enabled
    exact absurd enabled.1.1.1 hstop
  | dropped turn h =>
    subst h
    exact ⟨by simp [SequencerNext, turn], by simp⟩
  | environment e turn h =>
    have hdev := Frames.envStep_devices s.spendTurn e
    have hctx := hdev.ctxState
    subst h
    refine ⟨by simp [SequencerNext, turn], hdev.flags.status.trans (by simp), hdev.flags.fault.trans (by simp),
      hdev.flags.ctx.trans (by simp), hdev.flags.gie.trans (by simp), ?_, ?_⟩
    · exact (hctx .main).trans (State.spendTurn_ctxState s .main)
    · exact (hctx .isr).trans (State.spendTurn_ctxState s .isr)

/-- Settles O11: a fault touches no context, and a micro-operation and what is loaded after it the current one only. -/
theorem commandKeepsOtherContext : Obligations.CommandKeepsOtherContext := by
  intro s t hturn hstep k hk
  have hk' : k ≠ s.spendTurn.ctx := by simpa using hk
  cases step_effect hstep with
  | sequencer _ _ effect =>
    rw [← State.spendTurn_ctxState s k]
    cases effect with
    | raised tr h => rw [h]; cases k <;> rfl
    | done _ run h =>
      obtain ⟨-, -, -, -, -, -, -, hother⟩ := run_done_kept run
      rw [h, State.retire_other _ _ _ _ hk', hother k hk']
    | waits _ _ h => rw [h, State.loadSeq_other _ _ _ hk']
  | entry turn | dropped turn | environment _ turn =>
    all_goals rw [SequencerNext, turn] at hturn; cases hturn

end Sys2Proof.Sequencing
end

section
/-! SUPPORT. PROOFS. The frames of the serial operations: which cells, bits and flags each leaves alone, and what a hold assertion draws
(42_serial_engine.md). -/

open Sys2Proof.Machine

namespace Sys2Proof.SerialFrames

/-! ### Cells kept (R301) -/

section
variable {s t u : State} {ch : Chan} {l l' : List Role}

theorem cellsKeptBut_of_serial (ch : Chan) (l : List Role) (h : t.serial = s.serial) : CellsKeptBut ch l s t :=
  fun c r _ _ => State.cellValue_congr h c r

theorem cellsKeptBut_trans (h : CellsKeptBut ch l s t) (h' : CellsKeptBut ch l t u) : CellsKeptBut ch l s u :=
  fun c r hcell hne => (h' c r hcell hne).trans (h c r hcell hne)

theorem cellsKeptBut_mono (hl : l ⊆ l') (h : CellsKeptBut ch l s t) : CellsKeptBut ch l' s t :=
  fun c r hcell hne => h c r hcell (hne.imp_right fun hr hmem => hr (hl hmem))

theorem cellsKeptBut_append (h : CellsKeptBut ch l s t) (h' : CellsKeptBut ch l' t u) : CellsKeptBut ch (l ++ l') s u :=
  cellsKeptBut_trans (cellsKeptBut_mono (List.subset_append_left ..) h) (cellsKeptBut_mono (List.subset_append_right ..) h')

variable (s ch)

/-- A change of channel ch's common cells, seen through the roles that read them. -/
theorem cellsKeptBut_updCells (f : Cells → Cells)
    (h : ∀ r, r ∉ l → (s.updCells ch f).cellValue ch r = s.cellValue ch r) : CellsKeptBut ch l s (s.updCells ch f) := by
  intro c r _ hne
  by_cases hc : c = ch
  · subst hc
    exact h r (hne.resolve_left fun hne => hne rfl)
  · exact State.updCells_cellValue_ne s f hc r

theorem setIfg_cellsKept (c : Chan) (d : Dir) (v : Bool) : CellsKeptBut ch [] s (s.setIfg c d v) :=
  fun _ _ _ _ => State.setIfg_cellValue ..

theorem setIe_cellsKept (c : Chan) (d : Dir) (v : Bool) : CellsKeptBut ch [] s (s.setIe c d v) :=
  fun _ _ _ _ => State.setIe_cellValue ..

theorem setField_cellsKept (f : Field) (v : Bool) : CellsKeptBut ch [f.role] s (s.setField ch f v) :=
  cellsKeptBut_updCells s ch _ fun _ hr => State.setField_cellValue_role s ch f v (by simpa using hr)

theorem setStatusBits_cellsKept (v : Byte) : CellsKeptBut ch [.stat] s (s.setStatusBits ch v) :=
  fun _ _ _ hne => State.setStatusBits_cellValue s ch v (by simpa using hne)

theorem drawCtl1_cellsKept (d : HoldDraw) : CellsKeptBut ch [.ctl1] s (s.drawCtl1 ch d) := by
  unfold State.drawCtl1
  split
  · exact cellsKeptBut_of_serial _ _ rfl
  · exact cellsKeptBut_trans (cellsKeptBut_trans (setField_cellsKept s ch .txstt _) (setField_cellsKept _ ch .txstp _))
      (setField_cellsKept _ ch .txnack _)

theorem applyDraw_cellsKept (d : HoldDraw) : CellsKeptBut ch [.stat, .ctl1] s (s.applyDraw ch d) := by
  have flags : CellsKeptBut ch [] s ((((s.setIfg ch .rx d.ifgRx).setIfg ch .tx d.ifgTx).setIe ch .rx d.ieRx).setIe ch .tx d.ieTx) :=
    fun c r _ _ => by simp
  exact cellsKeptBut_append (cellsKeptBut_append flags (setStatusBits_cellsKept _ ch d.stat)) (drawCtl1_cellsKept _ ch d)

theorem drawVolatile_cellsKept : CellsKeptBut ch [.stat, .ctl1] s (s.drawVolatile ch) :=
  cellsKeptBut_trans (applyDraw_cellsKept s ch (Config.holdDraw s.drawCount)) (cellsKeptBut_of_serial _ _ rfl)

theorem writeHold_cellsKept (v : Bool) : CellsKeptBut ch [.ctl1, .stat] s (s.writeHold ch v) := by
  have write : CellsKeptBut ch [.ctl1] s (s.setField ch .swrst v) := setField_cellsKept s ch .swrst v
  cases v with
  | false => exact cellsKeptBut_mono (by simp) write
  | true => exact cellsKeptBut_mono (by simp) (cellsKeptBut_append write (drawVolatile_cellsKept _ ch))

theorem writeTxbuf_cellsKept (v : Byte) : CellsKeptBut ch [.txbuf] s (s.writeTxbuf ch v) := by
  have write : CellsKeptBut ch [.txbuf] s (s.updCells ch (fun c => { c with txbuf := v })) :=
    cellsKeptBut_updCells s ch _ fun r hr => by cases r <;> first | exact absurd (.head _) hr | simp [State.cellValue]
  exact cellsKeptBut_append write (setIfg_cellsKept _ ch ch .tx false)

theorem writeCtl1_cellsKept (v : Byte) : CellsKeptBut ch [.ctl1, .stat] s (s.writeCtl1 ch v) := by
  have write : CellsKeptBut ch [.ctl1] s (s.updCells ch (fun c => { c with ctl1 := v })) :=
    cellsKeptBut_updCells s ch _ fun r hr => by cases r <;> first | exact absurd (.head _) hr | simp [State.cellValue]
  unfold State.writeCtl1
  split
  · exact cellsKeptBut_mono (by simp) (cellsKeptBut_append write (drawVolatile_cellsKept _ ch))
  · exact cellsKeptBut_mono (by simp) write

end

/-! ### Whole cells written (R317) -/

/-- The cells that a whole write of a role's cell changes: a hold assertion draws STAT too (R307, R313). -/
def touched : Role → List Role
  | .ctl1 => [.ctl1, .stat]
  | r => [r]

theorem inst_ne_of_ne {c ch : Chan} (hk : c.kind = ch.kind) (h : c ≠ ch) : c.inst ≠ ch.inst :=
  fun hi => h (Chan.ext_kind_inst hk hi)

/-- MCTL is a cell of kind A alone, I2COA, I2CSA and I2CIE of kind B alone (R301). -/
theorem kind_eq_of_hasCell {r : Role} (hr : r ∈ [Role.mctl, .i2coa, .i2csa, .i2cie]) {k j : SerialKind} (hk : r.hasCell k = true)
    (hj : r.hasCell j = true) : k = j := by
  cases r <;> cases k <;> cases j <;> simp_all [Role.hasCell]

section
variable (s : State) (ch : Chan)

/-- A write of one of the registers that stand once for each index (R304). -/
theorem storeCell_register_kept {role : Role} (v : Half) (hr : role ∈ [Role.mctl, .i2coa, .i2csa, .i2cie])
    (hcell : role.hasCell ch.kind = true) : CellsKeptBut ch [role] s (s.storeCell ch role v) := by
  intro c r hc hne
  by_cases hrr : r = role
  · subst hrr
    have hi : c.inst ≠ ch.inst := inst_ne_of_ne (kind_eq_of_hasCell hr hc hcell) (hne.resolve_right (by simp))
    cases r
    case mctl | i2coa | i2csa | i2cie => all_goals simp [State.storeCell, State.cellValue, PerInst.get_set_ne _ _ hi]
    all_goals simp at hr
  · cases role
    case mctl | i2coa | i2csa | i2cie => all_goals cases r <;> first | rfl | exact absurd rfl hrr
    all_goals simp at hr

theorem storeCell_cellsKept {role : Role} (v : Half) (hcell : role.hasCell ch.kind = true) :
    CellsKeptBut ch (touched role) s (s.storeCell ch role v) := by
  cases role
  case mctl | i2coa | i2csa | i2cie => all_goals exact storeCell_register_kept s ch v (by simp) hcell
  case ctl1 => exact writeCtl1_cellsKept s ch _
  case stat => exact setField_cellsKept s ch .listen _
  case rxbuf => exact cellsKeptBut_of_serial _ _ rfl
  case txbuf => exact writeTxbuf_cellsKept s ch _
  case ctl0 | br0 | br1 =>
    all_goals
      exact cellsKeptBut_updCells s ch _ fun r hr => by
        cases r <;> first | exact absurd (.head _) hr | simp [State.cellValue]

/-- The cells without a side effect (R312, R313). -/
def Plain (role : Role) : Prop := role ∈ [Role.ctl0, .br0, .br1, .mctl, .i2coa, .i2csa, .i2cie]

theorem touched_of_plain {role : Role} (h : Plain role) : touched role = [role] := by
  cases role <;> first | rfl | simp [Plain] at h

/-- A byte of a half word that holds no more is the half word. -/
theorem byte_roundTrip {v : Half} (h : v.toNat < 256) : (v.setWidth 8).setWidth 16 = v := by
  apply BitVec.eq_of_toNat_eq
  rw [BitVec.toNat_setWidth, BitVec.toNat_setWidth]
  omega

/-- A cell without a side effect reads as written, where the value fits it (R149, R317). -/
theorem storeCell_value {role : Role} {v : Half} (h : Plain role) (hfits : role.isByte = true → v.toNat < 256) :
    (s.storeCell ch role v).cellValue ch role = v := by
  cases role
  case i2coa | i2csa => all_goals simp [State.storeCell, State.cellValue]
  case ctl0 | br0 | br1 | mctl | i2cie =>
    all_goals
      have hbyte := byte_roundTrip (hfits rfl)
      simpa [State.storeCell, State.cellValue] using hbyte
  all_goals simp [Plain] at h

/-- A write to a cell without a side effect leaves the interrupt registers and draws nothing. -/
theorem storeCell_irqKept {role : Role} (v : Half) (h : Plain role) : IrqKept s (s.storeCell ch role v) := by
  cases role
  case ctl0 | br0 | br1 | mctl | i2coa | i2csa | i2cie => all_goals exact ⟨fun _ _ => rfl, fun _ _ => rfl, rfl⟩
  all_goals simp [Plain] at h

/-! ### Interrupt registers and draws kept -/

variable {s ch}
variable {t u : State}

theorem irqKept_trans (h : IrqKept s t) (h' : IrqKept t u) : IrqKept s u where
  ie c d := (h'.ie c d).trans (h.ie c d)
  ifg c d := (h'.ifg c d).trans (h.ifg c d)
  draws := h'.draws.trans h.draws

theorem setField_irqKept (s : State) (ch : Chan) (f : Field) (v : Bool) : IrqKept s (s.setField ch f v) :=
  ⟨fun _ _ => rfl, fun _ _ => rfl, rfl⟩

/-! ### Bits of a cell kept (R311) -/

variable {role : Role} {l l' : List Nat}

theorem bitsKeptBut_of_cellValue (h : t.cellValue ch role = s.cellValue ch role) : BitsKeptBut ch role l s t :=
  fun _ _ => by rw [h]

theorem bitsKeptBut_trans (h : BitsKeptBut ch role l s t) (h' : BitsKeptBut ch role l t u) : BitsKeptBut ch role l s u :=
  fun n hn => (h' n hn).trans (h n hn)

theorem bitsKeptBut_mono (hl : l ⊆ l') (h : BitsKeptBut ch role l s t) : BitsKeptBut ch role l' s t :=
  fun n hn => h n fun hmem => hn (hl hmem)

theorem bitsKeptBut_append (h : BitsKeptBut ch role l s t) (h' : BitsKeptBut ch role l' t u) :
    BitsKeptBut ch role (l ++ l') s u :=
  bitsKeptBut_trans (bitsKeptBut_mono (List.subset_append_left ..) h) (bitsKeptBut_mono (List.subset_append_right ..) h')

theorem bitsKeptBut_of_cellsKept {roles : List Role} (h : CellsKeptBut ch roles s t) (hcell : role.hasCell ch.kind = true)
    (hr : role ∉ roles) : BitsKeptBut ch role l s t :=
  bitsKeptBut_of_cellValue (h ch role hcell (.inr hr))

theorem setField_bitsKept (s : State) (ch : Chan) (f : Field) (v : Bool) :
    BitsKeptBut ch f.role [f.pos s.params.fieldPos] s (s.setField ch f v) := by
  intro n hn
  rw [State.setField_bit, if_neg (fun h => hn (by simp [h.1]))]

/-- A field of a cell whose bit is kept. -/
theorem field_of_bitsKept {f : Field} (h : BitsKeptBut ch f.role l s t) (hp : t.params = s.params)
    (hf : f.pos s.params.fieldPos ∉ l) : t.field ch f = s.field ch f := by
  rw [State.field, State.field, hp, h _ hf]

/-- A field of a cell that is kept. -/
theorem field_of_cellsKept {roles : List Role} {f : Field} {c : Chan} (h : CellsKeptBut ch roles s t) (hp : t.params = s.params)
    (hcell : f.role.hasCell c.kind = true) (hne : c ≠ ch ∨ f.role ∉ roles) : t.field c f = s.field c f := by
  rw [State.field, State.field, hp, h c f.role hcell hne]

/-- Every field lies in a cell that both kinds have (R301, R302). -/
theorem field_hasCell (f : Field) (k : SerialKind) : f.role.hasCell k = true := by
  cases f <;> cases k <;> rfl

end

/-! ### The draws of a hold assertion (R307, R313) -/

section
variable (s : State) (ch : Chan) (d : HoldDraw)

@[simp] theorem drawCtl1_ifg (c : Chan) (e : Dir) : (s.drawCtl1 ch d).ifg c e = s.ifg c e := by
  unfold State.drawCtl1
  split <;> rfl

@[simp] theorem drawCtl1_ie (c : Chan) (e : Dir) : (s.drawCtl1 ch d).ie c e = s.ie c e := by
  unfold State.drawCtl1
  split <;> rfl

theorem drawVolatile_cells (c : Chan) : (s.drawVolatile ch).cells c = (s.applyDraw ch (Config.holdDraw s.drawCount)).cells c := rfl

theorem drawVolatile_field (c : Chan) (f : Field) :
    (s.drawVolatile ch).field c f = (s.applyDraw ch (Config.holdDraw s.drawCount)).field c f :=
  State.field_congr rfl rfl c f

theorem stat_bit (c : Chan) (n : Nat) : (s.cellValue c .stat).getLsbD n = (s.cells c).stat.getLsbD n := by
  rw [State.cellValue, BitVec.getLsbD_setWidth]
  by_cases h : n < 16
  · simp [h]
  · simp [h, BitVec.getLsbD_of_ge _ n (show 8 ≤ n by omega)]

theorem field_listen (c : Chan) : s.field c .listen = (s.cells c).stat.getLsbD s.params.fieldPos.listen := stat_bit ..

theorem drawCtl1_stat (c : Chan) : ((s.drawCtl1 ch d).cells c).stat = (s.cells c).stat := by
  apply BitVec.eq_of_getLsbD_eq
  intro n _
  rw [← stat_bit, ← stat_bit, drawCtl1_cellsKept s ch d c .stat (by cases c <;> rfl) (.inr (by simp))]

section
variable (hi : s.params.irqBits.legal = true)
include hi

theorem applyDraw_ifg (e : Dir) : (s.applyDraw ch d).ifg ch e = match e with | .rx => d.ifgRx | .tx => d.ifgTx := by
  cases e
  · simp [State.applyDraw, State.setIfg_ifg_ne, State.setIfg_ifg_self, hi]
  · simp [State.applyDraw, State.setIfg_ifg_self, hi]

theorem applyDraw_ie (e : Dir) : (s.applyDraw ch d).ie ch e = match e with | .rx => d.ieRx | .tx => d.ieTx := by
  cases e
  · simp [State.applyDraw, State.setIe_ie_ne, State.setIe_ie_self, hi]
  · simp [State.applyDraw, State.setIe_ie_self, hi]

theorem applyDraw_ifg_other {c : Chan} (h : c ≠ ch) (e : Dir) : (s.applyDraw ch d).ifg c e = s.ifg c e := by
  simp [State.applyDraw, State.setIfg_ifg_ne, hi, h]

theorem applyDraw_ie_other {c : Chan} (h : c ≠ ch) (e : Dir) : (s.applyDraw ch d).ie c e = s.ie c e := by
  simp [State.applyDraw, State.setIe_ie_ne, hi, h]

end

theorem applyDraw_stat (n : Nat) : ((s.applyDraw ch d).cells ch).stat.getLsbD n =
    if n = s.params.fieldPos.listen ∧ s.params.fieldPos.listen < 8 then (s.cells ch).stat.getLsbD n else d.stat.getLsbD n := by
  rw [State.applyDraw, drawCtl1_stat, State.setStatusBits_stat]
  by_cases h : n = s.params.fieldPos.listen <;> simp [h]

theorem applyDraw_fields (hb : ch.kind = .b) (hf : s.params.fieldPos.legal = true) :
    (s.applyDraw ch d).field ch .txstt = d.txstt ∧ (s.applyDraw ch d).field ch .txstp = d.txstp ∧
      (s.applyDraw ch d).field ch .txnack = d.txnack := by
  have other : ∀ (s0 : State) (f g : Field) v, s0.params = s.params → g ≠ f → (s0.setField ch f v).field ch g = s0.field ch g :=
    fun s0 f g v hp hne => State.setField_field_other s0 v (hp ▸ hf) (by simpa using hne)
  have self : ∀ (s0 : State) (f : Field) v, s0.params = s.params → (s0.setField ch f v).field ch f = v :=
    fun s0 f v hp => State.setField_field_self s0 ch f v (hp ▸ Field.pos_lt hf f)
  simp only [State.applyDraw, State.drawCtl1, hb]
  refine ⟨?_, ?_, ?_⟩
  · rw [other _ _ _ _ (by simp) (by decide), other _ _ _ _ (by simp) (by decide), self _ _ _ (by simp)]
  · rw [other _ _ _ _ (by simp) (by decide), self _ _ _ (by simp)]
  · rw [self _ _ _ (by simp)]

/-- A hold assertion's draw: every hold-volatile bit takes the next free value (R307). -/
theorem drawVolatile_drawn (hi : s.params.irqBits.legal = true) (hf : s.params.fieldPos.legal = true) :
    VolatileDrawn ch s.drawCount s (s.drawVolatile ch) where
  ifgRx := applyDraw_ifg s ch _ hi .rx
  ifgTx := applyDraw_ifg s ch _ hi .tx
  ieRx := applyDraw_ie s ch _ hi .rx
  ieTx := applyDraw_ie s ch _ hi .tx
  stat k hk := by rw [drawVolatile_cells, applyDraw_stat, if_neg (fun h => hk h.1)]
  listen := by
    have hl : s.params.fieldPos.listen < 8 := Field.pos_lt hf .listen
    rw [field_listen, field_listen, State.drawVolatile_params, drawVolatile_cells, applyDraw_stat, if_pos ⟨rfl, hl⟩]
  kindB hb := by
    simp only [drawVolatile_field]
    exact applyDraw_fields s ch _ hb hf
  others c e hc := ⟨applyDraw_ifg_other s ch _ hi hc e, applyDraw_ie_other s ch _ hi hc e⟩
  draws := rfl

/-- The positions in CTL1 that a draw writes: on kind B the three volatile bits (R307). -/
def drawPositions (p : FieldPos) (k : SerialKind) : List Nat := (holdPositions p k).tail

theorem holdPositions_eq (p : FieldPos) (k : SerialKind) : holdPositions p k = p.swrst :: drawPositions p k := by
  cases k <;> rfl

theorem drawCtl1_bitsKept : BitsKeptBut ch .ctl1 (drawPositions s.params.fieldPos ch.kind) s (s.drawCtl1 ch d) := by
  unfold State.drawCtl1
  cases hk : ch.kind with
  | a => exact bitsKeptBut_of_cellValue rfl
  | b =>
    have start : BitsKeptBut ch .ctl1 _ s _ := setField_bitsKept s ch .txstt d.txstt
    have stop : BitsKeptBut ch .ctl1 _ _ _ := setField_bitsKept (s.setField ch .txstt d.txstt) ch .txstp d.txstp
    have nack : BitsKeptBut ch .ctl1 _ _ _ :=
      setField_bitsKept ((s.setField ch .txstt d.txstt).setField ch .txstp d.txstp) ch .txnack d.txnack
    rw [State.setField_params] at stop nack
    exact bitsKeptBut_append (bitsKeptBut_append start stop) nack

/-- The part of a draw that lies outside CTL1 (R307). -/
def drawOutsideCtl1 : State :=
  ((((s.setIfg ch .rx d.ifgRx).setIfg ch .tx d.ifgTx).setIe ch .rx d.ieRx).setIe ch .tx d.ieTx).setStatusBits ch d.stat

theorem drawOutsideCtl1_params : (drawOutsideCtl1 s ch d).params = s.params := by simp [drawOutsideCtl1]

theorem drawOutsideCtl1_ctl1 : (drawOutsideCtl1 s ch d).cellValue ch .ctl1 = s.cellValue ch .ctl1 := by
  rw [drawOutsideCtl1, State.setStatusBits_cellValue _ _ _ (.inr (by decide))]
  simp

theorem applyDraw_bitsKept : BitsKeptBut ch .ctl1 (drawPositions s.params.fieldPos ch.kind) s (s.applyDraw ch d) := by
  have ctl1 := drawCtl1_bitsKept (drawOutsideCtl1 s ch d) ch d
  rw [drawOutsideCtl1_params] at ctl1
  exact bitsKeptBut_trans (bitsKeptBut_of_cellValue (drawOutsideCtl1_ctl1 s ch d)) ctl1

theorem drawVolatile_bitsKept : BitsKeptBut ch .ctl1 (drawPositions s.params.fieldPos ch.kind) s (s.drawVolatile ch) :=
  bitsKeptBut_trans (applyDraw_bitsKept s ch (Config.holdDraw s.drawCount))
    (bitsKeptBut_of_cellValue (State.cellValue_congr rfl ch .ctl1))

theorem swrst_not_drawn (k : SerialKind) (hf : s.params.fieldPos.legal = true) :
    Field.swrst.pos s.params.fieldPos ∉ drawPositions s.params.fieldPos k := by
  obtain ⟨-, -, -, -, -, -, ⟨-, -, -, -, -, -, hnack, -, hstp, hstt⟩, -⟩ := s.params.fieldPos.legal_iff.mp hf
  cases k <;> simp [drawPositions, holdPositions, Field.pos, hnack.symm, hstp.symm, hstt.symm]

/-! ### The hold (R313) -/

theorem writeHold_bitsKept (v : Bool) :
    BitsKeptBut ch .ctl1 (holdPositions s.params.fieldPos ch.kind) s (s.writeHold ch v) := by
  have write : BitsKeptBut ch .ctl1 [s.params.fieldPos.swrst] s (s.setField ch .swrst v) := setField_bitsKept s ch .swrst v
  rw [holdPositions_eq]
  cases v with
  | false => exact bitsKeptBut_mono (by simp) write
  | true => exact bitsKeptBut_append write (drawVolatile_bitsKept (s.setField ch .swrst true) ch)

theorem writeHold_held (v : Bool) (hf : s.params.fieldPos.legal = true) : (s.writeHold ch v).held ch = v := by
  have write : ∀ b, (s.setField ch .swrst b).held ch = b :=
    fun b => State.setField_field_self s ch .swrst b (Field.pos_lt hf .swrst)
  cases v with
  | false => exact write false
  | true =>
    have hdraw := field_of_bitsKept (f := .swrst) (drawVolatile_bitsKept (s.setField ch .swrst true) ch) (by simp)
      (swrst_not_drawn _ ch.kind hf)
    exact hdraw.trans (write true)

end

section
variable {s t u : State} {ch : Chan} {n : Nat}

/-- What a draw leaves of the state before it, it leaves of a state that agrees with it on LISTEN and on the interrupt registers. -/
theorem volatileDrawn_before (h : VolatileDrawn ch n t u) (hp : t.params = s.params)
    (hlisten : t.field ch .listen = s.field ch .listen) (hirq : IrqKept s t) : VolatileDrawn ch n s u where
  ifgRx := h.ifgRx
  ifgTx := h.ifgTx
  ieRx := h.ieRx
  ieTx := h.ieTx
  stat k hk := h.stat k (by rwa [hp])
  listen := h.listen.trans hlisten
  kindB := h.kindB
  others c d hc := ⟨(h.others c d hc).1.trans (hirq.ifg c d), (h.others c d hc).2.trans (hirq.ie c d)⟩
  draws := h.draws

/-- The hold-volatile bits of channel ch, and the interrupt registers of every channel, are kept (R307). -/
structure VolatileKept (ch : Chan) (t u : State) : Prop where
  params : u.params = t.params
  irq : IrqKept t u
  stat : (u.cells ch).stat = (t.cells ch).stat
  ctl1 : ∀ f ∈ [Field.txstt, .txstp, .txnack], u.field ch f = t.field ch f

theorem volatileDrawn_after (h : VolatileDrawn ch n s t) (h' : VolatileKept ch t u) : VolatileDrawn ch n s u where
  ifgRx := (h'.irq.ifg ..).trans h.ifgRx
  ifgTx := (h'.irq.ifg ..).trans h.ifgTx
  ieRx := (h'.irq.ie ..).trans h.ieRx
  ieTx := (h'.irq.ie ..).trans h.ieTx
  stat k hk := by rw [h'.stat, h.stat k hk]
  listen := by rw [field_listen, h'.stat, h'.params, ← field_listen, h.listen]
  kindB hb := by
    obtain ⟨hstt, hstp, hnack⟩ := h.kindB hb
    exact ⟨(h'.ctl1 _ (by simp)).trans hstt, (h'.ctl1 _ (by simp)).trans hstp, (h'.ctl1 _ (by simp)).trans hnack⟩
  others c d hc := ⟨(h'.irq.ifg c d).trans (h.others c d hc).1, (h'.irq.ie c d).trans (h.others c d hc).2⟩
  draws := h'.irq.draws.trans h.draws

theorem volatileKept_trans {v : State} (h : VolatileKept ch t u) (h' : VolatileKept ch u v) : VolatileKept ch t v where
  params := h'.params.trans h.params
  irq := irqKept_trans h.irq h'.irq
  stat := h'.stat.trans h.stat
  ctl1 f hf := (h'.ctl1 f hf).trans (h.ctl1 f hf)

theorem stat_of_cellsKept {l : List Role} (h : CellsKeptBut ch l s t) (hl : .stat ∉ l) : (t.cells ch).stat = (s.cells ch).stat := by
  apply BitVec.eq_of_getLsbD_eq
  intro k _
  rw [← stat_bit, ← stat_bit, h ch .stat (by cases ch <;> rfl) (.inr hl)]

/-- A cell without a side effect holds no hold-volatile bit (R307). -/
theorem storeCell_volatileKept (s : State) (ch : Chan) {role : Role} (v : Half) (h : Plain role) (hcell : role.hasCell ch.kind = true) :
    VolatileKept ch s (s.storeCell ch role v) := by
  have cells : CellsKeptBut ch [role] s (s.storeCell ch role v) := touched_of_plain h ▸ storeCell_cellsKept s ch v hcell
  have other : ∀ r ∈ [Role.stat, .ctl1], r ∉ [role] := fun r hr => by
    rw [List.mem_singleton]
    rintro rfl
    revert hr h
    cases r <;> simp [Plain]
  refine ⟨State.storeCell_params .., storeCell_irqKept s ch v h, stat_of_cellsKept cells (other _ (by simp)), fun f hf => ?_⟩
  have hrole : f.role = .ctl1 := by revert hf; cases f <;> simp [Field.role]
  exact field_of_cellsKept cells (State.storeCell_params ..) (field_hasCell f _) (.inr (hrole ▸ other _ (by simp)))

/-- SWRST written 1: the hold-volatile bits are the next draw's (R313). -/
theorem writeHold_true_drawn (s : State) (ch : Chan) (hi : s.params.irqBits.legal = true) (hf : s.params.fieldPos.legal = true) :
    VolatileDrawn ch s.drawCount s (s.writeHold ch true) :=
  volatileDrawn_before (drawVolatile_drawn (s.setField ch .swrst true) ch hi hf) rfl
    (State.setField_field_other s true hf (by simp)) (setField_irqKept s ch .swrst true)

end

end Sys2Proof.SerialFrames
end

section
/-! SUPPORT. PROOFS. What a micro-operation that is Done can have changed, and from it what every step of the block keeps (R42, R216). -/

open Sys2Proof.Machine Sys2Proof.Frames Sys2Proof.Sequencing Sys2Proof.SerialFrames

namespace Sys2Proof.Steps

/-! ### The shape of the ring buffers and the timers (R7, R500) -/

/-- The capacity is kept, and cursors that name slots still do (R500). -/
structure RingKeeps (r r2 : Ring) : Prop where
  capacity : r2.buf.length = r.buf.length
  cursors : r.cursorsOk = true → r2.cursorsOk = true

/-- The kind and the number of channels are kept (R7, R250). -/
structure TimerKeeps (tm tm2 : Timer) : Prop where
  kind : tm2.kind = tm.kind
  channels : tm2.chans.length = tm.chans.length

/-- Every ring buffer and every timer keeps its shape. -/
structure ShapesKept (s t : State) : Prop where
  rings : List.Forall₂ RingKeeps s.rings t.rings
  timers : List.Forall₂ TimerKeeps s.timers t.timers

theorem ringKeeps_refl (r : Ring) : RingKeeps r r := ⟨rfl, id⟩

theorem timerKeeps_refl (tm : Timer) : TimerKeeps tm tm := ⟨rfl, rfl⟩

theorem forall₂_refl {α : Type} {R : α → α → Prop} (h : ∀ x, R x x) (l : List α) : List.Forall₂ R l l :=
  List.forall₂_same.mpr fun x _ => h x

/-- One entry replaced. -/
theorem forall₂_set {α : Type} {R : α → α → Prop} (h : ∀ x, R x x) {l : List α} {n : Nat} {x y : α} (hx : l[n]? = some x) (hxy : R x y) :
    List.Forall₂ R l (l.set n y) := by
  induction l generalizing n with
  | nil => simp at hx
  | cons a l ih =>
    cases n with
    | zero =>
      obtain rfl : a = x := by simpa using hx
      exact .cons hxy (forall₂_refl h l)
    | succ n => exact .cons (h a) (ih (by simpa using hx))

/-- One entry changed, where it is. -/
theorem forall₂_modify {α : Type} {R : α → α → Prop} (h : ∀ x, R x x) (l : List α) (n : Nat) {f : α → α} (hf : ∀ x, R x (f x)) :
    List.Forall₂ R l (l.modify n f) := by
  rw [List.modify_eq_set_getElem?]
  cases hx : l[n]? with
  | none => exact forall₂_refl h l
  | some x => exact forall₂_set h hx (hf x)

section
variable {s t u : State}

theorem shapesKept_of_eq (hr : t.rings = s.rings) (ht : t.timers = s.timers) : ShapesKept s t := by
  refine ⟨?_, ?_⟩
  · rw [hr]
    exact forall₂_refl ringKeeps_refl _
  · rw [ht]
    exact forall₂_refl timerKeeps_refl _

theorem shapesKept_setRing {b : Nat} {r r2 : Ring} (hr : s.rings[b]? = some r) (hk : RingKeeps r r2) : ShapesKept s (s.setRing b r2) :=
  ⟨forall₂_set ringKeeps_refl hr hk, forall₂_refl timerKeeps_refl _⟩

theorem shapesKept_updTimer (s : State) (n : Nat) {f : Timer → Timer} (hf : ∀ tm, TimerKeeps tm (f tm)) : ShapesKept s (s.updTimer n f) :=
  ⟨forall₂_refl ringKeeps_refl _, forall₂_modify timerKeeps_refl _ _ hf⟩

theorem shapesKept_updTimerChan (s : State) (n c : Nat) (f : TimerChan → TimerChan) : ShapesKept s (s.updTimerChan n c f) :=
  shapesKept_updTimer s n fun _ => ⟨rfl, List.length_modify ..⟩

theorem shapesKept_congr (h : ShapesKept s t) (hr : u.rings = t.rings) (ht : u.timers = t.timers) : ShapesKept s u :=
  ⟨hr ▸ h.rings, ht ▸ h.timers⟩

end

/-! ### The operations on a ring buffer (R504 to R510) -/

theorem cursorsOk_iff {r : Ring} : r.cursorsOk = true ↔ r.wr < r.buf.length ∧ ∀ i, r.rd = some i → i < r.buf.length := by
  unfold Ring.cursorsOk
  cases r.rd <;> simp

section
variable {r r1 : Ring}

theorem ringKeeps_trans {r2 : Ring} (h : RingKeeps r r1) (h' : RingKeeps r1 r2) : RingKeeps r r2 :=
  ⟨h'.capacity.trans h.capacity, fun hr => h'.cursors (h.cursors hr)⟩

theorem ringKeeps_share {c : Ctx} {g : Bool} (h : r.share c g = some r1) : RingKeeps r r1 := by
  obtain ⟨hbuf, hwr, hrd, -⟩ := share_kept h
  exact ⟨by rw [hbuf], fun hr => by rwa [cursorsOk_iff, hbuf, hwr, hrd, ← cursorsOk_iff]⟩

variable (r)

theorem ringKeeps_insert (v : Byte) : RingKeeps r (r.insert v) := by
  refine ⟨by simp, fun hr => ?_⟩
  rw [cursorsOk_iff] at hr ⊢
  obtain ⟨hwr, hrd⟩ := hr
  refine ⟨by simpa using Nat.mod_lt _ (Nat.zero_lt_of_lt hwr), fun i hi => ?_⟩
  rw [RingUnit.insert_rd] at hi
  cases h : r.rd <;> simp_all
  omega

theorem ringKeeps_advance : RingKeeps r r.advance := by
  cases h : r.rd with
  | none => rw [RingUnit.advance_of_never h]; exact ringKeeps_refl r
  | some i =>
    rw [RingUnit.advance_of_rd h]
    refine ⟨rfl, fun hr => ?_⟩
    rw [cursorsOk_iff] at hr ⊢
    refine ⟨hr.1, fun j hj => ?_⟩
    obtain rfl : (i + 1) % r.buf.length = j := by simpa using hj
    exact Nat.mod_lt _ (Nat.zero_lt_of_lt hr.1)

theorem ringKeeps_clearOvf : RingKeeps r r.clearOvf := ⟨rfl, id⟩

theorem ringKeeps_clear : RingKeeps r r.clear := by
  refine ⟨rfl, fun hr => ?_⟩
  rw [cursorsOk_iff] at hr ⊢
  exact ⟨Nat.zero_lt_of_lt hr.1, fun i hi => by simp [Ring.clear] at hi⟩

end

/-- What an access to a ring buffer that is Done did: nothing where there is no such buffer, else f on the checked buffer. -/
theorem ringAccess_done {b : Nat} {f : Ring → State → State} {s s1 : State} (h : ringAccess b f s = .done s1) :
    s1 = s ∨ ∃ r r1, s.rings[b]? = some r ∧ RingKeeps r r1 ∧ s1 = f r1 s := by
  cases hr : s.rings[b]? with
  | none =>
    simp only [ringAccess, hr] at h
    injection h with h
    exact .inl h.symm
  | some r =>
    rcases ringAccess_cases f hr with ⟨-, hd⟩ | ⟨r1, hshare, hd⟩ <;> rw [hd] at h
    · cases h
    · injection h with h
      exact .inr ⟨r, r1, rfl, ringKeeps_share hshare, h.symm⟩

/-! ### Ordinary and special micro-operations -/

/-- What most micro-operations leave: GIE, the context, the status, the memory, the pointer and the guard's depth, and the shape of the
devices. -/
structure Ordinary (s t : State) : Prop where
  gie : t.gie = s.gie
  ctx : t.ctx = s.ctx
  status : t.status = s.status
  dm : t.dm = s.dm
  cp : t.cur.cp = s.cur.cp
  gdepth : t.cur.gdepth = s.cur.gdepth
  shapes : ShapesKept s t

/-- The other micro-operations, each with what it does (R202, R206, R208 to R215). -/
inductive Special (s : State) : MicroOp → State → Prop
  | store (k : ArgReg) (addr : Half) (v : Byte) : Special s (.storeArg k addr) (s.writeByte addr v)
  | halt : Special s .halt { s with status := .halted }
  | acquire : Special s .guardAcquire s.guardAcquire
  | release : Special s .guardRelease s.guardRelease
  | setGie (v : Bool) : Special s (.setGie v) { s with gie := v }
  | returnFromIsr : Special s .returnFromIsr s.returnFromIsr
  | jump {m : MicroOp} (n : Nat) (control : m.isControl = true) (le : n ≤ 65535 ∨ n = s.cur.cp + 1) : Special s m (s.setCp n)

section
variable {s t u : State}

theorem ordinary_refl (s : State) : Ordinary s s := ⟨rfl, rfl, rfl, rfl, rfl, rfl, shapesKept_of_eq rfl rfl⟩

theorem ordinary_of_devices (h : DevicesOnly s t) (hs : ShapesKept s t) : Ordinary s t where
  gie := h.flags.gie
  ctx := h.flags.ctx
  status := h.flags.status
  dm := h.dm
  cp := by rw [h.cur]
  gdepth := by rw [h.cur]
  shapes := hs

/-- A change of the devices that leaves the ring buffers and the timers, after an ordinary one. -/
theorem ordinary_serial (h : Ordinary s t) (hd : DevicesOnly t u) (hr : u.rings = t.rings) (ht : u.timers = t.timers) :
    Ordinary s u where
  gie := hd.flags.gie.trans h.gie
  ctx := hd.flags.ctx.trans h.ctx
  status := hd.flags.status.trans h.status
  dm := hd.dm.trans h.dm
  cp := by rw [hd.cur, h.cp]
  gdepth := by rw [hd.cur, h.gdepth]
  shapes := shapesKept_congr h.shapes hr ht

theorem ordinary_setRes (h : Ordinary s t) (v : Word) : Ordinary s (t.setRes v) where
  gie := by simp [h.gie]
  ctx := by simp [h.ctx]
  status := by simp [h.status]
  dm := by simp [h.dm]
  cp := by simp [h.cp]
  gdepth := by simp [h.gdepth]
  shapes := shapesKept_congr h.shapes (by simp) (by simp)

theorem ordinary_setArg (s : State) (k : ArgReg) (v : Word) : Ordinary s (s.setArg k v) where
  gie := by simp
  ctx := by simp
  status := by simp
  dm := by simp
  cp := by simp [State.setArg]
  gdepth := by simp [State.setArg]
  shapes := shapesKept_of_eq (by simp) (by simp)

theorem ordinary_updTimerChan (s : State) (n c : Nat) (f : TimerChan → TimerChan) : Ordinary s (s.updTimerChan n c f) :=
  ordinary_of_devices (updTimer_devices ..) (shapesKept_updTimerChan ..)

theorem ordinary_timerToRes (s : State) (n c : Nat) (f : TimerChan → Word) : Ordinary s (s.timerToRes n c f) := by
  unfold State.timerToRes
  split
  · exact ordinary_setRes (ordinary_refl s) _
  · exact ordinary_refl s

theorem ordinary_setRing {b : Nat} {r r2 : Ring} (hr : s.rings[b]? = some r) (hk : RingKeeps r r2) : Ordinary s (s.setRing b r2) :=
  ordinary_of_devices (setRing_devices ..) (shapesKept_setRing hr hk)

theorem ordinary_ringAccess {b : Nat} {f : Ring → State → State} (h : ringAccess b f s = .done t)
    (hf : ∀ r r1, s.rings[b]? = some r → RingKeeps r r1 → Ordinary s (f r1 s)) : Ordinary s t := by
  obtain rfl | ⟨r, r1, hr, hk, rfl⟩ := ringAccess_done h
  · exact ordinary_refl _
  · exact hf r r1 hr hk

end

/-- What a micro-operation that is Done has changed. -/
theorem run_effect {m : MicroOp} {s s1 : State} (h : m.run s = .done s1) : Ordinary s s1 ∨ Special s m s1 := by
  cases m <;> simp only [MicroOp.run] at h
  case storeArg | halt | guardAcquire | guardRelease | setGie | returnFromIsr =>
    all_goals
      injection h with h
      subst h
      exact .inr (by constructor)
  case jump target =>
    injection h with h
    subst h
    exact .inr (.jump _ rfl (.inl (by omega)))
  case branchZero target | branchNonzero target =>
    all_goals
      injection h with h
      subst h
      refine .inr (.jump _ rfl ?_)
      split
      · exact .inl (by omega)
      · exact .inr rfl
  case nop =>
    injection h with h
    exact .inl (h ▸ ordinary_refl s)
  case setArg | setArgHigh | argFromRes =>
    all_goals
      injection h with h
      subst h
      exact .inl (ordinary_setArg ..)
  case loadByte | getIfg | fieldRead | baud =>
    all_goals
      injection h with h
      subst h
      exact .inl (ordinary_setRes (ordinary_refl s) _)
  case timerInit | timerMode | timerReset =>
    all_goals
      injection h with h
      subst h
      exact .inl (ordinary_of_devices (updTimer_devices ..) (shapesKept_updTimer s _ fun _ => ⟨rfl, rfl⟩))
  case timerCapture | timerInput | timerOutmod | timerSetValue | timerSetCcie | timerClearCov =>
    all_goals
      injection h with h
      subst h
      exact .inl (ordinary_updTimerChan ..)
  case timerGetValue | timerGetCov =>
    all_goals
      injection h with h
      subst h
      exact .inl (ordinary_timerToRes ..)
  case hold ch v =>
    injection h with h
    subst h
    exact .inl (ordinary_serial (ordinary_refl s) (writeHold_devices s ch v) (by simp) (by simp))
  case fieldWrite ch f v =>
    rcases microFieldWrite_cases ch f v s with ⟨-, hd⟩ | ⟨-, -, hd⟩ | ⟨-, -, hd⟩ <;> rw [hd] at h
    · cases h
    · injection h with h
      subst h
      exact .inl (ordinary_serial (ordinary_refl s) (writeHold_devices s ch v) (by simp) (by simp))
    · injection h with h
      subst h
      exact .inl (ordinary_serial (ordinary_refl s) (setField_devices s ch f v) rfl rfl)
  case cellWrite ch role v =>
    rcases microCellWrite_cases ch role v s with ⟨-, hd⟩ | ⟨-, -, hd⟩ | ⟨-, -, hd⟩ <;> rw [hd] at h
    · injection h with h
      exact .inl (h ▸ ordinary_refl s)
    · cases h
    · injection h with h
      subst h
      exact .inl (ordinary_serial (ordinary_refl s) (storeCell_devices s ch role v) (by simp) (by simp))
  case cellRead ch role =>
    unfold microCellRead at h
    split at h <;> injection h with h <;> subst h
    · split
      · exact .inl (ordinary_serial (ordinary_setRes (ordinary_refl s) _) (setIfg_devices ..) rfl rfl)
      · exact .inl (ordinary_setRes (ordinary_refl s) _)
    · exact .inl (ordinary_refl s)
  case poll ch d =>
    unfold microPoll at h
    split at h
    · injection h with h
      exact .inl (h ▸ ordinary_refl s)
    · cases h
  case txByte | txMem =>
    all_goals
      injection h with h
      subst h
      exact .inl (ordinary_serial (ordinary_refl s) (writeTxbuf_devices ..) rfl rfl)
  case rxRes ch =>
    injection h with h
    subst h
    exact .inl (ordinary_serial (ordinary_setRes (ordinary_refl s) _) (setIfg_devices ..) rfl rfl)
  case setIe =>
    injection h with h
    subst h
    exact .inl (ordinary_serial (ordinary_refl s) (setIe_devices ..) rfl rfl)
  case rxPush ch b =>
    exact .inl (ordinary_ringAccess h fun r r1 hr hk =>
      ordinary_serial (ordinary_setRing hr (ringKeeps_trans hk (ringKeeps_insert ..))) (setIfg_devices ..) rfl rfl)
  case ringInsert b v =>
    exact .inl (ordinary_ringAccess h fun r r1 hr hk => ordinary_setRing hr (ringKeeps_trans hk (ringKeeps_insert ..)))
  case ringGet b =>
    exact .inl (ordinary_ringAccess h fun r r1 hr hk =>
      ordinary_setRes (ordinary_setRing hr (ringKeeps_trans hk (ringKeeps_advance _))) _)
  case ringEmpty b | ringOvf b =>
    all_goals exact .inl (ordinary_ringAccess h fun r r1 hr hk => ordinary_setRes (ordinary_setRing hr hk) _)
  case ringClearOvf b =>
    exact .inl (ordinary_ringAccess h fun r r1 hr hk => ordinary_setRing hr (ringKeeps_trans hk (ringKeeps_clearOvf _)))
  case ringClear b =>
    exact .inl (ordinary_ringAccess h fun r r1 hr hk => ordinary_setRing hr (ringKeeps_trans hk (ringKeeps_clear _)))

end Sys2Proof.Steps
end

section
/-! SUPPORT. PROOFS. What every step of the block keeps: the configuration, the invariant, and who writes GIE, the context, the status and
the memory (R7, R32 to R35, R100, R216, R601). -/

open Sys2Proof.Machine Sys2Proof.Frames Sys2Proof.Sequencing Sys2Proof.Steps

namespace Sys2Proof.WholeMachine

/-! ### The shape of the devices, step by step (R7, R113) -/

theorem special_shapes {s s1 : State} {m : MicroOp} (h : Special s m s1) : ShapesKept s s1 := by
  cases h <;> exact shapesKept_of_eq (by simp) (by simp)

theorem run_shapes {m : MicroOp} {s s1 : State} (h : m.run s = .done s1) : ShapesKept s s1 :=
  (run_effect h).elim Ordinary.shapes special_shapes

theorem captureStep_shapes (s : State) (n c : Nat) (o : Bool) : ShapesKept s (s.captureStep n c o) := by
  unfold State.captureStep
  split
  · exact shapesKept_of_eq rfl rfl
  · exact shapesKept_updTimerChan ..

theorem envStep_shapes (e : EnvStep) (s : State) : ShapesKept s (envStep e s) := by
  cases e <;> simp only [envStep]
  case count n v => exact shapesKept_updTimer s n fun tm => by split <;> exact ⟨rfl, rfl⟩
  case capture n c o => exact captureStep_shapes s n c o
  case rxByte ch v =>
    split
    · unfold State.receiveByte
      split <;> exact shapesKept_of_eq rfl rfl
    · exact shapesKept_of_eq rfl rfl
  all_goals split <;> exact shapesKept_of_eq rfl rfl

/-- What every step keeps of the parameters, the programs and the shapes (R7, R112, R113). -/
structure Evolves (s t : State) : Prop extends ConfigKept s t, ShapesKept s t

section
variable {s t u : State}

theorem evolves_of_eq (hc : ConfigKept s t) (hr : t.rings = s.rings) (ht : t.timers = s.timers) : Evolves s t :=
  { hc, shapesKept_of_eq hr ht with }

theorem run_evolves {m : MicroOp} (h : m.run s = .done t) : Evolves s t := by
  obtain ⟨hp, hm, hi, -⟩ := run_done_kept h
  exact { run_shapes h with params := hp, progMain := hm, progIsr := hi }

theorem sequencer_evolves (h : SequencerEffect s t) : Evolves s t := by
  cases h with
  | raised tr h => exact h ▸ evolves_of_eq ⟨rfl, rfl, rfl⟩ rfl rfl
  | done _ run h =>
    obtain ⟨⟨hp, hm, hi⟩, ⟨hr, ht⟩⟩ := run_evolves run
    subst h
    exact ⟨⟨by simpa using hp, by simpa using hm, by simpa using hi⟩, ⟨by simpa using hr, by simpa using ht⟩⟩
  | waits _ _ h => exact h ▸ evolves_of_eq ⟨by simp, by simp, by simp⟩ (by simp) (by simp)

theorem step_evolves_from_turn (h : StepEffect s t) : Evolves s.spendTurn t := by
  cases h with
  | sequencer _ _ effect => exact sequencer_evolves effect
  | entry _ _ h => exact h ▸ evolves_of_eq ⟨rfl, rfl, rfl⟩ rfl rfl
  | dropped _ h => exact h ▸ evolves_of_eq ⟨rfl, rfl, rfl⟩ rfl rfl
  | environment e _ h => exact h ▸ { (envStep_devices s.spendTurn e).config, envStep_shapes e s.spendTurn with }

theorem step_evolves (h : StepEffect s t) : Evolves s t := by
  obtain ⟨⟨hp, hm, hi⟩, ⟨hr, ht⟩⟩ := step_evolves_from_turn h
  exact ⟨⟨by simpa using hp, by simpa using hm, by simpa using hi⟩, ⟨by simpa using hr, by simpa using ht⟩⟩

/-- Entries that agree on f pairwise are the same under f. -/
theorem map_eq_of_forall₂ {α β : Type} {R : α → α → Prop} {f : α → β} (hf : ∀ x y, R x y → f y = f x) {l l' : List α}
    (h : List.Forall₂ R l l') : l'.map f = l.map f := by
  induction h with
  | nil => rfl
  | cons hxy _ ih => rw [List.map_cons, List.map_cons, hf _ _ hxy, ih]

theorem exists_related_of_mem {α : Type} {R : α → α → Prop} {l l' : List α} (h : List.Forall₂ R l l') {y : α} (hy : y ∈ l') :
    ∃ x ∈ l, R x y := by
  induction h with
  | nil => cases hy
  | cons hxy _ ih =>
    obtain rfl | hy := List.mem_cons.mp hy
    · exact ⟨_, .head _, hxy⟩
    · obtain ⟨x, hx, hr⟩ := ih hy
      exact ⟨x, .tail _ hx, hr⟩

theorem ShapesKept.capacities (h : ShapesKept s t) : t.rings.map (fun r => r.buf.length) = s.rings.map (fun r => r.buf.length) :=
  map_eq_of_forall₂ (f := fun r => r.buf.length) (fun _ _ => RingKeeps.capacity) h.rings

theorem ShapesKept.kinds (h : ShapesKept s t) : t.timers.map Timer.kind = s.timers.map Timer.kind :=
  map_eq_of_forall₂ (f := Timer.kind) (fun _ _ => TimerKeeps.kind) h.timers

end

/-- Settles O57: every step keeps the configuration and the shape of the devices. -/
theorem stepKeepsConfiguration : Obligations.StepKeepsConfiguration := by
  intro s t hstep
  have h := step_evolves (step_effect hstep)
  exact ⟨h.toConfigKept, ShapesKept.capacities h.toShapesKept, ShapesKept.kinds h.toShapesKept⟩

/-! ### The invariant, part by part -/

/-- `CtxState.seqOk` as a proposition (R32, R34, R42). -/
structure SeqOk (c : CtxState) (len : Nat) : Prop where
  cp : c.cp ≤ 65536
  gdepth : c.gdepth ≤ 255
  canWait : c.useq.all MicroOp.canWait = true
  fetched : c.useq ≠ [] → c.cp < len

/-- `State.faultOk` as a proposition (R35, R601). -/
structure FaultOk (s : State) : Prop where
  code : s.status = .faulted ↔ s.fault.code ≠ 0
  known : s.fault.code.toNat ≤ 11
  cp : s.fault.cp ≤ 65536

/-- `State.inv` as a proposition. -/
structure Inv (s : State) : Prop where
  legal : s.legal = true
  memory : Memory.wf s.dm = true
  rings : ∀ r ∈ s.rings, r.cursorsOk = true
  timers : ∀ tm ∈ s.timers, tm.chans.length = s.params.channels tm.kind
  seq : ∀ k, SeqOk (s.ctxState k) (s.prog k).length
  ctx : s.ctx = .isr → s.isrGieSaved = true ∧ s.progIsr ≠ []
  fault : FaultOk s
  halt : s.status = .halted → s.ctx = .main ∧ s.main.gdepth = 0

theorem seqOk_iff {c : CtxState} {len : Nat} : c.seqOk len = true ↔ SeqOk c len := by
  simp only [CtxState.seqOk, Bool.and_eq_true, Bool.or_eq_true, decide_eq_true_eq, List.isEmpty_iff]
  constructor
  · rintro ⟨⟨⟨hcp, hdepth⟩, hq⟩, hf⟩
    exact ⟨hcp, hdepth, hq, hf.resolve_left⟩
  · rintro ⟨hcp, hdepth, hq, hf⟩
    exact ⟨⟨⟨hcp, hdepth⟩, hq⟩, or_iff_not_imp_left.mpr hf⟩

theorem faultOk_iff {s : State} : s.faultOk = true ↔ FaultOk s := by
  simp only [State.faultOk, Bool.and_eq_true, decide_eq_true_eq, beq_iff_eq]
  have hcode : ((s.status == RunStatus.faulted) = (s.fault.code != 0)) ↔ (s.status = .faulted ↔ s.fault.code ≠ 0) := by
    rw [Bool.eq_iff_iff]
    simp
  rw [hcode]
  exact ⟨fun ⟨⟨h1, h2⟩, h3⟩ => ⟨h1, h2, h3⟩, fun ⟨h1, h2, h3⟩ => ⟨⟨h1, h2⟩, h3⟩⟩

theorem inv_iff {s : State} : s.inv = true ↔ Inv s := by
  have hctx : s.ctxOk = true ↔ (s.ctx = .isr → s.isrGieSaved = true ∧ s.progIsr ≠ []) := by
    cases hc : s.ctx <;> simp [State.ctxOk, hc]
  have hhalt : s.haltOk = true ↔ (s.status = .halted → s.ctx = .main ∧ s.main.gdepth = 0) := by
    cases hs : s.status <;> simp [State.haltOk, hs]
  have htimers : s.timers.all (Timer.shapeOk s.params) = true ↔ ∀ tm ∈ s.timers, tm.chans.length = s.params.channels tm.kind := by
    simp [Timer.shapeOk]
  simp only [State.inv, Bool.and_eq_true, List.all_eq_true (l := s.rings), htimers, seqOk_iff, hctx, faultOk_iff, hhalt]
  constructor
  · rintro ⟨⟨⟨⟨⟨⟨⟨⟨hl, hm⟩, hr⟩, ht⟩, hmain⟩, hisr⟩, hc⟩, hf⟩, hh⟩
    exact ⟨hl, hm, hr, ht, fun k => by cases k <;> assumption, hc, hf, hh⟩
  · rintro ⟨hl, hm, hr, ht, hseq, hc, hf, hh⟩
    exact ⟨⟨⟨⟨⟨⟨⟨⟨hl, hm⟩, hr⟩, ht⟩, hseq .main⟩, hseq .isr⟩, hc⟩, hf⟩, hh⟩

section
variable {s t : State}

theorem spendTurn_prog (s : State) (k : Ctx) : s.spendTurn.prog k = s.prog k := by
  cases k <;> simp [State.prog]

theorem inv_spendTurn (h : Inv s) : Inv s.spendTurn where
  legal := by simpa using h.legal
  memory := by simpa using h.memory
  rings := by simpa using h.rings
  timers := by simpa using h.timers
  seq k := by simpa [spendTurn_prog] using h.seq k
  ctx := by simpa using h.ctx
  fault := ⟨by simpa using h.fault.code, by simpa using h.fault.known, by simpa using h.fault.cp⟩
  halt := by simpa using h.halt

theorem ringsLegal_eq (s : State) : s.ringsLegal =
    ((decide (1 ≤ (s.rings.map fun r => r.buf.length).length) && decide ((s.rings.map fun r => r.buf.length).length ≤ 16)) &&
      (s.rings.map fun r => r.buf.length).all (fun n => decide (1 ≤ n) && decide (n ≤ 65535)) &&
      (decide (s.params.i2cRbB0 < (s.rings.map fun r => r.buf.length).length) &&
        decide (s.params.i2cRbB1 < (s.rings.map fun r => r.buf.length).length))) := by
  simp [State.ringsLegal, List.all_map, Function.comp_def]

/-- Legality speaks of the parameters, the programs and the capacities (R7, R8). -/
theorem legal_of_evolves (h : Evolves s t) : t.legal = s.legal := by
  have hcap := ShapesKept.capacities h.toShapesKept
  rw [State.legal, State.legal, ringsLegal_eq t, ringsLegal_eq s, hcap, State.progsLegal, State.progsLegal, h.params, h.progMain,
    h.progIsr]

theorem cursorsOk_of_shapes (h : ShapesKept s t) (hs : ∀ r ∈ s.rings, r.cursorsOk = true) : ∀ r ∈ t.rings, r.cursorsOk = true := by
  intro r2 hr2
  obtain ⟨r, hr, hk⟩ := exists_related_of_mem h.rings hr2
  exact hk.cursors (hs r hr)

theorem channels_of_shapes (h : ShapesKept s t) (hp : t.params = s.params)
    (hs : ∀ tm ∈ s.timers, tm.chans.length = s.params.channels tm.kind) :
    ∀ tm ∈ t.timers, tm.chans.length = t.params.channels tm.kind := by
  intro tm2 htm2
  obtain ⟨tm, htm, hk⟩ := exists_related_of_mem h.timers htm2
  rw [hk.channels, hk.kind, hp, hs tm htm]

/-! ### A step keeps the invariant (R46, R601) -/

theorem trap_code_known (tr : Trap) : tr.code ≠ 0 ∧ tr.code.toNat ≤ 11 := by
  cases tr <;> decide

/-- A fault of a context whose pointer is in range (R600). -/
theorem inv_raise (h : Inv s) (tr : Trap) (w : Word) : Inv (s.raise tr w) where
  legal := h.legal
  memory := h.memory
  rings := h.rings
  timers := h.timers
  seq k := by have := h.seq k; cases k <;> exact this
  ctx := h.ctx
  fault := ⟨iff_of_true rfl (trap_code_known tr).1, (trap_code_known tr).2, (h.seq s.ctx).cp⟩
  halt hs := by cases hs

theorem entryEnabled_iff : s.entryEnabled = true ↔ s.status = .running ∧ s.ctx = .main ∧ s.gie = true ∧ s.progIsr ≠ [] := by
  simp [State.entryEnabled, and_assoc]

/-- An entry starts the interrupt program at its first word, with GIE saved as it was enabled: 1 (R620). -/
theorem inv_interruptEntry (h : Inv s) (he : s.entryEnabled = true) : Inv s.interruptEntry := by
  obtain ⟨hrun, -, hgie, hprog⟩ := entryEnabled_iff.mp he
  have hmain := h.seq .main
  refine ⟨h.legal, h.memory, h.rings, h.timers, fun k => ?_, fun _ => ⟨hgie, hprog⟩,
    ⟨h.fault.code, h.fault.known, h.fault.cp⟩, fun hs => ?_⟩
  · cases k
    · exact hmain
    · exact ⟨Nat.zero_le _, Nat.zero_le _, rfl, fun hq => absurd rfl hq⟩
  · exact absurd (hrun.symm.trans hs) (by decide)

/-- The environment touches nothing of which the invariant speaks but the shapes, which it keeps. -/
theorem inv_devices (h : Inv s) (hd : DevicesOnly s t) (hs : ShapesKept s t) : Inv t where
  legal := (legal_of_evolves { hd.config, hs with }).trans h.legal
  memory := by rw [hd.dm]; exact h.memory
  rings := cursorsOk_of_shapes hs h.rings
  timers := channels_of_shapes hs hd.params h.timers
  seq k := by
    have hprog : t.prog k = s.prog k := by
      cases k
      · exact hd.config.progMain
      · exact hd.config.progIsr
    rw [hd.ctxState, hprog]
    exact h.seq k
  ctx hc := by rw [hd.flags.isrGieSaved, hd.config.progIsr]; exact h.ctx (hd.flags.ctx ▸ hc)
  fault := by
    obtain ⟨hcode, hknown, hcp⟩ := h.fault
    rw [← hd.flags.status, ← hd.flags.fault] at hcode
    rw [← hd.flags.fault] at hknown hcp
    exact ⟨hcode, hknown, hcp⟩
  halt hst := by
    have hmain : t.main = s.main := hd.ctxState .main
    rw [hd.flags.ctx, hmain]
    exact h.halt (hd.flags.status ▸ hst)

end

/-! ### The micro-operation that runs, under the invariant -/

section
variable {s t : State} {m : MicroOp} {rest : List MicroOp} {w : Word}

theorem fetchWord_lt (h : fetchWord s = some w) : s.cur.cp < (s.prog s.ctx).length := by
  obtain ⟨hlt, -⟩ := List.getElem?_eq_some_iff.mp h
  exact hlt

theorem inv_cur (h : Inv s) : SeqOk s.cur (s.prog s.ctx).length := h.seq s.ctx

theorem current_cp_lt (h : Inv s) (hc : Current s m rest w) : s.cur.cp < (s.prog s.ctx).length := by
  cases hc with
  | fetched _ word => exact fetchWord_lt word
  | resumed hq => exact (inv_cur h).fetched (by simp [hq])

theorem current_rest_canWait (h : Inv s) (hc : Current s m rest w) : rest.all MicroOp.canWait = true := by
  cases hc with
  | fetched _ _ _ issued => exact issued.rest_canWait
  | resumed hq =>
    have hall := (inv_cur h).canWait
    rw [hq, List.all_cons, Bool.and_eq_true] at hall
    exact hall.2

/-- A micro-operation with more after it can be left over. -/
theorem current_head_canWait (h : Inv s) (hc : Current s m rest w) (hr : rest ≠ []) : m.canWait = true := by
  cases hc with
  | fetched _ _ _ issued => exact issued.head_canWait hr
  | resumed hq =>
    have hall := (inv_cur h).canWait
    rw [hq, List.all_cons, Bool.and_eq_true] at hall
    exact hall.1

/-- A micro-operation that cannot be left over is that of a command just fetched. -/
theorem current_fetched (h : Inv s) (hc : Current s m rest w) (hm : m.canWait = false) :
    ∃ i checks, Fetches s i ∧ Issued i s checks m rest ∧ firstTrap checks = none := by
  cases hc with
  | @fetched i checks idle word decodes issued pass => exact ⟨i, checks, ⟨idle, w, word, decodes⟩, issued, pass⟩
  | resumed hq =>
    have hall := (inv_cur h).canWait
    simp [hq, hm] at hall

/-- A micro-operation that only command j has is that of a fetched j, whose checks pass. -/
theorem current_owned (h : Inv s) (hc : Current s m rest w) {j : Instr} (ho : owner? m = some j) : Fetches s j ∧ Allowed s m := by
  have hm : m.canWait = false := by
    by_contra hw
    rw [owner_of_canWait (by simpa using hw)] at ho
    cases ho
  obtain ⟨i, checks, hf, issued, pass⟩ := current_fetched h hc hm
  obtain rfl := issued.owner j ho
  exact ⟨hf, issued.allowed pass⟩

theorem fetches_spendTurn {i : Instr} : Fetches s.spendTurn i ↔ Fetches s i := by
  simp [Fetches]

end

/-! ### What a micro-operation that is Done does to its context -/

section
variable {s s1 : State} {m : MicroOp}

theorem ordinary_self (h : Ordinary s s1) : s1.ctxState s.ctx = s1.cur := by
  rw [State.cur, h.ctx]

/-- Only a control micro-operation writes the pointer (R200). -/
theorem run_pointer (run : m.run s = .done s1) :
    (s1.ctxState s.ctx).cp = s.cur.cp ∨
      m.isControl = true ∧ ((s1.ctxState s.ctx).cp ≤ 65535 ∨ (s1.ctxState s.ctx).cp = s.cur.cp + 1) := by
  obtain h | h := run_effect run
  · exact .inl (by rw [ordinary_self h, h.cp])
  · cases h with
    | jump n control le => exact .inr ⟨control, by simpa [State.setCp, State.updCur] using le⟩
    | release | acquire | store => all_goals exact .inl (by simp [State.cur])
    | halt | setGie | returnFromIsr => all_goals exact .inl (by cases hc : s.ctx <;> simp [State.cur, State.ctxState, hc])

/-- Only GACQ raises the guard's depth (R208, R209). -/
theorem run_gdepth (run : m.run s = .done s1) :
    (s1.ctxState s.ctx).gdepth ≤ s.cur.gdepth ∨ m = .guardAcquire ∧ (s1.ctxState s.ctx).gdepth = s.cur.gdepth + 1 := by
  obtain h | h := run_effect run
  · exact .inl (by rw [ordinary_self h, h.gdepth])
  · cases h with
    | acquire => exact .inr ⟨rfl, by simp⟩
    | release | jump | store => all_goals exact .inl (by simp [State.cur])
    | halt | setGie | returnFromIsr => all_goals exact .inl (by cases hc : s.ctx <;> simp [State.cur, State.ctxState, hc])

/-- Only RETI writes the context (R212). -/
theorem run_ctx (run : m.run s = .done s1) : s1.ctx = s.ctx ∨ m = .returnFromIsr ∧ s1 = s.returnFromIsr := by
  obtain h | h := run_effect run
  · exact .inl h.ctx
  · cases h with
    | returnFromIsr => exact .inr ⟨rfl, rfl⟩
    | acquire | release | jump | store | halt | setGie => all_goals exact .inl (by simp)

/-- Only STB writes the memory (R206). -/
theorem run_memory (run : m.run s = .done s1) :
    s1.dm = s.dm ∨ ∃ k addr v, m = .storeArg k addr ∧ s1 = s.writeByte addr v := by
  obtain h | h := run_effect run
  · exact .inl h.dm
  · cases h with
    | store k addr v => exact .inr ⟨k, addr, v, rfl, rfl⟩
    | acquire | release | jump | returnFromIsr | halt | setGie => all_goals exact .inl (by simp)

/-- GIE is written by five commands (R216). -/
theorem run_gie (run : m.run s = .done s1) :
    s1.gie = s.gie ∨ ∃ i ∈ [Instr.eint, .dint, .gacq, .grel, .reti], owner? m = some i := by
  obtain h | h := run_effect run
  · exact .inl h.gie
  · cases h with
    | acquire | release | returnFromIsr => all_goals exact .inr ⟨_, by simp, rfl⟩
    | setGie v => exact .inr ⟨_, by cases v <;> simp, rfl⟩
    | jump | store | halt => all_goals exact .inl (by simp)

end

/-! ### The invariant after a micro-operation -/

section
variable {s s1 t : State} {m : MicroOp} {rest : List MicroOp} {w : Word}

theorem prog_le (h : s.legal = true) (k : Ctx) : (s.prog k).length ≤ 65536 := by
  simp only [State.legal, State.progsLegal, Bool.and_eq_true, decide_eq_true_eq] at h
  cases k
  · exact h.2.1
  · exact h.2.2

theorem prog_of_config (h : ConfigKept s t) (k : Ctx) : t.prog k = s.prog k := by
  cases k
  · exact h.progMain
  · exact h.progIsr

/-- The bank of the context that ran: the pointer is that of the next command, or stays while micro-operations are left. -/
theorem seqOk_done (h : Inv s) (hc : Current s m rest w) (run : m.run s = .done s1) :
    SeqOk ((s1.retire s.ctx m rest w).ctxState s.ctx) (s.prog s.ctx).length := by
  have hlt := current_cp_lt h hc
  have hlen := prog_le h.legal s.ctx
  have hkeep : rest ≠ [] → m.isControl = false := fun hr => by
    have hw := current_head_canWait h hc hr
    cases m <;> first | rfl | cases hw
  rw [State.retire_self]
  refine ⟨?cp, ?gdepth, current_rest_canWait h hc, fun hr => ?fetched⟩
  case cp =>
    dsimp only
    obtain hcp | ⟨hcontrol, hcp⟩ := run_pointer run
    · rw [hcp]
      split <;> omega
    · simp only [hcontrol, Bool.not_true, Bool.and_false, Bool.false_eq_true, if_false]
      omega
  case gdepth =>
    dsimp only
    have hdepth := (inv_cur h).gdepth
    obtain hle | ⟨rfl, heq⟩ := run_gdepth run
    · omega
    · have hfree : s.cur.gdepth < 255 := (current_owned h hc rfl).2
      omega
  case fetched =>
    obtain hcp | ⟨hcontrol, -⟩ := run_pointer run
    · simpa [hr, hcp] using hlt
    · rw [hkeep hr] at hcontrol
      cases hcontrol

theorem memory_done (h : Inv s) (run : m.run s = .done s1) : Memory.wf s1.dm = true := by
  obtain hdm | ⟨k, addr, v, -, rfl⟩ := run_memory run
  · rw [hdm]
    exact h.memory
  · exact State.writeByte_wf s addr v h.memory

theorem halt_done (h : Inv s) (hrun : s.status = .running) (hc : Current s m rest w) (run : m.run s = .done s1)
    (hs : s1.status = .halted) : m = .halt ∧ s.ctx = .main ∧ s.main.gdepth = 0 := by
  obtain hst | ⟨rfl, -⟩ := run_done_status run
  · rw [hst, hrun] at hs
    cases hs
  · obtain ⟨-, hctx, hdepth⟩ := current_owned h hc rfl
    rw [State.cur, hctx] at hdepth
    exact ⟨rfl, hctx, hdepth⟩

theorem inv_done (h : Inv s) (hrun : s.status = .running) (hc : Current s m rest w) (run : m.run s = .done s1) :
    Inv (s1.retire s.ctx m rest w) := by
  obtain ⟨-, -, -, -, -, hfault, hsaved, hother⟩ := run_done_kept run
  have hev : Evolves s (s1.retire s.ctx m rest w) := sequencer_evolves (.done hc run rfl)
  refine ⟨(legal_of_evolves hev).trans h.legal, ?memory, cursorsOk_of_shapes hev.toShapesKept h.rings,
    channels_of_shapes hev.toShapesKept hev.params h.timers, fun k => ?seq, fun hctx => ?ctx, ?fault, fun hs => ?halt⟩
  case memory => simpa using memory_done h run
  case seq =>
    rw [prog_of_config hev.toConfigKept]
    by_cases hk : k = s.ctx
    · subst hk
      exact seqOk_done h hc run
    · rw [State.retire_other _ _ _ _ hk, hother k hk]
      exact h.seq k
  case ctx =>
    rw [State.retire_ctx] at hctx
    rw [State.retire_isrGieSaved, hsaved, hev.progIsr]
    obtain hsame | ⟨-, rfl⟩ := run_ctx run
    · exact h.ctx (hsame ▸ hctx)
    · cases hctx
  case fault =>
    have hclean := h.fault.code.not.mp (by simp [hrun])
    refine ⟨?_, by simpa [hfault] using h.fault.known, by simpa [hfault] using h.fault.cp⟩
    rw [State.retire_status, State.retire_fault, hfault]
    refine iff_of_false (fun hf => ?_) hclean
    obtain hst | ⟨-, hst⟩ := run_done_status run <;> simp_all
  case halt =>
    rw [State.retire_status] at hs
    obtain ⟨rfl, hmain, hdepth⟩ := halt_done h hrun hc run hs
    have hs1 : s1 = { s with status := .halted } := by
      simp only [MicroOp.run] at run
      injection run with run
      exact run.symm
    subst hs1
    have hbank := State.retire_self { s with status := .halted } .main .halt rest w
    rw [hmain]
    refine ⟨by simp, ?_⟩
    exact (congrArg CtxState.gdepth hbank).trans hdepth

/-- A poll that waits keeps the micro-operations, which it may just have loaded. -/
theorem inv_waits (h : Inv s) (hrun : s.status = .running) (hc : Current s m rest w) (run : m.run s = .wait) :
    Inv (s.loadSeq s.ctx (m :: rest) w) := by
  obtain ⟨ch, d, rfl, -⟩ := run_wait run
  have hev : Evolves s (s.loadSeq s.ctx (.poll ch d :: rest) w) := sequencer_evolves (.waits hc run rfl)
  have hbank := inv_cur h
  refine ⟨(legal_of_evolves hev).trans h.legal, by simpa using h.memory, by simpa using h.rings, by simpa using h.timers,
    fun k => ?seq, by simpa using h.ctx, ⟨by simpa using h.fault.code, by simpa using h.fault.known, by simpa using h.fault.cp⟩,
    fun hs => ?halt⟩
  case seq =>
    rw [prog_of_config hev.toConfigKept]
    by_cases hk : k = s.ctx
    · subst hk
      rw [State.loadSeq_self]
      exact ⟨hbank.cp, hbank.gdepth, by simpa [MicroOp.canWait] using current_rest_canWait h hc, fun _ => current_cp_lt h hc⟩
    · rw [State.loadSeq_other _ _ _ hk]
      exact h.seq k
  case halt => simp [hrun] at hs

theorem inv_sequencer (h : Inv s) (hrun : s.status = .running) (he : SequencerEffect s t) : Inv t := by
  cases he with
  | raised tr ht => exact ht ▸ inv_raise h tr _
  | done current run ht => exact ht ▸ inv_done h hrun current run
  | waits current run ht => exact ht ▸ inv_waits h hrun current run

end

/-- Settles O58: the turn spent, each kind of step keeps each part of the invariant. -/
theorem stepKeepsInvariant : Obligations.StepKeepsInvariant := by
  intro s t hs hstep
  have h := inv_spendTurn (inv_iff.mp hs)
  refine inv_iff.mpr ?_
  cases step_effect hstep with
  | sequencer _ running effect => exact inv_sequencer h (by simpa using running) effect
  | entry _ enabled ht => exact ht ▸ inv_interruptEntry h (by simpa using enabled)
  | dropped _ ht => exact ht ▸ h
  | environment e _ ht => exact ht ▸ inv_devices h (envStep_devices ..) (envStep_shapes ..)

/-! ### Who writes the context, the status, GIE and the memory (R46, R100, R216) -/

/-- Settles O50: an entry, or the micro-operation that RETI alone has. -/
theorem contextChangesOnlyByEntryAndReti : Obligations.ContextChangesOnlyByEntryAndReti := by
  intro s t hs hstep hne
  have h := inv_spendTurn (inv_iff.mp hs)
  cases step_effect hstep with
  | sequencer turn _ effect =>
    cases effect with
    | raised _ ht => simp [ht] at hne
    | waits _ _ ht => simp [ht] at hne
    | @done m rest w s1 current run ht =>
      obtain hsame | ⟨rfl, rfl⟩ := run_ctx run
      · simp [ht, hsame] at hne
      · obtain ⟨hf, hisr, -⟩ := current_owned h current rfl
        have hsaved := (h.ctx hisr).1
        subst ht
        exact .inr ⟨by simpa using hisr, by simp [State.returnFromIsr], by simpa [State.returnFromIsr] using hsaved, turn,
          fetches_spendTurn.mp hf⟩
  | entry turn enabled ht =>
    obtain ⟨hrun, hmain, hgie, -⟩ := entryEnabled_iff.mp enabled
    exact .inl ⟨hmain, by rw [ht]; rfl, hrun, hgie, turn⟩
  | dropped _ ht => simp [ht] at hne
  | environment e _ ht => exact absurd ((ht ▸ (envStep_devices s.spendTurn e).flags.ctx).trans (by simp)) hne

/-- Settles O52: each micro-operation that writes GIE is one that only its command has. -/
theorem gieChangesOnlyByItsWriters : Obligations.GieChangesOnlyByItsWriters := by
  intro s t hs hstep hne
  have h := inv_spendTurn (inv_iff.mp hs)
  cases step_effect hstep with
  | sequencer turn _ effect =>
    cases effect with
    | raised _ ht => simp [ht] at hne
    | waits _ _ ht => simp [ht] at hne
    | done current run ht =>
      obtain hsame | ⟨i, hi, ho⟩ := run_gie run
      · simp [ht, hsame] at hne
      · exact .inr ⟨turn, i, hi, fetches_spendTurn.mp (current_owned h current ho).1⟩
  | entry turn => exact .inl turn
  | dropped turn => exact .inl turn
  | environment e _ ht => exact absurd ((ht ▸ (envStep_devices s.spendTurn e).flags.gie).trans (by simp)) hne

/-- Settles O51: only HALT's micro-operation halts, and its checks have passed. -/
theorem haltedOnlyByHaltInMain : Obligations.HaltedOnlyByHaltInMain := by
  intro s t hs hstep hrun hhalt
  have h := inv_spendTurn (inv_iff.mp hs)
  have hrun' : s.spendTurn.status = .running := by simpa using hrun
  cases step_effect hstep with
  | sequencer turn _ effect =>
    cases effect with
    | raised _ ht => subst ht; cases hhalt
    | waits _ _ ht => simp [ht, hrun] at hhalt
    | done current run ht =>
      obtain ⟨rfl, hmain, hdepth⟩ := halt_done h hrun' current run (by simpa [ht] using hhalt)
      exact ⟨turn, fetches_spendTurn.mp (current_owned h current rfl).1, by simpa using hmain, by simpa using hdepth⟩
  | entry _ _ ht => simp [ht, hrun] at hhalt
  | dropped _ ht => simp [ht, hrun] at hhalt
  | environment e _ ht =>
    have hst := (envStep_devices s.spendTurn e).flags.status
    simp_all

/-- Settles O56: only the micro-operation of an STB writes the memory, at the address of that STB. -/
theorem memoryChangesOnlyByStb : Obligations.MemoryChangesOnlyByStb := by
  intro s t a hs hstep hne
  have h := inv_spendTurn (inv_iff.mp hs)
  have same : ∀ {u : State}, u.dm = s.spendTurn.dm → u.readByte a = s.readByte a := fun hu =>
    State.readByte_congr (hu.trans (by simp)) a
  cases step_effect hstep with
  | sequencer turn _ effect =>
    cases effect with
    | raised _ ht => exact absurd (same (by simp [ht])) hne
    | waits _ _ ht => exact absurd (same (by simp [ht])) hne
    | done current run ht =>
      obtain hdm | ⟨k, addr, v, rfl, rfl⟩ := run_memory run
      · exact absurd (same (by simp [ht, hdm])) hne
      · have hfetch := fetches_spendTurn.mp (current_owned h current rfl).1
        by_cases ha : a = addr
        · exact ⟨turn, k, ha ▸ hfetch⟩
        · refine absurd ?_ hne
          rw [ht, retire_readByte, State.readByte_writeByte_ne _ v ha]
          exact same rfl
  | entry _ _ ht => exact absurd (same (by simp [ht])) hne
  | dropped _ ht => exact absurd (same (by simp [ht])) hne
  | environment e _ ht => exact absurd (same (ht ▸ (envStep_devices s.spendTurn e).dm)) hne

end Sys2Proof.WholeMachine
end

section
/-! SUPPORT. PROOFS. Interrupt entry and the return from it, and the invariant after reset (R212, R620, R700). -/

open Sys2Proof.Machine Sys2Proof.Sequencing Sys2Proof.WholeMachine

namespace Sys2Proof.Interrupts

/-! ### Steps of the block in a row -/

theorem run_succ_of_next {M : Host.Core} {s t : M.State} (k : Nat) (h : M.step s = .next t) : M.run (k + 1) s = M.run k t := by
  rw [Host.Core.run, h]

theorem run_step {s t : State} (k : Nat) (h : step s = .next t) :
    Host.Core.run Sys2Proof.core (k + 1) s = Host.Core.run Sys2Proof.core k t :=
  run_succ_of_next (M := Sys2Proof.core) k h

/-! ### An interrupt turn (R620, R622) -/

theorem step_interrupt {s : State} {rest : List Turn} (hlegal : s.legal = true) (hturn : s.agenda = .interrupt :: rest) :
    step s = .next (if s.entryEnabled then ({ s with agenda := rest } : State).interruptEntry else { s with agenda := rest }) := by
  rw [step, hlegal, State.nextTurn_cons hturn, takeTurn, State.spendTurn_entryEnabled, State.spendTurn_cons hturn]
  rfl

/-- Settles O48: an enabled entry saves GIE as it is, which is 1. -/
theorem interruptEntryEffect : Obligations.InterruptEntryEffect := by
  intro s rest hlegal hturn
  rw [step_interrupt hlegal hturn, ← entryEnabled_iff]
  refine ⟨fun he => ?_, fun he => by rw [if_neg he]⟩
  obtain ⟨-, -, hgie, -⟩ := entryEnabled_iff.mp he
  rw [if_pos he, State.interruptEntry, hgie]

/-! ### RETI (R212) -/

/-- The step that fetches a RETI in the Isr context, with the guard released. -/
theorem step_reti {s : State} (h : AtFetch s) (hctx : s.ctx = .isr) (hdepth : s.isr.gdepth = 0)
    (hword : fetchWord s = some 0x0B000000) :
    step s = .next (s.spendTurn.returnFromIsr.retire .isr .returnFromIsr [] 0x0B000000) := by
  have hfree : s.spendTurn.guardHeld = false := guardHeld_eq_false.mpr (by simpa [State.cur, hctx, State.ctxState] using hdepth)
  have hpass : firstTrap [(s.spendTurn.ctx == .main, Trap.context), (s.spendTurn.guardHeld, .guardUnbalanced)] = none := by
    rw [firstTrap_cons_none, firstTrap_cons_none]
    exact ⟨by simp [hctx], hfree, rfl⟩
  have hexec := Completion.exec_of_done (i := .reti) (s := s.spendTurn) rfl hpass rfl
  rw [State.spendTurn_ctx, hctx] at hexec
  rw [Encoding.step_of_atFetch h, beginCommand, State.spendTurn_fetchWord, hword]
  exact hexec

/-- Settles O49: the entry's step and RETI's, one after the other. -/
theorem interruptThenRetiResumesMain : Obligations.InterruptThenRetiResumesMain := by
  intro s rest hs hctx hgie hword hturn
  have hprog : s.progIsr ≠ [] := by
    intro hnil
    simp [hnil] at hword
  have hentry := (interruptEntryEffect s _ hs.legal hturn).1 ⟨hs.running, hctx, hgie, hprog⟩
  have hfetch : AtFetch { s with
      agenda := .sequencer :: rest, isrGieSaved := true, gie := false, ctx := .isr
      isr := { s.isr with cp := 0, gdepth := 0, useq := [] } } := ⟨⟨hs.legal, hs.running⟩, rfl, rfl⟩
  rw [run_step 1 hentry, run_step 0 (step_reti hfetch rfl rfl hword)]
  obtain ⟨⟩ := s
  subst hctx hgie
  rfl

end Sys2Proof.Interrupts

namespace Sys2Proof.WholeMachine

/-! ### The invariant after reset (R503, R700) -/

/-- A cleared bank has nothing in progress. -/
theorem seqOk_reset (len : Nat) : SeqOk CtxState.reset len := ⟨Nat.zero_le _, Nat.zero_le _, rfl, fun h => absurd rfl h⟩

theorem cursorsOk_reset {n : Nat} (h : 1 ≤ n) : (Ring.reset n).cursorsOk = true := by
  simpa [Ring.reset, Ring.cursorsOk] using Nat.pos_of_ne_zero (by omega)

theorem capacity_pos {s : State} (h : s.legal = true) : ∀ r ∈ s.rings, 1 ≤ r.buf.length := by
  simp only [State.legal, State.ringsLegal, Bool.and_eq_true, List.all_eq_true, decide_eq_true_eq] at h
  obtain ⟨⟨-, ⟨-, hcap⟩, -⟩, -⟩ := h
  exact fun r hr => (hcap r hr).1

theorem inv_boot {b : Boot} (hlegal : (State.boot b).legal = true) (hmem : Memory.wf b.dmInit = true) : Inv (State.boot b) where
  legal := hlegal
  memory := hmem
  rings r hr := by
    have hcap := capacity_pos hlegal r hr
    obtain ⟨n, -, rfl⟩ := List.mem_map.mp hr
    exact cursorsOk_reset (by simpa [Ring.reset] using hcap)
  timers tm htm := by
    obtain ⟨k, -, rfl⟩ := List.mem_map.mp htm
    exact List.length_replicate
  seq k := by cases k <;> exact seqOk_reset _
  ctx h := nomatch h
  fault := ⟨iff_of_false (fun h => nomatch h) (fun h => h rfl), Nat.zero_le _, Nat.zero_le _⟩
  halt h := nomatch h

/-- Settles O60: reset is the boot with the default choices, whose parameters are legal and whose memory is empty. -/
theorem resetMeetsInvariant : Obligations.ResetMeetsInvariant :=
  ⟨inv_iff.mpr (inv_boot (b := Boot.default) (by decide) rfl), fun _ hlegal hmem => inv_iff.mpr (inv_boot hlegal hmem)⟩

end Sys2Proof.WholeMachine
end

section
/-! SUPPORT. PROOFS. The configuration cells: no agent's step changes one while its channel is enabled (R305, R314, R721). -/

open Sys2Proof.Machine Sys2Proof.Sequencing Sys2Proof.SerialFrames

namespace Sys2Proof.ConfigCells

/-- The configuration cells of the enabled channels are kept (R314). -/
def ConfigFixed (s t : State) : Prop :=
  ∀ ch role, role.isConfig = true → role.hasCell ch.kind = true → s.held ch = false → t.cellValue ch role = s.cellValue ch role

section
variable {s t u : State} {ch : Chan} {l : List Role}

theorem configFixed_of_serial (h : t.serial = s.serial) : ConfigFixed s t :=
  fun c r _ _ _ => State.cellValue_congr h c r

/-- Where the configuration cells that may have changed are those of a held channel. -/
theorem configFixed_of_cellsKept (h : CellsKeptBut ch l s t) (hl : ∀ r ∈ l, r.isConfig = true → s.held ch = true) :
    ConfigFixed s t := by
  intro c r hr hcell hheld
  refine h c r hcell (or_iff_not_imp_left.mpr fun hc hmem => ?_)
  obtain rfl : c = ch := not_not.mp hc
  simp [hl r hmem hr] at hheld

theorem configBlocked_eq_false {role : Role} (h : s.configBlocked ch role = false) (hr : role.isConfig = true) : s.held ch = true := by
  simpa [State.configBlocked, hr] using h

theorem configFixed_serial (hu : t.serial = s.serial) (h : ∀ c r, u.cellValue c r = t.cellValue c r) : ConfigFixed s u :=
  fun c r _ _ _ => (h c r).trans (State.cellValue_congr hu c r)

variable (s ch)

theorem configFixed_writeHold (v : Bool) : ConfigFixed s (s.writeHold ch v) :=
  configFixed_of_cellsKept (writeHold_cellsKept s ch v) (by simp [Role.isConfig])

theorem configFixed_writeTxbuf (v : Byte) : ConfigFixed s (s.writeTxbuf ch v) :=
  configFixed_of_cellsKept (writeTxbuf_cellsKept s ch v) (by simp [Role.isConfig])

/-- A field write that has passed the configuration check (R316). -/
theorem configFixed_setField (f : Field) (v : Bool) (h : f.role.isConfig = true → s.held ch = true) :
    ConfigFixed s (s.setField ch f v) :=
  configFixed_of_cellsKept (setField_cellsKept s ch f v) (by simpa using h)

/-- A write of CTL1 touches STAT too; neither is a configuration cell (R305). -/
theorem held_of_touched {role r : Role} (h : role.isConfig = true → s.held ch = true) (hr : r ∈ touched role)
    (hc : r.isConfig = true) : s.held ch = true := by
  cases role
  case ctl1 => revert hr hc; cases r <;> simp [touched, Role.isConfig]
  all_goals
    obtain rfl := List.mem_singleton.mp hr
    exact h hc

end

/-! ### The micro-operations (R42) -/

theorem configFixed_ringAccess {s t : State} {b : Nat} {f : Ring → State → State} (h : ringAccess b f s = .done t)
    (hf : ∀ r, ConfigFixed s (f r s)) : ConfigFixed s t := by
  obtain rfl | ⟨r, r1, -, -, rfl⟩ := Steps.ringAccess_done h
  · exact configFixed_of_serial rfl
  · exact hf r1

/-- Only a field write and a cell write can reach a configuration cell, and both check the hold first. -/
theorem run_configFixed {m : MicroOp} {s t : State} (h : m.run s = .done t) : ConfigFixed s t := by
  cases m <;> simp only [MicroOp.run] at h
  case fieldWrite ch f v =>
    rcases microFieldWrite_cases ch f v s with ⟨-, hd⟩ | ⟨-, -, hd⟩ | ⟨hfree, -, hd⟩ <;> rw [hd] at h
    · cases h
    · injection h with h
      exact h ▸ configFixed_writeHold s ch v
    · injection h with h
      exact h ▸ configFixed_setField s ch f v (configBlocked_eq_false hfree)
  case cellWrite ch role v =>
    rcases microCellWrite_cases ch role v s with ⟨-, hd⟩ | ⟨-, -, hd⟩ | ⟨hcell, hfree, hd⟩ <;> rw [hd] at h
    · injection h with h
      exact h ▸ configFixed_of_serial rfl
    · cases h
    · injection h with h
      exact h ▸ configFixed_of_cellsKept (storeCell_cellsKept s ch v hcell)
        (fun _ => held_of_touched s ch (configBlocked_eq_false hfree))
  case hold ch v =>
    injection h with h
    exact h ▸ configFixed_writeHold s ch v
  case txByte | txMem =>
    all_goals
      injection h with h
      exact h ▸ configFixed_writeTxbuf s _ _
  case setIe =>
    injection h with h
    exact h ▸ configFixed_serial rfl fun _ _ => State.setIe_cellValue ..
  case rxRes =>
    injection h with h
    exact h ▸ configFixed_serial (State.setRes_serial ..) fun _ _ => State.setIfg_cellValue ..
  case cellRead ch role =>
    unfold microCellRead at h
    split at h <;> injection h with h <;> subst h
    · split
      · exact configFixed_serial (State.setRes_serial ..) fun _ _ => State.setIfg_cellValue ..
      · exact configFixed_of_serial (State.setRes_serial ..)
    · exact configFixed_of_serial rfl
  case poll ch d =>
    unfold microPoll at h
    split at h
    · injection h with h
      exact h ▸ configFixed_of_serial rfl
    · cases h
  case rxPush ch b => exact configFixed_ringAccess h fun r => configFixed_serial rfl fun _ _ => State.setIfg_cellValue ..
  case ringInsert | ringGet | ringEmpty | ringOvf | ringClearOvf | ringClear =>
    all_goals exact configFixed_ringAccess h fun r => configFixed_of_serial (by simp)
  case timerGetValue | timerGetCov =>
    all_goals
      injection h with h
      subst h
      unfold State.timerToRes
      split <;> exact configFixed_of_serial (by simp)
  all_goals
    injection h with h
    subst h
    exact configFixed_of_serial (by simp)

/-! ### Every agent's step (R36, R44) -/

/-- Receiving a byte leaves every cell but RXBUF, an overrun aside. -/
theorem receive_cellsKept (s : State) (ch : Chan) (v : Byte) :
    CellsKeptBut ch [.rxbuf] s ((s.updCells ch (fun c => { c with rxbuf := v })).setIfg ch .rx true) := by
  have cells : CellsKeptBut ch [.rxbuf] s (s.updCells ch (fun c => { c with rxbuf := v })) :=
    cellsKeptBut_updCells s ch _ fun r hr => by cases r <;> first | exact absurd (.head _) hr | simp [State.cellValue]
  exact cellsKeptBut_append cells (setIfg_cellsKept _ ch ch .rx true)

theorem receiveByte_cellsKept (s : State) (ch : Chan) (v : Byte) : CellsKeptBut ch [.stat, .rxbuf] s (s.receiveByte ch v) := by
  unfold State.receiveByte
  split
  · exact cellsKeptBut_append (setField_cellsKept s ch .oe true) (receive_cellsKept _ ch v)
  · exact cellsKeptBut_mono (by simp) (receive_cellsKept s ch v)

theorem envStep_configFixed (e : EnvStep) (s : State) : ConfigFixed s (envStep e s) := by
  have idle : ConfigFixed s s := configFixed_of_serial rfl
  cases e <;> simp only [envStep]
  case count => exact configFixed_of_serial rfl
  case capture =>
    unfold State.captureStep
    split <;> exact configFixed_of_serial rfl
  case txReady ch =>
    split
    · exact configFixed_of_cellsKept (setIfg_cellsKept s ch ch .tx true) (by simp)
    · exact idle
  case rxByte ch v =>
    split
    · exact configFixed_of_cellsKept (receiveByte_cellsKept s ch v) (by simp [Role.isConfig])
    · exact idle
  case startDone ch | stopDone ch =>
    all_goals
      split
      · exact configFixed_setField s ch _ _ (fun h => nomatch h)
      · exact idle
  case status ch v =>
    split
    · exact configFixed_of_cellsKept (setStatusBits_cellsKept s ch v) (by simp [Role.isConfig])
    · exact idle

theorem sequencer_configFixed {s t : State} (h : SequencerEffect s t) : ConfigFixed s t := by
  cases h with
  | raised _ ht => exact ht ▸ configFixed_of_serial rfl
  | waits _ _ ht => exact ht ▸ configFixed_of_serial (by simp)
  | done _ run ht =>
    subst ht
    exact fun c r hr hcell hheld => (Frames.retire_cellValue ..).trans (run_configFixed run c r hr hcell hheld)

/-- Settles O55: whatever agent steps, the configuration cells of the enabled channels are kept. -/
theorem configCellsChangeOnlyWhileHeld : Obligations.ConfigCellsChangeOnlyWhileHeld := by
  intro s t ch role hstep hrole hcell hne
  have hfixed : ConfigFixed s.spendTurn t := by
    cases step_effect hstep with
    | sequencer _ _ effect => exact sequencer_configFixed effect
    | entry _ _ ht => exact ht ▸ configFixed_of_serial rfl
    | dropped _ ht => exact ht ▸ configFixed_of_serial rfl
    | environment e _ ht => exact ht ▸ envStep_configFixed e s.spendTurn
  have hconfig : role.isConfig = true := by
    revert hrole
    cases role <;> simp [Role.isConfig]
  have hheld : s.spendTurn.held ch = s.held ch := State.field_congr (by simp) (by simp) ch .swrst
  have hvalue : s.spendTurn.cellValue ch role = s.cellValue ch role := State.cellValue_congr (by simp) ch role
  by_contra hfree
  exact hne ((hfixed ch role hconfig hcell (by simpa [hheld] using hfree)).trans hvalue)

end Sys2Proof.ConfigCells
end

section
/-! SUPPORT. PROOFS. The control commands: what each leaves, and the faults of their context and guard (40_control.md). -/

open Sys2Proof.Machine Sys2Proof.Frames Sys2Proof.Completion Sys2Proof.Sequencing

namespace Sys2Proof.ControlUnit

/-! ### The bank, with a micro-operation retired (R43) -/

section
variable (s : State) (k : Ctx) (m : MicroOp) (rest : List MicroOp) (w : Word)

@[simp] theorem retire_arg (r : ArgReg) : ((s.retire k m rest w).ctxState k).arg r = (s.ctxState k).arg r := by
  rw [State.retire_self]
  cases r <;> rfl

@[simp] theorem retire_res : ((s.retire k m rest w).ctxState k).res = (s.ctxState k).res := by
  rw [State.retire_self]

@[simp] theorem retire_gdepth : ((s.retire k m rest w).ctxState k).gdepth = (s.ctxState k).gdepth := by
  rw [State.retire_self]

@[simp] theorem retire_gsaved : ((s.retire k m rest w).ctxState k).gsaved = (s.ctxState k).gsaved := by
  rw [State.retire_self]

end

section
variable {s s1 : State} (m : MicroOp) (rest : List MicroOp) (w : Word)

theorem argsKept_retire (h : ArgsKept s s1) : ArgsKept s (s1.retire s.ctx m rest w) := by
  simpa [ArgsKept] using h

theorem resKept_retire (h : ResKept s s1) : ResKept s (s1.retire s.ctx m rest w) := by
  simpa [ResKept] using h

theorem guardKept_retire (h : GuardKept s s1) : GuardKept s (s1.retire s.ctx m rest w) := by
  simpa [GuardKept] using h

theorem memKept_retire (h : MemKept s s1) : MemKept s (s1.retire s.ctx m rest w) := by
  simpa [MemKept] using h

theorem procKept_retire (h : ProcKept s s1) : ProcKept s (s1.retire s.ctx m rest w) where
  ctx := (State.retire_ctx ..).trans h.ctx
  isrGieSaved := (State.retire_isrGieSaved ..).trans h.isrGieSaved
  status := (State.retire_status ..).trans h.status
  fault := (State.retire_fault ..).trans h.fault

theorem turnsKept_retire (h : TurnsKept s s1) : TurnsKept s (s1.retire s.ctx m rest w) where
  agenda := (State.retire_agenda ..).trans h.agenda
  interludes := (State.retire_interludeCount ..).trans h.interludes

theorem flagsKept_retire (h : FlagsKept s s1) : FlagsKept s (s1.retire s.ctx m rest w) :=
  { procKept_retire m rest w h.toProcKept, turnsKept_retire m rest w h.toTurnsKept with
    gie := (State.retire_gie ..).trans h.gie }

/-- A control command is over with the pointer that its micro-operation leaves (R200). -/
theorem retiredAt_retire {m : MicroOp} (i : Instr) (hm : m.isControl = true) (hconfig : ConfigKept s s1)
    (hother : ∀ k, k ≠ s.ctx → s1.ctxState k = s.ctxState k) :
    RetiredAt i (s1.ctxState s.ctx).cp s (s1.retire s.ctx m [] (encode i)) where
  config :=
    { params := (State.retire_params ..).trans hconfig.params
      progMain := (State.retire_progMain ..).trans hconfig.progMain
      progIsr := (State.retire_progIsr ..).trans hconfig.progIsr }
  cp := by simp [State.retire_self, hm]
  useq := by simp [State.retire_self]
  word := by simp [State.retire_self]
  other k hk := (State.retire_other _ _ _ _ hk).trans (hother k hk)

end

/-! ### A write of the current bank leaves the rest (R31) -/

section
variable (s : State) (f : CtxState → CtxState)

theorem config_updCur : ConfigKept s (s.updCur f) := ⟨by simp, by simp, by simp⟩

theorem procKept_updCur : ProcKept s (s.updCur f) := ⟨by simp, by simp, by simp, by simp⟩

theorem turnsKept_updCur : TurnsKept s (s.updCur f) := ⟨by simp, by simp⟩

theorem flagsKept_updCur : FlagsKept s (s.updCur f) :=
  { procKept_updCur s f, turnsKept_updCur s f with gie := by simp }

theorem memKept_updCur : MemKept s (s.updCur f) := State.readByte_congr (by simp)

theorem devicesKept_updCur : DevicesKept s (s.updCur f) := ⟨⟨by simp, by simp⟩, by simp [TimersKept], by simp [RingsKept]⟩

end

/-! ### The register moves and the memory (R201 to R207) -/

section
variable {i : Instr} {checks : List (Bool × Trap)} {m : MicroOp} {s : State}

/-- A command whose one micro-operation writes an argument register completes with that value in it, and nothing else changes. -/
theorem completes_of_setArg {k : ArgReg} {v : Word} (he : exec i s = issue i checks [m] s) (hc : firstTrap checks = none)
    (hm : m.isControl = false) (hr : m.run s = .done (s.setArg k v)) :
    ∃ t, exec i s = .next t ∧ Retired i s t ∧ (t.ctxState s.ctx).arg k = v ∧
      (∀ r, r ≠ k → (t.ctxState s.ctx).arg r = s.cur.arg r) ∧ ResKept s t ∧ GuardKept s t ∧ FlagsKept s t ∧ MemKept s t ∧
      DevicesKept s t := by
  refine ⟨_, exec_of_done he hc hr, retired_retire i hm (config_updCur ..) (by simp) fun k hk => updCur_other s _ hk, by simp,
    fun r hr => ?_, resKept_retire _ _ _ (by simp [ResKept]), guardKept_retire _ _ _ (by simp [GuardKept]),
    flagsKept_retire _ _ _ (flagsKept_updCur ..), memKept_retire _ _ _ (memKept_updCur s _),
    devicesKept_retire _ _ _ (devicesKept_updCur ..)⟩
  simp [CtxState.setArg_arg_ne _ _ hr]

end

/-- Settles O12: NOP's micro-operation leaves the state as it is, and the three others write an argument register. -/
theorem registerMovesComplete : Obligations.RegisterMovesComplete := by
  intro k imm s
  refine ⟨?nop, ?ldlo, ?ldhi, ?movres⟩
  case nop =>
    refine ⟨_, exec_of_done (checks := []) rfl rfl rfl, retired_retire _ rfl ⟨rfl, rfl, rfl⟩ rfl fun _ _ => rfl, ?_, ?_, ?_⟩
    · exact coreKept_retire _ _ _ (DevicesOnly.refl s).core
    · exact resKept_retire _ _ _ rfl
    · exact devicesKept_retire _ _ _ ⟨⟨rfl, rfl⟩, rfl, rfl⟩
  case ldlo => exact completes_of_setArg (checks := []) rfl rfl rfl rfl
  case movres => exact completes_of_setArg (checks := []) rfl rfl rfl rfl
  case ldhi =>
    obtain ⟨t, hexec, hretired, harg, hkept⟩ :=
      completes_of_setArg (i := .ldhi k imm) (s := s) (k := k) (v := imm ++ (s.cur.arg k).extractLsb' 0 16) (checks := [])
        rfl rfl rfl rfl
    refine ⟨t, hexec, hretired, ?_, ?_, hkept⟩
    · rw [harg]
      exact BitVec.extractLsb'_append_eq_left
    · rw [harg]
      exact BitVec.extractLsb'_append_eq_right

/-- Settles O13: STB's micro-operation writes one byte of the memory, LDB's writes RES. -/
theorem memoryByteCommandsComplete : Obligations.MemoryByteCommandsComplete := by
  intro k addr s
  refine ⟨fun hmem => ?stb, ?ldb⟩
  case ldb => exact completes_of_setRes (checks := []) rfl rfl rfl rfl
  case stb =>
    refine ⟨_, exec_of_done (checks := []) rfl rfl rfl, retired_retire _ rfl ⟨rfl, rfl, rfl⟩ (by simp [State.cur]) (by simp), ?_,
      fun a ha => ?_, argsKept_retire _ _ _ fun r => by simp [State.cur], resKept_retire _ _ _ (by simp [ResKept, State.cur]),
      guardKept_retire _ _ _ (by simp [GuardKept, State.cur]),
      flagsKept_retire _ _ _ ⟨⟨rfl, rfl, rfl, rfl⟩, ⟨rfl, rfl⟩, rfl⟩, devicesKept_retire _ _ _ ⟨⟨rfl, rfl⟩, rfl, rfl⟩⟩
    · rw [retire_readByte, State.readByte_writeByte_self s addr _ hmem]
    · rw [retire_readByte, State.readByte_writeByte_ne s _ ha]

/-! ### The guard and GIE (R208 to R211) -/

theorem guardAcquire_other (s : State) {k : Ctx} (hk : k ≠ s.ctx) : s.guardAcquire.ctxState k = s.ctxState k := by
  have h : (s.updCur (fun c =>
      { c with gsaved := if c.gdepth = 0 then s.gie else c.gsaved, gdepth := c.gdepth + 1 })).ctxState k = s.ctxState k :=
    updCur_other s _ hk
  cases k <;> exact h

theorem guardRelease_other (s : State) {k : Ctx} (hk : k ≠ s.ctx) : s.guardRelease.ctxState k = s.ctxState k := by
  have h : (s.updCur (fun c => { c with gdepth := c.gdepth - 1 })).ctxState k = s.ctxState k := updCur_other s _ hk
  unfold State.guardRelease
  dsimp only
  split
  · cases k <;> exact h
  · exact h

theorem depth_pred_eq_zero {n : Nat} (h : 0 < n) : n - 1 = 0 ↔ n = 1 := by omega

/-- Settles O14: the guard's depth decides what is saved and what is restored. -/
theorem guardCommandsComplete : Obligations.GuardCommandsComplete := by
  intro s
  refine ⟨fun hfree => ?gacq, fun hheld => ?grel⟩
  case gacq =>
    have pass : firstTrap [(s.guardFull, Trap.guardUnbalanced)] = none :=
      firstTrap_cons_none.mpr ⟨guardFull_eq_false.mpr hfree, rfl⟩
    refine ⟨_, exec_of_done rfl pass rfl,
      retired_retire _ rfl ⟨by simp, by simp, by simp⟩ (by simp) fun k hk => guardAcquire_other s hk, by simp, by simp, by simp,
      procKept_retire _ _ _ ⟨by simp, by simp, by simp, by simp⟩, turnsKept_retire _ _ _ ⟨by simp, by simp⟩,
      argsKept_retire _ _ _ fun r => ?_, resKept_retire _ _ _ (by simp [ResKept]),
      memKept_retire _ _ _ (State.readByte_congr (by simp)),
      devicesKept_retire _ _ _ ⟨⟨by simp, by simp⟩, by simp [TimersKept], by simp [RingsKept]⟩⟩
    rw [guardAcquire_self]
    cases r <;> rfl
  case grel =>
    have pass : firstTrap [(!s.guardHeld, Trap.guardUnbalanced)] = none :=
      firstTrap_cons_none.mpr ⟨by simpa using guardHeld_iff.mpr (Nat.ne_of_gt hheld), rfl⟩
    refine ⟨_, exec_of_done rfl pass rfl,
      retired_retire _ rfl ⟨by simp, by simp, by simp⟩ (by simp) fun k hk => guardRelease_other s hk, ?_, by simp, by simp,
      procKept_retire _ _ _ ⟨by simp, by simp, by simp, by simp⟩, turnsKept_retire _ _ _ ⟨by simp, by simp⟩,
      argsKept_retire _ _ _ fun r => ?_, resKept_retire _ _ _ (by simp [ResKept]),
      memKept_retire _ _ _ (State.readByte_congr (by simp)),
      devicesKept_retire _ _ _ ⟨⟨by simp, by simp⟩, by simp [TimersKept], by simp [RingsKept]⟩⟩
    · rw [State.retire_gie, guardRelease_gie]
      simp only [depth_pred_eq_zero hheld]
    · rw [guardRelease_self]
      cases r <;> rfl

/-- A command whose one micro-operation writes GIE. -/
theorem completes_of_setGie {i : Instr} {s : State} (v : Bool) (he : exec i s = issue i [] [.setGie v] s) :
    ∃ t, exec i s = .next t ∧ Retired i s t ∧ t.gie = v ∧ GuardKept s t ∧ ProcKept s t ∧ TurnsKept s t ∧
      ArgsKept s t ∧ ResKept s t ∧ MemKept s t ∧ DevicesKept s t := by
  have hbank : ∀ k, ({ s with gie := v } : State).ctxState k = s.ctxState k := fun k => by cases k <;> rfl
  refine ⟨_, exec_of_done he rfl rfl, retired_retire i rfl ⟨rfl, rfl, rfl⟩ (by rw [hbank]; rfl) fun k _ => hbank k, by simp,
    guardKept_retire _ _ _ ?_, procKept_retire _ _ _ ⟨rfl, rfl, rfl, rfl⟩, turnsKept_retire _ _ _ ⟨rfl, rfl⟩,
    argsKept_retire _ _ _ fun r => ?_, resKept_retire _ _ _ ?_, memKept_retire _ _ _ fun _ => rfl,
    devicesKept_retire _ _ _ ⟨⟨rfl, rfl⟩, rfl, rfl⟩⟩
  · rw [GuardKept, hbank]
    exact ⟨rfl, rfl⟩
  · rw [hbank]
    rfl
  · rw [ResKept, hbank]
    rfl

/-- Settles O15: both write GIE alone. -/
theorem interruptEnableCommandsComplete : Obligations.InterruptEnableCommandsComplete :=
  fun _ => ⟨completes_of_setGie true rfl, completes_of_setGie false rfl⟩

/-! ### The control commands that write the pointer, the status or the context (R202, R212 to R215) -/

/-- A jump, whose one micro-operation writes the pointer. -/
theorem completes_of_setCp {i : Instr} {m : MicroOp} {s : State} {n : Nat} (he : exec i s = issue i [] [m] s)
    (hm : m.isControl = true) (hr : m.run s = .done (s.setCp n)) :
    ∃ t, exec i s = .next t ∧ RetiredAt i n s t ∧ CoreKept s t ∧ ResKept s t ∧ DevicesKept s t := by
  have hretired := retiredAt_retire i hm (config_updCur s (fun c => { c with cp := n })) fun k hk => updCur_other s _ hk
  rw [updCur_self] at hretired
  refine ⟨_, exec_of_done he rfl hr, hretired, coreKept_retire _ _ _ ⟨fun r => ?_, ?_, flagsKept_updCur .., memKept_updCur s _⟩,
    resKept_retire _ _ _ (by simp [ResKept]), devicesKept_retire _ _ _ (devicesKept_updCur ..)⟩
  · rw [setCp_self]
    cases r <;> rfl
  · simp [GuardKept]

/-- Settles O16: each writes the pointer, by RES or not. -/
theorem jumpsComplete : Obligations.JumpsComplete := by
  intro target s
  refine ⟨completes_of_setCp rfl rfl rfl, completes_of_setCp rfl rfl rfl, completes_of_setCp rfl rfl ?_⟩
  by_cases h : s.cur.res = 0 <;> simp [MicroOp.run, h]

/-- Settles O17: neither writes a bank. -/
theorem haltAndRetiComplete : Obligations.HaltAndRetiComplete := by
  intro s
  refine ⟨fun hctx hdepth => ?halt, fun hctx hdepth => ?reti⟩
  case halt =>
    have hbank : ∀ k, ({ s with status := .halted } : State).ctxState k = s.ctxState k := fun k => by cases k <;> rfl
    have hcur : s.main = s.cur := by rw [State.cur, hctx]; rfl
    have pass : firstTrap [(s.ctx == .isr, Trap.context), (s.guardHeld, .guardUnbalanced)] = none :=
      firstTrap_cons_none.mpr ⟨by simp [hctx], firstTrap_cons_none.mpr ⟨guardHeld_eq_false.mpr (hcur ▸ hdepth), rfl⟩⟩
    have hretired := retiredAt_retire (s := s) (s1 := { s with status := .halted }) .halt (m := .halt) rfl ⟨rfl, rfl, rfl⟩
      fun k _ => hbank k
    rw [hbank] at hretired
    refine ⟨_, exec_of_done rfl pass rfl, hcur ▸ hretired, by simp, by simp, by simpa using hctx, by simp, by simp,
      turnsKept_retire _ _ _ ⟨rfl, rfl⟩, argsKept_retire _ _ _ fun r => by rw [hbank]; rfl,
      resKept_retire _ _ _ (by rw [ResKept, hbank]; rfl), guardKept_retire _ _ _ (by rw [GuardKept, hbank]; exact ⟨rfl, rfl⟩),
      memKept_retire _ _ _ fun _ => rfl, devicesKept_retire _ _ _ ⟨⟨rfl, rfl⟩, rfl, rfl⟩⟩
  case reti =>
    have hbank : ∀ k, s.returnFromIsr.ctxState k = s.ctxState k := fun k => by cases k <;> rfl
    have hcur : s.isr = s.cur := by rw [State.cur, hctx]; rfl
    have pass : firstTrap [(s.ctx == .main, Trap.context), (s.guardHeld, .guardUnbalanced)] = none :=
      firstTrap_cons_none.mpr ⟨by simp [hctx], firstTrap_cons_none.mpr ⟨guardHeld_eq_false.mpr (hcur ▸ hdepth), rfl⟩⟩
    have hretired := retiredAt_retire (s := s) (s1 := s.returnFromIsr) .reti (m := .returnFromIsr) rfl ⟨rfl, rfl, rfl⟩
      fun k _ => hbank k
    rw [hbank] at hretired
    have hmain : s.returnFromIsr.ctxState .main = s.main := rfl
    refine ⟨_, exec_of_done rfl pass rfl, hcur ▸ hretired, by simp [State.returnFromIsr], by simp [State.returnFromIsr],
      (State.retire_other s.returnFromIsr .returnFromIsr [] (encode .reti) (by simp [hctx])).trans hmain, by simp, by simp, by simp,
      turnsKept_retire _ _ _ ⟨rfl, rfl⟩, argsKept_retire _ _ _ fun r => by rw [hbank]; rfl,
      resKept_retire _ _ _ (by rw [ResKept, hbank]; rfl), guardKept_retire _ _ _ (by rw [GuardKept, hbank]; exact ⟨rfl, rfl⟩),
      memKept_retire _ _ _ fun _ => rfl, devicesKept_retire _ _ _ ⟨⟨rfl, rfl⟩, rfl, rfl⟩⟩

/-! ### The faults of the context and the guard (R150, R202, R208, R209, R212) -/

/-- A command whose first failing check is known raises its fault. -/
theorem raises_of_firstTrap {i : Instr} {checks : List (Bool × Trap)} {q : List MicroOp} {s : State} {tr : Trap} {w : Word}
    (he : exec i s = issue i checks q s) (hc : firstTrap checks = some tr) (hw : encode i = w) :
    ∃ t, exec i s = .next t ∧ Raises tr w s t :=
  ⟨_, he.trans (issue_fail hc), hw ▸ Encoding.raises_raise s tr (encode i)⟩

/-- Settles O18: the context is checked before the guard. -/
theorem contextAndGuardFaults : Obligations.ContextAndGuardFaults := by
  intro s
  have held : ∀ {k}, s.ctx = k → 0 < (s.ctxState k).gdepth → s.guardHeld = true := fun hctx hdepth =>
    guardHeld_iff.mpr (by rw [State.cur, hctx]; exact Nat.ne_of_gt hdepth)
  refine ⟨fun hctx => ?_, fun hctx => ?_, fun hctx hdepth => ?_, fun hctx hdepth => ?_, fun hdepth => ?_, fun hdepth => ?_⟩
  · exact raises_of_firstTrap rfl (by simp [hctx]) rfl
  · exact raises_of_firstTrap rfl (by simp [hctx]) rfl
  · exact raises_of_firstTrap rfl (by rw [hctx, held hctx hdepth]; rfl) rfl
  · exact raises_of_firstTrap rfl (by rw [hctx, held hctx hdepth]; rfl) rfl
  · exact raises_of_firstTrap rfl (by simp [guardFull_iff.mpr (Nat.le_of_eq hdepth.symm)]) rfl
  · exact raises_of_firstTrap rfl (by simp [guardHeld_eq_false.mpr hdepth]) rfl

end Sys2Proof.ControlUnit
end

section
/-! SUPPORT. PROOFS. A command that is over leaves the devices as its last micro-operation did: what is read of them is read there
(R42, R43). -/

open Sys2Proof.Machine Sys2Proof.Frames Sys2Proof.Completion Sys2Proof.SerialFrames

namespace Sys2Proof.DeviceView

/-- The parameters, the serial unit with its draws, the timers and the ring buffers are the same at u and at t. -/
structure SameDevices (u t : State) : Prop where
  params : t.params = u.params
  serial : t.serial = u.serial
  draws : t.drawCount = u.drawCount
  timers : t.timers = u.timers
  rings : t.rings = u.rings

section
variable {s u t : State}

theorem sameDevices_retire (s : State) (k : Ctx) (m : MicroOp) (rest : List MicroOp) (w : Word) :
    SameDevices s (s.retire k m rest w) := ⟨by simp, by simp, by simp, by simp, by simp⟩

namespace SameDevices

theorem trans {v : State} (h : SameDevices s u) (h' : SameDevices u v) : SameDevices s v :=
  ⟨h'.params.trans h.params, h'.serial.trans h.serial, h'.draws.trans h.draws, h'.timers.trans h.timers, h'.rings.trans h.rings⟩

variable (h : SameDevices u t)
include h

theorem cells (c : Chan) : t.cells c = u.cells c := State.cells_congr h.serial c

theorem cellValue (c : Chan) (r : Role) : t.cellValue c r = u.cellValue c r := State.cellValue_congr h.serial c r

theorem field (c : Chan) (f : Field) : t.field c f = u.field c f := State.field_congr h.params h.serial c f

theorem held (c : Chan) : t.held c = u.held c := h.field c .swrst

theorem ifg (c : Chan) (d : Dir) : t.ifg c d = u.ifg c d := State.ifg_congr h.params h.serial c d

theorem ie (c : Chan) (d : Dir) : t.ie c d = u.ie c d := State.ie_congr h.params h.serial c d

theorem cellsKept {ch : Chan} {l : List Role} (hu : CellsKeptBut ch l s u) : CellsKeptBut ch l s t :=
  fun c r hcell hne => (h.cellValue c r).trans (hu c r hcell hne)

theorem bitsKept {ch : Chan} {r : Role} {l : List Nat} (hu : BitsKeptBut ch r l s u) : BitsKeptBut ch r l s t :=
  fun n hn => by rw [h.cellValue, hu n hn]

theorem irqKept (hu : IrqKept s u) : IrqKept s t where
  ie c d := (h.ie c d).trans (hu.ie c d)
  ifg c d := (h.ifg c d).trans (hu.ifg c d)
  draws := h.draws.trans hu.draws

theorem drawn {ch : Chan} {n : Nat} (hu : VolatileDrawn ch n s u) : VolatileDrawn ch n s t where
  ifgRx := (h.ifg ..).trans hu.ifgRx
  ifgTx := (h.ifg ..).trans hu.ifgTx
  ieRx := (h.ie ..).trans hu.ieRx
  ieTx := (h.ie ..).trans hu.ieTx
  stat k hk := by rw [h.cells, hu.stat k hk]
  listen := (h.field ..).trans hu.listen
  kindB hb := by
    simp only [h.field]
    exact hu.kindB hb
  others c d hc := ⟨(h.ifg c d).trans (hu.others c d hc).1, (h.ie c d).trans (hu.others c d hc).2⟩
  draws := h.draws.trans hu.draws

theorem otherDevices (hu : OtherDevicesKept s u) : OtherDevicesKept s t :=
  ⟨h.timers.trans hu.timers, h.rings.trans hu.rings⟩

theorem devicesKept (hu : DevicesKept s u) : DevicesKept s t :=
  ⟨⟨h.serial.trans hu.serial.1, h.draws.trans hu.serial.2⟩, h.timers.trans hu.timers, h.rings.trans hu.rings⟩

theorem byteSent {ch : Chan} {v : Byte} (hu : ByteSent ch v s u) : ByteSent ch v s t where
  txbuf := by rw [h.cells, hu.txbuf]
  flag := (h.ifg ..).trans hu.flag
  ifg c e hne := (h.ifg c e).trans (hu.ifg c e hne)
  ie c d := (h.ie c d).trans (hu.ie c d)
  draws := h.draws.trans hu.draws
  cells := h.cellsKept hu.cells

theorem receiveTaken {ch : Chan} (hu : ReceiveTaken ch s u) : ReceiveTaken ch s t where
  flag := (h.ifg ..).trans hu.flag
  ifg c e hne := (h.ifg c e).trans (hu.ifg c e hne)
  ie c d := (h.ie c d).trans (hu.ie c d)
  draws := h.draws.trans hu.draws
  cells := h.cellsKept hu.cells

end SameDevices

end

/-! ### A command of one micro-operation (R43) -/

theorem coreKept_trans {s u t : State} (h : CoreKept s u) (h' : CoreKept u t) : CoreKept s t where
  args r := by
    have hargs := h'.args r
    rw [h.flags.ctx] at hargs
    rw [hargs, State.cur, h.flags.ctx, h.args r]
  guard := by
    obtain ⟨hdepth, hsaved⟩ := h.guard
    obtain ⟨hdepth', hsaved'⟩ := h'.guard
    rw [State.cur, h.flags.ctx] at hdepth' hsaved'
    exact ⟨hdepth'.trans hdepth, hsaved'.trans hsaved⟩
  flags :=
    { ctx := h'.flags.ctx.trans h.flags.ctx
      isrGieSaved := h'.flags.isrGieSaved.trans h.flags.isrGieSaved
      status := h'.flags.status.trans h.flags.status
      fault := h'.flags.fault.trans h.flags.fault
      agenda := h'.flags.agenda.trans h.flags.agenda
      interludes := h'.flags.interludes.trans h.flags.interludes
      gie := h'.flags.gie.trans h.flags.gie }
  mem a := (h'.mem a).trans (h.mem a)

section
variable {i : Instr} {checks : List (Bool × Trap)} {m : MicroOp} {s s1 : State}

/-- A command that is over, whose micro-operations have changed the devices, after a write of RES. -/
theorem over_of_resDevices {v : Word} (i : Instr) (hm : m.isControl = false) (hd : DevicesOnly (s.setRes v) s1) :
    Retired i s (s1.retire s.ctx m [] (encode i)) ∧ CoreKept s (s1.retire s.ctx m [] (encode i)) ∧
      ResIs v s (s1.retire s.ctx m [] (encode i)) ∧ SameDevices s1 (s1.retire s.ctx m [] (encode i)) := by
  have hconfig : ConfigKept s s1 :=
    ⟨by simpa using hd.config.params, by simpa using hd.config.progMain, by simpa using hd.config.progIsr⟩
  refine ⟨retired_retire i hm hconfig ?_ fun k hk => ?_, coreKept_retire _ _ _ (coreKept_trans (coreKept_setRes s v) hd.core),
    resIs_retire _ _ _ ?_, sameDevices_retire ..⟩
  · rw [hd.ctxState, setRes_self]
  · rw [hd.ctxState, setRes_other s v hk]
  · rw [ResIs, hd.ctxState, setRes_self]

/-- A command that is over, whose micro-operations have changed the devices alone. -/
theorem over_of_devices (i : Instr) (hm : m.isControl = false) (hd : DevicesOnly s s1) :
    Retired i s (s1.retire s.ctx m [] (encode i)) ∧ CoreKept s (s1.retire s.ctx m [] (encode i)) ∧
      ResKept s (s1.retire s.ctx m [] (encode i)) ∧ SameDevices s1 (s1.retire s.ctx m [] (encode i)) := by
  refine ⟨retired_retire i hm hd.config ?_ fun k _ => hd.ctxState k, coreKept_retire _ _ _ hd.core,
    ControlUnit.resKept_retire _ _ _ hd.res, sameDevices_retire ..⟩
  rw [hd.ctxState]
  rfl

/-- A command whose one micro-operation changes the devices, after a write of RES. -/
theorem completes_of_resDevices {v : Word} (he : exec i s = issue i checks [m] s) (hc : firstTrap checks = none)
    (hm : m.isControl = false) (hr : m.run s = .done s1) (hd : DevicesOnly (s.setRes v) s1) :
    ∃ t, exec i s = .next t ∧ Retired i s t ∧ CoreKept s t ∧ ResIs v s t ∧ SameDevices s1 t :=
  ⟨_, exec_of_done he hc hr, over_of_resDevices i hm hd⟩

/-- A command whose one micro-operation changes the devices alone. -/
theorem completes_of_devices (he : exec i s = issue i checks [m] s) (hc : firstTrap checks = none) (hm : m.isControl = false)
    (hr : m.run s = .done s1) (hd : DevicesOnly s s1) :
    ∃ t, exec i s = .next t ∧ Retired i s t ∧ CoreKept s t ∧ ResKept s t ∧ SameDevices s1 t :=
  ⟨_, exec_of_done he hc hr, over_of_devices i hm hd⟩

/-- A command whose checks pass and whose first micro-operation traps raises its fault. -/
theorem raises_of_head {rest : List MicroOp} {tr : Trap} (he : exec i s = issue i checks (m :: rest) s)
    (hc : firstTrap checks = none) (hr : m.run s = .trap tr) : ∃ t, exec i s = .next t ∧ Raises tr (encode i) s t :=
  ⟨_, by rw [he, issue_pass hc, runHead_trap hr], Encoding.raises_raise ..⟩

/-- What one next state of a command has, its only next state has. -/
theorem of_exec_next {t : State} {P : State → Prop} (ht : exec i s = .next t) (h : ∃ t, exec i s = .next t ∧ P t) : P t := by
  obtain ⟨t', ht', hP⟩ := h
  rw [ht] at ht'
  injection ht' with heq
  exact heq ▸ hP

end

end Sys2Proof.DeviceView
end

section
/-! SUPPORT. PROOFS. The commands of one serial micro-operation: their completion and their faults (42_serial_engine.md, 43_uart_baud.md,
44_i2c.md, 45_spi.md, 46_ring_buffer.md). -/

open Sys2Proof.Machine Sys2Proof.Frames Sys2Proof.Completion Sys2Proof.SerialFrames Sys2Proof.DeviceView

namespace Sys2Proof.SerialCommands

/-! ### The Decode checks pass (R150, R303) -/

section
variable {s : State} {ch : Chan}

theorem channel_pass (h : s.chanAbsent ch = false) : firstTrap [(s.chanAbsent ch, Trap.instanceRange)] = none := by
  rw [h]
  rfl

theorem i2c_pass (h : s.chanAbsent ch = false) (hb : ch.kind = .b) : firstTrap (i2cChecks ch s) = none := by
  rw [i2cChecks, h, hb]
  rfl

theorem swr_pass {role : Role} {v : Half} (h : s.chanAbsent ch = false) (hwf : (Instr.swr ch role v).wellFormed = true) :
    firstTrap [(!(Instr.swr ch role v).wellFormed, Trap.reservedEncoding), (s.chanAbsent ch, .instanceRange)] = none := by
  rw [hwf, h]
  rfl

/-! ### What the micro-operations do where the configuration check passes (R314, R316, R317) -/

/-- A field that lies in no configuration cell asks for no hold (R305, R314). -/
theorem run_fieldWrite {f : Field} (v : Bool) (hcell : f.role.isConfig = false) (hf : f ≠ .swrst) :
    (MicroOp.fieldWrite ch f v).run s = .done (s.setField ch f v) := by
  simp [MicroOp.run, microFieldWrite, State.configBlocked, hcell, hf]

theorem configBlocked_false {role : Role} (h : role.isConfig = true → s.held ch = true) : s.configBlocked ch role = false := by
  cases hr : role.isConfig <;> simp [State.configBlocked, hr]
  exact h hr

theorem run_fieldWrite_free {f : Field} (v : Bool) (hfree : s.configBlocked ch f.role = false) (hf : f ≠ .swrst) :
    microFieldWrite ch f v s = .done (s.setField ch f v) := by
  simp [microFieldWrite, hfree, hf]

/-- A write of SWRST is a write of the hold (R313). -/
theorem run_fieldWrite_hold (v : Bool) (hfree : s.configBlocked ch Field.swrst.role = false) :
    microFieldWrite ch .swrst v s = .done (s.writeHold ch v) := by
  simp [microFieldWrite, hfree]

theorem run_cellWrite_free {role : Role} (v : Half) (hcell : role.hasCell ch.kind = true) (hfree : s.configBlocked ch role = false) :
    microCellWrite ch role v s = .done (s.storeCell ch role v) := by
  simp [microCellWrite, hcell, hfree]

theorem run_cellWrite {role : Role} (v : Half) (hcell : role.hasCell ch.kind = true) (h : role.isConfig = true → s.held ch = true) :
    (MicroOp.cellWrite ch role v).run s = .done (s.storeCell ch role v) := by
  simp [MicroOp.run, microCellWrite, hcell, configBlocked_false h]

theorem run_cellWrite_noCell {role : Role} (v : Half) (hcell : role.hasCell ch.kind = false) :
    (MicroOp.cellWrite ch role v).run s = .done s := by
  simp [MicroOp.run, microCellWrite, hcell]

/-- A configuration cell of an enabled channel (R314). -/
theorem run_cellWrite_blocked {role : Role} (v : Half) (hcell : role.hasCell ch.kind = true) (hr : role.isConfig = true)
    (hfree : s.held ch = false) : (MicroOp.cellWrite ch role v).run s = .trap .configWhileEnabled := by
  simp [MicroOp.run, microCellWrite, hcell, State.configBlocked, hr, hfree]

end

/-! ### What the writes leave of the timers and the ring buffers, and of the interrupt registers -/

section
variable (s : State) (ch : Chan)

theorem writeHold_otherDevices (v : Bool) : OtherDevicesKept s (s.writeHold ch v) := ⟨by simp [TimersKept], by simp [RingsKept]⟩

theorem setField_otherDevices (f : Field) (v : Bool) : OtherDevicesKept s (s.setField ch f v) := ⟨rfl, rfl⟩

theorem storeCell_otherDevices (role : Role) (v : Half) : OtherDevicesKept s (s.storeCell ch role v) :=
  ⟨by simp [TimersKept], by simp [RingsKept]⟩

/-- No bit stands above a byte cell's own eight. -/
theorem cellValue_ctl1_high {n : Nat} (h : 8 ≤ n) : (s.cellValue ch .ctl1).getLsbD n = false := by
  simp [State.cellValue, BitVec.getLsbD_of_ge _ n h]

/-- Releasing the hold clears SWRST wherever it lies. -/
theorem release_held : (s.writeHold ch false).held ch = false := by
  rw [State.writeHold_false]
  by_cases h : s.params.fieldPos.swrst < 8
  · exact State.setField_field_self s ch .swrst false h
  · exact cellValue_ctl1_high _ ch (Nat.le_of_not_lt h)

theorem setField_listen_bits (v : Bool) : BitsKeptBut ch .stat [s.params.fieldPos.listen] s (s.setField ch .listen v) :=
  setField_bitsKept s ch .listen v

/-- TXBUF written: the byte stands there and the transmit flag is cleared (R312). -/
theorem writeTxbuf_sent (v : Byte) (hi : s.params.irqBits.legal = true) : ByteSent ch v s (s.writeTxbuf ch v) where
  txbuf := by simp [State.writeTxbuf]
  flag := State.setIfg_ifg_self (s.updCells ch (fun c => { c with txbuf := v })) ch .tx false hi
  ifg _ _ hne := State.setIfg_ifg_ne (s.updCells ch (fun c => { c with txbuf := v })) false hi hne
  ie _ _ := rfl
  draws := rfl
  cells := writeTxbuf_cellsKept s ch v

/-- The receive flag cleared (R310, R322). -/
theorem clearRx_taken (hi : s.params.irqBits.legal = true) : ReceiveTaken ch s (s.setIfg ch .rx false) where
  flag := State.setIfg_ifg_self s ch .rx false hi
  ifg _ _ hne := State.setIfg_ifg_ne s false hi hne
  ie _ _ := rfl
  draws := rfl
  cells := setIfg_cellsKept s ch ch .rx false

end

/-! ### The hold and the interrupt bits (R324 to R327) -/

/-- Settles O22: SENA's micro-operation releases the hold. -/
theorem enableCompletes : Obligations.EnableCompletes := by
  intro ch s hpresent
  obtain ⟨t, hexec, hretired, hcore, hres, hsame⟩ :=
    completes_of_devices (i := .sena ch) rfl (channel_pass hpresent) rfl rfl (writeHold_devices s ch false)
  have hbits : BitsKeptBut ch .ctl1 [s.params.fieldPos.swrst] s (s.writeHold ch false) := setField_bitsKept s ch .swrst false
  have hcells : CellsKeptBut ch [.ctl1] s (s.writeHold ch false) := setField_cellsKept s ch .swrst false
  exact ⟨t, hexec, hretired, (hsame.held ch).trans (release_held s ch), hsame.bitsKept hbits, hsame.cellsKept hcells,
    hsame.irqKept (setField_irqKept s ch .swrst false), hcore, hres, hsame.otherDevices (writeHold_otherDevices s ch false)⟩

/-- Settles O23: SDIS's micro-operation asserts the hold. -/
theorem disableCompletes : Obligations.DisableCompletes := by
  intro ch s hpresent hf hi
  obtain ⟨t, hexec, hretired, hcore, hres, hsame⟩ :=
    completes_of_devices (i := .sdis ch) rfl (channel_pass hpresent) rfl rfl (writeHold_devices s ch true)
  exact ⟨t, hexec, hretired, (hsame.held ch).trans (writeHold_held s ch true hf), hsame.drawn (writeHold_true_drawn s ch hi hf),
    hsame.bitsKept (writeHold_bitsKept s ch true), hsame.cellsKept (writeHold_cellsKept s ch true), hcore, hres,
    hsame.otherDevices (writeHold_otherDevices s ch true)⟩

/-- Settles O24: SIE writes one bit of the interrupt registers, SIFG reads one. -/
theorem irqBitCommandsComplete : Obligations.IrqBitCommandsComplete := by
  intro ch d en s hpresent hi
  refine ⟨?sie, ?sifg⟩
  case sie =>
    obtain ⟨t, hexec, hretired, hcore, hres, hsame⟩ :=
      completes_of_devices (i := .sie ch d en) rfl (channel_pass hpresent) rfl rfl (setIe_devices s ch d en)
    refine ⟨t, hexec, hretired, (hsame.ie ch d).trans (State.setIe_ie_self s ch d en hi), fun c e hne => ?_,
      fun c e => hsame.ifg c e, hsame.cellsKept (setIe_cellsKept s ch ch d en), hsame.draws, hcore, hres,
      hsame.otherDevices ⟨rfl, rfl⟩⟩
    exact (hsame.ie c e).trans (State.setIe_ie_ne s en hi hne)
  case sifg =>
    rw [← bitWord_eq_ite]
    exact completes_of_setRes rfl (channel_pass hpresent) rfl rfl

/-! ### Whole cells written and read (R328, R329) -/

theorem fits_of_wellFormed {ch : Chan} {role : Role} {v : Half} (h : (Instr.swr ch role v).wellFormed = true)
    (hr : role.isByte = true) : v.toNat < 256 := by
  simpa [Instr.wellFormed, hr] using h

/-- Settles O25: a plain cell is stored and nothing follows. -/
theorem plainCellWriteCompletes : Obligations.PlainCellWriteCompletes := by
  intro ch role v s hpresent hwf hplain hcell hheld
  obtain ⟨t, hexec, hretired, hcore, hres, hsame⟩ := completes_of_devices (i := .swr ch role v) rfl (swr_pass hpresent hwf) rfl
    (run_cellWrite v hcell hheld) (storeCell_devices s ch role v)
  have hcells := storeCell_cellsKept s ch v hcell
  rw [touched_of_plain hplain] at hcells
  exact ⟨t, hexec, hretired, (hsame.cellValue ch role).trans (storeCell_value s ch hplain (fits_of_wellFormed hwf)),
    hsame.cellsKept hcells, hsame.irqKept (storeCell_irqKept s ch v hplain), hcore, hres,
    hsame.otherDevices (storeCell_otherDevices s ch role v)⟩

section
variable {ch : Chan} {v : Half} {s : State}

/-- A byte role's value, cut to the byte, keeps its bits. -/
theorem byte_bit {n : Nat} (h : v.toNat < 256) : (v.setWidth 8).getLsbD n = v.getLsbD n := by
  calc (v.setWidth 8).getLsbD n = ((v.setWidth 8).setWidth 16).getLsbD n := by
        rw [BitVec.getLsbD_setWidth (m := 16)]
        by_cases hn : n < 16
        · simp [hn]
        · rw [BitVec.getLsbD_of_ge _ n (show 8 ≤ n by omega), Bool.and_false]
    _ = v.getLsbD n := by rw [byte_roundTrip h]

theorem writeCtl1_clear {b : Byte} (h : b.getLsbD s.params.fieldPos.swrst = false) :
    s.writeCtl1 ch b = s.updCells ch (fun c => { c with ctl1 := b }) := by
  simp [State.writeCtl1, h]

theorem writeCtl1_set {b : Byte} (h : b.getLsbD s.params.fieldPos.swrst = true) :
    s.writeCtl1 ch b = (s.updCells ch (fun c => { c with ctl1 := b })).drawVolatile ch := by
  simp [State.writeCtl1, h]

theorem updCtl1_value (b : Byte) : (s.updCells ch (fun c => { c with ctl1 := b })).cellValue ch .ctl1 = b.setWidth 16 := by
  simp [State.cellValue]

theorem updCtl1_cellsKept (b : Byte) : CellsKeptBut ch [.ctl1] s (s.updCells ch (fun c => { c with ctl1 := b })) :=
  cellsKeptBut_updCells s ch _ fun r hr => by cases r <;> first | exact absurd (.head _) hr | simp [State.cellValue]

/-- CTL1 stored with SWRST 1: the hold-volatile bits are the next draw's (R313, R317). -/
theorem writeCtl1_drawn {b : Byte} (h : b.getLsbD s.params.fieldPos.swrst = true) (hi : s.params.irqBits.legal = true)
    (hf : s.params.fieldPos.legal = true) : VolatileDrawn ch s.drawCount s (s.writeCtl1 ch b) := by
  rw [writeCtl1_set h]
  exact volatileDrawn_before (drawVolatile_drawn (s.updCells ch (fun c => { c with ctl1 := b })) ch hi hf) rfl
    (field_of_cellsKept (f := .listen) (updCtl1_cellsKept b) rfl (field_hasCell .listen _) (.inr (by decide)))
    ⟨fun _ _ => rfl, fun _ _ => rfl, rfl⟩

theorem writeCtl1_bits {b : Byte} (h : b.getLsbD s.params.fieldPos.swrst = true) {n : Nat}
    (hn : n ∉ (holdPositions s.params.fieldPos ch.kind).tail) :
    ((s.writeCtl1 ch b).cellValue ch .ctl1).getLsbD n = (b.setWidth 16).getLsbD n := by
  rw [writeCtl1_set h, ← updCtl1_value (s := s) (ch := ch)]
  exact drawVolatile_bitsKept (s.updCells ch (fun c => { c with ctl1 := b })) ch n hn

end

/-- Settles O26: the write is stored as its cell takes it, and asks for no hold. -/
theorem sideEffectCellWritesComplete : Obligations.SideEffectCellWritesComplete := by
  intro ch role v s hpresent hwf hf hi
  obtain ⟨t, ht⟩ := exec_next (.swr ch role v) s
  have stored := fun (hcell : role.hasCell ch.kind = true) (hfree : role.isConfig = false) =>
    of_exec_next ht (completes_of_devices (i := .swr ch role v) rfl (swr_pass hpresent hwf) rfl
      (run_cellWrite v hcell (by simp [hfree])) (storeCell_devices s ch role v))
  refine ⟨t, ht, fun hnone => ?none, fun hr => ?stat, fun hr => ?txbuf, fun hr hclear => ?clear, fun hr hset => ?set⟩
  case none =>
    have hrun : (MicroOp.cellWrite ch role v).run s = .done s := by
      obtain hcell | rfl := hnone
      · exact run_cellWrite_noCell v hcell
      · exact run_cellWrite v (by cases ch <;> rfl) (by simp [Role.isConfig])
    obtain ⟨hretired, hcore, hres, hsame⟩ :=
      of_exec_next ht (completes_of_devices (i := .swr ch role v) rfl (swr_pass hpresent hwf) rfl hrun (.refl s))
    exact ⟨hretired, hcore, hres, hsame.devicesKept ⟨⟨rfl, rfl⟩, rfl, rfl⟩⟩
  case stat =>
    subst hr
    obtain ⟨hretired, hcore, hres, hsame⟩ := stored (by cases ch <;> rfl) rfl
    have hbit := byte_bit (n := s.params.fieldPos.listen) (fits_of_wellFormed hwf rfl)
    refine ⟨hretired, ?_, hsame.bitsKept (setField_listen_bits s ch _), hsame.cellsKept (setField_cellsKept s ch .listen _),
      hsame.irqKept (setField_irqKept s ch .listen _), hcore, hres, hsame.otherDevices (storeCell_otherDevices s ch _ v)⟩
    rw [hsame.field, ← hbit]
    exact State.setField_field_self s ch .listen _ (Field.pos_lt hf .listen)
  case txbuf =>
    subst hr
    obtain ⟨hretired, hcore, hres, hsame⟩ := stored (by cases ch <;> rfl) rfl
    have hbyte : v.extractLsb' 0 8 = v.setWidth 8 := (BitVec.setWidth_eq_extractLsb' (by decide)).symm
    rw [hbyte]
    exact ⟨hretired, hsame.byteSent (writeTxbuf_sent s ch _ hi), hcore, hres, hsame.otherDevices (storeCell_otherDevices s ch _ v)⟩
  case clear =>
    subst hr
    obtain ⟨hretired, hcore, hres, hsame⟩ := stored (by cases ch <;> rfl) rfl
    have hfits := fits_of_wellFormed hwf rfl
    have hstore : s.storeCell ch .ctl1 v = s.updCells ch (fun c => { c with ctl1 := v.setWidth 8 }) :=
      writeCtl1_clear ((byte_bit hfits).trans hclear)
    rw [hstore] at hsame
    exact ⟨hretired, by rw [hsame.cellValue, updCtl1_value, byte_roundTrip hfits], hsame.cellsKept (updCtl1_cellsKept _),
      hsame.irqKept ⟨fun _ _ => rfl, fun _ _ => rfl, rfl⟩, hcore, hres, hsame.otherDevices ⟨rfl, rfl⟩⟩
  case set =>
    subst hr
    obtain ⟨hretired, hcore, hres, hsame⟩ := stored (by cases ch <;> rfl) rfl
    have hfits := fits_of_wellFormed hwf rfl
    have hswrst := (byte_bit (n := s.params.fieldPos.swrst) hfits).trans hset
    refine ⟨hretired, hsame.drawn (writeCtl1_drawn hswrst hi hf), fun n hn => ?_, hsame.cellsKept (writeCtl1_cellsKept s ch _),
      hcore, hres, hsame.otherDevices (storeCell_otherDevices s ch _ v)⟩
    have hbits := writeCtl1_bits hswrst hn
    rw [byte_roundTrip hfits] at hbits
    rw [hsame.cellValue, ← hbits]
    rfl

/-- A read of RXBUF: RES, then the receive flag (R310, R318). -/
theorem srd_rxbuf {ch : Chan} {s : State} (hpresent : s.chanAbsent ch = false) (hi : s.params.irqBits.legal = true) :
    ∃ t, exec (.srd ch .rxbuf) s = .next t ∧ Retired (.srd ch .rxbuf) s t ∧ CoreKept s t ∧ OtherDevicesKept s t ∧
      ResIs ((s.cellValue ch .rxbuf).setWidth 32) s t ∧ ReceiveTaken ch s t := by
  have hrun : (MicroOp.cellRead ch .rxbuf).run s = .done ((s.setRes (zext32 (s.cellValue ch .rxbuf))).setIfg ch .rx false) := by
    cases ch <;> rfl
  obtain ⟨t, hexec, hretired, hcore, hres, hsame⟩ :=
    completes_of_resDevices (i := .srd ch .rxbuf) rfl (channel_pass hpresent) rfl hrun (setIfg_devices ..)
  have hview : SameDevices (s.setIfg ch .rx false) ((s.setRes (zext32 (s.cellValue ch .rxbuf))).setIfg ch .rx false) :=
    ⟨by simp, by simp [State.setIfg, State.irqPos], by simp, by simp, by simp⟩
  have hall := hview.trans hsame
  exact ⟨t, hexec, hretired, hcore, hall.otherDevices ⟨rfl, rfl⟩, hres, hall.receiveTaken (clearRx_taken s ch hi)⟩

/-- Settles O27: a cell is read into RES; RXBUF's read clears the receive flag beside; no cell, no change. -/
theorem cellReadCompletes : Obligations.CellReadCompletes := by
  intro ch role s hpresent hi
  cases hcell : role.hasCell ch.kind with
  | false =>
    have hrun : (MicroOp.cellRead ch role).run s = .done s := by simp [MicroOp.run, microCellRead, hcell]
    have hrx : role ≠ .rxbuf := by rintro rfl; cases ch <;> cases hcell
    obtain ⟨t, hexec, hretired, hcore, hres, hsame⟩ :=
      completes_of_devices (i := .srd ch role) rfl (channel_pass hpresent) rfl hrun (.refl s)
    exact ⟨t, hexec, hretired, hcore, hsame.otherDevices ⟨rfl, rfl⟩, (nomatch ·), fun _ => hres,
      fun _ => ⟨hsame.serial, hsame.draws⟩, fun h => absurd h hrx⟩
  | true =>
    by_cases hrx : role = .rxbuf
    · subst hrx
      obtain ⟨t, hexec, hretired, hcore, hdev, hres, htaken⟩ := srd_rxbuf hpresent hi
      exact ⟨t, hexec, hretired, hcore, hdev, fun _ => hres, (nomatch ·), fun h => absurd rfl h, fun _ => htaken⟩
    · have hrun : (MicroOp.cellRead ch role).run s = .done (s.setRes (zext32 (s.cellValue ch role))) := by
        simp [MicroOp.run, microCellRead, hcell, hrx]
      obtain ⟨t, hexec, hretired, hres, hcore, hdev⟩ := completes_of_setRes (i := .srd ch role) rfl (channel_pass hpresent) rfl hrun
      exact ⟨t, hexec, hretired, hcore, ⟨hdev.timers, hdev.rings⟩, fun _ => hres, (nomatch ·), fun _ => hdev.serial,
        fun h => absurd h hrx⟩

end Sys2Proof.SerialCommands
end

section
/-! SUPPORT. PROOFS. The bit accessors of the serial units, BCALC, and the faults of the operands and of the ring buffers
(42_serial_engine.md to 46_ring_buffer.md). -/

open Sys2Proof.Machine Sys2Proof.Frames Sys2Proof.Completion Sys2Proof.SerialFrames Sys2Proof.DeviceView Sys2Proof.SerialCommands
open Sys2Proof.Sequencing (firstTrap_cons_none)
open Sys2Proof.ControlUnit (raises_of_firstTrap)

namespace Sys2Proof.UnitCommands

/-! ### One field written or read (R311, R405 to R407, R454 to R457) -/

section
variable {i : Instr} {checks : List (Bool × Trap)} {s : State} {ch : Chan}

/-- A command whose one micro-operation writes a field that asks for no hold. -/
theorem completes_of_fieldWrite {f : Field} {v : Bool} (he : exec i s = issue i checks [.fieldWrite ch f v] s)
    (hc : firstTrap checks = none) (hcell : f.role.isConfig = false) (hne : f ≠ .swrst) (hf : s.params.fieldPos.legal = true) :
    ∃ t, exec i s = .next t ∧ Retired i s t ∧ t.field ch f = v ∧ BitsKeptBut ch f.role [f.pos s.params.fieldPos] s t ∧
      CellsKeptBut ch [f.role] s t ∧ IrqKept s t ∧ CoreKept s t ∧ ResKept s t ∧ OtherDevicesKept s t := by
  obtain ⟨t, hexec, hretired, hcore, hres, hsame⟩ :=
    completes_of_devices he hc rfl (run_fieldWrite v hcell hne) (setField_devices s ch f v)
  exact ⟨t, hexec, hretired, (hsame.field ch f).trans (State.setField_field_self s ch f v (Field.pos_lt hf f)),
    hsame.bitsKept (setField_bitsKept s ch f v), hsame.cellsKept (setField_cellsKept s ch f v),
    hsame.irqKept (setField_irqKept s ch f v), hcore, hres, hsame.otherDevices (setField_otherDevices s ch f v)⟩

/-- A command whose one micro-operation reads a field into RES. -/
theorem completes_of_fieldRead {f : Field} (he : exec i s = issue i checks [.fieldRead ch f] s) (hc : firstTrap checks = none) :
    ∃ t, exec i s = .next t ∧ Retired i s t ∧ ResIs (if s.field ch f then 1 else 0) s t ∧ CoreKept s t ∧ DevicesKept s t := by
  rw [← bitWord_eq_ite]
  exact completes_of_setRes he hc rfl rfl

end

/-- Settles O36: two fields written and one read. -/
theorem startStopCommandsComplete : Obligations.StartStopCommandsComplete := by
  intro ch s hpresent hb hf
  have pass := i2c_pass hpresent hb
  exact ⟨completes_of_fieldWrite (f := .txstt) rfl pass rfl (by decide) hf,
    completes_of_fieldWrite (f := .txstp) rfl pass rfl (by decide) hf, completes_of_fieldRead rfl pass⟩

/-- Settles O43: one field written, which is in no configuration cell, and three read. -/
theorem statusBitAccessorsComplete : Obligations.StatusBitAccessorsComplete := by
  intro ch en s hpresent hf
  have pass := channel_pass hpresent
  exact ⟨completes_of_fieldWrite (f := .listen) rfl pass rfl (by decide) hf, completes_of_fieldRead rfl pass,
    completes_of_fieldRead rfl pass, completes_of_fieldRead rfl pass⟩

/-! ### The baud operands (R351, R357, R360, R361) -/

section
variable {s : State} {os : Bool}

theorem baudIsZero_iff : s.baudIsZero = true ↔ s.cur.arg0 = 0 ∨ s.cur.arg1 = 0 := by
  simp [State.baudIsZero, State.clkOperand, State.baudOperand]

theorem baudIsZero_eq_false (h0 : s.cur.arg0 ≠ 0) (h1 : s.cur.arg1 ≠ 0) : s.baudIsZero = false :=
  Bool.eq_false_iff.mpr fun h => (baudIsZero_iff.mp h).elim h0 h1

theorem baudTooLarge_iff : s.baudTooLarge os = true ↔ 65535 < (baudOf s.cur.arg0.toNat s.cur.arg1.toNat os).br := by
  rw [State.baudTooLarge, decide_eq_true_iff]
  rfl

theorem baudTooLarge_eq_false (h : (baudOf s.cur.arg0.toNat s.cur.arg1.toNat os).br ≤ 65535) : s.baudTooLarge os = false := by
  rw [Bool.eq_false_iff, ne_eq, baudTooLarge_iff]
  exact Nat.not_lt.mpr h

/-- The value checks that BCALC and BSET share (R150). -/
def baudChecks (os : Bool) (s : State) : List (Bool × Trap) := [(s.baudIsZero, .baudZero), (s.baudTooLarge os, .baudRange)]

theorem baudChecks_pass (h0 : s.cur.arg0 ≠ 0) (h1 : s.cur.arg1 ≠ 0)
    (hbr : (baudOf s.cur.arg0.toNat s.cur.arg1.toNat os).br ≤ 65535) : firstTrap (baudChecks os s) = none :=
  firstTrap_cons_none.mpr ⟨baudIsZero_eq_false h0 h1, firstTrap_cons_none.mpr ⟨baudTooLarge_eq_false hbr, rfl⟩⟩

theorem baudChecks_zero (h : s.cur.arg0 = 0 ∨ s.cur.arg1 = 0) : firstTrap (baudChecks os s) = some .baudZero := by
  rw [baudChecks, baudIsZero_iff.mpr h]
  rfl

theorem baudChecks_range (h0 : s.cur.arg0 ≠ 0) (h1 : s.cur.arg1 ≠ 0)
    (hbr : 65535 < (baudOf s.cur.arg0.toNat s.cur.arg1.toNat os).br) : firstTrap (baudChecks os s) = some .baudRange := by
  rw [baudChecks, baudIsZero_eq_false h0 h1, baudTooLarge_iff.mpr hbr]
  rfl

/-- BSET asks for a kind-A channel that is present (R303). -/
theorem exec_bset {ch : Chan} (hpresent : s.chanAbsent ch = false) (ha : ch.kind = .a) :
    exec (.bset ch os) s = issue (.bset ch os) (baudChecks os s) (bsetOps ch (s.baudResult os)) s :=
  SerialEngine.issue_skip (by rw [hpresent, ha]; rfl)

end

/-- Settles O33: the value checks are the same of both commands, once BSET's channel has passed. -/
theorem baudOperandFaults : Obligations.BaudOperandFaults := by
  intro os s i hi
  have hexec : ∃ q, exec i s = issue i (baudChecks os s) q s := by
    obtain rfl | ⟨ch, hpresent, ha, rfl⟩ := hi
    · exact ⟨_, rfl⟩
    · exact ⟨_, exec_bset hpresent ha⟩
  obtain ⟨q, hq⟩ := hexec
  exact ⟨fun hzero => raises_of_firstTrap hq (baudChecks_zero hzero) rfl,
    fun h0 h1 hbr => raises_of_firstTrap hq (baudChecks_range h0 h1 hbr) rfl⟩

/-- RES after BCALC, field by field (R360). -/
theorem resWord_fields (r : BaudResult) :
    r.resWord.extractLsb' 0 16 = BitVec.ofNat 16 r.br ∧ r.resWord.extractLsb' 16 8 = r.mctl ∧ r.resWord.extractLsb' 24 8 = 0 := by
  have field : ∀ start len, start + len ≤ 32 →
      r.resWord.extractLsb' start len = (r.mctl ++ r.divisor).extractLsb' start len :=
    fun _ _ h => BitVec.extractLsb'_setWidth_of_le h
  refine ⟨(field 0 16 (by decide)).trans BitVec.extractLsb'_append_eq_right,
    (field 16 8 (by decide)).trans BitVec.extractLsb'_append_eq_left, ?_⟩
  rw [field 24 8 (by decide)]
  apply BitVec.eq_of_getLsbD_eq
  intro n _
  simp

/-- Settles O32: BCALC writes RES, of the operands that it captured. -/
theorem baudCalculationCompletes : Obligations.BaudCalculationCompletes := by
  intro os s h0 h1 hbr
  obtain ⟨t, hexec, hretired, hres, hcore, hdev⟩ :=
    completes_of_setRes (i := .bcalc os) (m := .baud s.clkOperand s.baudOperand os) rfl (baudChecks_pass h0 h1 hbr) rfl rfl
  obtain ⟨hlow, hmid, hhigh⟩ := resWord_fields (baudOf s.cur.arg0.toNat s.cur.arg1.toNat os)
  have hword : (t.ctxState s.ctx).res = (baudOf s.cur.arg0.toNat s.cur.arg1.toNat os).resWord := hres
  rw [← hword] at hlow hmid hhigh
  exact ⟨t, hexec, hretired, hlow, hmid, hhigh, hcore, hdev⟩

/-! ### The configuration check (R314, R361) -/

/-- Settles O28: the write of the configuration cell is the command's first micro-operation. -/
theorem configWriteWhileEnabledFaults : Obligations.ConfigWriteWhileEnabledFaults := by
  intro ch s hpresent hfree
  refine ⟨fun role v hwf hcell hrole => ?_, fun os ha h0 h1 hbr => ?_⟩
  · have hconfig : role.isConfig = true := by
      revert hrole
      cases role <;> simp [Role.isConfig]
    exact raises_of_head rfl (swr_pass hpresent hwf) (run_cellWrite_blocked v hcell hconfig hfree)
  · exact raises_of_head (exec_bset hpresent ha) (baudChecks_pass h0 h1 hbr)
      (run_cellWrite_blocked _ (by rw [ha]; rfl) rfl hfree)

/-! ### The ring buffers (R505, R511) -/

theorem ringAccess_of_unshared {s : State} {b : Nat} {r : Ring} (f : Ring → State → State) (hr : s.rings[b]? = some r)
    (h : Unshared s r) : ringAccess b f s = .trap .unguardedSharedRb := by
  simp [ringAccess, hr, share_of_unshared h]

/-- Every ring-buffer command has one check, and one micro-operation that accesses the buffer it names. -/
theorem exec_ring {i : Instr} {b : Fin 16} (s : State) (h : i.ring? = some b) :
    ∃ m, exec i s = issue i [(s.ringMissing b, .instanceRange)] [m] s ∧ ∃ f, m.run s = ringAccess b f s := by
  cases i
  case rins | rinsR | rget | rempty | rovf | rclrovf | rclr =>
    all_goals
      obtain rfl := Option.some.inj h
      refine ⟨_, rfl, ?_⟩
      simp only [MicroOp.run]
      exact ⟨_, rfl⟩
  all_goals cases h

theorem rxPush_of_unshared {s : State} {ch : Chan} {b : Nat} {r : Ring} (hr : s.rings[b]? = some r) (h : Unshared s r) :
    (MicroOp.rxPush ch b).run s = .trap .unguardedSharedRb := by
  rw [MicroOp.run, microRxPush]
  exact ringAccess_of_unshared _ hr h

/-- Settles O46: the shared-access check comes before the effect, and the index check before both. -/
theorem ringAccessFaults : Obligations.RingAccessFaults := by
  intro i b ch s hi
  obtain ⟨m, hexec, f, hrun⟩ := exec_ring s hi
  refine ⟨fun r hr hbad => ?_, fun r hr hbad => rxPush_of_unshared hr hbad, fun hmissing => ?_⟩
  · exact raises_of_head hexec (RingUnit.firstTrap_ringChecks_pass hr) (hrun.trans (ringAccess_of_unshared f hr hbad))
  · exact raises_of_firstTrap hexec (by simp [State.ringMissing, hmissing]) rfl

end Sys2Proof.UnitCommands
end

section
/-! SUPPORT. PROOFS. The environment: what each of its steps does, and that it changes only what the hardware owns (R36, R280 to R283,
R330 to R336). -/

open Sys2Proof.Machine Sys2Proof.Frames Sys2Proof.SerialFrames

namespace Sys2Proof.Environment

/-! ### A channel on which the environment may act (R330) -/

section
variable {s : State} {ch : Chan}

theorem live_of (hpresent : s.chanAbsent ch = false) (hfree : s.held ch = false) : s.live ch = true := by
  rw [State.live, hpresent, hfree]
  rfl

theorem not_live_of (h : s.chanAbsent ch = true ∨ s.held ch = true) : s.live ch = false := by
  obtain h | h := h <;> rw [State.live, h]
  · rfl
  · exact Bool.and_false _

end

/-! ### The serial steps, one by one (R331 to R335) -/

section
variable (s : State) (ch : Chan)

theorem envStep_txReady (h : s.live ch = true) : envStep (.txReady ch) s = s.setIfg ch .tx true := by
  rw [envStep, h]
  rfl

theorem envStep_rxByte (v : Byte) (h : s.live ch = true) : envStep (.rxByte ch v) s = s.receiveByte ch v := by
  rw [envStep, h]
  rfl

theorem envStep_status (v : Byte) (h : s.live ch = true) : envStep (.status ch v) s = s.setStatusBits ch v := by
  rw [envStep, h]
  rfl

/-- The field cleared, which it may be already. -/
theorem clearField_cases (f : Field) :
    (s.field ch f = true ∧ (if s.field ch f then s.setField ch f false else s) = s.setField ch f false) ∨
      (s.field ch f = false ∧ (if s.field ch f then s.setField ch f false else s) = s) := by
  cases h : s.field ch f <;> simp

theorem envStep_startDone (h : s.live ch = true) (hb : ch.kind = .b) :
    envStep (.startDone ch) s = if s.field ch .txstt then s.setField ch .txstt false else s := by
  simp [envStep, h, hb]

theorem envStep_stopDone (h : s.live ch = true) (hb : ch.kind = .b) :
    envStep (.stopDone ch) s = if s.field ch .txstp then s.setField ch .txstp false else s := by
  simp [envStep, h, hb]

theorem envStep_done_kindA (ha : ch.kind = .a) : envStep (.startDone ch) s = s ∧ envStep (.stopDone ch) s = s := by
  simp [envStep, ha]

/-- The state in which the byte is received: OE is set where the last byte was not read (R332). -/
def afterOverrun : State := if s.ifg ch .rx then s.setField ch .oe true else s

theorem receiveByte_eq (v : Byte) :
    s.receiveByte ch v = ((afterOverrun s ch).updCells ch (fun c => { c with rxbuf := v })).setIfg ch .rx true := rfl

theorem afterOverrun_params : (afterOverrun s ch).params = s.params := by
  unfold afterOverrun
  split <;> rfl

theorem afterOverrun_ie (c : Chan) (d : Dir) : (afterOverrun s ch).ie c d = s.ie c d := by
  unfold afterOverrun
  split <;> rfl

theorem afterOverrun_ifg (c : Chan) (d : Dir) : (afterOverrun s ch).ifg c d = s.ifg c d := by
  unfold afterOverrun
  split <;> rfl

theorem afterOverrun_bits : BitsKeptBut ch .stat [s.params.fieldPos.oe] s (afterOverrun s ch) := by
  unfold afterOverrun
  split
  · exact setField_bitsKept s ch .oe true
  · exact bitsKeptBut_of_cellValue rfl

theorem afterOverrun_oe (hf : s.params.fieldPos.legal = true) :
    (afterOverrun s ch).field ch .oe = (s.field ch .oe || s.ifg ch .rx) := by
  unfold afterOverrun
  split
  next h => rw [State.setField_field_self s ch .oe true (Field.pos_lt hf .oe), h, Bool.or_true]
  next h => rw [Bool.not_eq_true] at h; rw [h, Bool.or_false]

theorem receiveByte_rxbuf (v : Byte) : ((s.receiveByte ch v).cells ch).rxbuf = v := by
  simp [receiveByte_eq]

theorem receiveByte_timers (v : Byte) : (s.receiveByte ch v).timers = s.timers := by
  unfold State.receiveByte
  split <;> rfl

theorem receiveByte_bits (v : Byte) : BitsKeptBut ch .stat [s.params.fieldPos.oe] s (s.receiveByte ch v) :=
  bitsKeptBut_trans (afterOverrun_bits s ch)
    (bitsKeptBut_of_cellsKept (ConfigCells.receive_cellsKept (afterOverrun s ch) ch v) (by cases ch <;> rfl) (by simp))

theorem receiveByte_field (v : Byte) (f : Field) : (s.receiveByte ch v).field ch f = (afterOverrun s ch).field ch f :=
  field_of_cellsKept (ConfigCells.receive_cellsKept (afterOverrun s ch) ch v) rfl (field_hasCell f _)
    (.inr (by cases f <;> simp [Field.role]))

theorem receiveByte_ie (v : Byte) (c : Chan) (d : Dir) : (s.receiveByte ch v).ie c d = s.ie c d := by
  rw [receiveByte_eq, State.setIfg_ie, State.updCells_ie, afterOverrun_ie]

section
variable (hi : s.params.irqBits.legal = true)
include hi

theorem receiveByte_flag (v : Byte) : (s.receiveByte ch v).ifg ch .rx = true := by
  rw [receiveByte_eq, State.setIfg_ifg_self _ ch .rx true (by simpa [afterOverrun_params] using hi)]

theorem receiveByte_ifgKept (v : Byte) : IfgKeptBut ch .rx s (s.receiveByte ch v) := by
  intro c d hne
  rw [receiveByte_eq, State.setIfg_ifg_ne _ true (by simpa [afterOverrun_params] using hi) hne, State.updCells_ifg, afterOverrun_ifg]

end

/-- LISTEN stays where another bit of STAT may change. -/
theorem receiveByte_listen (v : Byte) (hf : s.params.fieldPos.legal = true) :
    (s.receiveByte ch v).field ch .listen = s.field ch .listen := by
  obtain ⟨-, -, -, -, -, -, -, -, -, -, -, hoe, -⟩ := s.params.fieldPos.legal_iff.mp hf
  exact field_of_bitsKept (f := .listen) (receiveByte_bits s ch v) (receiveByte_devices s ch v).params
    (by simpa [Field.pos] using hoe)

theorem setStatusBits_listen (v : Byte) (hf : s.params.fieldPos.legal = true) :
    (s.setStatusBits ch v).field ch .listen = s.field ch .listen := by
  have hl : s.params.fieldPos.listen < 8 := Field.pos_lt hf .listen
  rw [field_listen, field_listen, State.setStatusBits_params, State.setStatusBits_stat, if_pos ⟨rfl, hl⟩]

end

/-! ### The timer steps (R280, R281) -/

section
variable {s : State} {n c : Nat} {tm : Timer} {tc : TimerChan}

/-- What a capture does to its channel (R281). -/
def captured (count : Half) (overflow : Bool) (tc : TimerChan) : TimerChan :=
  if tc.cm = .none then tc else { tc with value := count, cov := tc.cov || overflow }

theorem envStep_capture (overflow : Bool) (htm : s.timers[n]? = some tm) :
    envStep (.capture n c overflow) s = s.updTimerChan n c (captured tm.count overflow) := by
  simp only [envStep, State.captureStep, htm]
  rfl

/-- A list in which entry n is replaced by itself. -/
theorem modify_of_fixed {α : Type} {l : List α} {x : α} {f : α → α} (hx : l[n]? = some x) (hf : f x = x) : l.modify n f = l := by
  rw [List.modify_eq_set_getElem?, hx]
  obtain ⟨hlt, rfl⟩ := List.getElem?_eq_some_iff.mp hx
  simp [hf]

theorem updTimer_of_fixed {f : Timer → Timer} (htm : s.timers[n]? = some tm) (hf : f tm = tm) : s.updTimer n f = s := by
  rw [State.updTimer, modify_of_fixed htm hf]

end

/-- Settles O54: each step by its own lemma, on a channel or a timer that it may act on and on one that it may not. -/
theorem environmentStepEffects : Obligations.EnvironmentStepEffects := by
  intro ch v s hi hf
  refine ⟨fun hstop e he => ?stopped, fun hpresent hfree => ?live, fun n c tm tc overflow htm htc => ?capture,
    fun n tm x htm => ?count⟩
  case stopped =>
    have hlive := not_live_of hstop
    simp only [List.mem_cons, List.not_mem_nil, or_false] at he
    obtain rfl | rfl | rfl | rfl | rfl := he <;> simp [envStep, hlive]
  case live =>
    have hlive := live_of hpresent hfree
    have cleared : ∀ f ∈ [Field.txstt, .txstp],
        let t := if s.field ch f then s.setField ch f false else s
        t.field ch f = false ∧ BitsKeptBut ch .ctl1 [f.pos s.params.fieldPos] s t ∧ IrqKept s t ∧ SerialHardwareKept ch [.ctl1] s t := by
      intro f hmem
      have hrole : f.role = .ctl1 := by revert hmem; cases f <;> simp [Field.role]
      obtain ⟨-, heq⟩ | ⟨hclear, heq⟩ := clearField_cases s ch f
      · have hbits := setField_bitsKept s ch f false
        have hcells := setField_cellsKept s ch f false
        rw [hrole] at hbits hcells
        rw [heq]
        exact ⟨State.setField_field_self s ch f false (Field.pos_lt hf f), hbits, setField_irqKept s ch f false,
          hcells, fun _ _ => rfl, rfl⟩
      · rw [heq]
        exact ⟨hclear, bitsKeptBut_of_cellValue rfl, ⟨fun _ _ => rfl, fun _ _ => rfl, rfl⟩, cellsKeptBut_of_serial _ _ rfl,
          fun _ _ => rfl, rfl⟩
    refine ⟨?txReady, ?rxByte, fun hb => ⟨?startDone, ?stopDone⟩, envStep_done_kindA s ch, ?status⟩
    case txReady =>
      rw [envStep_txReady s ch hlive]
      exact ⟨State.setIfg_ifg_self s ch .tx true hi, fun _ _ hne => State.setIfg_ifg_ne s true hi hne,
        setIfg_cellsKept s ch ch .tx true, fun _ _ => rfl, rfl⟩
    case rxByte =>
      rw [envStep_rxByte s ch v hlive]
      exact ⟨receiveByte_flag s ch hi v, receiveByte_rxbuf s ch v,
        (receiveByte_field s ch v .oe).trans (afterOverrun_oe s ch hf), receiveByte_bits s ch v, receiveByte_ifgKept s ch hi v,
        cellsKeptBut_mono (by simp) (ConfigCells.receiveByte_cellsKept s ch v), receiveByte_ie s ch v, receiveByte_timers s ch v⟩
    case startDone => exact envStep_startDone s ch hlive hb ▸ cleared .txstt (by simp)
    case stopDone => exact envStep_stopDone s ch hlive hb ▸ cleared .txstp (by simp)
    case status =>
      rw [envStep_status s ch v hlive]
      refine ⟨fun n hn => ?_, setStatusBits_listen s ch v hf, ⟨fun _ _ => rfl, fun _ _ => rfl, rfl⟩,
        setStatusBits_cellsKept s ch v, fun _ _ => rfl, rfl⟩
      rw [State.setStatusBits_stat, if_neg (fun h => hn h.1)]
  case capture =>
    rw [envStep_capture overflow htm]
    have hchan : tm.chans.modify c (captured tm.count overflow) = tm.chans.set c (captured tm.count overflow tc) := by
      simp [List.modify_eq_set_getElem?, htc]
    refine ⟨fun hcm => ⟨?_, fun j hj => TimerUnit.updTimer_timers_ne s _ hj, rfl, rfl⟩, fun hcm => ?_⟩
    · rw [State.updTimerChan, TimerUnit.updTimer_timers_self htm, hchan, captured, if_neg hcm]
    · refine updTimer_of_fixed htm ?_
      rw [modify_of_fixed htc (by rw [captured, if_pos hcm])]
  case count =>
    refine ⟨fun hmode => ⟨?_, fun j hj => TimerUnit.updTimer_timers_ne s _ hj, rfl, rfl⟩, fun hmode => ?_⟩
    · rw [envStep, TimerUnit.updTimer_timers_self htm, if_neg hmode]
    · exact updTimer_of_fixed htm (if_pos hmode)

/-! ### What the hardware owns (R36, R336) -/

/-- Of the serial unit only what the hardware owns has changed: flags set, RXBUF, STAT but LISTEN, and TXSTT and TXSTP cleared on
kind B. -/
structure SerialOwn (s t : State) : Prop where
  cells : ∀ c r, r.hasCell c.kind = true → r ∉ [Role.ctl1, .stat, .rxbuf] → t.cellValue c r = s.cellValue c r
  kindA : ∀ c, c.kind = .a → (t.cells c).ctl1 = (s.cells c).ctl1
  ctl1 : ∀ c, BitsKeptBut c .ctl1 [s.params.fieldPos.txstt, s.params.fieldPos.txstp] s t
  cleared : ∀ c, (t.field c .txstt = true → s.field c .txstt = true) ∧ (t.field c .txstp = true → s.field c .txstp = true)
  listen : ∀ c, t.field c .listen = s.field c .listen
  ie : ∀ c d, t.ie c d = s.ie c d
  ifg : ∀ c d, s.ifg c d = true → t.ifg c d = true

section
variable {s t : State} {ch : Chan}

theorem ctl1_of_cellValue {c : Chan} (h : t.cellValue c .ctl1 = s.cellValue c .ctl1) : (t.cells c).ctl1 = (s.cells c).ctl1 := by
  have hbyte := congrArg (BitVec.setWidth 8) h
  simpa [State.cellValue] using hbyte

theorem ctl1_hasCell (k : SerialKind) : Role.ctl1.hasCell k = true := by
  cases k <;> rfl

/-- Steps that leave CTL1. -/
theorem serialOwn_of_cellsKept (hp : t.params = s.params) (hcells : CellsKeptBut ch [.stat, .rxbuf] s t)
    (hlisten : t.field ch .listen = s.field ch .listen) (hie : ∀ c d, t.ie c d = s.ie c d)
    (hifg : ∀ c d, s.ifg c d = true → t.ifg c d = true) : SerialOwn s t where
  cells c r hcell hr := hcells c r hcell (.inr fun hmem => hr (List.mem_cons_of_mem _ hmem))
  kindA c _ := ctl1_of_cellValue (hcells c .ctl1 (ctl1_hasCell _) (.inr (by simp)))
  ctl1 c := bitsKeptBut_of_cellValue (hcells c .ctl1 (ctl1_hasCell _) (.inr (by simp)))
  cleared c :=
    have same : ∀ f : Field, f.role = .ctl1 → t.field c f = s.field c f := fun f hf =>
      field_of_cellsKept hcells hp (field_hasCell f _) (.inr (by simp [hf]))
    ⟨fun h => (same .txstt rfl).symm.trans h, fun h => (same .txstp rfl).symm.trans h⟩
  listen c := by
    by_cases hc : c = ch
    · rw [hc, hlisten]
    · exact field_of_cellsKept hcells hp (field_hasCell .listen _) (.inl hc)
  ie := hie
  ifg := hifg

theorem serialOwn_of_serial (hp : t.params = s.params) (h : t.serial = s.serial) : SerialOwn s t :=
  serialOwn_of_cellsKept (ch := .a0) hp (cellsKeptBut_of_serial _ _ h) (State.field_congr hp h _ _) (State.ie_congr hp h)
    (fun c d hd => (State.ifg_congr hp h c d).trans hd)

/-- Clearing TXSTT or TXSTP on kind B. -/
theorem serialOwn_clear {f : Field} (hb : ch.kind = .b) (hmem : f ∈ [Field.txstt, .txstp]) (hf : s.params.fieldPos.legal = true) :
    SerialOwn s (s.setField ch f false) := by
  have hrole : f.role = .ctl1 := by revert hmem; cases f <;> simp [Field.role]
  have hcells := setField_cellsKept s ch f false
  have hbits := setField_bitsKept s ch f false
  rw [hrole] at hcells hbits
  have hpos : [f.pos s.params.fieldPos] ⊆ [s.params.fieldPos.txstt, s.params.fieldPos.txstp] := by
    revert hmem
    cases f <;> simp [Field.pos]
  have cleared : ∀ c g, (s.setField ch f false).field c g = true → s.field c g = true := fun c g h => by
    by_cases hcg : (c, g) = (ch, f)
    · obtain ⟨rfl, rfl⟩ := Prod.mk.inj hcg
      rw [State.setField_field_self s c g false (Field.pos_lt hf g)] at h
      cases h
    · rwa [State.setField_field_other s false hf hcg] at h
  refine ⟨fun c r hcell hr => hcells c r hcell (.inr fun h => hr (by simp_all)), fun c ha => ?_, fun c => ?_,
    fun c => ⟨cleared c .txstt, cleared c .txstp⟩, fun c => ?_, fun _ _ => rfl, fun _ _ h => h⟩
  · refine ctl1_of_cellValue (hcells c .ctl1 (ctl1_hasCell _) (.inl ?_))
    rintro rfl
    rw [ha] at hb
    cases hb
  · by_cases hc : c = ch
    · rw [hc]
      exact bitsKeptBut_mono hpos hbits
    · exact bitsKeptBut_of_cellValue (hcells c .ctl1 (ctl1_hasCell _) (.inl hc))
  · exact field_of_cellsKept hcells rfl (field_hasCell .listen _) (.inr (by simp [Field.role]))

theorem ifg_of_setIfg (s : State) (ch : Chan) (d : Dir) (hi : s.params.irqBits.legal = true) (c : Chan) (e : Dir)
    (h : s.ifg c e = true) : (s.setIfg ch d true).ifg c e = true := by
  by_cases hce : (c, e) = (ch, d)
  · obtain ⟨rfl, rfl⟩ := Prod.mk.inj hce
    exact State.setIfg_ifg_self s c e true hi
  · rw [State.setIfg_ifg_ne s true hi hce, h]

end

theorem envStep_serialOwn (e : EnvStep) (s : State) (hi : s.params.irqBits.legal = true) (hf : s.params.fieldPos.legal = true) :
    SerialOwn s (envStep e s) := by
  have idle : SerialOwn s s := serialOwn_of_serial rfl rfl
  cases e
  case txReady ch =>
    cases hlive : s.live ch
    · simpa [envStep, hlive] using idle
    · rw [envStep_txReady s ch hlive]
      exact serialOwn_of_cellsKept rfl (cellsKeptBut_mono (by simp) (setIfg_cellsKept s ch ch .tx true)) (by simp) (by simp)
        (ifg_of_setIfg s ch .tx hi)
  case rxByte ch v =>
    cases hlive : s.live ch
    · simpa [envStep, hlive] using idle
    · rw [envStep_rxByte s ch v hlive]
      refine serialOwn_of_cellsKept (receiveByte_devices s ch v).params (ConfigCells.receiveByte_cellsKept s ch v)
        (receiveByte_listen s ch v hf) (receiveByte_ie s ch v) fun c d h => ?_
      rw [← afterOverrun_ifg s ch c d] at h
      rw [← afterOverrun_params s ch] at hi
      exact ifg_of_setIfg ((afterOverrun s ch).updCells ch (fun c => { c with rxbuf := v })) ch .rx hi c d h
  case startDone ch | stopDone ch =>
    all_goals
      simp only [envStep]
      split
      next h =>
        simp only [Bool.and_eq_true, beq_iff_eq] at h
        obtain ⟨⟨-, hb⟩, -⟩ := h
        exact serialOwn_clear hb (by simp) hf
      next => exact idle
  case status ch v =>
    cases hlive : s.live ch
    · simpa [envStep, hlive] using idle
    · rw [envStep_status s ch v hlive]
      exact serialOwn_of_cellsKept (by simp) (cellsKeptBut_mono (by simp) (setStatusBits_cellsKept s ch v))
        (setStatusBits_listen s ch v hf) (fun _ _ => rfl) (fun _ _ h => h)
  case count => exact serialOwn_of_serial rfl rfl
  case capture =>
    simp only [envStep, State.captureStep]
    split <;> exact serialOwn_of_serial rfl rfl

/-- Of a timer channel only what the hardware owns has changed (R281). -/
structure ChanOwn (tc tc1 : TimerChan) : Prop where
  cm : tc1.cm = tc.cm
  ccis : tc1.ccis = tc.ccis
  scs : tc1.scs = tc.scs
  outmod : tc1.outmod = tc.outmod
  ccie : tc1.ccie = tc.ccie
  cov : tc.cov = true → tc1.cov = true
  idle : tc.cm = .none → tc1 = tc

/-- Of a timer only what the hardware owns has changed (R280, R281). -/
structure TimerOwn (tm tm1 : Timer) : Prop where
  kind : tm1.kind = tm.kind
  mode : tm1.mode = tm.mode
  div : tm1.div = tm.div
  src : tm1.src = tm.src
  count : tm.mode = .stop → tm1.count = tm.count
  chans : ∀ (c : Nat) tc, tm.chans[c]? = some tc → ∃ tc1, tm1.chans[c]? = some tc1 ∧ ChanOwn tc tc1

theorem chanOwn_refl (tc : TimerChan) : ChanOwn tc tc := ⟨rfl, rfl, rfl, rfl, rfl, id, fun _ => rfl⟩

theorem timerOwn_refl (tm : Timer) : TimerOwn tm tm := ⟨rfl, rfl, rfl, rfl, fun _ => rfl, fun _ tc h => ⟨tc, h, chanOwn_refl tc⟩⟩

theorem captured_own (count : Half) (overflow : Bool) (tc : TimerChan) : ChanOwn tc (captured count overflow tc) := by
  unfold captured
  split
  next => exact chanOwn_refl tc
  next h => exact ⟨rfl, rfl, rfl, rfl, rfl, fun hcov => by simp [hcov], fun hcm => absurd hcm h⟩

/-- An entry of a list of which entry n is changed. -/
theorem exists_modified {α : Type} {R : α → α → Prop} (hrefl : ∀ x, R x x) {f : α → α} {l : List α} {n : Nat}
    (hf : ∀ x, l[n]? = some x → R x (f x)) {j : Nat} {x : α} (hx : l[j]? = some x) : ∃ y, (l.modify n f)[j]? = some y ∧ R x y := by
  rw [List.getElem?_modify, hx]
  by_cases h : n = j
  · subst h
    exact ⟨f x, by simp, hf x hx⟩
  · exact ⟨x, by simp [h], hrefl x⟩

theorem timerOwn_modify (tm : Timer) (c : Nat) {f : TimerChan → TimerChan} (hf : ∀ tc, ChanOwn tc (f tc)) :
    TimerOwn tm { tm with chans := tm.chans.modify c f } where
  kind := rfl
  mode := rfl
  div := rfl
  src := rfl
  count _ := rfl
  chans _ _ htc := exists_modified chanOwn_refl (fun tc _ => hf tc) htc

theorem envStep_timerOwn (e : EnvStep) (s : State) {n : Nat} {tm : Timer} (htm : s.timers[n]? = some tm) :
    ∃ tm1, (envStep e s).timers[n]? = some tm1 ∧ TimerOwn tm tm1 := by
  have idle : ∀ {t : State}, t.timers = s.timers → ∃ tm1, t.timers[n]? = some tm1 ∧ TimerOwn tm tm1 :=
    fun ht => ⟨tm, by rw [ht, htm], timerOwn_refl tm⟩
  cases e
  case count t v =>
    refine exists_modified timerOwn_refl (fun tm _ => ?_) htm
    split
    next => exact timerOwn_refl tm
    next h => exact ⟨rfl, rfl, rfl, rfl, fun hm => absurd hm h, fun _ tc hc => ⟨tc, hc, chanOwn_refl tc⟩⟩
  case capture t c overflow =>
    cases ht : s.timers[t]? with
    | none =>
      refine idle ?_
      simp [envStep, State.captureStep, ht]
    | some tm0 =>
      rw [envStep_capture overflow ht]
      exact exists_modified timerOwn_refl (fun tm _ => timerOwn_modify tm c (captured_own tm0.count overflow)) htm
  case rxByte ch v =>
    simp only [envStep]
    split
    next => exact idle (receiveByte_timers s ch v)
    next => exact idle rfl
  all_goals
    simp only [envStep]
    split <;> exact idle rfl

theorem envStep_rings (e : EnvStep) (s : State) : (envStep e s).rings = s.rings := by
  rw [envStep_kept e s]

theorem envStep_drawCount (e : EnvStep) (s : State) : (envStep e s).drawCount = s.drawCount := by
  rw [envStep_kept e s]

/-- Settles O53: the processor's part from the frame of the environment, then the serial unit, then the timers. -/
theorem environmentChangesOnlyItsOwn : Obligations.EnvironmentChangesOnlyItsOwn := by
  intro e s t hi hf ht
  have hdev := envStep_devices s e
  have hserial := envStep_serialOwn e s hi hf
  subst ht
  refine ⟨hdev.ctxState .main, hdev.ctxState .isr, hdev.flags, hdev.config, hdev.dm, envStep_rings e s, envStep_drawCount e s,
    hserial.cells, hserial.kindA, hserial.ctl1, hserial.cleared, hserial.listen, hserial.ie, hserial.ifg, fun n tm htm => ?_⟩
  obtain ⟨tm1, htm1, hown⟩ := envStep_timerOwn e s htm
  refine ⟨tm1, htm1, hown.kind, hown.mode, hown.div, hown.src, hown.count, fun c tc htc => ?_⟩
  obtain ⟨tc1, htc1, hc⟩ := hown.chans c tc htc
  exact ⟨tc1, htc1, hc.cm, hc.ccis, hc.scs, hc.outmod, hc.ccie, hc.cov, hc.idle⟩

end Sys2Proof.Environment
end

section
/-! SUPPORT. PROOFS. A command run to its end: its micro-operations played against the turns of the sequencer and the steps of the
environment, on the devices alone (R42 to R44). -/

open Sys2Proof.Machine Sys2Proof.Frames Sys2Proof.Completion Sys2Proof.Sequencing Sys2Proof.DeviceView
open Sys2Proof.WholeMachine (legal_of_evolves run_evolves Evolves envStep_shapes)

namespace Sys2Proof.Playing

/-! ### What a micro-operation reads and writes does not include the turns to come or what is loaded -/

/-- u with other turns to come, and with its banks changed by f. -/
def relabel (A : List Turn) (f : Ctx → CtxState → CtxState) (u : State) : State :=
  { u with agenda := A, main := f .main u.main, isr := f .isr u.isr }

/-- f touches no RES: a write of RES can be made before it or after it. -/
def KeepsRes (f : Ctx → CtxState → CtxState) : Prop := ∀ k c v, f k { c with res := v } = { f k c with res := v }

section
variable {u u1 : State} {A : List Turn} {f : Ctx → CtxState → CtxState} {m : MicroOp}

theorem relabel_setRes (hf : KeepsRes f) (v : Word) : (relabel A f u).setRes v = relabel A f (u.setRes v) := by
  cases h : u.ctx
  · have hmain := hf .main u.main v
    simp only [State.setRes, State.updCur, State.updCtx, relabel, h, hmain]
  · have hisr := hf .isr u.isr v
    simp only [State.setRes, State.updCur, State.updCtx, relabel, h, hisr]

theorem relabel_setField (ch : Chan) (g : Field) (v : Bool) : (relabel A f u).setField ch g v = relabel A f (u.setField ch g v) := rfl

theorem relabel_setIfg (ch : Chan) (d : Dir) (v : Bool) : (relabel A f u).setIfg ch d v = relabel A f (u.setIfg ch d v) := rfl

theorem relabel_setIe (ch : Chan) (d : Dir) (v : Bool) : (relabel A f u).setIe ch d v = relabel A f (u.setIe ch d v) := rfl

theorem relabel_setStatusBits (ch : Chan) (v : Byte) :
    (relabel A f u).setStatusBits ch v = relabel A f (u.setStatusBits ch v) := rfl

theorem relabel_drawCtl1 (ch : Chan) (d : HoldDraw) : (relabel A f u).drawCtl1 ch d = relabel A f (u.drawCtl1 ch d) := by
  unfold State.drawCtl1
  split
  · rfl
  · simp only [relabel_setField]

theorem relabel_applyDraw (ch : Chan) (d : HoldDraw) : (relabel A f u).applyDraw ch d = relabel A f (u.applyDraw ch d) := by
  simp only [State.applyDraw, relabel_setIfg, relabel_setIe, relabel_setStatusBits, relabel_drawCtl1]

theorem relabel_drawVolatile (ch : Chan) : (relabel A f u).drawVolatile ch = relabel A f (u.drawVolatile ch) := by
  have hdraw : (relabel A f u).applyDraw ch (Config.holdDraw (relabel A f u).drawCount) =
      relabel A f (u.applyDraw ch (Config.holdDraw u.drawCount)) := relabel_applyDraw ..
  rw [State.drawVolatile, hdraw]
  rfl

theorem relabel_writeHold (ch : Chan) (v : Bool) : (relabel A f u).writeHold ch v = relabel A f (u.writeHold ch v) := by
  cases v
  · rfl
  · exact relabel_drawVolatile (u := u.setField ch .swrst true) ch

theorem relabel_writeCtl1 (ch : Chan) (v : Byte) : (relabel A f u).writeCtl1 ch v = relabel A f (u.writeCtl1 ch v) := by
  cases h : v.getLsbD u.params.fieldPos.swrst
  · rw [SerialCommands.writeCtl1_clear h]
    exact SerialCommands.writeCtl1_clear (s := relabel A f u) h
  · rw [SerialCommands.writeCtl1_set h, ← relabel_drawVolatile]
    exact SerialCommands.writeCtl1_set (s := relabel A f u) h

theorem relabel_storeCell (ch : Chan) (role : Role) (v : Half) :
    (relabel A f u).storeCell ch role v = relabel A f (u.storeCell ch role v) := by
  cases role
  case ctl1 => exact relabel_writeCtl1 ch _
  all_goals rfl

/-- A micro-operation that can be left over does the same beside other turns to come and other loads (R42). -/
theorem run_relabel (hf : KeepsRes f) (hm : m.canWait = true) (h : m.run u = .done u1) :
    m.run (relabel A f u) = .done (relabel A f u1) := by
  cases m <;> simp only [MicroOp.canWait, Bool.false_eq_true] at hm <;> simp only [MicroOp.run] at h ⊢
  case hold ch v =>
    injection h with h
    rw [relabel_writeHold, h]
  case fieldWrite ch fd v =>
    rcases microFieldWrite_cases ch fd v u with ⟨-, hd⟩ | ⟨hfree, rfl, hd⟩ | ⟨hfree, hne, hd⟩ <;> rw [hd] at h
    · cases h
    · injection h with h
      rw [← h, ← relabel_writeHold]
      exact SerialCommands.run_fieldWrite_hold v hfree
    · injection h with h
      rw [← h]
      exact SerialCommands.run_fieldWrite_free v hfree hne
  case cellWrite ch role v =>
    rcases microCellWrite_cases ch role v u with ⟨hcell, hd⟩ | ⟨-, -, hd⟩ | ⟨hcell, hfree, hd⟩ <;> rw [hd] at h
    · injection h with h
      rw [← h]
      exact SerialCommands.run_cellWrite_noCell v hcell
    · cases h
    · injection h with h
      rw [← h, ← relabel_storeCell]
      exact SerialCommands.run_cellWrite_free v hcell hfree
  case poll ch d =>
    unfold microPoll at h
    split at h
    next hready =>
      injection h with h
      rw [← h]
      exact if_pos hready
    next => cases h
  case txByte | txMem =>
    all_goals
      injection h with h
      rw [← h]
      rfl
  case rxRes ch =>
    injection h with h
    rw [← h, State.rxToRes, relabel_setRes hf]
    rfl
  case rxPush ch b =>
    unfold microRxPush at h
    cases hr : u.rings[b]? with
    | none =>
      simp only [ringAccess, hr] at h
      injection h with h
      have hr' : (relabel A f u).rings[b]? = none := hr
      rw [microRxPush, ringAccess, hr', h]
    | some r =>
      rcases ringAccess_cases _ hr with ⟨-, hd⟩ | ⟨r1, hshare, hd⟩ <;> rw [hd] at h
      · cases h
      · injection h with h
        have hr' : (relabel A f u).rings[b]? = some r := hr
        have hshare' : r.share (relabel A f u).ctx (relabel A f u).gie = some r1 := hshare
        simp only [microRxPush, ringAccess, hr', hshare', ← h]
        rfl

/-- So does a step of the environment (R36). -/
theorem envStep_relabel (e : EnvStep) : envStep e (relabel A f u) = relabel A f (envStep e u) := by
  cases e
  case count => rfl
  case capture n c o =>
    simp only [envStep, State.captureStep]
    cases hn : u.timers[n]? with
    | none =>
      have hn' : (relabel A f u).timers[n]? = none := hn
      simp only [hn']
    | some tm =>
      have hn' : (relabel A f u).timers[n]? = some tm := hn
      simp only [hn']
      rfl
  case rxByte ch v =>
    have hreceive : (relabel A f u).receiveByte ch v = relabel A f (u.receiveByte ch v) := by
      rw [Environment.receiveByte_eq, Environment.receiveByte_eq, Environment.afterOverrun, Environment.afterOverrun]
      by_cases h : u.ifg ch .rx = true
      · rw [if_pos h, if_pos (show (relabel A f u).ifg ch .rx = true from h)]
        rfl
      · rw [if_neg h, if_neg (show ¬ (relabel A f u).ifg ch .rx = true from h)]
        rfl
    simp only [envStep, apply_ite (relabel A f), hreceive]
    rfl
  all_goals
    simp only [envStep, apply_ite (relabel A f)]
    rfl

end

/-! ### Playing a command's micro-operations -/

/-- The turns play the micro-operations q at u down to q' at u': each turn of the sequencer runs the head, which is Done, and each turn
of the environment takes its step. -/
inductive Plays : List Turn → List MicroOp → State → List MicroOp → State → Prop
  | nil (q : List MicroOp) (u : State) : Plays [] q u q u
  | op {turns : List Turn} {m : MicroOp} {rest q' : List MicroOp} {u u1 u' : State} (run : m.run u = .done u1)
      (h : Plays turns rest u1 q' u') : Plays (.sequencer :: turns) (m :: rest) u q' u'
  | env {turns : List Turn} {q q' : List MicroOp} {u u' : State} (e : EnvStep) (h : Plays turns q (envStep e u) q' u') :
      Plays (.env e :: turns) q u q' u'

theorem plays_append {turns turns' : List Turn} {q q' q'' : List MicroOp} {u u' u'' : State} (h : Plays turns q u q' u')
    (h' : Plays turns' q' u' q'' u'') : Plays (turns ++ turns') q u q'' u'' := by
  induction h with
  | nil => exact h'
  | op run _ ih => exact .op run (ih h')
  | env e _ ih => exact .env e (ih h')

/-- What is not reached of the micro-operations may be longer. -/
theorem plays_extend {turns : List Turn} {q q' : List MicroOp} {u u' : State} (h : Plays turns q u q' u') (r : List MicroOp) :
    Plays turns (q ++ r) u (q' ++ r) u' := by
  induction h with
  | nil => exact .nil _ _
  | op run _ ih => exact .op run ih
  | env e _ ih => exact .env e ih

/-- The block with A to come, at u as far as the devices go, and with q left of the command whose word is w; `nop` stands for any
micro-operation that is no control one. -/
def underway (u : State) (A : List Turn) (q : List MicroOp) (w : Word) : State :=
  ({ u with agenda := A } : State).retire u.ctx .nop q w

/-- What `underway` changes of the banks. -/
def loaded (k : Ctx) (q : List MicroOp) (w : Word) (j : Ctx) (c : CtxState) : CtxState :=
  if j = k then { c with useq := q, word := w, cp := if q.isEmpty then c.cp + 1 else c.cp } else c

theorem keepsRes_loaded (k : Ctx) (q : List MicroOp) (w : Word) : KeepsRes (loaded k q w) := by
  intro j c v
  unfold loaded
  split <;> rfl

section
variable {u u1 : State} {A : List Turn} {m : MicroOp} {rest q : List MicroOp} {w : Word}

theorem retire_nop (hm : m.isControl = false) (u : State) (k : Ctx) (q : List MicroOp) (w : Word) :
    u.retire k m q w = u.retire k .nop q w := by
  rw [State.retire, State.retire, hm]
  rfl

theorem underway_eq (u : State) (A : List Turn) (q : List MicroOp) (w : Word) :
    underway u A q w = relabel A (loaded u.ctx q w) u := by
  unfold underway relabel loaded
  rw [retire_eq_updCtx]
  cases h : u.ctx <;> simp [State.updCtx, MicroOp.isControl]

theorem control_of_canWait (hm : m.canWait = true) : m.isControl = false := by
  cases m <;> first | rfl | cases hm

theorem ctx_of_canWait (hm : m.canWait = true) (run : m.run u = .done u1) : u1.ctx = u.ctx := by
  obtain h | ⟨rfl, -⟩ := WholeMachine.run_ctx run
  · exact h
  · cases hm

theorem underway_useq (u : State) (A : List Turn) (q : List MicroOp) (w : Word) : (underway u A q w).cur.useq = q := by
  rw [State.cur, underway, State.retire_ctx, State.retire_self]

theorem underway_word (u : State) (A : List Turn) (q : List MicroOp) (w : Word) : (underway u A q w).cur.word = w := by
  rw [State.cur, underway, State.retire_ctx, State.retire_self]

/-- Retiring what runs of a command underway leaves the command underway with the rest. -/
theorem retire_underway (hq : q ≠ []) (hm : m.isControl = false) (hctx : u1.ctx = u.ctx) :
    (relabel A (loaded u.ctx q w) u1).retire u.ctx m rest w = underway u1 A rest w := by
  have hne : q.isEmpty = false := by simpa using hq
  rw [retire_nop hm, retire_eq_updCtx, underway, retire_eq_updCtx, hctx]
  cases h : u.ctx <;> simp [State.updCtx, relabel, loaded, hne, hctx, h]

/-- The head of a command underway runs as it does at u. -/
theorem runHead_underway (hm : m.canWait = true) (run : m.run u = .done u1) :
    runHead w (m :: rest) (underway u A (m :: rest) w) = underway u1 A rest w := by
  have hrun := run_relabel (A := A) (keepsRes_loaded u.ctx (m :: rest) w) hm run
  rw [underway_eq, runHead_done hrun]
  exact retire_underway (by simp) (control_of_canWait hm) (ctx_of_canWait hm run)

theorem envStep_underway (e : EnvStep) : envStep e (underway u A q w) = underway (envStep e u) A q w := by
  rw [underway_eq, envStep_relabel, underway_eq, (envStep_devices u e).flags.ctx]

/-! ### The turns, one after the other (R43, R44) -/

theorem runs_underway (h : Runs u) : Runs (underway u A q w) where
  legal := by rw [underway_eq]; exact h.legal
  running := by rw [underway_eq]; exact h.running

theorem runs_of_run (h : Runs u) (hm : m.canWait = true) (run : m.run u = .done u1) : Runs u1 where
  legal := (legal_of_evolves (run_evolves run)).trans h.legal
  running := by
    obtain hst | ⟨rfl, -⟩ := run_done_status run
    · exact hst.trans h.running
    · cases hm

theorem runs_envStep (h : Runs u) (e : EnvStep) : Runs (envStep e u) where
  legal := (legal_of_evolves { (envStep_devices u e).config, envStep_shapes e u with }).trans h.legal
  running := (envStep_devices u e).flags.status.trans h.running

theorem underway_agenda : (underway u A q w).agenda = A := by rw [underway_eq]; rfl

theorem underway_spendTurn (t : Turn) : (underway u (t :: A) q w).spendTurn = underway u A q w := by
  rw [State.spendTurn_cons underway_agenda, underway_eq, underway_eq]
  rfl

theorem step_underway (h : Runs u) (hm : m.canWait = true) (run : m.run u = .done u1) :
    step (underway u (.sequencer :: A) (m :: rest) w) = .next (underway u1 A rest w) := by
  rw [step_inProgress (runs_underway h) (State.nextTurn_cons underway_agenda) (underway_useq ..), underway_word,
    underway_spendTurn, runHead_underway hm run]

theorem step_underway_env (h : Runs u) (e : EnvStep) :
    step (underway u (.env e :: A) q w) = .next (underway (envStep e u) A q w) := by
  rw [step, (runs_underway h).legal, State.nextTurn_cons underway_agenda, takeTurn, underway_spendTurn, envStep_underway]
  rfl

end

/-- A play is a run of the block. -/
theorem run_of_plays {turns A : List Turn} {q q' : List MicroOp} {u u' : State} {w : Word} (h : Plays turns q u q' u')
    (hu : Runs u) (hq : q.all MicroOp.canWait = true) :
    Host.Core.run Sys2Proof.core turns.length (underway u (turns ++ A) q w) = .next (underway u' A q' w) := by
  induction h with
  | nil => rfl
  | op run _ ih =>
    rw [List.all_cons, Bool.and_eq_true] at hq
    obtain ⟨hm, hrest⟩ := hq
    exact (Interrupts.run_step _ (step_underway hu hm run)).trans (ih (runs_of_run hu hm run) hrest)
  | env e _ ih => exact (Interrupts.run_step _ (step_underway_env hu e)).trans (ih (runs_envStep hu e) hq)

section
variable {i : Instr} {checks : List (Bool × Trap)} {q q' : List MicroOp} {turns : List Turn} {s u' : State}

/-- A command whose micro-operations play, the first of them in the step that decodes it. -/
theorem finishes_of_plays (hs : Runs s)
    (he : ∀ A, exec i { s with agenda := A } = issue i checks q { s with agenda := A }) (hc : firstTrap checks = none)
    (hq : q.all MicroOp.canWait = true) (hplays : Plays (.sequencer :: turns) q s q' u') :
    Finishes i turns s (underway u' s.agenda q' (encode i)) := by
  cases hplays with
  | @op _ m rest _ _ s1 _ run hplays =>
    rw [List.all_cons, Bool.and_eq_true] at hq
    obtain ⟨hm, hrest⟩ := hq
    have hfirst : m.run { s with agenda := turns ++ s.agenda } = .done { s1 with agenda := turns ++ s.agenda } :=
      run_relabel (f := fun _ c => c) (fun _ _ _ => rfl) hm run
    refine ⟨underway s1 (turns ++ s.agenda) rest (encode i), ?_, run_of_plays hplays (runs_of_run hs hm run) hrest⟩
    rw [he, issue_pass hc, runHead_done hfirst, retire_nop (control_of_canWait hm), underway, ctx_of_canWait hm run]

end

/-! ### Commands that touch the devices alone -/

/-- The micro-operations that touch the devices alone. -/
def onDevices : MicroOp → Bool
  | .hold _ _ | .fieldWrite _ _ _ | .cellWrite _ _ _ | .poll _ _ | .txByte _ _ | .txMem _ _ | .rxPush _ _ => true
  | _ => false

theorem canWait_of_onDevices {m : MicroOp} (h : onDevices m = true) : m.canWait = true := by
  cases m <;> first | rfl | cases h

theorem all_canWait {q : List MicroOp} (h : q.all onDevices = true) : q.all MicroOp.canWait = true := by
  rw [List.all_eq_true] at h ⊢
  exact fun m hm => canWait_of_onDevices (h m hm)

theorem run_devices {m : MicroOp} {u u1 : State} (hm : onDevices m = true) (h : m.run u = .done u1) : DevicesOnly u u1 := by
  cases m <;> simp only [onDevices, Bool.false_eq_true] at hm <;> simp only [MicroOp.run] at h
  case hold ch v =>
    injection h with h
    exact h ▸ writeHold_devices ..
  case fieldWrite ch f v =>
    rcases microFieldWrite_cases ch f v u with ⟨-, hd⟩ | ⟨-, -, hd⟩ | ⟨-, -, hd⟩ <;> rw [hd] at h
    · cases h
    · injection h with h
      exact h ▸ writeHold_devices ..
    · injection h with h
      exact h ▸ setField_devices ..
  case cellWrite ch role v =>
    rcases microCellWrite_cases ch role v u with ⟨-, hd⟩ | ⟨-, -, hd⟩ | ⟨-, -, hd⟩ <;> rw [hd] at h
    · injection h with h
      exact h ▸ .refl _
    · cases h
    · injection h with h
      exact h ▸ storeCell_devices ..
  case poll ch d =>
    unfold microPoll at h
    split at h
    · injection h with h
      exact h ▸ .refl _
    · cases h
  case txByte | txMem =>
    all_goals
      injection h with h
      exact h ▸ writeTxbuf_devices ..
  case rxPush ch b =>
    obtain rfl | ⟨r, r1, -, -, rfl⟩ := Steps.ringAccess_done h
    · exact .refl _
    · exact (setRing_devices ..).trans (setIfg_devices ..)

theorem plays_devices {turns : List Turn} {q q' : List MicroOp} {u u' : State} (h : Plays turns q u q' u')
    (hq : q.all onDevices = true) : DevicesOnly u u' := by
  induction h with
  | nil => exact .refl _
  | op run _ ih =>
    rw [List.all_cons, Bool.and_eq_true] at hq
    exact (run_devices hq.1 run).trans (ih hq.2)
  | env e _ ih => exact (envStep_devices _ e).trans (ih hq)

/-- With the turns to come as at s, a command underway at u' is u' with its banks retired. -/
theorem underway_of_agenda {s u : State} (hctx : u.ctx = s.ctx) (ha : u.agenda = s.agenda) (q : List MicroOp) (w : Word) :
    underway u s.agenda q w = u.retire s.ctx .nop q w := by
  have hu : ({ u with agenda := s.agenda } : State) = u := by rw [← ha]
  rw [underway, hu, hctx]

section
variable {i : Instr} {checks : List (Bool × Trap)} {q q' : List MicroOp} {turns : List Turn} {s u' : State}

/-- A command that plays to its end on the devices alone: over, with the devices as they were played. -/
theorem finishes_over (hs : Runs s)
    (he : ∀ A, exec i { s with agenda := A } = issue i checks q { s with agenda := A }) (hc : firstTrap checks = none)
    (hq : q.all onDevices = true) (hplays : Plays (.sequencer :: turns) q s [] u') :
    ∃ t, Finishes i turns s t ∧ Retired i s t ∧ CoreKept s t ∧ ResKept s t ∧ SameDevices u' t := by
  have hd := plays_devices hplays hq
  have hfin := finishes_of_plays hs he hc (all_canWait hq) hplays
  rw [underway_of_agenda hd.flags.ctx hd.flags.agenda] at hfin
  exact ⟨_, hfin, over_of_devices i rfl hd⟩

/-- A command played part of its way: what the devices are then. -/
theorem finishes_underway (hs : Runs s)
    (he : ∀ A, exec i { s with agenda := A } = issue i checks q { s with agenda := A }) (hc : firstTrap checks = none)
    (hq : q.all onDevices = true) (hplays : Plays (.sequencer :: turns) q s q' u') :
    ∃ t, Finishes i turns s t ∧ SameDevices u' t := by
  refine ⟨_, finishes_of_plays hs he hc (all_canWait hq) hplays, ?_⟩
  rw [underway_eq]
  exact ⟨rfl, rfl, rfl, rfl, rfl⟩

end

end Sys2Proof.Playing
end

section
/-! SUPPORT. PROOFS. The serial micro-operations as steps between states of the devices, and the commands that are sequences of them
(R311 to R317, R361, R401 to R404, R451). -/

open Sys2Proof.Machine Sys2Proof.Frames Sys2Proof.Sequencing Sys2Proof.SerialFrames Sys2Proof.DeviceView
open Sys2Proof.SerialCommands Sys2Proof.Playing

namespace Sys2Proof.Sequences

/-! ### What a field write, a plain cell write and a hold assertion leave, on the parameters p -/

theorem otherDevices_trans {s u t : State} (h : OtherDevicesKept s u) (h' : OtherDevicesKept u t) : OtherDevicesKept s t :=
  ⟨h'.timers.trans h.timers, h'.rings.trans h.rings⟩

/-- Field f of channel ch is written, and nothing else (R311). -/
structure FieldWritten (p : Params) (ch : Chan) (f : Field) (v : Bool) (u u' : State) : Prop where
  params : u'.params = p
  field : u'.field ch f = v
  others : ∀ g, g ≠ f → u'.field ch g = u.field ch g
  bits : BitsKeptBut ch f.role [f.pos p.fieldPos] u u'
  cells : CellsKeptBut ch [f.role] u u'
  irq : IrqKept u u'
  devices : OtherDevicesKept u u'

/-- A cell without a side effect is written, and nothing else (R317). -/
structure CellWritten (p : Params) (ch : Chan) (role : Role) (v : Half) (u u' : State) : Prop where
  params : u'.params = p
  value : u'.cellValue ch role = v
  cells : CellsKeptBut ch [role] u u'
  irq : IrqKept u u'
  devices : OtherDevicesKept u u'
  kept : VolatileKept ch u u'

/-- The hold is asserted, with what it draws (R307, R313). -/
structure HoldTaken (p : Params) (ch : Chan) (u u' : State) : Prop where
  params : u'.params = p
  held : u'.held ch = true
  drawn : VolatileDrawn ch u.drawCount u u'
  bits : BitsKeptBut ch .ctl1 (holdPositions p.fieldPos ch.kind) u u'
  cells : CellsKeptBut ch [.ctl1, .stat] u u'
  devices : OtherDevicesKept u u'

section
variable {p : Params} {ch : Chan} {u u' : State}

/-- A field that is not hold-volatile leaves those that are. -/
theorem FieldWritten.kept {f : Field} {v : Bool} (h : FieldWritten p ch f v u u') (hp : u.params = p)
    (hf : f ∈ [Field.sla10, .tr, .swrst]) : VolatileKept ch u u' where
  params := h.params.trans hp.symm
  irq := h.irq
  stat := stat_of_cellsKept h.cells (by revert hf; cases f <;> decide)
  ctl1 g hg := h.others g (by rintro rfl; revert hf hg; cases g <;> simp)

variable (hp : u.params = p)
include hp

theorem setField_written (f : Field) (v : Bool) (hf : p.fieldPos.legal = true) : FieldWritten p ch f v u (u.setField ch f v) := by
  subst hp
  exact ⟨rfl, State.setField_field_self u ch f v (Field.pos_lt hf f), fun g hg => State.setField_field_other u v hf (by simpa using hg),
    setField_bitsKept u ch f v, setField_cellsKept u ch f v, setField_irqKept u ch f v, rfl, rfl⟩

/-- A field that asks for no hold, written (R316). -/
theorem run_field {f : Field} (v : Bool) (hf : p.fieldPos.legal = true) (hcell : f.role.isConfig = false) (hne : f ≠ .swrst) :
    ∃ u', (MicroOp.fieldWrite ch f v).run u = .done u' ∧ FieldWritten p ch f v u u' :=
  ⟨_, run_fieldWrite v hcell hne, setField_written hp f v hf⟩

/-- SLA10, which lies in a configuration cell, written under the hold (R314, R316). -/
theorem run_sla10 (v : Bool) (hf : p.fieldPos.legal = true) (hheld : u.held ch = true) :
    ∃ u', (MicroOp.fieldWrite ch .sla10 v).run u = .done u' ∧ FieldWritten p ch .sla10 v u u' :=
  ⟨_, run_fieldWrite_free (f := .sla10) v (configBlocked_false fun _ => hheld) (by decide), setField_written hp .sla10 v hf⟩

theorem run_release (hf : p.fieldPos.legal = true) :
    ∃ u', (MicroOp.hold ch false).run u = .done u' ∧ FieldWritten p ch .swrst false u u' :=
  ⟨_, rfl, setField_written hp .swrst false hf⟩

theorem run_assert (hf : p.fieldPos.legal = true) (hi : p.irqBits.legal = true) :
    ∃ u', (MicroOp.hold ch true).run u = .done u' ∧ HoldTaken p ch u u' := by
  subst hp
  exact ⟨_, rfl, by simp, writeHold_held u ch true hf, writeHold_true_drawn u ch hi hf, writeHold_bitsKept u ch true,
    writeHold_cellsKept u ch true, writeHold_otherDevices u ch true⟩

/-- A plain cell, written where the configuration check passes (R314, R317). -/
theorem run_cell {role : Role} {v : Half} (hplain : Plain role) (hfits : role.isByte = true → v.toNat < 256)
    (hcell : role.hasCell ch.kind = true) (hheld : role.isConfig = true → u.held ch = true) :
    ∃ u', (MicroOp.cellWrite ch role v).run u = .done u' ∧ CellWritten p ch role v u u' := by
  subst hp
  have hcells := storeCell_cellsKept u ch v hcell
  rw [touched_of_plain hplain] at hcells
  exact ⟨_, run_cellWrite v hcell hheld, State.storeCell_params .., storeCell_value u ch hplain hfits, hcells,
    storeCell_irqKept u ch v hplain, storeCell_otherDevices u ch role v, storeCell_volatileKept u ch v hplain hcell⟩

/-- A byte written to a plain byte cell (R317). -/
theorem run_byteCell {role : Role} (b : Byte) (hplain : Plain role) (hcell : role.hasCell ch.kind = true)
    (hheld : role.isConfig = true → u.held ch = true) :
    ∃ u', (MicroOp.cellWrite ch role (b.setWidth 16)).run u = .done u' ∧ CellWritten p ch role (b.setWidth 16) u u' :=
  run_cell hp hplain (fun _ => by rw [BitVec.toNat_setWidth]; omega) hcell hheld

end

section
variable {p : Params} {ch : Chan} {u u' : State}

/-- A cell write leaves the fields of the other cells. -/
theorem CellWritten.field {role : Role} {v : Half} (h : CellWritten p ch role v u u') (hp : u.params = p) {f : Field}
    (hf : f.role ≠ role) : u'.field ch f = u.field ch f :=
  field_of_cellsKept h.cells (h.params.trans hp.symm) (field_hasCell f _) (.inr (by simpa using hf))

/-- A cell write leaves the other cells. -/
theorem CellWritten.other {role : Role} {v : Half} (h : CellWritten p ch role v u u') {r : Role} (hcell : r.hasCell ch.kind = true)
    (hr : r ≠ role) : u'.cellValue ch r = u.cellValue ch r := h.cells ch r hcell (.inr (by simpa using hr))

/-- A field write leaves the other cells. -/
theorem FieldWritten.other {f : Field} {v : Bool} (h : FieldWritten p ch f v u u') {r : Role} (hcell : r.hasCell ch.kind = true)
    (hr : r ≠ f.role) : u'.cellValue ch r = u.cellValue ch r := h.cells ch r hcell (.inr (by simpa using hr))

end

/-! ### A byte cell, read as its byte -/

section
variable {s : State} {ch : Chan} {b : Byte}

theorem setWidth16_injective {a b : Byte} (h : a.setWidth 16 = b.setWidth 16) : a = b := by
  have hbyte := congrArg (BitVec.setWidth 8) h
  simpa using hbyte

theorem ctl0_of_cellValue (h : s.cellValue ch .ctl0 = b.setWidth 16) : (s.cells ch).ctl0 = b := setWidth16_injective h

theorem br0_of_cellValue (h : s.cellValue ch .br0 = b.setWidth 16) : (s.cells ch).br0 = b := setWidth16_injective h

theorem br1_of_cellValue (h : s.cellValue ch .br1 = b.setWidth 16) : (s.cells ch).br1 = b := setWidth16_injective h

theorem byteCell_hasCell {role : Role} (h : role ∈ [Role.ctl0, .ctl1, .br0, .br1, .stat, .rxbuf, .txbuf]) (k : SerialKind) :
    role.hasCell k = true := by
  revert h
  cases role <;> cases k <;> simp [Role.hasCell]

end

/-! ### BSET (R361) -/

/-- Settles O34: the three writes, each with the channel still held. -/
theorem baudSetCompletes : Obligations.BaudSetCompletes := by
  intro ch os s hs hpresent ha hheld h0 h1 hbr r
  obtain ⟨u1, run1, w1⟩ := run_byteCell (ch := ch) (p := s.params) rfl (role := .br0) (divisorLow r.divisor) (by simp [Plain])
    (byteCell_hasCell (by simp) _) fun _ => hheld
  have held1 : u1.held ch = true := (w1.field rfl (f := .swrst) (by decide)).trans hheld
  obtain ⟨u2, run2, w2⟩ := run_byteCell (ch := ch) w1.params (role := .br1) (divisorHigh r.divisor) (by simp [Plain])
    (byteCell_hasCell (by simp) _) fun _ => held1
  have held2 : u2.held ch = true := (w2.field w1.params (f := .swrst) (by decide)).trans held1
  obtain ⟨u3, run3, w3⟩ := run_byteCell (ch := ch) w2.params (role := .mctl) r.mctl (by simp [Plain]) (by rw [ha]; rfl)
    fun _ => held2
  have pass : firstTrap ((s.chanAbsent ch || ch.kind == .b, Trap.instanceRange) :: UnitCommands.baudChecks os s) = none := by
    rw [hpresent, ha]
    exact UnitCommands.baudChecks_pass h0 h1 hbr
  obtain ⟨t, hfin, hretired, hcore, hres, hsame⟩ := finishes_over (i := .bset ch os) (turns := sequencerTurns 2) hs
    (fun _ => rfl) pass rfl (.op run1 (.op run2 (.op run3 (.nil _ _))))
  have low : (u3.cells ch).br0 = divisorLow r.divisor := br0_of_cellValue
    ((w3.other (byteCell_hasCell (by simp) _) (by decide)).trans
      ((w2.other (byteCell_hasCell (by simp) _) (by decide)).trans w1.value))
  have high : (u3.cells ch).br1 = divisorHigh r.divisor := br1_of_cellValue
    ((w3.other (byteCell_hasCell (by simp) _) (by decide)).trans w2.value)
  refine ⟨t, hfin, hretired, ?_, (hsame.cellValue ch .mctl).trans w3.value,
    hsame.cellsKept (cellsKeptBut_append (cellsKeptBut_append w1.cells w2.cells) w3.cells),
    hsame.irqKept (irqKept_trans (irqKept_trans w1.irq w2.irq) w3.irq), hcore, hres,
    hsame.otherDevices (otherDevices_trans (otherDevices_trans w1.devices w2.devices) w3.devices)⟩
  rw [hsame.cells, low, high, BaudUnit.divisorHigh_append_divisorLow]
  rfl

/-! ### The prepare sequence (R401) -/

/-- The channel is addressed, its direction set and its hold released, with what the hold drew (R401). -/
structure Prepared (ch : Chan) (addr : BitVec 10) (ten tr : Bool) (s u : State) : Prop where
  params : u.params = s.params
  i2csa : u.cellValue ch .i2csa = addr.setWidth 16
  sla10 : u.field ch .sla10 = ten
  tr : u.field ch .tr = tr
  held : u.held ch = false
  drawn : VolatileDrawn ch s.drawCount s u
  ctl0 : BitsKeptBut ch .ctl0 [s.params.fieldPos.sla10] s u
  ctl1 : BitsKeptBut ch .ctl1 (s.params.fieldPos.tr :: holdPositions s.params.fieldPos .b) s u
  cells : CellsKeptBut ch [.ctl0, .ctl1, .stat, .i2csa] s u
  devices : OtherDevicesKept s u

theorem plays_prep {ch : Chan} (addr : BitVec 10) (ten tr : Bool) {s : State} (hb : ch.kind = .b)
    (hf : s.params.fieldPos.legal = true) (hi : s.params.irqBits.legal = true) :
    ∃ u, Plays (sequencerTurns 5) (prepOps ch addr ten tr) s [] u ∧ Prepared ch addr ten tr s u := by
  have hsa : Role.i2csa.hasCell ch.kind = true := by rw [hb]; rfl
  obtain ⟨u1, run1, w1⟩ := run_assert (ch := ch) (u := s) rfl hf hi
  obtain ⟨u2, run2, w2⟩ := run_sla10 (ch := ch) w1.params ten hf w1.held
  obtain ⟨u3, run3, w3⟩ := run_cell (ch := ch) w2.params (role := .i2csa) (v := addr.setWidth 16) (by simp [Plain])
    (fun h => nomatch h) hsa (fun h => nomatch h)
  obtain ⟨u4, run4, w4⟩ := run_field (ch := ch) w3.params (f := .tr) tr hf rfl (by decide)
  obtain ⟨u5, run5, w5⟩ := run_release (ch := ch) w4.params hf
  have kept : VolatileKept ch u1 u5 := volatileKept_trans (w2.kept w1.params (by simp)) (volatileKept_trans w3.kept
    (volatileKept_trans (w4.kept w3.params (by simp)) (w5.kept w4.params (by simp))))
  refine ⟨u5, .op run1 (.op run2 (.op run3 (.op run4 (.op run5 (.nil _ _))))), w5.params, ?i2csa, ?sla10, ?tr, w5.field,
    volatileDrawn_after w1.drawn kept, ?ctl0, ?ctl1, ?cells, ?devices⟩
  case i2csa => exact (w5.other hsa (by decide)).trans ((w4.other hsa (by decide)).trans w3.value)
  case sla10 =>
    exact (w5.others _ (by decide)).trans ((w4.others _ (by decide)).trans ((w3.field w2.params (by decide)).trans w2.field))
  case tr => exact (w5.others _ (by decide)).trans w4.field
  case ctl0 =>
    have before : BitsKeptBut ch .ctl0 [] s u1 := bitsKeptBut_of_cellsKept w1.cells (byteCell_hasCell (by simp) _) (by simp)
    have after : BitsKeptBut ch .ctl0 [] u2 u5 := bitsKeptBut_of_cellValue
      ((w5.other (byteCell_hasCell (by simp) _) (by decide)).trans ((w4.other (byteCell_hasCell (by simp) _) (by decide)).trans
        (w3.other (byteCell_hasCell (by simp) _) (by decide))))
    exact bitsKeptBut_append before (bitsKeptBut_append w2.bits after)
  case ctl1 =>
    have between : BitsKeptBut ch .ctl1 [] u1 u3 := bitsKeptBut_of_cellValue
      ((w3.other (byteCell_hasCell (by simp) _) (by decide)).trans (w2.other (byteCell_hasCell (by simp) _) (by decide)))
    have whole := bitsKeptBut_append w1.bits (bitsKeptBut_append between (bitsKeptBut_append w4.bits w5.bits))
    rw [hb] at whole
    exact bitsKeptBut_mono (by simp [holdPositions, Field.pos]) whole
  case cells =>
    exact cellsKeptBut_mono (by simp [Field.role]) (cellsKeptBut_append w1.cells (cellsKeptBut_append w2.cells
      (cellsKeptBut_append w3.cells (cellsKeptBut_append w4.cells w5.cells))))
  case devices =>
    exact otherDevices_trans w1.devices (otherDevices_trans w2.devices (otherDevices_trans w3.devices
      (otherDevices_trans w4.devices w5.devices)))

theorem legal_positions {s : State} (h : s.legal = true) : s.params.fieldPos.legal = true ∧ s.params.irqBits.legal = true := by
  obtain ⟨hf, hi, -⟩ := s.params.legal_iff.mp (State.legal_params h)
  exact ⟨hf, hi⟩

/-- A command that is PREP and no more (R403, R404). -/
theorem prep_completes {ch : Chan} {addr : BitVec 10} {ten tr : Bool} {s : State} {i : Instr} (hs : Runs s)
    (hpresent : s.chanAbsent ch = false) (hb : ch.kind = .b)
    (he : ∀ A, exec i { s with agenda := A } = issue i (i2cChecks ch s) (prepOps ch addr ten tr) { s with agenda := A }) :
    ∃ t, Finishes i (sequencerTurns 4) s t ∧ Retired i s t ∧
      t.cellValue ch .i2csa = addr.setWidth 16 ∧ t.field ch .sla10 = ten ∧ t.field ch .tr = tr ∧ t.held ch = false ∧
      VolatileDrawn ch s.drawCount s t ∧
      BitsKeptBut ch .ctl0 [s.params.fieldPos.sla10] s t ∧
      BitsKeptBut ch .ctl1 (s.params.fieldPos.tr :: holdPositions s.params.fieldPos .b) s t ∧
      CellsKeptBut ch [.ctl0, .ctl1, .stat, .i2csa] s t ∧ CoreKept s t ∧ ResKept s t ∧ OtherDevicesKept s t := by
  obtain ⟨hf, hi⟩ := legal_positions hs.legal
  obtain ⟨u, hplays, w⟩ := plays_prep addr ten tr hb hf hi
  obtain ⟨t, hfin, hretired, hcore, hres, hsame⟩ := finishes_over hs he (i2c_pass hpresent hb) rfl hplays
  exact ⟨t, hfin, hretired, (hsame.cellValue ..).trans w.i2csa, (hsame.field ..).trans w.sla10, (hsame.field ..).trans w.tr,
    (hsame.held ch).trans w.held, hsame.drawn w.drawn, hsame.bitsKept w.ctl0, hsame.bitsKept w.ctl1, hsame.cellsKept w.cells,
    hcore, hres, hsame.otherDevices w.devices⟩

/-- Settles O35: both commands are PREP, with their direction. -/
theorem prepareCommandsComplete : Obligations.PrepareCommandsComplete := by
  intro ch addr ten tr s hs hpresent hb
  cases tr with
  | true => exact prep_completes (i := .iptx ch addr ten) hs hpresent hb fun _ => rfl
  | false => exact prep_completes (i := .iprx ch addr ten) hs hpresent hb fun _ => rfl

/-! ### PINIT (R451) -/

/-- Settles O42: the three plain writes, between the hold's assertion and its release. -/
theorem spiInitCompletes : Obligations.SpiInitCompletes := by
  intro ch divisor s hs hpresent
  obtain ⟨hf, hi⟩ := legal_positions hs.legal
  obtain ⟨u1, run1, w1⟩ := run_assert (ch := ch) (u := s) rfl hf hi
  obtain ⟨u2, run2, w2⟩ := run_byteCell (ch := ch) w1.params (role := .ctl0) s.spiControl (by simp [Plain])
    (byteCell_hasCell (by simp) _) fun _ => w1.held
  have held2 : u2.held ch = true := (w2.field w1.params (f := .swrst) (by decide)).trans w1.held
  obtain ⟨u3, run3, w3⟩ := run_byteCell (ch := ch) w2.params (role := .br0) (divisorLow divisor) (by simp [Plain])
    (byteCell_hasCell (by simp) _) fun _ => held2
  have held3 : u3.held ch = true := (w3.field w2.params (f := .swrst) (by decide)).trans held2
  obtain ⟨u4, run4, w4⟩ := run_byteCell (ch := ch) w3.params (role := .br1) (divisorHigh divisor) (by simp [Plain])
    (byteCell_hasCell (by simp) _) fun _ => held3
  obtain ⟨u5, run5, w5⟩ := run_release (ch := ch) w4.params hf
  obtain ⟨t, hfin, hretired, hcore, hres, hsame⟩ := finishes_over (i := .pinit ch divisor) (turns := sequencerTurns 4) hs
    (fun _ => rfl) (channel_pass hpresent) rfl (.op run1 (.op run2 (.op run3 (.op run4 (.op run5 (.nil _ _))))))
  have control : (u5.cells ch).ctl0 = s.spiControl := ctl0_of_cellValue
    ((w5.other (byteCell_hasCell (by simp) _) (by decide)).trans ((w4.other (byteCell_hasCell (by simp) _) (by decide)).trans
      ((w3.other (byteCell_hasCell (by simp) _) (by decide)).trans w2.value)))
  have low : (u5.cells ch).br0 = divisorLow divisor := br0_of_cellValue
    ((w5.other (byteCell_hasCell (by simp) _) (by decide)).trans ((w4.other (byteCell_hasCell (by simp) _) (by decide)).trans
      w3.value))
  have high : (u5.cells ch).br1 = divisorHigh divisor := br1_of_cellValue
    ((w5.other (byteCell_hasCell (by simp) _) (by decide)).trans w4.value)
  have kept : VolatileKept ch u1 u5 := volatileKept_trans w2.kept (volatileKept_trans w3.kept
    (volatileKept_trans w4.kept (w5.kept w4.params (by simp))))
  have between : BitsKeptBut ch .ctl1 [] u1 u4 := bitsKeptBut_of_cellValue
    ((w4.other (byteCell_hasCell (by simp) _) (by decide)).trans ((w3.other (byteCell_hasCell (by simp) _) (by decide)).trans
      (w2.other (byteCell_hasCell (by simp) _) (by decide))))
  have bits := bitsKeptBut_append w1.bits (bitsKeptBut_append between w5.bits)
  have cells := cellsKeptBut_append w1.cells (cellsKeptBut_append w2.cells (cellsKeptBut_append w3.cells
    (cellsKeptBut_append w4.cells w5.cells)))
  refine ⟨t, hfin, hretired, ?_, ?_, (hsame.held ch).trans w5.field, hsame.drawn (volatileDrawn_after w1.drawn kept),
    hsame.bitsKept (bitsKeptBut_mono ?_ bits), hsame.cellsKept (cellsKeptBut_mono (by simp [Field.role]) cells), hcore, hres,
    hsame.otherDevices (otherDevices_trans w1.devices (otherDevices_trans w2.devices (otherDevices_trans w3.devices
      (otherDevices_trans w4.devices w5.devices))))⟩
  · rw [hsame.cells, control]
    rfl
  · rw [hsame.cells, low, high, BaudUnit.divisorHigh_append_divisorLow]
  · simp [holdPositions_eq, Field.pos]

end Sys2Proof.Sequences
end

section
/-! SUPPORT. PROOFS. The send and receive commands, and the beginning of the register transactions (R319 to R323, R408 to R413, R452,
R453). -/

open Sys2Proof.Machine Sys2Proof.Frames Sys2Proof.Completion Sys2Proof.Sequencing Sys2Proof.SerialFrames Sys2Proof.DeviceView
open Sys2Proof.SerialCommands Sys2Proof.Playing Sys2Proof.Sequences

namespace Sys2Proof.Transfers

/-! ### A command that waits, and one that has begun (R42, R43) -/

section
variable {i : Instr} {checks : List (Bool × Trap)} {m : MicroOp} {rest : List MicroOp} {s s1 : State}

theorem config_loadSeq (s : State) (k : Ctx) (q : List MicroOp) (w : Word) : ConfigKept s (s.loadSeq k q w) :=
  ⟨by simp, by simp, by simp⟩

/-- A command that waits at once keeps all its micro-operations. -/
theorem begun_of_wait (he : exec i s = issue i checks (m :: rest) s) (hc : firstTrap checks = none) (hr : m.run s = .wait) :
    ∃ t, exec i s = .next t ∧ Begun i (m :: rest) s t ∧ CoreKept s t ∧ ResKept s t ∧ DevicesKept s t := by
  refine ⟨s.loadSeq s.ctx (m :: rest) (encode i), by rw [he, issue_pass hc, runHead_wait hr],
    ⟨config_loadSeq .., ?_, ?_, ?_, fun k hk => State.loadSeq_other _ _ _ hk⟩, ⟨fun r => ?_, ?_, ?_, ?_⟩, ?_,
    ⟨⟨by simp, by simp⟩, by simp [TimersKept], by simp [RingsKept]⟩⟩
  · rw [State.loadSeq_self]
    rfl
  · rw [State.loadSeq_self]
  · rw [State.loadSeq_self]
  · rw [State.loadSeq_self]
    cases r <;> rfl
  · rw [GuardKept, State.loadSeq_self]
    exact ⟨rfl, rfl⟩
  · exact ⟨⟨by simp, by simp, by simp, by simp⟩, ⟨by simp, by simp⟩, by simp⟩
  · exact State.readByte_congr (by simp)
  · rw [ResKept, State.loadSeq_self]
    rfl

/-- A command of several micro-operations whose first changes the devices alone has begun, with the others left. -/
theorem begun_of_devices (he : exec i s = issue i checks (m :: rest) s) (hc : firstTrap checks = none) (hrest : rest ≠ [])
    (hr : m.run s = .done s1) (hd : DevicesOnly s s1) :
    ∃ t, exec i s = .next t ∧ Begun i rest s t ∧ CoreKept s t ∧ ResKept s t ∧ SameDevices s1 t := by
  have hmore : rest.isEmpty = false := by simpa using hrest
  refine ⟨s1.retire s.ctx m rest (encode i), by rw [he, issue_pass hc, runHead_done hr],
    ⟨⟨(State.retire_params ..).trans hd.config.params, (State.retire_progMain ..).trans hd.config.progMain,
      (State.retire_progIsr ..).trans hd.config.progIsr⟩, ?_, ?_, ?_,
      fun k hk => (State.retire_other _ _ _ _ hk).trans (hd.ctxState k)⟩,
    coreKept_retire _ _ _ hd.core, ControlUnit.resKept_retire _ _ _ hd.res, sameDevices_retire ..⟩
  · rw [State.retire_self, hmore, hd.ctxState]
    rfl
  · rw [State.retire_self]
  · rw [State.retire_self]

end

/-! ### Sending (R312, R320, R408, R452) -/

section
variable {i : Instr} {checks : List (Bool × Trap)} {ch : Chan} {v : Byte} {s : State}

/-- A send command: the poll and the write of TXBUF. -/
theorem send_completes (hs : Runs s)
    (he : ∀ A, exec i { s with agenda := A } = issue i checks [.poll ch .tx, .txByte ch v] { s with agenda := A })
    (hc : firstTrap checks = none) :
    (s.ifg ch .tx = true →
      ∃ t, Finishes i (sequencerTurns 1) s t ∧ Retired i s t ∧ ByteSent ch v s t ∧ CoreKept s t ∧ ResKept s t ∧
        OtherDevicesKept s t) ∧
    (s.ifg ch .tx = false →
      ∃ t, exec i s = .next t ∧ Begun i [.poll ch .tx, .txByte ch v] s t ∧ CoreKept s t ∧ ResKept s t ∧ DevicesKept s t) := by
  obtain ⟨-, hi⟩ := legal_positions hs.legal
  refine ⟨fun hready => ?_, fun hwait => begun_of_wait (he s.agenda) hc (microPoll_wait hwait)⟩
  have hplays : Plays (sequencerTurns 2) [.poll ch .tx, .txByte ch v] s [] (s.writeTxbuf ch v) :=
    .op (microPoll_ready hready) (.op rfl (.nil _ _))
  obtain ⟨t, hfin, hretired, hcore, hres, hsame⟩ := finishes_over hs he hc rfl hplays
  exact ⟨t, hfin, hretired, hsame.byteSent (writeTxbuf_sent s ch v hi), hcore, hres, hsame.otherDevices ⟨rfl, rfl⟩⟩

end

/-- Settles O37: the four commands differ in their channel's kind and in their byte, which is captured at Decode. -/
theorem sendCommandsCompleteOrWait : Obligations.SendCommandsCompleteOrWait := by
  intro ch v s hs hpresent c hc
  have spi := channel_pass hpresent
  rw [sendCommands, List.mem_append] at hc
  obtain hc | hc := hc
  · obtain rfl | rfl : c = (.psend ch v, v) ∨ c = (.psendR ch, s.cur.res.extractLsb' 0 8) := by simpa using hc
    · exact send_completes hs (fun _ => rfl) spi
    · exact send_completes hs (fun _ => rfl) spi
  · by_cases hb : ch.kind = .b
    · have i2c := i2c_pass hpresent hb
      obtain rfl | rfl : c = (.isend ch v, v) ∨ c = (.isendR ch, s.cur.res.extractLsb' 0 8) := by simpa [hb] using hc
      · exact send_completes hs (fun _ => rfl) i2c
      · exact send_completes hs (fun _ => rfl) i2c
    · simp [hb] at hc

/-! ### Receiving (R322, R323, R411, R453) -/

/-- PRECV's last micro-operation: RES, then the receive flag (R322). -/
theorem precv_completes {ch : Chan} {s : State} (hs : Runs s) (hpresent : s.chanAbsent ch = false) (hready : s.ifg ch .rx = true) :
    ∃ t, Finishes (.precv ch) (sequencerTurns 1) s t ∧ Retired (.precv ch) s t ∧ ResIs ((s.cells ch).rxbuf.setWidth 32) s t ∧
      ReceiveTaken ch s t ∧ CoreKept s t ∧ OtherDevicesKept s t := by
  obtain ⟨-, hi⟩ := legal_positions hs.legal
  have hplays : Plays (sequencerTurns 2) [.poll ch .rx, .rxRes ch] s [] (s.rxToRes ch) :=
    .op (microPoll_ready hready) (.op rfl (.nil _ _))
  have hfin := finishes_of_plays (i := .precv ch) (turns := sequencerTurns 1) hs (fun _ => rfl) (channel_pass hpresent) rfl hplays
  have hdev : DevicesOnly (s.setRes (zext32 (s.cells ch).rxbuf)) (s.rxToRes ch) := setIfg_devices ..
  have hctx : (s.rxToRes ch).ctx = s.ctx := hdev.flags.ctx.trans (by simp)
  have hagenda : (s.rxToRes ch).agenda = s.agenda := hdev.flags.agenda.trans (by simp)
  rw [underway_of_agenda hctx hagenda] at hfin
  obtain ⟨hretired, hcore, hres, hsame⟩ := over_of_resDevices (m := .nop) (.precv ch) rfl hdev
  have hview : SameDevices (s.setIfg ch .rx false) (s.rxToRes ch) :=
    ⟨by simp [State.rxToRes], by simp [State.rxToRes, State.setIfg, State.irqPos], by simp [State.rxToRes],
      by simp [State.rxToRes], by simp [State.rxToRes]⟩
  have hall := hview.trans hsame
  exact ⟨_, hfin, hretired, hres, hall.receiveTaken (clearRx_taken s ch hi), hcore, hall.otherDevices ⟨rfl, rfl⟩⟩

/-- A push into a ring buffer whose sharing is guarded (R323, R511). -/
theorem run_rxPush {ch : Chan} {b : Nat} {r r1 : Ring} {u : State} (hr : u.rings[b]? = some r)
    (hshare : r.share u.ctx u.gie = some r1) :
    (MicroOp.rxPush ch b).run u = .done ((u.setRing b (r1.insert (u.cells ch).rxbuf)).setIfg ch .rx false) := by
  simp [MicroOp.run, microRxPush, ringAccess, hr, hshare]

/-- Of the serial unit a push clears the receive flag alone. -/
theorem push_taken (s : State) (ch : Chan) (b : Nat) (r : Ring) (hi : s.params.irqBits.legal = true) :
    ReceiveTaken ch s ((s.setRing b r).setIfg ch .rx false) where
  flag := State.setIfg_ifg_self (s.setRing b r) ch .rx false hi
  ifg _ _ hne := State.setIfg_ifg_ne (s.setRing b r) false hi hne
  ie _ _ := rfl
  draws := rfl
  cells c role _ _ := (State.setIfg_cellValue ..).trans (State.cellValue_congr rfl c role)

theorem irecv_completes {ch : Chan} {s : State} {r r1 : Ring} (hs : Runs s) (hpresent : s.chanAbsent ch = false) (hb : ch.kind = .b)
    (hready : s.ifg ch .rx = true) (hr : s.rings[s.i2cRb ch]? = some r) (hshares : Shares s r r1) :
    ∃ t r2, Finishes (.irecv ch) (sequencerTurns 1) s t ∧ Retired (.irecv ch) s t ∧ Inserted r1 (s.cells ch).rxbuf r2 ∧
      t.rings[s.i2cRb ch]? = some r2 ∧ OtherRingsKept (s.i2cRb ch) s t ∧ ReceiveTaken ch s t ∧ CoreKept s t ∧
      ResKept s t ∧ TimersKept s t := by
  obtain ⟨-, hi⟩ := legal_positions hs.legal
  have hplays : Plays (sequencerTurns 2) [.poll ch .rx, .rxPush ch (s.i2cRb ch)] s [] _ :=
    .op (microPoll_ready hready) (.op (run_rxPush hr (share_of_shares hshares)) (.nil _ _))
  obtain ⟨t, hfin, hretired, hcore, hres, hsame⟩ :=
    finishes_over (i := .irecv ch) (turns := sequencerTurns 1) hs (fun _ => rfl) (i2c_pass hpresent hb) rfl hplays
  refine ⟨t, r1.insert (s.cells ch).rxbuf, hfin, hretired, (RingUnit.inserted_iff ..).mpr rfl, ?_, fun j hj => ?_,
    hsame.receiveTaken (push_taken s ch _ _ hi), hcore, hres, hsame.timers.trans rfl⟩
  · rw [hsame.rings]
    exact RingUnit.setRing_rings_self _ _ _ hr
  · rw [hsame.rings]
    exact RingUnit.setRing_rings_ne _ _ _ hj

/-- Settles O38: each of the two is a poll and one micro-operation. -/
theorem receiveCommandsCompleteOrWait : Obligations.ReceiveCommandsCompleteOrWait := by
  intro ch s hs hpresent
  refine ⟨precv_completes hs hpresent, fun r r1 hb hready hr hshares => irecv_completes hs hpresent hb hready hr hshares,
    fun hwait => ⟨?_, fun hb => ?_⟩⟩
  · exact begun_of_wait rfl (channel_pass hpresent) (microPoll_wait hwait)
  · exact begun_of_wait rfl (i2c_pass hpresent hb) (microPoll_wait hwait)

/-! ### The register transactions begin (R409, R410, R412) -/

/-- The end of IRREG, written out: all the bytes but the last, the stop, and the last byte (R410, R412). -/
theorem irregReceive_eq (ch : Chan) (b n : Nat) :
    irregReceive ch b (n + 1) = (List.replicate n [MicroOp.poll ch .rx, .rxPush ch b]).flatten ++
      [.fieldWrite ch .txstp true, .poll ch .rx, .rxPush ch b] := by
  have before : ∀ j ∈ List.range n, (if j + 1 = n + 1 then [.fieldWrite ch .txstp true, .poll ch .rx, .rxPush ch b]
      else [MicroOp.poll ch .rx, .rxPush ch b]) = [MicroOp.poll ch .rx, .rxPush ch b] := by
    intro j hj
    have hlt := List.mem_range.mp hj
    rw [if_neg (by omega)]
  unfold irregReceive
  split
  next h =>
    obtain rfl : n = 0 := by omega
    rfl
  next =>
    rw [List.range_succ, List.flatMap_append, List.flatMap_def, List.map_congr_left before]
    simp [List.map_const']

/-- A command on a kind-B channel whose list begins with the hold. -/
theorem begun_of_hold {i : Instr} {checks : List (Bool × Trap)} {ch : Chan} {rest : List MicroOp} {s : State}
    (he : exec i s = issue i checks (.hold ch true :: rest) s) (hc : firstTrap checks = none) (hrest : rest ≠ [])
    (hf : s.params.fieldPos.legal = true) (hi : s.params.irqBits.legal = true) :
    ∃ t, exec i s = .next t ∧ t.held ch = true ∧ VolatileDrawn ch s.drawCount s t ∧ Begun i rest s t ∧
      CellsKeptBut ch [.ctl1, .stat] s t ∧ CoreKept s t ∧ ResKept s t ∧ OtherDevicesKept s t := by
  obtain ⟨t, hexec, hbegun, hcore, hres, hsame⟩ := begun_of_devices he hc hrest rfl (writeHold_devices s ch true)
  exact ⟨t, hexec, (hsame.held ch).trans (writeHold_held s ch true hf), hsame.drawn (writeHold_true_drawn s ch hi hf), hbegun,
    hsame.cellsKept (writeHold_cellsKept s ch true), hcore, hres, hsame.otherDevices (writeHold_otherDevices s ch true)⟩

theorem irreg_pass {ch : Chan} {s : State} (hpresent : s.chanAbsent ch = false) (hb : ch.kind = .b) (hn : s.i2cCount ≠ 0) :
    firstTrap (i2cChecks ch s ++ [(s.i2cCount == 0, .i2cCountZero)]) = none := by
  rw [i2cChecks, hpresent, hb, beq_eq_false_iff_ne.mpr hn]
  rfl

/-- IRREG's list of micro-operations, for a count of n + 1 (R410). -/
theorem irregOps_eq (ch : Chan) (addr : BitVec 10) (ten : Bool) (reg : Byte) (b n : Nat) :
    irregOps ch addr ten reg b (n + 1) = .hold ch true :: (prepareTail ch addr ten ++
      [.fieldWrite ch .txstt true, .poll ch .tx, .txByte ch reg, .poll ch .tx, .fieldWrite ch .tr false,
        .fieldWrite ch .txstt true] ++
      (List.replicate n [MicroOp.poll ch .rx, .rxPush ch b]).flatten ++
      [.fieldWrite ch .txstp true, .poll ch .rx, .rxPush ch b]) := by
  rw [irregOps, irregReceive_eq, ← List.append_assoc]
  rfl

/-- Settles O39: both lists begin with the hold; IRREG's count is checked after the channel. -/
theorem registerTransactionsBegin : Obligations.RegisterTransactionsBegin := by
  intro ch reg s hpresent hb hf hi addr ten n src
  refine ⟨begun_of_hold rfl (i2c_pass hpresent hb) (by simp [prepareTail]) hf hi, fun hn => ?_, fun hn => ?_⟩
  · obtain ⟨k, hk⟩ : ∃ k, n = k + 1 := ⟨n - 1, by omega⟩
    have hexec : exec (.irreg ch reg) s = issue (.irreg ch reg) (i2cChecks ch s ++ [(s.i2cCount == 0, .i2cCountZero)])
        (irregOps ch addr ten reg (s.i2cRb ch) n) s := rfl
    rw [hk, irregOps_eq] at hexec
    rw [hk, Nat.add_sub_cancel]
    exact begun_of_hold hexec (irreg_pass hpresent hb (Nat.ne_of_gt hn)) (by simp [prepareTail]) hf hi
  · have hcount : (s.i2cCount == 0) = true := beq_iff_eq.mpr hn
    refine ControlUnit.raises_of_firstTrap rfl (checks := i2cChecks ch s ++ [(s.i2cCount == 0, .i2cCountZero)]) ?_ rfl
    rw [i2cChecks, hpresent, hb, hcount]
    rfl

end Sys2Proof.Transfers
end

section
/-! SUPPORT. PROOFS. The register transactions run to their end against a device that answers: IWREG's bytes go out in order, IRREG's
come in in order (R331, R332, R409, R410, R412). -/

open Sys2Proof.Machine Sys2Proof.Frames Sys2Proof.Sequencing Sys2Proof.SerialFrames Sys2Proof.DeviceView Sys2Proof.SerialCommands
open Sys2Proof.Playing Sys2Proof.Sequences Sys2Proof.Transfers

namespace Sys2Proof.Transactions

/-! ### Steps beside the hold: the parts that all of them leave -/

/-- Of the devices only the named cells and the interrupt registers of channel ch, and the ring buffers, have changed. -/
structure Beside (ch : Chan) (roles : List Role) (u u' : State) : Prop where
  only : DevicesOnly u u'
  cells : CellsKeptBut ch roles u u'
  others : ∀ c d, c ≠ ch → u'.ifg c d = u.ifg c d ∧ u'.ie c d = u.ie c d
  draws : u'.drawCount = u.drawCount
  timers : u'.timers = u.timers

/-- Field f is written, and of the ring buffers nothing is. -/
structure Wrote (ch : Chan) (f : Field) (v : Bool) (u u' : State) : Prop extends Beside ch [f.role] u u' where
  field : u'.field ch f = v
  fields : ∀ g, g ≠ f → u'.field ch g = u.field ch g
  rings : u'.rings = u.rings

/-- Byte v stands in TXBUF, and of the ring buffers nothing is changed. -/
structure Sent (ch : Chan) (v : Byte) (u u' : State) : Prop extends Beside ch [.txbuf] u u' where
  txbuf : (u'.cells ch).txbuf = v
  rings : u'.rings = u.rings

section
variable {ch : Chan} {l l' : List Role} {u u' u'' : State}

theorem Beside.refl (ch : Chan) (l : List Role) (u : State) : Beside ch l u u :=
  ⟨.refl u, cellsKeptBut_of_serial ch l rfl, fun _ _ _ => ⟨rfl, rfl⟩, rfl, rfl⟩

theorem Beside.trans (h : Beside ch l u u') (h' : Beside ch l' u' u'') : Beside ch (l ++ l') u u'' where
  only := h.only.trans h'.only
  cells := cellsKeptBut_append h.cells h'.cells
  others c d hc := ⟨(h'.others c d hc).1.trans (h.others c d hc).1, (h'.others c d hc).2.trans (h.others c d hc).2⟩
  draws := h'.draws.trans h.draws
  timers := h'.timers.trans h.timers

theorem Beside.mono (h : Beside ch l u u') (hl : l ⊆ l') : Beside ch l' u u' :=
  { h with cells := cellsKeptBut_mono hl h.cells }

/-- The fields of the cells that are kept. -/
theorem Beside.field (h : Beside ch l u u') {f : Field} (hf : f.role ∉ l) : u'.field ch f = u.field ch f :=
  field_of_cellsKept h.cells h.only.params (field_hasCell f _) (.inr hf)

theorem Beside.held (h : Beside ch l u u') (hl : .ctl1 ∉ l) : u'.held ch = u.held ch := h.field (f := .swrst) hl

theorem txbuf_of_cellValue (h : u'.cellValue ch .txbuf = u.cellValue ch .txbuf) : (u'.cells ch).txbuf = (u.cells ch).txbuf :=
  setWidth16_injective h

theorem Beside.txbuf (h : Beside ch l u u') (hl : .txbuf ∉ l) : (u'.cells ch).txbuf = (u.cells ch).txbuf :=
  txbuf_of_cellValue (h.cells ch .txbuf (byteCell_hasCell (by simp) _) (.inr hl))

/-- An interrupt flag of channel ch, written. -/
theorem setIfg_beside (ch : Chan) (u : State) (d : Dir) (v : Bool) (hi : u.params.irqBits.legal = true) :
    Beside ch [] u (u.setIfg ch d v) :=
  ⟨setIfg_devices .., setIfg_cellsKept u ch ch d v, fun c e hc => ⟨State.setIfg_ifg_ne u v hi (by simp [hc]), rfl⟩, rfl, rfl⟩

theorem writeTxbuf_sentBeside (ch : Chan) (u : State) (v : Byte) (hi : u.params.irqBits.legal = true) :
    Sent ch v u (u.writeTxbuf ch v) :=
  have h := writeTxbuf_sent u ch v hi
  { only := writeTxbuf_devices u ch v, cells := h.cells, draws := rfl, timers := rfl, txbuf := h.txbuf, rings := rfl
    others := fun c d hc => ⟨h.ifg c d (by simp [hc]), h.ie c d⟩ }

theorem fieldWritten_wrote {p : Params} {f : Field} {v : Bool} (hd : DevicesOnly u u') (h : FieldWritten p ch f v u u') :
    Wrote ch f v u u' :=
  { only := hd, cells := h.cells, draws := h.irq.draws, timers := h.devices.timers, field := h.field, fields := h.others
    rings := h.devices.rings, others := fun c d _ => ⟨h.irq.ifg c d, h.irq.ie c d⟩ }

end

/-! ### The channel as a transaction finds it -/

/-- Channel ch is present and enabled, and the parameters are legal. -/
structure Enabled (ch : Chan) (u : State) : Prop where
  positions : u.params.fieldPos.legal = true ∧ u.params.irqBits.legal = true
  present : u.chanAbsent ch = false
  held : u.held ch = false

section
variable {ch : Chan} {u u' : State}

theorem Enabled.live (h : Enabled ch u) : u.live ch = true := Environment.live_of h.present h.held

/-- What matters of a state to its being enabled. -/
theorem enabled_of (hp : u'.params = u.params) (hheld : u'.held ch = false) (h : u.chanAbsent ch = false)
    (hpos : u.params.fieldPos.legal = true ∧ u.params.irqBits.legal = true) : Enabled ch u' :=
  ⟨by rwa [hp], by rw [State.chanAbsent, hp]; exact h, hheld⟩

theorem Enabled.beside {l : List Role} (h : Enabled ch u) (hb : Beside ch l u u') (hl : .ctl1 ∉ l) : Enabled ch u' :=
  enabled_of hb.only.params ((hb.held hl).trans h.held) h.present h.positions

theorem Enabled.wrote {f : Field} {v : Bool} (h : Enabled ch u) (hw : Wrote ch f v u u') (hf : f ≠ .swrst) : Enabled ch u' :=
  enabled_of hw.only.params ((hw.fields .swrst hf.symm).trans h.held) h.present h.positions

/-! ### The pairs of poll and transfer, each after its step of the device (R331, R332) -/

/-- The transmit flag set by the device. -/
theorem plays_txReady (h : Enabled ch u) (rest : List MicroOp) :
    ∃ u', Plays [.env (.txReady ch), .sequencer] (.poll ch .tx :: rest) u rest u' ∧ Beside ch [] u u' ∧ u'.rings = u.rings := by
  obtain ⟨-, hi⟩ := h.positions
  have henv := Environment.envStep_txReady u ch h.live
  have hready : (envStep (.txReady ch) u).ifg ch .tx = true := by rw [henv]; exact State.setIfg_ifg_self u ch .tx true hi
  refine ⟨_, .env _ (.op (microPoll_ready hready) (.nil _ _)), ?_, ?_⟩
  · rw [henv]
    exact setIfg_beside ch u .tx true hi
  · rw [henv]
    rfl

/-- A field of CTL1 written by the sequencer's turn. -/
theorem plays_field (h : Enabled ch u) {f : Field} (v : Bool) (hcell : f.role.isConfig = false) (hne : f ≠ .swrst) :
    ∃ u', Plays [.sequencer] [.fieldWrite ch f v] u [] u' ∧ Wrote ch f v u u' := by
  obtain ⟨u', run, w⟩ := run_field (ch := ch) (u := u) rfl v h.positions.1 hcell hne
  exact ⟨u', .op run (.nil _ _), fieldWritten_wrote (run_devices rfl run) w⟩

/-- A field of CTL1 written once the device is ready. -/
theorem plays_ready_field (h : Enabled ch u) {f : Field} (v : Bool) (hcell : f.role.isConfig = false) (hne : f ≠ .swrst) :
    ∃ u', Plays [.env (.txReady ch), .sequencer, .sequencer] [.poll ch .tx, .fieldWrite ch f v] u [] u' ∧ Wrote ch f v u u' := by
  obtain ⟨u1, hready, hb, hr⟩ := plays_txReady h [.fieldWrite ch f v]
  obtain ⟨u', hplays, w⟩ := plays_field (h.beside hb (by simp)) v hcell hne
  exact ⟨u', plays_append hready hplays, { hb.trans w.toBeside with
    field := w.field, fields := fun g hg => (w.fields g hg).trans (hb.field (by simp)), rings := w.rings.trans hr }⟩

/-- A byte sent once the device is ready, by a micro-operation that reads no device. -/
theorem plays_send (h : Enabled ch u) {m : MicroOp} {v : Byte}
    (hm : ∀ u1, DevicesOnly u u1 → m.run u1 = .done (u1.writeTxbuf ch v)) :
    ∃ u', Plays [.env (.txReady ch), .sequencer, .sequencer] [.poll ch .tx, m] u [] u' ∧ Sent ch v u u' := by
  obtain ⟨u1, hready, hb, hr⟩ := plays_txReady h [m]
  have w := writeTxbuf_sentBeside ch u1 v (h.beside hb (by simp)).positions.2
  exact ⟨_, plays_append hready (.op (hm u1 hb.only) (.nil _ _)), { hb.trans w.toBeside with
    txbuf := w.txbuf, rings := w.rings.trans hr }⟩

/-- One byte of data memory sent (R321). -/
theorem plays_sendMem (h : Enabled ch u) (a : Half) :
    ∃ u', Plays [.env (.txReady ch), .sequencer, .sequencer] [.poll ch .tx, .txMem ch a] u [] u' ∧ Sent ch (u.readByte a) u u' :=
  plays_send h fun u1 hd => by rw [MicroOp.run, State.readByte_congr hd.dm a]

end

/-! ### IWREG's data bytes (R409) -/

theorem iwregData_succ (ch : Chan) (src : Half) (n : Nat) :
    iwregData ch src (n + 1) = iwregData ch src n ++ [.poll ch .tx, .txMem ch (src + BitVec.ofNat 16 n)] := by
  simp [iwregData, List.range_succ]

/-- The first j of n data bytes. -/
theorem iwregData_split (ch : Chan) (src : Half) {j n : Nat} (h : j ≤ n) : ∃ rest, iwregData ch src n = iwregData ch src j ++ rest := by
  induction n, h using Nat.le_induction with
  | base => exact ⟨[], (List.append_nil _).symm⟩
  | succ n _ ih =>
    obtain ⟨rest, hrest⟩ := ih
    exact ⟨rest ++ _, by rw [iwregData_succ, hrest, List.append_assoc]⟩

/-- m times a TX-ready step and two turns of the sequencer. -/
def readyTurns (ch : Chan) (m : Nat) : List Turn :=
  (List.replicate m [Turn.env (.txReady ch), .sequencer, .sequencer]).flatten

theorem readyTurns_succ (ch : Chan) (m : Nat) :
    readyTurns ch (m + 1) = readyTurns ch m ++ [.env (.txReady ch), .sequencer, .sequencer] := by
  simp [readyTurns, List.replicate_succ']

/-- The byte that stands in TXBUF after j data bytes. -/
def lastSent (reg : Byte) (s : State) (src : Half) (j : Nat) : Byte :=
  if j = 0 then reg else s.readByte (src + BitVec.ofNat 16 (j - 1))

theorem plays_data {ch : Chan} {u : State} (h : Enabled ch u) (src : Half) (j : Nat) :
    ∃ u', Plays (readyTurns ch j) (iwregData ch src j) u [] u' ∧ Sent ch (lastSent (u.cells ch).txbuf u src j) u u' := by
  induction j with
  | zero => exact ⟨u, .nil _ _, { Beside.refl ch _ u with txbuf := rfl, rings := rfl }⟩
  | succ j ih =>
    obtain ⟨u1, hbefore, w1⟩ := ih
    obtain ⟨u2, hlast, w2⟩ := plays_sendMem (h.beside w1.toBeside (by simp)) (src + BitVec.ofNat 16 j)
    rw [readyTurns_succ, iwregData_succ]
    refine ⟨u2, plays_append (plays_extend hbefore _) hlast, { (w1.toBeside.trans w2.toBeside).mono (by simp) with
      txbuf := ?_, rings := w2.rings.trans w1.rings }⟩
    rw [w2.txbuf, State.readByte_congr w1.only.dm]
    rfl

/-! ### From PREP to the register byte (R401, R409, R410) -/

/-- The channel is addressed and enabled, with the start queued; of the serial unit only the named cells, the channel's interrupt
registers and one draw have changed since s. -/
structure Addressed (ch : Chan) (addr : BitVec 10) (ten : Bool) (roles : List Role) (s u : State) : Prop where
  enabled : Enabled ch u
  i2csa : u.cellValue ch .i2csa = addr.setWidth 16
  sla10 : u.field ch .sla10 = ten
  txstt : u.field ch .txstt = true
  cells : CellsKeptBut ch roles s u
  others : ∀ c d, c ≠ ch → u.ifg c d = s.ifg c d ∧ u.ie c d = s.ie c d
  draws : u.drawCount = s.drawCount + 1
  timers : u.timers = s.timers

section
variable {ch : Chan} {addr : BitVec 10} {ten : Bool} {roles l : List Role} {s u u' : State}

theorem others_trans (h : ∀ c d, c ≠ ch → u.ifg c d = s.ifg c d ∧ u.ie c d = s.ie c d) (hb : Beside ch l u u') :
    ∀ c d, c ≠ ch → u'.ifg c d = s.ifg c d ∧ u'.ie c d = s.ie c d :=
  fun c d hc => ⟨(hb.others c d hc).1.trans (h c d hc).1, (hb.others c d hc).2.trans (h c d hc).2⟩

/-- What leaves CTL0, CTL1 and I2CSA leaves the channel addressed. -/
theorem Addressed.beside (h : Addressed ch addr ten roles s u) (hk : ch.kind = .b) (hb : Beside ch l u u')
    (hl : l ⊆ [.stat, .rxbuf, .txbuf]) : Addressed ch addr ten (roles ++ l) s u' := by
  have hkept : ∀ r ∈ [Role.ctl0, .ctl1, .i2csa], r ∉ l := fun r hr hmem => by
    have hbad := hl hmem
    revert hr hbad
    cases r <;> simp
  exact ⟨h.enabled.beside hb (hkept _ (by simp)),
    (hb.cells ch .i2csa (by rw [hk]; rfl) (.inr (hkept _ (by simp)))).trans h.i2csa,
    (hb.field (hkept _ (by simp [Field.role]))).trans h.sla10, (hb.field (hkept _ (by simp [Field.role]))).trans h.txstt,
    cellsKeptBut_append h.cells hb.cells, others_trans h.others hb, hb.draws.trans h.draws, hb.timers.trans h.timers⟩

/-- What writes a field of CTL1 other than SWRST, and TXSTT only to 1, leaves the channel addressed. -/
theorem Addressed.wrote {f : Field} {v : Bool} (h : Addressed ch addr ten roles s u) (hk : ch.kind = .b) (hw : Wrote ch f v u u')
    (hf : f.role = .ctl1) (hne : f ≠ .swrst) (hstart : f = .txstt → v = true) : Addressed ch addr ten (roles ++ [.ctl1]) s u' := by
  have hb := hw.toBeside
  rw [hf] at hb
  refine ⟨h.enabled.wrote hw hne, (hb.cells ch .i2csa (by rw [hk]; rfl) (.inr (by simp))).trans h.i2csa,
    (hb.field (by simp [Field.role])).trans h.sla10, ?_, cellsKeptBut_append h.cells hb.cells, others_trans h.others hb,
    hb.draws.trans h.draws, hb.timers.trans h.timers⟩
  by_cases hs : f = .txstt
  · subst hs
    exact hw.field.trans (hstart rfl)
  · exact (hw.fields .txstt (Ne.symm hs)).trans h.txstt

/-- The cells that a transaction may change up to its start. -/
def startRoles : List Role := [.ctl0, .ctl1, .stat, .i2csa]

/-- PREP and the start. -/
theorem plays_start (addr : BitVec 10) (ten : Bool) (hs : Runs s) (hpresent : s.chanAbsent ch = false) (hk : ch.kind = .b) :
    ∃ u, Plays (sequencerTurns 6) (prepOps ch addr ten true ++ [.fieldWrite ch .txstt true]) s [] u ∧
      Addressed ch addr ten (startRoles ++ [.ctl1]) s u ∧ u.field ch .tr = true ∧ u.rings = s.rings := by
  obtain ⟨hf, hi⟩ := legal_positions hs.legal
  obtain ⟨u1, hprep, w1⟩ := plays_prep addr ten true hk hf hi
  have enabled1 : Enabled ch u1 := enabled_of w1.params w1.held hpresent ⟨hf, hi⟩
  obtain ⟨u2, hstart, w2⟩ := plays_field enabled1 (f := .txstt) true rfl (by decide)
  refine ⟨u2, plays_append (plays_extend hprep _) hstart, ⟨enabled1.wrote w2 (by decide), ?_, ?_, w2.field,
    cellsKeptBut_append w1.cells w2.cells, others_trans w1.drawn.others w2.toBeside, w2.draws.trans w1.drawn.draws,
    w2.timers.trans w1.devices.timers⟩, (w2.fields _ (by decide)).trans w1.tr, w2.rings.trans w1.devices.rings⟩
  · exact (w2.cells ch .i2csa (by rw [hk]; rfl) (.inr (by decide))).trans w1.i2csa
  · exact (w2.fields _ (by decide)).trans w1.sla10

/-- PREP, the start and the register byte. -/
theorem plays_register (addr : BitVec 10) (ten : Bool) (reg : Byte) (hs : Runs s) (hpresent : s.chanAbsent ch = false)
    (hk : ch.kind = .b) :
    ∃ u, Plays (sequencerTurns 6 ++ readyTurns ch 1)
        (prepOps ch addr ten true ++ [.fieldWrite ch .txstt true, .poll ch .tx, .txByte ch reg]) s [] u ∧
      Addressed ch addr ten (startRoles ++ [.ctl1] ++ [.txbuf]) s u ∧ u.field ch .tr = true ∧ u.rings = s.rings ∧
      (u.cells ch).txbuf = reg := by
  obtain ⟨u1, hstart, a1, htr, hrings⟩ := plays_start addr ten hs hpresent hk
  obtain ⟨u2, hsend, w2⟩ := plays_send a1.enabled (m := .txByte ch reg) (v := reg) fun _ _ => rfl
  refine ⟨u2, ?_, a1.beside hk w2.toBeside (by simp), (w2.field (by decide)).trans htr, w2.rings.trans hrings, w2.txbuf⟩
  have hplays := plays_append (plays_extend hstart _) hsend
  rwa [List.append_assoc] at hplays

end

/-! ### IWREG (R409) -/

section
variable {ch : Chan} {reg : Byte} {s : State}

/-- IWREG's operations up to its j-th data byte. -/
def iwregUpTo (ch : Chan) (addr : BitVec 10) (ten : Bool) (reg : Byte) (src : Half) (j : Nat) : List MicroOp :=
  prepOps ch addr ten true ++ [.fieldWrite ch .txstt true, .poll ch .tx, .txByte ch reg] ++ iwregData ch src j

theorem iwregOps_onDevices (ch : Chan) (addr : BitVec 10) (ten : Bool) (reg : Byte) (src : Half) (n : Nat) :
    (iwregOps ch addr ten reg src n).all onDevices = true := by
  simp [iwregOps, prepOps, iwregData, List.all_flatMap, onDevices]

theorem readySchedule_succ (ch : Chan) (m : Nat) :
    readySchedule ch (m + 1) = readySchedule ch m ++ [.env (.txReady ch), .sequencer, .sequencer] :=
  (congrArg (sequencerTurns 5 ++ ·) (readyTurns_succ ch m)).trans (List.append_assoc ..).symm

theorem readySchedule_turns (ch : Chan) (m : Nat) :
    Turn.sequencer :: readySchedule ch (m + 1) = sequencerTurns 6 ++ readyTurns ch 1 ++ readyTurns ch m := by
  simp [readySchedule, readyTurns, sequencerTurns, List.replicate_succ]

theorem plays_iwregUpTo (addr : BitVec 10) (ten : Bool) (reg : Byte) (src : Half) (hs : Runs s) (hpresent : s.chanAbsent ch = false)
    (hk : ch.kind = .b) (j : Nat) :
    ∃ u, Plays (.sequencer :: readySchedule ch (j + 1)) (iwregUpTo ch addr ten reg src j) s [] u ∧
      Addressed ch addr ten (startRoles ++ [.ctl1] ++ [.txbuf] ++ [.txbuf]) s u ∧ u.field ch .tr = true ∧ u.rings = s.rings ∧
      (u.cells ch).txbuf = lastSent reg s src j := by
  obtain ⟨u1, hreg, a1, htr, hrings, hbyte⟩ := plays_register addr ten reg hs hpresent hk
  have hdm : u1.dm = s.dm := (plays_devices hreg rfl).dm
  obtain ⟨u2, hdata, w2⟩ := plays_data a1.enabled src j
  rw [readySchedule_turns]
  refine ⟨u2, plays_append (plays_extend hreg _) hdata, a1.beside hk w2.toBeside (by simp), (w2.field (by decide)).trans htr,
    w2.rings.trans hrings, ?_⟩
  rw [w2.txbuf, hbyte, lastSent, lastSent, State.readByte_congr hdm]

end

/-- Settles O40: up to each byte the play is that of the list's beginning; after the last byte the stop is queued. -/
theorem registerWriteSendsBytesInOrder : Obligations.RegisterWriteSendsBytesInOrder := by
  intro ch reg s hs hpresent hk n src
  have hexec : ∀ A, exec (.iwreg ch reg) { s with agenda := A } = issue (.iwreg ch reg) (i2cChecks ch s)
      (iwregOps ch s.i2cAddr s.i2cTen reg src n) { s with agenda := A } := fun _ => rfl
  have hall := iwregOps_onDevices ch s.i2cAddr s.i2cTen reg src n
  have hops : iwregOps ch s.i2cAddr s.i2cTen reg src n =
      iwregUpTo ch s.i2cAddr s.i2cTen reg src n ++ [.poll ch .tx, .fieldWrite ch .txstp true] := rfl
  refine ⟨fun j hj => ?_, ?_⟩
  · obtain ⟨u, hplays, -, -, -, hbyte⟩ := plays_iwregUpTo s.i2cAddr s.i2cTen reg src hs hpresent hk j
    obtain ⟨rest, hrest⟩ := iwregData_split ch src hj
    have hsplit : iwregOps ch s.i2cAddr s.i2cTen reg src n =
        iwregUpTo ch s.i2cAddr s.i2cTen reg src j ++ (rest ++ [.poll ch .tx, .fieldWrite ch .txstp true]) := by
      rw [hops, iwregUpTo, hrest, iwregUpTo]
      simp only [List.append_assoc]
    have hpart := plays_extend hplays (rest ++ [.poll ch .tx, .fieldWrite ch .txstp true])
    rw [← hsplit] at hpart
    obtain ⟨t, hfin, hsame⟩ := finishes_underway hs hexec (i2c_pass hpresent hk) hall hpart
    exact ⟨t, hfin, by rw [hsame.cells, hbyte, lastSent]⟩
  · obtain ⟨u1, hplays, a1, htr, hrings, hbyte⟩ := plays_iwregUpTo s.i2cAddr s.i2cTen reg src hs hpresent hk n
    obtain ⟨u2, hstop, w2⟩ := plays_ready_field a1.enabled (f := .txstp) true rfl (by decide)
    have a2 := a1.wrote hk w2 rfl (by decide) (fun h => nomatch h)
    have hwhole := plays_append (plays_extend hplays _) hstop
    have hturns : Turn.sequencer :: readySchedule ch (n + 1) ++ [.env (.txReady ch), .sequencer, .sequencer] =
        .sequencer :: readySchedule ch (n + 2) := by
      rw [readySchedule_succ ch (n + 1), List.cons_append]
    rw [← hops, hturns] at hwhole
    obtain ⟨t, hfin, hretired, hcore, hres, hsame⟩ := finishes_over hs hexec (i2c_pass hpresent hk) hall hwhole
    refine ⟨t, hfin, hretired, hcore.flags.toTurnsKept, (hsame.field ..).trans a2.txstt, (hsame.field ..).trans w2.field,
      (hsame.field ..).trans ((w2.fields _ (by decide)).trans htr), (hsame.held ch).trans a2.enabled.held,
      (hsame.cellValue ..).trans a2.i2csa, (hsame.field ..).trans a2.sla10, ?_,
      hsame.cellsKept (cellsKeptBut_mono (by simp [startRoles]) a2.cells),
      fun c d hc => ⟨(hsame.ifg c d).trans (a2.others c d hc).1, (hsame.ie c d).trans (a2.others c d hc).2⟩,
      hsame.draws.trans a2.draws, hcore.flags.gie, hcore.flags.toProcKept, hcore.args, hres, hcore.guard, hcore.mem,
      ⟨hsame.timers.trans a2.timers, hsame.rings.trans (w2.rings.trans hrings)⟩⟩
    rw [hsame.cells, w2.txbuf (by decide), hbyte, lastSent]

end Sys2Proof.Transactions
end

section
/-! SUPPORT. PROOFS. IRREG run to its end against a device that answers a byte for each it asks for (R332, R410, R412, R511). -/

open Sys2Proof.Machine Sys2Proof.Frames Sys2Proof.Sequencing Sys2Proof.SerialFrames Sys2Proof.DeviceView Sys2Proof.SerialCommands
open Sys2Proof.Playing Sys2Proof.Sequences Sys2Proof.Transfers Sys2Proof.Transactions

namespace Sys2Proof.Answers

/-! ### The buffer as the shared-access check leaves it (R504, R511) -/

/-- A buffer that has been checked passes the check again, whatever has been inserted since. -/
theorem share_insert {r r1 : Ring} {c : Ctx} {g : Bool} (h : r.share c g = some r1) (v : Byte) :
    (r1.insert v).share c g = some (r1.insert v) := by
  cases c with
  | isr =>
    cases hm : r.mainUnguarded <;> simp [Ring.share, hm] at h
    subst h
    simp [Ring.share, Ring.insert]
  | main =>
    cases g with
    | false => rfl
    | true =>
      cases hs : r.isrSeen <;> simp [Ring.share, hs] at h
      subst h
      simp [Ring.share, Ring.insert]

theorem insertedAll_iff {r r2 : Ring} {l : List Byte} : InsertedAll r l r2 ↔ r2 = l.foldl Ring.insert r := by
  induction l generalizing r with
  | nil => rfl
  | cons v l ih =>
    simp only [InsertedAll, RingUnit.inserted_iff, ih, List.foldl_cons]
    exact ⟨fun ⟨_, h1, h2⟩ => h1 ▸ h2, fun h => ⟨_, rfl, h⟩⟩

/-! ### One byte of the device, and its push (R323, R332) -/

/-- A byte has come and gone into ring buffer b, which was y when checked. -/
structure Pushed (ch : Chan) (b : Nat) (y : Ring) (v : Byte) (u u' : State) : Prop extends Beside ch [.stat, .rxbuf] u u' where
  rings : u'.rings = u.rings.set b (y.insert v)
  rxbuf : (u'.cells ch).rxbuf = v
  flag : u'.ifg ch .rx = false

section
variable {ch : Chan} {b : Nat} {x y : Ring} {u : State}

theorem receiveByte_rings (u : State) (ch : Chan) (v : Byte) : (u.receiveByte ch v).rings = u.rings := by
  unfold State.receiveByte
  split <;> rfl

theorem receiveByte_drawCount (u : State) (ch : Chan) (v : Byte) : (u.receiveByte ch v).drawCount = u.drawCount := by
  unfold State.receiveByte
  split <;> rfl

theorem receiveByte_beside (ch : Chan) (u : State) (v : Byte) (hi : u.params.irqBits.legal = true) :
    Beside ch [.stat, .rxbuf] u (u.receiveByte ch v) where
  only := receiveByte_devices u ch v
  cells := ConfigCells.receiveByte_cellsKept u ch v
  others c d hc := ⟨Environment.receiveByte_ifgKept u ch hi v c d (by simp [hc]), Environment.receiveByte_ie u ch v c d⟩
  draws := receiveByte_drawCount u ch v
  timers := Environment.receiveByte_timers u ch v

theorem plays_push (h : Enabled ch u) (hx : u.rings[b]? = some x) (hy : x.share u.ctx u.gie = some y) (v : Byte) :
    ∃ u', Plays [.env (.rxByte ch v), .sequencer, .sequencer] [.poll ch .rx, .rxPush ch b] u [] u' ∧ Pushed ch b y v u u' := by
  obtain ⟨-, hi⟩ := h.positions
  have henv := Environment.envStep_rxByte u ch v h.live
  obtain ⟨u1, hu1⟩ : ∃ u1, u1 = u.receiveByte ch v := ⟨_, rfl⟩
  have hbeside : Beside ch [.stat, .rxbuf] u u1 := hu1 ▸ receiveByte_beside ch u v hi
  have hrings : u1.rings = u.rings := hu1 ▸ receiveByte_rings u ch v
  have hbyte : (u1.cells ch).rxbuf = v := hu1 ▸ Environment.receiveByte_rxbuf u ch v
  have hready : u1.ifg ch .rx = true := hu1 ▸ Environment.receiveByte_flag u ch hi v
  have hi1 : u1.params.irqBits.legal = true := hbeside.only.params ▸ hi
  have hpush := run_rxPush (ch := ch) (b := b) (u := u1) (hrings ▸ hx) (by rw [hbeside.only.flags.ctx, hbeside.only.flags.gie, hy])
  rw [hbyte] at hpush
  have taken := push_taken u1 ch b (y.insert v) hi1
  have hafter : Beside ch [] u1 ((u1.setRing b (y.insert v)).setIfg ch .rx false) :=
    ⟨run_devices rfl hpush, taken.cells, fun c d hc => ⟨taken.ifg c d (by simp [hc]), rfl⟩, rfl, rfl⟩
  refine ⟨_, .env _ (.op (microPoll_ready ?_) (.op (u1 := (u1.setRing b (y.insert v)).setIfg ch .rx false) ?_ (.nil _ _))),
    { (hbeside.trans hafter).mono (by simp) with rings := ?_, rxbuf := hbyte, flag := taken.flag }⟩
  · rw [henv, ← hu1, hready]
  · rw [henv, ← hu1, hpush]
  · exact congrArg (fun l => l.set b (y.insert v)) hrings

end

/-! ### All the bytes but the last (R410) -/

/-- The turns that bring the bytes of l. -/
def answerTurns (ch : Chan) (l : List Byte) : List Turn := l.flatMap (fun v => [Turn.env (.rxByte ch v), .sequencer, .sequencer])

/-- The polls and pushes of n bytes. -/
def pushes (ch : Chan) (b n : Nat) : List MicroOp := (List.replicate n [MicroOp.poll ch .rx, .rxPush ch b]).flatten

/-- The buffer after the bytes of l: as it was, or with all of them inserted once it is checked. -/
def bufferAfter (x y : Ring) (l : List Byte) : Ring := if l = [] then x else l.foldl Ring.insert y

/-- From a buffer that is checked already, the bytes are inserted in any case. -/
theorem bufferAfter_checked (y : Ring) (l : List Byte) : bufferAfter y y l = l.foldl Ring.insert y := by
  cases l <;> rfl

theorem bufferAfter_cons (x y : Ring) (v : Byte) (l : List Byte) : bufferAfter x y (v :: l) = l.foldl Ring.insert (y.insert v) :=
  if_neg (List.cons_ne_nil v l)

/-- The bytes of l have come and gone into ring buffer b, which was x, and y when checked. -/
structure PushedAll (ch : Chan) (b : Nat) (x y : Ring) (l : List Byte) (u u' : State) : Prop
    extends Beside ch [.stat, .rxbuf] u u' where
  ring : u'.rings[b]? = some (bufferAfter x y l)
  checked : (bufferAfter x y l).share u'.ctx u'.gie = some (l.foldl Ring.insert y)
  otherRings : ∀ n, n ≠ b → u'.rings[n]? = u.rings[n]?

theorem getElem?_set_of_some {α : Type} {l : List α} {b : Nat} {x y : α} (h : l[b]? = some x) : (l.set b y)[b]? = some y := by
  obtain ⟨hlt, -⟩ := List.getElem?_eq_some_iff.mp h
  simp [hlt]

theorem plays_answers {ch : Chan} {b : Nat} (l : List Byte) {x y : Ring} {u : State} (h : Enabled ch u) (hx : u.rings[b]? = some x)
    (hy : x.share u.ctx u.gie = some y) :
    ∃ u', Plays (answerTurns ch l) (pushes ch b l.length) u [] u' ∧ PushedAll ch b x y l u u' := by
  induction l generalizing x y u with
  | nil => exact ⟨u, .nil _ _, { Beside.refl ch _ u with ring := hx, checked := hy, otherRings := fun _ _ => rfl }⟩
  | cons v l ih =>
    obtain ⟨u1, hfirst, w1⟩ := plays_push h hx hy v
    have hx1 : u1.rings[b]? = some (y.insert v) := by rw [w1.rings, getElem?_set_of_some hx]
    have hy1 : (y.insert v).share u1.ctx u1.gie = some (y.insert v) := by
      rw [w1.only.flags.ctx, w1.only.flags.gie]
      exact share_insert hy v
    obtain ⟨u2, hrest, w2⟩ := ih (h.beside w1.toBeside (by simp)) hx1 hy1
    refine ⟨u2, plays_append (plays_extend hfirst _) hrest, { (w1.toBeside.trans w2.toBeside).mono (by simp) with
      ring := ?_, checked := ?_, otherRings := fun n hn => ?_ }⟩
    · rw [w2.ring, bufferAfter_checked, bufferAfter_cons]
    · rw [bufferAfter_cons, ← bufferAfter_checked, w2.checked]
      rfl
    · rw [w2.otherRings n hn, w1.rings, List.getElem?_set_ne (Ne.symm hn)]

/-! ### IRREG (R410) -/

/-- IRREG's operations up to its repeated start. -/
def irregUpTo (ch : Chan) (addr : BitVec 10) (ten : Bool) (reg : Byte) : List MicroOp :=
  prepOps ch addr ten true ++ [.fieldWrite ch .txstt true, .poll ch .tx, .txByte ch reg] ++
    ([.poll ch .tx, .fieldWrite ch .tr false] ++ [.fieldWrite ch .txstt true])

theorem irregOps_split (ch : Chan) (addr : BitVec 10) (ten : Bool) (reg : Byte) (b n : Nat) :
    irregOps ch addr ten reg b (n + 1) = irregUpTo ch addr ten reg ++ pushes ch b n ++ [.fieldWrite ch .txstp true] ++
      [.poll ch .rx, .rxPush ch b] := by
  rw [irregOps, irregReceive_eq, irregUpTo, pushes]
  simp only [List.append_assoc]
  rfl

theorem irregOps_onDevices (ch : Chan) (addr : BitVec 10) (ten : Bool) (reg : Byte) (b n : Nat) :
    (irregOps ch addr ten reg b (n + 1)).all onDevices = true := by
  rw [irregOps_split, irregUpTo, pushes]
  simp [prepOps, onDevices, List.all_flatten]

theorem answersBeforeLast_turns (ch : Chan) (front : List Byte) :
    Turn.sequencer :: answersBeforeLast ch front = sequencerTurns 6 ++ readyTurns ch 1 ++
      ([.env (.txReady ch), .sequencer, .sequencer] ++ [.sequencer]) ++ answerTurns ch front ++ [.sequencer] := by
  simp [answersBeforeLast, readyTurns, sequencerTurns, answerTurns, List.replicate_succ]

/-- The channel with the register byte sent, the direction receive and both start and stop queued, and the bytes of front in the ring
buffer b, which was r at s, and r1 when checked. -/
structure BeforeLast (ch : Chan) (addr : BitVec 10) (ten : Bool) (reg : Byte) (b : Nat) (r r1 : Ring) (front : List Byte)
    (s u : State) : Prop where
  addressed : Addressed ch addr ten (startRoles ++ [.ctl1, .txbuf, .ctl1, .ctl1, .stat, .rxbuf, .ctl1]) s u
  tr : u.field ch .tr = false
  txstp : u.field ch .txstp = true
  txbuf : (u.cells ch).txbuf = reg
  ring : u.rings[b]? = some (bufferAfter r r1 front)
  checked : (bufferAfter r r1 front).share u.ctx u.gie = some (front.foldl Ring.insert r1)
  others : ∀ n, n ≠ b → u.rings[n]? = s.rings[n]?

section
variable {ch : Chan} {s : State}

theorem plays_beforeLast (addr : BitVec 10) (ten : Bool) (reg : Byte) (b : Nat) (front : List Byte) {r r1 : Ring} (hs : Runs s)
    (hpresent : s.chanAbsent ch = false) (hk : ch.kind = .b) (hr : s.rings[b]? = some r) (hshares : Shares s r r1) :
    ∃ u, Plays (.sequencer :: answersBeforeLast ch front)
        (irregUpTo ch addr ten reg ++ pushes ch b front.length ++ [.fieldWrite ch .txstp true]) s [] u ∧
      BeforeLast ch addr ten reg b r r1 front s u := by
  obtain ⟨u1, hreg, a1, -, hrings1, hbyte⟩ := plays_register addr ten reg hs hpresent hk
  obtain ⟨u2, hdir, w2⟩ := plays_ready_field a1.enabled (f := .tr) false rfl (by decide)
  have a2 := a1.wrote hk w2 rfl (by decide) (fun h => nomatch h)
  obtain ⟨u3, hstart, w3⟩ := plays_field a2.enabled (f := .txstt) true rfl (by decide)
  have a3 := a2.wrote hk w3 rfl (by decide) (fun _ => rfl)
  have honly : DevicesOnly s u3 := (plays_devices hreg rfl).trans (w2.only.trans w3.only)
  have hx : u3.rings[b]? = some r := by rw [w3.rings, w2.rings, hrings1, hr]
  have hy : r.share u3.ctx u3.gie = some r1 := by
    rw [honly.flags.ctx, honly.flags.gie]
    exact share_of_shares hshares
  obtain ⟨u4, hfront, w4⟩ := plays_answers front a3.enabled hx hy
  have a4 := a3.beside hk w4.toBeside (by simp)
  obtain ⟨u5, hstop, w5⟩ := plays_field a4.enabled (f := .txstp) true rfl (by decide)
  have a5 := a4.wrote hk w5 rfl (by decide) (fun h => nomatch h)
  rw [answersBeforeLast_turns, irregUpTo]
  refine ⟨u5, plays_append (plays_extend (plays_append (plays_extend (plays_append (plays_extend hreg _)
    (plays_append (plays_extend hdir _) hstart)) _) hfront) _) hstop,
    ⟨{ a5 with cells := cellsKeptBut_mono (by simp) a5.cells }, ?_, w5.field, ?_, ?_, ?_, fun n hn => ?_⟩⟩
  · exact (w5.fields _ (by decide)).trans ((w4.field (by decide)).trans ((w3.fields _ (by decide)).trans w2.field))
  · rw [w5.txbuf (by decide), w4.txbuf (by decide), w3.txbuf (by decide), w2.txbuf (by decide), hbyte]
  · rw [w5.rings, w4.ring]
  · rw [w5.only.flags.ctx, w5.only.flags.gie, w4.checked]
  · rw [w5.rings, w4.otherRings n hn, w3.rings, w2.rings, hrings1]

end

/-- Settles O41: the play up to the stop, and the last byte after it. -/
theorem registerReadPushesBytesInOrder : Obligations.RegisterReadPushesBytesInOrder := by
  intro ch reg front last r r1 s hs hpresent hk hcount hr hshares
  have hn : s.i2cCount = front.length + 1 := hcount
  have hexec : ∀ A, exec (.irreg ch reg) { s with agenda := A } = issue (.irreg ch reg)
      (i2cChecks ch s ++ [(s.i2cCount == 0, .i2cCountZero)])
      (irregOps ch s.i2cAddr s.i2cTen reg (s.i2cRb ch) s.i2cCount) { s with agenda := A } := fun _ => rfl
  have pass := irreg_pass hpresent hk (by omega)
  have hall := irregOps_onDevices ch s.i2cAddr s.i2cTen reg (s.i2cRb ch) front.length
  rw [hn] at hexec
  rw [hn] at pass
  obtain ⟨u1, hbefore, w1⟩ := plays_beforeLast s.i2cAddr s.i2cTen reg (s.i2cRb ch) front hs hpresent hk hr hshares
  have hops := irregOps_split ch s.i2cAddr s.i2cTen reg (s.i2cRb ch) front.length
  have hpart := plays_extend hbefore [.poll ch .rx, .rxPush ch (s.i2cRb ch)]
  rw [← hops] at hpart
  refine ⟨?before, ?whole⟩
  case before =>
    obtain ⟨t, hfin, hsame⟩ := finishes_underway hs hexec pass hall hpart
    refine ⟨t, _, hfin, by rw [hsame.cells, w1.txbuf], (hsame.field ..).trans w1.addressed.txstt, (hsame.field ..).trans w1.txstp,
      (hsame.field ..).trans w1.tr, insertedAll_iff.mpr rfl, ?_⟩
    rw [hsame.rings, w1.ring]
    cases front <;> rfl
  case whole =>
    obtain ⟨u2, hlast, w2⟩ := plays_push w1.addressed.enabled w1.ring w1.checked last
    have a2 := w1.addressed.beside hk w2.toBeside (by simp)
    have hplays := plays_append hpart hlast
    obtain ⟨t, hfin, hretired, hcore, hres, hsame⟩ := finishes_over hs hexec pass hall hplays
    have hfields : ∀ f : Field, f.role = .ctl1 → t.field ch f = u1.field ch f := fun f hf =>
      (hsame.field ch f).trans (w2.field (by simp [hf]))
    refine ⟨t, _, hfin, hretired, hcore.flags.toTurnsKept, insertedAll_iff.mpr rfl, ?ring, fun n hne => ?others, ?txbuf,
      by rw [hsame.cells, w2.rxbuf], (hsame.ifg ..).trans w2.flag, (hfields .tr rfl).trans w1.tr,
      (hfields .txstt rfl).trans w1.addressed.txstt, (hfields .txstp rfl).trans w1.txstp,
      (hsame.held ch).trans a2.enabled.held, (hsame.cellValue ..).trans a2.i2csa, (hsame.field ..).trans a2.sla10,
      hsame.cellsKept (cellsKeptBut_mono (by simp [startRoles]) a2.cells),
      fun c d hc => ⟨(hsame.ifg c d).trans (a2.others c d hc).1, (hsame.ie c d).trans (a2.others c d hc).2⟩,
      hsame.draws.trans a2.draws, hcore.flags.gie, hcore.flags.toProcKept, hcore.args, hres, hcore.guard, hcore.mem,
      hsame.timers.trans a2.timers⟩
    case ring =>
      rw [hsame.rings, w2.rings, getElem?_set_of_some w1.ring, List.foldl_append]
      rfl
    case others => rw [hsame.rings, w2.rings, List.getElem?_set_ne (Ne.symm hne), w1.others n hne]
    case txbuf => rw [hsame.cells, w2.txbuf (by decide), w1.txbuf]

end Sys2Proof.Answers
end
